-- ==== Sys2Proof/Word.lean ====
section
/-! DEFINITION. The word types of the Gulsiril 1640 (spec/00, R5, R6; spec/02, R29). -/
namespace Sys2Proof

/-- One byte of memory (R306). -/
abbrev Byte := BitVec 8
/-- One register slot, and one instruction word (R29, R125). -/
abbrev Word := BitVec 32
/-- One g register, and one island state register (R21, R132). -/
abbrev DWord := BitVec 64
/-- A sparse table: key and value, keys strictly rising (the canonical form of every table of State). -/
abbrev SMap (β : Type) := List (Nat × β)

end Sys2Proof
end

