-- ==== Sys2Proof/Syntax.lean ====
section
/-! DEFINITION. The steps of the part: the 169 instruction words of Table 2.4 and the 86 device steps of spec/95 that
have no word, one constructor per row of spec/opcode_table.json. A word's constructor carries the fields of its row;
a device step's constructor names what it acts on (log entry 12, DESIGN CHOICE). -/
namespace Sys2Proof

/-- Whose translation is being walked, serviced or replayed: a split, or a launch processor's launch (R276, R362). -/
inductive Who where
  | split (sid : Nat)
  | launch (lid : Nat)
  deriving DecidableEq, Repr

/-- What a packet of the fabric carries (R286, R294, R297, R298, R301). -/
inductive PktKind where
  | put | get | atom | add
  | putAck | getData | atomReply | addAck
  | fail (sub : Nat)
  /-- The data asked for lie on a poisoned line, named by its physical address (R266). -/
  | poison (pa : Nat)
  /-- A credit audit of the opposite direction of the link it travels, with the FREED values of the channels (R288). -/
  | audit (freed : List (BitVec 32))
  deriving DecidableEq, Repr

/-- One packet (R283, R286). `addr` is the remote physical address; `aux` holds the operands of an atomic
(operation, signedness, width and, per lane, address and values). -/
structure Pkt where
  op : Nat
  part : Nat
  parts : Nat
  kind : PktKind
  srcPanel : Nat
  src : Nat
  dstPanel : Nat
  dst : Nat
  hops : List Nat
  addr : Nat
  len : Nat
  data : List (BitVec 8)
  aop : BitVec 3
  sgn : Bool
  wide : Bool
  lanes : List (Nat × Nat × Nat × Nat)
  fenced : Bool
  notify : Option Nat
  pid : BitVec 32
  poisoned : Bool
  deriving DecidableEq, Repr

/-- A packet of this panel's fabric by its number, or one that another panel sent (R303). -/
inductive PktRef where
  | here (pk : Nat)
  | ext (site : Nat) (p : Pkt)
  deriving DecidableEq, Repr

/-- Event ring descriptor (Table 17.9). -/
structure EvRing where
  base : BitVec 64
  cnt : BitVec 64
  key : BitVec 32
  conn : BitVec 10
  log : BitVec 5
  deriving DecidableEq, Repr

/-- What CTX.NEW creates a context with (Table 17.2). -/
structure CtxArgs where
  pid : BitVec 32
  window : BitVec 64
  modeWord : BitVec 32
  ring : EvRing
  deriving DecidableEq, Repr

/-- A fill range (R278): virtual range, page level of its leaves, leaf permissions, and the host buffer of a copy range. -/
structure FillRange where
  first : Nat
  bytes : Nat
  level : Nat
  perm : BitVec 3
  copy : Option (BitVec 64 × BitVec 32 × BitVec 10)
  deriving DecidableEq, Repr

/-- The fields a Q.STATE command writes (Table 16.1); ERR is written 1 to clear. -/
structure QArgs where
  en : Bool
  clearErr : Bool
  has : Bool
  pri : BitVec 2
  grp : BitVec 8
  asid : BitVec 8
  rel : BitVec 11
  rbase : BitVec 64
  rcnt : BitVec 64
  rkey : BitVec 32
  conn : BitVec 10
  rlog : BitVec 5
  deriving DecidableEq, Repr

/-- A register of a halted context that the debugger reads or writes (R337): slots, g registers with the handler bank at 64 and
65, predicates, PREC, TPREC, NEST and LID of a lane; h registers by 64-bit halves, CPC, WINDOW and CYCLEH of a slice, and what it
reads of the read-only state registers by index (Table 2.14); MODE, PC and the handler registers by index (Table 15.3) of a split; TVEC; an element of a tile of a team; a token count; and 8 bytes of the
record that the cause of a stopped split left (Table 15.2). -/
inductive DbgReg where
  | x (slice lane slot : Nat)
  | g (slice idx : Nat)
  | p (slice lane idx : Nat)
  | prec (slice lane : Nat)
  | mode (sid : Nat)
  | pc (sid : Nat)
  | count (slice tok : Nat)
  | tprec (slice lane : Nat)
  | nest (slice lane : Nat)
  | lid (slice lane : Nat)
  | cycleh (slice : Nat)
  | state (slice idx : Nat)
  | h (slice idx : Nat) (hi : Bool)
  | cpc (slice : Nat)
  | window (slice : Nat)
  | trap (sid idx : Nat)
  | tvec
  | tile (team name row col : Nat)
  | record (sid n : Nat)
  deriving DecidableEq, Repr

/-- The signed image in host memory that FW.UPDATE names (R375): connection, address, remote key, bytes. -/
structure FwArgs where
  conn : Nat
  addr : BitVec 64
  key : BitVec 32
  len : Nat
  deriving DecidableEq, Repr

/-- What DBG.SET does (Table 17.2, R336, R337). -/
inductive DbgOp where
  | setDbg (v : BitVec 32)
  | read (r : DbgReg) (hi : Bool)
  | write (r : DbgReg) (v : BitVec 64)
  deriving DecidableEq, Repr

/-- How the debugger resumes a halted context (R337). -/
inductive ResumeMode where
  | again | next
  deriving DecidableEq, Repr

/-- Where an uncorrectable soft error strikes: a line of HBM4E, the L2 or a vault, a byte of a core's SRAM, or an element of a
core's tiles by its key (R242, R266). -/
inductive ErrPlace where
  | line (n : Nat)
  | sram (ck a : Nat)
  | tile (ck key : Nat)
  deriving DecidableEq, Repr

/-- One step of the part. -/
inductive Instr where
  /-- ADD (R141). -/
  | add (d : BitVec 8) (a : BitVec 8) (b : BitVec 8) (e : Bool)
  /-- SUB (R141). -/
  | sub (d : BitVec 8) (a : BitVec 8) (b : BitVec 8) (e : Bool)
  /-- MUL (R142). -/
  | mul (d : BitVec 8) (a : BitVec 8) (b : BitVec 8) (e : Bool)
  /-- MULH (R142). -/
  | mulh (d : BitVec 8) (a : BitVec 8) (b : BitVec 8) (e : Bool)
  /-- MAD (R142). -/
  | mad (d : BitVec 8) (a : BitVec 8) (b : BitVec 8) (e : Bool)
  /-- MIN (R141). -/
  | min (d : BitVec 8) (a : BitVec 8) (b : BitVec 8) (e : Bool)
  /-- MAX (R141). -/
  | max (d : BitVec 8) (a : BitVec 8) (b : BitVec 8) (e : Bool)
  /-- AND (R141). -/
  | and (d : BitVec 8) (a : BitVec 8) (b : BitVec 8) (e : Bool)
  /-- OR (R141). -/
  | or (d : BitVec 8) (a : BitVec 8) (b : BitVec 8) (e : Bool)
  /-- XOR (R141). -/
  | xor (d : BitVec 8) (a : BitVec 8) (b : BitVec 8) (e : Bool)
  /-- ANDN (R141). -/
  | andn (d : BitVec 8) (a : BitVec 8) (b : BitVec 8) (e : Bool)
  /-- SHL (R141). -/
  | shl (d : BitVec 8) (a : BitVec 8) (b : BitVec 8) (e : Bool)
  /-- SHR (R141). -/
  | shr (d : BitVec 8) (a : BitVec 8) (b : BitVec 8) (e : Bool)
  /-- ROT (R141). -/
  | rot (d : BitVec 8) (a : BitVec 8) (b : BitVec 8) (e : Bool)
  /-- ABSD (R141). -/
  | absd (d : BitVec 8) (a : BitVec 8) (b : BitVec 8) (e : Bool)
  /-- DIV (R143). -/
  | div (d : BitVec 8) (a : BitVec 8) (b : BitVec 8) (e : Bool)
  /-- REM (R143). -/
  | rem (d : BitVec 8) (a : BitVec 8) (b : BitVec 8) (e : Bool)
  /-- PRMB (R149). -/
  | prmb (d : BitVec 8) (a : BitVec 8) (b : BitVec 8)
  /-- BFX (R148). -/
  | bfx (d : BitVec 8) (a : BitVec 8) (b : BitVec 8) (e : Bool)
  /-- BFI (R148). -/
  | bfi (d : BitVec 8) (a : BitVec 8) (b : BitVec 8) (e : Bool)
  /-- SEL (R150). -/
  | sel (d : BitVec 8) (a : BitVec 8) (b : BitVec 8)
  /-- CLZ (R151). -/
  | clz (d : BitVec 8) (a : BitVec 8) (g : Bool)
  /-- CTZ (R151). -/
  | ctz (d : BitVec 8) (a : BitVec 8) (g : Bool)
  /-- POPC (R151). -/
  | popc (d : BitVec 8) (a : BitVec 8) (g : Bool)
  /-- BREV (R151). -/
  | brev (d : BitVec 8) (a : BitVec 8) (g : Bool)
  /-- NOT (R151). -/
  | not (d : BitVec 8) (a : BitVec 8) (g : Bool)
  /-- NEG (R151). -/
  | neg (d : BitVec 8) (a : BitVec 8) (g : Bool)
  /-- ABS (R151). -/
  | abs (d : BitVec 8) (a : BitVec 8) (g : Bool)
  /-- SEX8 (R151). -/
  | sex8 (d : BitVec 8) (a : BitVec 8) (g : Bool)
  /-- SEX16 (R151). -/
  | sex16 (d : BitVec 8) (a : BitVec 8) (g : Bool)
  /-- MOVG (R37). -/
  | movg (d : BitVec 8) (a : BitVec 8) (p : Bool)
  /-- MOVL (R37). -/
  | movl (d : BitVec 8) (a : BitVec 8) (p : Bool) (l : BitVec 2)
  /-- ADDI (R145). -/
  | addi (d : BitVec 8) (a : BitVec 8) (i : BitVec 9)
  /-- ANDI (R145). -/
  | andi (d : BitVec 8) (a : BitVec 8) (i : BitVec 9)
  /-- ORI (R145). -/
  | ori (d : BitVec 8) (a : BitVec 8) (i : BitVec 9)
  /-- XORI (R145). -/
  | xori (d : BitVec 8) (a : BitVec 8) (i : BitVec 9)
  /-- SHLI (R145). -/
  | shli (d : BitVec 8) (a : BitVec 8) (i : BitVec 5)
  /-- SHRI (R145). -/
  | shri (d : BitVec 8) (a : BitVec 8) (i : BitVec 5)
  /-- ROTI (R145). -/
  | roti (d : BitVec 8) (a : BitVec 8) (i : BitVec 5)
  /-- MULI (R145). -/
  | muli (d : BitVec 8) (a : BitVec 8) (i : BitVec 9)
  /-- GADDI (R146). -/
  | gaddi (d : BitVec 8) (a : BitVec 8) (i : BitVec 9)
  /-- LDH (R147). -/
  | ldh (d : BitVec 8) (i : BitVec 17)
  /-- LDL (R147). -/
  | ldl (d : BitVec 8) (i : BitVec 15)
  /-- LDHG (R147). -/
  | ldhg (d : BitVec 8) (i : BitVec 17)
  /-- LDLG (R147). -/
  | ldlg (d : BitVec 8) (i : BitVec 17)
  /-- ICMP (R152). -/
  | icmp (p : BitVec 6) (a : BitVec 8) (b : BitVec 8) (c : BitVec 3)
  /-- ICMPI (R152). -/
  | icmpi (p : BitVec 6) (a : BitVec 8) (i : BitVec 8) (c : BitVec 3)
  /-- PLOG (R153). -/
  | plog (d : BitVec 6) (a : BitVec 6) (b : BitVec 6) (t : BitVec 4)
  /-- PMOV_P2X (R154). -/
  | pmovP2x (d : BitVec 8)
  /-- PMOV_X2P (R154). -/
  | pmovX2p (a : BitVec 8)
  /-- PMOV_MOV (R154). -/
  | pmovMov (d : BitVec 8) (a : BitVec 8)
  /-- PMOV_NOT (R154). -/
  | pmovNot (d : BitVec 8) (a : BitVec 8)
  /-- PMOV_SET (R154). -/
  | pmovSet (d : BitVec 8) (v : Bool)
  /-- PMOV_LSB (R154). -/
  | pmovLsb (d : BitVec 8) (a : BitVec 8)
  /-- SETM (R136). -/
  | setm (a : BitVec 8)
  /-- SETM_FIELD (R136). -/
  | setmField (i : BitVec 8) (f : BitVec 4)
  /-- GETM (R137). -/
  | getm (d : BitVec 8)
  /-- PRSET (R166). -/
  | prset (a : BitVec 8)
  /-- PRSET_FIELD (R166). -/
  | prsetField (i : BitVec 8) (f : BitVec 4)
  /-- PRGET (R167). -/
  | prget (d : BitVec 8)
  /-- MFS (R138). -/
  | mfs (d : BitVec 8) (g : Bool) (i : BitVec 8)
  /-- MTS (R138). -/
  | mts (a : BitVec 8) (g : Bool) (i : BitVec 8)
  /-- DLY (R108). -/
  | dly (n : BitVec 16)
  /-- VPAH (R172). -/
  | vpah (d : BitVec 8) (a : BitVec 8) (t : BitVec 4)
  /-- BR (R78). -/
  | br (o : BitVec 25)
  /-- CALL (R129). -/
  | call (k : BitVec 5) (o : BitVec 20)
  /-- CALLR (R130). -/
  | callr (a : BitVec 8) (k : BitVec 5)
  /-- RET (R131). -/
  | ret
  /-- BRF (R80). -/
  | brf (p : BitVec 6) (n : Bool) (o : BitVec 18)
  /-- BRE (R81). -/
  | bre (o : BitVec 25)
  /-- JOIN (R82). -/
  | join
  /-- BRB (R84). -/
  | brb (p : BitVec 6) (n : Bool) (o : BitVec 18)
  /-- BRG (R79). -/
  | brg (g : BitVec 8) (s : Bool) (o : BitVec 16)
  /-- BRX (R87). -/
  | brx (a : BitVec 8) (c : BitVec 9)
  /-- JOINX (R88). -/
  | joinx
  /-- RGANG (R89). -/
  | rgang
  /-- EXIT (R91). -/
  | exit
  /-- TRAP (R333). -/
  | trap (c : BitVec 9)
  /-- RFT_AGAIN (R334). -/
  | rftAgain
  /-- RFT_NEXT (R334). -/
  | rftNext
  /-- BRK (R333). -/
  | brk (c : BitVec 9)
  /-- GWID (R92). -/
  | gwid (d : BitVec 8)
  /-- VOTE (R93). -/
  | vote (d : BitVec 6) (a : BitVec 6) (t : BitVec 4)
  /-- BALLOT (R94). -/
  | ballot (d : BitVec 8) (a : BitVec 8)
  /-- SHFL (R96). -/
  | shfl (d : BitVec 8) (a : BitVec 8) (b : BitVec 8)
  /-- SHFL_IMM (R96). -/
  | shflImm (d : BitVec 8) (a : BitVec 8) (b : BitVec 8)
  /-- SHFX (R96). -/
  | shfx (d : BitVec 8) (a : BitVec 8) (m : BitVec 2) (k : BitVec 6)
  /-- RSORT (R98). -/
  | rsort (d : BitVec 8) (a : BitVec 8) (c : BitVec 8)
  /-- WAIT (R114). -/
  | wait (d : BitVec 8) (n : BitVec 8)
  /-- TKS_RD (R117). -/
  | tksRd (d : BitVec 8) (h : Bool)
  /-- TKS_DRAIN (R117). -/
  | tksDrain
  /-- TKS_RS (R117). -/
  | tksRs (a : BitVec 8) (h : Bool)
  /-- BSYNC (R208). -/
  | bsync (a : BitVec 8) (b : BitVec 6)
  /-- BARI (R211). -/
  | bari (a : BitVec 8) (b : BitVec 5)
  /-- BARA (R211). -/
  | bara (a : BitVec 8) (b : BitVec 5)
  /-- BARW (R212). -/
  | barw (a : BitVec 8) (b : BitVec 5)
  /-- MWAIT (R213). -/
  | mwait (d : BitVec 8) (a : BitVec 8)
  /-- LAUNCH (R368). -/
  | launch (a : BitVec 8) (t : BitVec 4)
  /-- LWAIT (R370). -/
  | lwait
  /-- LPB (R83). -/
  | lpb (o : BitVec 25)
  /-- LDG (R262). -/
  | ldg (d : BitVec 8) (a : BitVec 8) (t : BitVec 4) (s : BitVec 3) (l : Bool)
  /-- STG (R262). -/
  | stg (d : BitVec 8) (a : BitVec 8) (t : BitVec 4) (s : BitVec 3)
  /-- LDS (R205). -/
  | lds (d : BitVec 8) (a : BitVec 8) (t : BitVec 4) (s : BitVec 3)
  /-- STS (R205). -/
  | sts (d : BitVec 8) (a : BitVec 8) (t : BitVec 4) (s : BitVec 3)
  /-- LDF (R168). -/
  | ldf (d : BitVec 8) (a : BitVec 8) (t : BitVec 4) (l : Bool)
  /-- STF (R168). -/
  | stf (d : BitVec 8) (a : BitVec 8) (t : BitVec 4)
  /-- LDP (R173). -/
  | ldp (d : BitVec 8) (a : BitVec 8) (t : BitVec 4) (x : Bool) (h : BitVec 3)
  /-- STP (R173). -/
  | stp (d : BitVec 8) (a : BitVec 8) (t : BitVec 4) (h : BitVec 3)
  /-- LDGG (R262). -/
  | ldgg (d : BitVec 8) (a : BitVec 8) (t : BitVec 4) (s : BitVec 3) (l : Bool)
  /-- STGG (R262). -/
  | stgg (d : BitVec 8) (a : BitVec 8) (t : BitVec 4) (s : BitVec 3)
  /-- ATOM (R263). -/
  | atom (d : BitVec 8) (a : BitVec 8) (t : BitVec 4) (o : BitVec 3) (s : Bool) (w : Bool)
  /-- ATOMS (R206). -/
  | atoms (d : BitVec 8) (a : BitVec 8) (t : BitVec 4) (o : BitVec 3) (s : Bool) (w : Bool)
  /-- FENCE (R314). -/
  | fence (s : BitVec 3) (o : BitVec 3) (e : Bool)
  /-- CMO (R264). -/
  | cmo (d : BitVec 8) (a : BitVec 8) (t : BitVec 4) (l : Bool) (o : BitVec 3)
  /-- PREF (R265). -/
  | pref (a : BitVec 8) (l : Bool)
  /-- SPRZ (R204). -/
  | sprz (d : BitVec 8) (a : BitVec 8)
  /-- TCOPY_LD (R230). -/
  | tcopyLd (d : BitVec 8) (a : BitVec 8) (b : BitVec 8)
  /-- TCOPY_ST (R230). -/
  | tcopySt (d : BitVec 8) (a : BitVec 8) (b : BitVec 8)
  /-- LRFENCE (R229). -/
  | lrfence
  /-- MMA (R245). -/
  | mma (t : BitVec 4) (p : BitVec 3) (a : BitVec 8) (b : BitVec 8) (e : Bool)
  /-- MMAG (R246). -/
  | mmag (t : BitVec 4) (p : BitVec 3) (a : BitVec 8) (b : BitVec 8) (e : Bool)
  /-- MMAS (R247). -/
  | mmas (t : BitVec 4) (p : BitVec 3) (a : BitVec 8) (b : BitVec 8) (e : Bool)
  /-- ACCZ (R249). -/
  | accz (p : BitVec 3) (t : BitVec 4)
  /-- ACCRD (R250). -/
  | accrd (d : BitVec 8) (a : BitVec 8) (t : BitVec 4)
  /-- ACCWR (R250). -/
  | accwr (d : BitVec 8) (a : BitVec 8) (t : BitVec 4)
  /-- ACCST (R251). -/
  | accst (d : BitVec 8) (p : BitVec 3)
  /-- RPUT (R294). -/
  | rput (d : BitVec 8) (a : BitVec 8) (b : BitVec 8)
  /-- RGET (R294). -/
  | rget (d : BitVec 8) (a : BitVec 8) (b : BitVec 8)
  /-- RATOM (R297). -/
  | ratom (d : BitVec 8) (a : BitVec 8) (t : BitVec 4) (o : BitVec 3) (s : Bool) (w : Bool)
  /-- RFENCE (R300). -/
  | rfence
  /-- NWAIT (R299). -/
  | nwait (d : BitVec 8) (a : BitVec 8)
  /-- NADD (R298). -/
  | nadd (d : BitVec 8) (a : BitVec 8)
  /-- FADD (R181). -/
  | fadd (d : BitVec 8) (a : BitVec 8) (b : BitVec 8)
  /-- FSUB (R181). -/
  | fsub (d : BitVec 8) (a : BitVec 8) (b : BitVec 8)
  /-- FMUL (R181). -/
  | fmul (d : BitVec 8) (a : BitVec 8) (b : BitVec 8)
  /-- FDIV (R182). -/
  | fdiv (d : BitVec 8) (a : BitVec 8) (b : BitVec 8)
  /-- FMIN (R183). -/
  | fmin (d : BitVec 8) (a : BitVec 8) (b : BitVec 8)
  /-- FMAX (R183). -/
  | fmax (d : BitVec 8) (a : BitVec 8) (b : BitVec 8)
  /-- FCPYS (R184). -/
  | fcpys (d : BitVec 8) (a : BitVec 8) (b : BitVec 8)
  /-- FMA (R181). -/
  | fma (d : BitVec 8) (a : BitVec 8) (b : BitVec 8)
  /-- FMS (R181). -/
  | fms (d : BitVec 8) (a : BitVec 8) (b : BitVec 8)
  /-- FNMA (R181). -/
  | fnma (d : BitVec 8) (a : BitVec 8) (b : BitVec 8)
  /-- FCMP (R185). -/
  | fcmp (p : BitVec 6) (a : BitVec 8) (b : BitVec 8) (c : BitVec 3)
  /-- FABS (R184). -/
  | fabs (d : BitVec 8) (a : BitVec 8)
  /-- FNEG (R184). -/
  | fneg (d : BitVec 8) (a : BitVec 8)
  /-- FMOV (R184). -/
  | fmov (d : BitVec 8) (a : BitVec 8)
  /-- FCLASS (R187). -/
  | fclass (d : BitVec 8) (a : BitVec 8)
  /-- FRND (R188). -/
  | frnd (d : BitVec 8) (a : BitVec 8) (m : BitVec 2)
  /-- FEXPO (R189). -/
  | fexpo (d : BitVec 8) (a : BitVec 8)
  /-- FSQRT (R191). -/
  | fsqrt (d : BitVec 8) (a : BitVec 8) (t : BitVec 4)
  /-- FRCP (R191). -/
  | frcp (d : BitVec 8) (a : BitVec 8) (t : BitVec 4)
  /-- FRSQ (R191). -/
  | frsq (d : BitVec 8) (a : BitVec 8) (t : BitVec 4)
  /-- FEXP2 (R191). -/
  | fexp2 (d : BitVec 8) (a : BitVec 8) (t : BitVec 4)
  /-- FLOG2 (R191). -/
  | flog2 (d : BitVec 8) (a : BitVec 8) (t : BitVec 4)
  /-- FSIN (R191). -/
  | fsin (d : BitVec 8) (a : BitVec 8) (t : BitVec 4)
  /-- FCOS (R191). -/
  | fcos (d : BitVec 8) (a : BitVec 8) (t : BitVec 4)
  /-- FTANH (R191). -/
  | ftanh (d : BitVec 8) (a : BitVec 8) (t : BitVec 4)
  /-- FCVT_CLS (R194). -/
  | fcvtCls (d : BitVec 8) (a : BitVec 8) (c : BitVec 2)
  /-- FCVT_F2S32 (R195). -/
  | fcvtF2s32 (d : BitVec 8) (a : BitVec 8)
  /-- FCVT_F2N32 (R195). -/
  | fcvtF2n32 (d : BitVec 8) (a : BitVec 8)
  /-- FCVT_F2S64 (R195). -/
  | fcvtF2s64 (d : BitVec 8) (a : BitVec 8)
  /-- FCVT_F2N64 (R195). -/
  | fcvtF2n64 (d : BitVec 8) (a : BitVec 8)
  /-- FCVT_S32F (R196). -/
  | fcvtS32f (d : BitVec 8) (a : BitVec 8)
  /-- FCVT_N32F (R196). -/
  | fcvtN32f (d : BitVec 8) (a : BitVec 8)
  /-- FCVT_S64F (R196). -/
  | fcvtS64f (d : BitVec 8) (a : BitVec 8)
  /-- FCVT_N64F (R196). -/
  | fcvtN64f (d : BitVec 8) (a : BitVec 8)
  /-- FCVT_F2CE (R197). -/
  | fcvtF2ce (d : BitVec 8) (a : BitVec 8)
  /-- FCVT_CEF (R197). -/
  | fcvtCef (d : BitVec 8) (a : BitVec 8)
  /-- FRSP (R198). -/
  | frsp (d : BitVec 8) (a : BitVec 8)
  /-- ILLEGAL_ENCODING (R46). -/
  | illegalEncoding (w : BitVec 32)
  /-- ISSUE_GROUP (R67). -/
  | issueGroup (ck : Nat)
  /-- PAGE_WALK (R274). -/
  | pageWalk (who : Who)
  /-- FAULT_SERVICE (R278). -/
  | faultService (who : Who)
  /-- TRANSLATION_REPLAY (R276). -/
  | translationReplay (who : Who)
  /-- INSTRUCTION_FETCH (R398). -/
  | instructionFetch (ck sid : Nat)
  /-- OPERATION_COMPLETE (R110). -/
  | operationComplete (op : Nat)
  /-- MWAIT_WAKE (R213). -/
  | mwaitWake (sid : Nat)
  /-- MONITOR_TIMEOUT (R213). -/
  | monitorTimeout (sid : Nat)
  /-- TCOPY_ACCEPT (R231). -/
  | tcopyAccept (op : Nat)
  /-- TCOPY_COMPLETE (R233). -/
  | tcopyComplete (op : Nat)
  /-- MATRIX_ACCEPT (R239). -/
  | matrixAccept (op : Nat)
  /-- MATRIX_COMPLETE (R242). -/
  | matrixComplete (op : Nat)
  /-- HBM_REFRESH (R267). -/
  | hbmRefresh (site ch bank : Nat) (postpone : Bool)
  /-- LAYER_MAP_OUT (R268). -/
  | layerMapOut (site die : Nat)
  /-- MAPOUT_COPY (R268). -/
  | mapoutCopy (site die : Nat)
  /-- MAPOUT_COMMIT (R24). -/
  | mapoutCommit (site die : Nat)
  /-- FLIT_RECEIVE (R285). -/
  | flitReceive (lk vc : Nat) (good : Bool)
  /-- LINK_RETRAIN (R285). -/
  | linkRetrain (lk lanes : Nat)
  /-- CREDIT_AUDIT_SEND (R288). -/
  | creditAuditSend (lk : Nat)
  /-- CREDIT_AUDIT_REQUEST (R288). -/
  | creditAuditRequest (lk vc : Nat)
  /-- CREDIT_AUDIT_RECEIVE (R288). -/
  | creditAuditReceive (lk : Nat)
  /-- PACKET_FORWARD (R283). -/
  | packetForward (pk : Nat)
  /-- REMOTE_REQUEST_ARRIVE (R294). -/
  | remoteRequestArrive (p : PktRef)
  /-- REMOTE_RESPONSE_ARRIVE (R301). -/
  | remoteResponseArrive (p : PktRef)
  /-- REMOTE_TIMEOUT (R301). -/
  | remoteTimeout (op : Nat)
  /-- BASE_DIE_FAULT_RESET (R380). -/
  | baseDieFaultReset (site : Nat)
  /-- ISLAND_RESET_EXIT (R22). -/
  | islandResetExit (site : Nat)
  /-- OPTICAL_ENGINE_RESET (R289). -/
  | opticalEngineReset (site : Nat)
  /-- POWER_ON (R380). -/
  | powerOn
  /-- PREEMPT_REQUEST (R338). -/
  | preemptRequest (asid : Nat)
  /-- HANDLER_TIME_LIMIT (R338). -/
  | handlerTimeLimit (asid : Nat)
  /-- PREEMPT_SAVE (R338). -/
  | preemptSave (tid : Nat)
  /-- TEAM_RESUME (R342). -/
  | teamResume (tid : Nat)
  /-- TIME_SLICE_EXPIRY (R359). -/
  | timeSliceExpiry (asid : Nat)
  /-- HOST_RDMA_WRITE (R344). -/
  | hostRdmaWrite (conn off : Nat) (data : List (BitVec 8))
  /-- RDMA_READ (R344). -/
  | rdmaRead (conn off len : Nat)
  /-- RDMA_REFUSED (R344). -/
  | rdmaRefused (conn : Nat)
  /-- CONNECTION_ESTABLISH (R353). -/
  | connectionEstablish (conn : Nat)
  /-- PACKET_DISPATCH (R355). -/
  | packetDispatch
  /-- LEVEL_DUE (R356). -/
  | levelDue (level : Nat)
  /-- NOP_PACKET (R352). -/
  | nopPacket (pid : Nat)
  /-- LAUNCH_PACKET (R352). -/
  | launchPacket (pid : Nat)
  /-- WAITN (R352). -/
  | waitn (pid : Nat)
  /-- WAITN_COMPLETE (R352). -/
  | waitnComplete (pid : Nat)
  /-- SIGNAL (R352). -/
  | signal (pid : Nat)
  /-- MARKER (R353). -/
  | marker (pid : Nat)
  /-- LAUNCH_RUN (R362). -/
  | launchRun (lid : Nat)
  /-- PROLOGUE_REPEAT (R363). -/
  | prologueRepeat (lid : Nat)
  /-- TEAM_PLACEMENT (R64). -/
  | teamPlacement (site grid : Nat)
  /-- SHOOTDOWN_ACK (R281). -/
  | shootdownAck (sd : Nat)
  /-- EVENT_REPOST (R387). -/
  | eventRepost (svc : Nat)
  /-- FIRMWARE_TAKEOVER (R375). -/
  | firmwareTakeover
  /-- FIRMWARE_WATCHDOG (R375). -/
  | firmwareWatchdog
  /-- CLOCK_THROTTLE (R382). -/
  | clockThrottle (site mhz : Nat)
  /-- CTX_NEW (R372). -/
  | ctxNew (a : CtxArgs)
  /-- CTX_END (R325). -/
  | ctxEnd (asid : Nat)
  /-- CTX_SLICE (R359). -/
  | ctxSlice (cycles : Nat)
  /-- EVT_PANEL (R385). -/
  | evtPanel (r : EvRing)
  /-- XL_DESC (R279). -/
  | xlDesc (asid site : Nat) (desc : BitVec 64)
  /-- XL_WRITE (R280). -/
  | xlWrite (sites : List Nat) (entries : List (Nat × BitVec 64))
  /-- XL_INVAL (R281). -/
  | xlInval (asid first last : Nat) (sites : List Nat)
  /-- XL_RESOLVE (R278). -/
  | xlResolve (svc : Nat) (retry : Bool)
  /-- XL_FILL (R278). -/
  | xlFill (asid : Nat) (f : FillRange)
  /-- POOL (R372). -/
  | pool (kind site : Nat) (ranges : List (Nat × Nat))
  /-- SAVE_PLACE (R387). -/
  | savePlace (svc addr : Nat)
  /-- MAPOUT_ACK (R387). -/
  | mapoutAck (svc : Nat)
  /-- Q_STATE (R346). -/
  | qState (q : Nat) (a : QArgs)
  /-- G_STATE (R354). -/
  | gState (g : Nat) (weight : BitVec 8)
  /-- L2_MASK (R259). -/
  | l2Mask (site part : Nat) (mask : BitVec 16)
  /-- L2_OCC (R260). -/
  | l2Occ (site part slice : Nat)
  /-- TOPO (R282). -/
  | topo (site entry : Nat) (v : BitVec 64)
  /-- PANEL_NUM (R28). -/
  | panelNum (n : BitVec 8)
  /-- FW_UPDATE (R375). -/
  | fwUpdate (a : FwArgs)
  /-- FW_ATTEST (R378). -/
  | fwAttest (nonce : List (BitVec 8)) (conn : Nat) (addr : BitVec 64) (key : BitVec 32)
  /-- DBG_SET (R336). -/
  | dbgSet (asid : Nat) (o : DbgOp)
  /-- ISL_RESET (R380). -/
  | islReset (site : Nat) (optical : Bool)
  /-- PWR_CAP (R383). -/
  | pwrCap (site amps : Nat)
  /-- RESERVED_COMMAND (R372). -/
  | reservedCommand (type : BitVec 8)
  /-- DEBUGGER_HALT_REQUEST (R124). -/
  | debuggerHaltRequest (asid : Nat)
  /-- DEBUGGER_RESUME (R337). -/
  | debuggerResume (asid : Nat) (m : ResumeMode)
  /-- UNCORRECTABLE_ERROR (R266). -/
  | uncorrectableError (at_ : ErrPlace)
  /-- LINK_RETRAIN_UP (R285). -/
  | linkRetrainUp (lk lanes : Nat)
  /-- CONNECTION_LOSS (R353). -/
  | connectionLoss (conn : Nat)
  /-- CREDIT_SOFT_ERROR (R288). -/
  | creditSoftError (lk vc : Nat) (delta : Int)
  /-- FILL_READ_RESPONSE (R278). -/
  | fillReadResponse (svc : Nat) (data : List (BitVec 8))
  deriving DecidableEq, Repr

end Sys2Proof
end

