-- ==== Sys2Proof/WellFormed.lean ====
section
/-! DEFINITION. The checks of R46 on the fields of an instruction (spec/02: R31, R32, R37 to R44, Tables 2.3 to 2.14). -/
namespace Sys2Proof

/-- Why a word is no instruction (R46). All of them raise cause 0x01. -/
inductive Reject where
  /-- Opcode 0x00, 0x6F, 0x7E or 0x7F, the all-zero word among them. -/
  | reservedOpcode
  /-- A reserved sub-function or modifier value of Tables 2.6 to 2.12. -/
  | reservedSub
  /-- A nonzero bit in a field that must be zero. -/
  | mustBeZero
  /-- A register index outside its kind's range (R32). -/
  | index
  /-- A broken pair or quad alignment (R32, R42). -/
  | alignment
  /-- A branch offset of the wrong sign. -/
  | offset
  /-- A BRX case count of 0 or above 256. -/
  | caseCount
  /-- An unlisted state register, or a form Table 2.14 does not allow. -/
  | stateReg
  deriving DecidableEq, Repr

/-- A g register index (Table 2.3). -/
def isG (r : BitVec 8) : Bool := r.toNat < 64
/-- A pair or quad alignment of an x operand. -/
def aligned (r : BitVec 8) (n : Nat) : Bool := r.toNat % n == 0

/-- The first check of the list that fails. -/
def firstBad : List (Bool × Reject) → Option Reject
  | [] => none
  | (ok, r) :: t => if ok then firstBad t else some r

/-- The check that `gs` are g registers. -/
def needG (gs : List (BitVec 8)) : Option Reject := firstBad (gs.map fun g => (isG g, .index))

/-- Forms of a state register (Table 2.14): `none` for an unlisted index, else whether the g form exists. -/
def stateRegForms (idx : BitVec 8) : Option Bool :=
  match idx.toNat with
  | 0x00 => some false | 0x11 => some false | 0x26 => some false
  | 0x01 => some true | 0x02 => some true | 0x03 => some true
  | 0x08 => some true | 0x09 => some true | 0x0A => some true
  | 0x10 => some true | 0x12 => some true | 0x13 => some true
  | 0x20 => some true | 0x21 => some true | 0x22 => some true | 0x23 => some true
  | 0x24 => some true | 0x25 => some true | 0x30 => some true | 0x40 => some true
  | _ => none

/-- MFS and MTS: the index is listed and the form is allowed (R46, R50). -/
def stateRegCheck (r : BitVec 8) (g : Bool) (idx : BitVec 8) : Option Reject :=
  match stateRegForms idx with
  | none => some .stateReg
  | some allowG => if g then firstBad [(allowG, .stateReg), (isG r, .index)] else none

/-- Legal values of a SETM field (Table 2.8). -/
def setmLegal (f : BitVec 4) (i : BitVec 8) : Bool :=
  match f.toNat with
  | 0 => i.toNat ≤ 63 | 1 => i.toNat ≤ 1 | 2 => i.toNat ≤ 63 | 3 => i.toNat ≤ 5
  | 4 => i.toNat ≤ 1 | 5 => i.toNat ≤ 3 | 6 => i.toNat ≤ 4 | 7 => i.toNat ≤ 4
  | _ => false

/-- Legal values of a PRSET field (Table 2.8); P takes every immediate and is checked as a PREC value (R166). -/
def prsetLegal (f : BitVec 4) (i : BitVec 8) : Bool :=
  match f.toNat with
  | 0 => true | 1 => i.toNat ≤ 3 | 2 => i.toNat ≤ 3 | 3 => i.toNat ≤ 1 | 4 => i.toNat ≤ 1 | 5 => i.toNat ≤ 31
  | _ => false

/-- Slots of a memory operand of the size code (Table 2.10): 1, 2 or 4, and none for the reserved code 7. -/
def sizeSlots (s : BitVec 3) : Nat := match s.toNat with | 5 => 2 | 6 => 4 | 7 => 0 | _ => 1

/-- The data register of an x-form load or store of size `s` (R42). -/
def sizeReg (s : BitVec 3) (d : BitVec 8) (store : Bool) : List (Bool × Reject) :=
  [(s.toNat ≠ 7, .reservedSub), (!(store && (s.toNat == 1 || s.toNat == 3)), .reservedSub),
   (aligned d (sizeSlots s), .alignment)]

/-- The data register of an atomic (R42, R263): pair or quad rules, and signed only for min and max. -/
def atomReg (o : BitVec 3) (s w : Bool) (d : BitVec 8) : List (Bool × Reject) :=
  [(!s || o.toNat == 1 || o.toNat == 2, .mustBeZero),
   (aligned d ((if w then 2 else 1) * (if o.toNat == 7 then 2 else 1)), .alignment)]

/-- A format A integer form: with e = 1 the three fields name g registers (R33). -/
def intForm (d a b : BitVec 8) (e : Bool) : Option Reject := if e then needG [d, a, b] else none

/-- A unary integer form (R37). -/
def unForm (d a : BitVec 8) (g : Bool) : Option Reject := if g then needG [d, a] else none

/-- The first check of R46 that the instruction fails. -/
def Instr.illegal (i : Instr) : Option Reject :=
  match i with
  | .add d a b e | .sub d a b e | .mul d a b e | .mulh d a b e | .mad d a b e | .min d a b e | .max d a b e
  | .and d a b e | .or d a b e | .xor d a b e | .andn d a b e | .shl d a b e | .shr d a b e | .rot d a b e
  | .absd d a b e | .div d a b e | .rem d a b e | .bfx d a b e | .bfi d a b e => intForm d a b e
  | .clz d a g | .ctz d a g | .popc d a g | .brev d a g | .not d a g | .neg d a g | .abs d a g | .sex8 d a g
  | .sex16 d a g => unForm d a g
  | .movg d a p => firstBad [(isG a, .index), (!p || aligned d 2, .alignment)]
  | .movl d a p _ => firstBad [(isG d, .index), (!p || aligned a 2, .alignment)]
  | .gaddi d a _ => needG [d, a]
  | .ldhg d _ | .ldlg d _ | .getm d | .tksRd d _ => needG [d]
  | .pmovP2x d => firstBad [(aligned d 2, .alignment)]
  | .pmovX2p a => firstBad [(aligned a 2, .alignment)]
  | .pmovMov d a | .pmovNot d a => needG [d, a]
  | .pmovSet d _ | .pmovLsb d _ => needG [d]
  | .setm a | .tksRs a _ => needG [a]
  | .setmField i f => firstBad [(setmLegal f i, .reservedSub)]
  | .prsetField i f => firstBad [(prsetLegal f i, .reservedSub)]
  | .mfs d g idx => stateRegCheck d g idx
  | .mts a g idx => stateRegCheck a g idx
  | .vpah d a _ => firstBad [(d.toNat < 8, .index), (isG a, .index)]
  | .callr a _ => firstBad [(aligned a 2, .alignment)]
  | .brf _ _ o => firstBad [(0 < o.toInt, .offset)]
  | .brb _ _ o => firstBad [(o.toInt < 0, .offset)]
  | .bre o | .lpb o => firstBad [(0 < o.toInt, .offset)]
  | .brg g _ _ => needG [g]
  | .brx _ c => firstBad [(1 ≤ c.toNat && c.toNat ≤ 256, .caseCount)]
  | .vote _ _ t => firstBad [(t.toNat ≤ 3, .reservedSub)]
  | .ballot d a => firstBad [(aligned d 2, .alignment), (isG a, .index)]
  | .shflImm _ _ b => firstBad [(b.toNat < 64, .index)]
  | .shfx _ _ m _ => firstBad [(m.toNat ≠ 3, .reservedSub)]
  | .wait d _ => firstBad [(d.toNat < 16, .index)]
  | .bsync a _ | .bari a _ | .bara a _ | .barw a _ | .launch a _ => needG [a]
  | .mwait d a | .sprz d a | .nwait d a | .nadd d a => needG [d, a]
  | .ldg d a _ s _ => firstBad (sizeReg s d false ++ [(aligned a 2, .alignment)])
  | .stg d a _ s => firstBad (sizeReg s d true ++ [(aligned a 2, .alignment)])
  | .lds d _ _ s => firstBad (sizeReg s d false)
  | .sts d _ _ s => firstBad (sizeReg s d true)
  | .ldf _ a _ _ | .stf _ a _ => firstBad [(aligned a 2, .alignment)]
  | .ldgg d a _ s _ => firstBad [(s.toNat ≤ 5, .reservedSub), (isG d, .index), (isG a, .index)]
  | .stgg d a _ s =>
    firstBad [(s.toNat ≤ 5 && s.toNat ≠ 1 && s.toNat ≠ 3, .reservedSub), (isG d, .index), (isG a, .index)]
  | .atom d a _ o s w | .ratom d a _ o s w => firstBad (atomReg o s w d ++ [(aligned a 2, .alignment)])
  | .atoms d _ _ o s w => firstBad (atomReg o s w d)
  | .fence s o _ => firstBad [(s.toNat ≤ 4, .reservedSub), (1 ≤ o.toNat && o.toNat ≤ 4, .reservedSub)]
  | .cmo d a _ _ o => firstBad [(o.toNat ≤ 2, .reservedSub), (isG d, .index), (aligned a 2, .alignment)]
  | .pref a _ => firstBad [(aligned a 2, .alignment)]
  | .tcopyLd d a b | .tcopySt d a b | .rput d a b | .rget d a b => needG [d, a, b]
  | .mma _ _ a b _ | .mmag _ _ a b _ | .mmas _ _ a b _ => needG [a, b]
  | .accrd _ a _ => needG [a]
  | .accwr d _ _ => needG [d]
  | .accst d _ => needG [d]
  | .fcvtCls _ _ c => firstBad [(c.toNat ≠ 0, .reservedSub)]
  | .fcvtF2s64 d _ | .fcvtF2n64 d _ => firstBad [(aligned d 2, .alignment)]
  | .fcvtS64f _ a | .fcvtN64f _ a => firstBad [(aligned a 2, .alignment)]
  | _ => none

/-- The instruction passes every check of R46. -/
def Instr.wf (i : Instr) : Bool := i.illegal.isNone

end Sys2Proof
end

