-- ==== Sys2Proof/Decode.lean ====
section
/-! DEFINITION. From a word to an instruction and back (spec/02 R29 to R47, Tables 2.1 to 2.12). A word is read as the
number whose bit 0 is its least significant bit. -/
namespace Sys2Proof

/-- Bits [lo + len - 1 : lo] of w, as a number. -/
def bf (w lo len : Nat) : Nat := w / 2 ^ lo % 2 ^ len
/-- Bits [lo + len - 1 : lo] of w. -/
def fld (w lo len : Nat) : BitVec len := BitVec.ofNat len (w / 2 ^ lo)
/-- Bit lo of w. -/
def bit (w lo : Nat) : Bool := w / 2 ^ lo % 2 == 1

/-- Sub-functions of opcode 0x16 (IUN, Table 2.6). -/
def decodeOp16 (w : Nat) : Except Reject Instr :=
  if bf w 0 8 = 0 then .ok (.clz (fld w 17 8) (fld w 9 8) (bit w 8))
  else if bf w 0 8 = 1 then .ok (.ctz (fld w 17 8) (fld w 9 8) (bit w 8))
  else if bf w 0 8 = 2 then .ok (.popc (fld w 17 8) (fld w 9 8) (bit w 8))
  else if bf w 0 8 = 3 then .ok (.brev (fld w 17 8) (fld w 9 8) (bit w 8))
  else if bf w 0 8 = 4 then .ok (.not (fld w 17 8) (fld w 9 8) (bit w 8))
  else if bf w 0 8 = 5 then .ok (.neg (fld w 17 8) (fld w 9 8) (bit w 8))
  else if bf w 0 8 = 6 then .ok (.abs (fld w 17 8) (fld w 9 8) (bit w 8))
  else if bf w 0 8 = 7 then .ok (.sex8 (fld w 17 8) (fld w 9 8) (bit w 8))
  else if bf w 0 8 = 8 then .ok (.sex16 (fld w 17 8) (fld w 9 8) (bit w 8))
  else if bf w 0 7 = 9 ∧ bf w 8 1 = 0 then .ok (.movg (fld w 17 8) (fld w 9 8) (bit w 7))
  else if bf w 0 4 = 10 ∧ bf w 6 1 = 0 ∧ bf w 8 1 = 0 then .ok (.movl (fld w 17 8) (fld w 9 8) (bit w 7) (fld w 4 2))
  else .error .reservedSub

/-- Sub-functions of opcode 0x27 (PMOV, Table 2.7). -/
def decodeOp27 (w : Nat) : Except Reject Instr :=
  if bf w 0 17 = 0 then .ok (.pmovP2x (fld w 17 8))
  else if bf w 0 9 = 1 ∧ bf w 17 8 = 0 then .ok (.pmovX2p (fld w 9 8))
  else if bf w 0 9 = 2 then .ok (.pmovMov (fld w 17 8) (fld w 9 8))
  else if bf w 0 9 = 3 then .ok (.pmovNot (fld w 17 8) (fld w 9 8))
  else if bf w 0 3 = 4 ∧ bf w 4 13 = 0 then .ok (.pmovSet (fld w 17 8) (bit w 3))
  else if bf w 0 9 = 5 then .ok (.pmovLsb (fld w 17 8) (fld w 9 8))
  else .error .reservedSub

/-- Sub-functions of opcode 0x47 (TKS, Table 2.9). -/
def decodeOp47 (w : Nat) : Except Reject Instr :=
  if bf w 0 2 = 0 ∧ bf w 3 14 = 0 then .ok (.tksRd (fld w 17 8) (bit w 2))
  else if bf w 0 25 = 1 then .ok (.tksDrain)
  else if bf w 0 2 = 2 ∧ bf w 3 6 = 0 ∧ bf w 17 8 = 0 then .ok (.tksRs (fld w 9 8) (bit w 2))
  else .error .reservedSub

/-- Sub-functions of opcode 0x7B (FUN, Table 2.12). -/
def decodeOp7B (w : Nat) : Except Reject Instr :=
  if bf w 0 9 = 0 then .ok (.fabs (fld w 17 8) (fld w 9 8))
  else if bf w 0 9 = 1 then .ok (.fneg (fld w 17 8) (fld w 9 8))
  else if bf w 0 9 = 2 then .ok (.fmov (fld w 17 8) (fld w 9 8))
  else if bf w 0 9 = 3 then .ok (.fclass (fld w 17 8) (fld w 9 8))
  else if bf w 2 7 = 1 then .ok (.frnd (fld w 17 8) (fld w 9 8) (fld w 0 2))
  else if bf w 0 9 = 8 then .ok (.fexpo (fld w 17 8) (fld w 9 8))
  else .error .reservedSub

/-- Sub-functions of opcode 0x7C (FSFU, Table 2.12). -/
def decodeOp7C (w : Nat) : Except Reject Instr :=
  if bf w 0 5 = 0 then .ok (.fsqrt (fld w 17 8) (fld w 9 8) (fld w 5 4))
  else if bf w 0 5 = 1 then .ok (.frcp (fld w 17 8) (fld w 9 8) (fld w 5 4))
  else if bf w 0 5 = 2 then .ok (.frsq (fld w 17 8) (fld w 9 8) (fld w 5 4))
  else if bf w 0 5 = 3 then .ok (.fexp2 (fld w 17 8) (fld w 9 8) (fld w 5 4))
  else if bf w 0 5 = 4 then .ok (.flog2 (fld w 17 8) (fld w 9 8) (fld w 5 4))
  else if bf w 0 5 = 5 then .ok (.fsin (fld w 17 8) (fld w 9 8) (fld w 5 4))
  else if bf w 0 5 = 6 then .ok (.fcos (fld w 17 8) (fld w 9 8) (fld w 5 4))
  else if bf w 0 5 = 7 then .ok (.ftanh (fld w 17 8) (fld w 9 8) (fld w 5 4))
  else .error .reservedSub

/-- Sub-functions of opcode 0x7D (FCVT, Table 2.12). -/
def decodeOp7D (w : Nat) : Except Reject Instr :=
  if bf w 0 4 = 0 ∧ bf w 6 3 = 0 then .ok (.fcvtCls (fld w 17 8) (fld w 9 8) (fld w 4 2))
  else if bf w 0 9 = 1 then .ok (.fcvtF2s32 (fld w 17 8) (fld w 9 8))
  else if bf w 0 9 = 2 then .ok (.fcvtF2n32 (fld w 17 8) (fld w 9 8))
  else if bf w 0 9 = 3 then .ok (.fcvtF2s64 (fld w 17 8) (fld w 9 8))
  else if bf w 0 9 = 4 then .ok (.fcvtF2n64 (fld w 17 8) (fld w 9 8))
  else if bf w 0 9 = 5 then .ok (.fcvtS32f (fld w 17 8) (fld w 9 8))
  else if bf w 0 9 = 6 then .ok (.fcvtN32f (fld w 17 8) (fld w 9 8))
  else if bf w 0 9 = 7 then .ok (.fcvtS64f (fld w 17 8) (fld w 9 8))
  else if bf w 0 9 = 8 then .ok (.fcvtN64f (fld w 17 8) (fld w 9 8))
  else if bf w 0 9 = 9 then .ok (.fcvtF2ce (fld w 17 8) (fld w 9 8))
  else if bf w 0 9 = 10 then .ok (.fcvtCef (fld w 17 8) (fld w 9 8))
  else if bf w 0 9 = 11 then .ok (.frsp (fld w 17 8) (fld w 9 8))
  else .error .reservedSub

/-- The opcode map of Table 2.4: the fields of a word, before the checks of R46 on their values. Opcodes 0x00, 0x6F,
0x7E and 0x7F are reserved. -/
def decodeRaw (w : Nat) : Except Reject Instr :=
  match bf w 25 7 with
  | 0x01 => .ok (.add (fld w 17 8) (fld w 9 8) (fld w 1 8) (bit w 0))
  | 0x02 => .ok (.sub (fld w 17 8) (fld w 9 8) (fld w 1 8) (bit w 0))
  | 0x03 => .ok (.mul (fld w 17 8) (fld w 9 8) (fld w 1 8) (bit w 0))
  | 0x04 => .ok (.mulh (fld w 17 8) (fld w 9 8) (fld w 1 8) (bit w 0))
  | 0x05 => .ok (.mad (fld w 17 8) (fld w 9 8) (fld w 1 8) (bit w 0))
  | 0x06 => .ok (.min (fld w 17 8) (fld w 9 8) (fld w 1 8) (bit w 0))
  | 0x07 => .ok (.max (fld w 17 8) (fld w 9 8) (fld w 1 8) (bit w 0))
  | 0x08 => .ok (.and (fld w 17 8) (fld w 9 8) (fld w 1 8) (bit w 0))
  | 0x09 => .ok (.or (fld w 17 8) (fld w 9 8) (fld w 1 8) (bit w 0))
  | 0x0A => .ok (.xor (fld w 17 8) (fld w 9 8) (fld w 1 8) (bit w 0))
  | 0x0B => .ok (.andn (fld w 17 8) (fld w 9 8) (fld w 1 8) (bit w 0))
  | 0x0C => .ok (.shl (fld w 17 8) (fld w 9 8) (fld w 1 8) (bit w 0))
  | 0x0D => .ok (.shr (fld w 17 8) (fld w 9 8) (fld w 1 8) (bit w 0))
  | 0x0E => .ok (.rot (fld w 17 8) (fld w 9 8) (fld w 1 8) (bit w 0))
  | 0x0F => .ok (.absd (fld w 17 8) (fld w 9 8) (fld w 1 8) (bit w 0))
  | 0x10 => .ok (.div (fld w 17 8) (fld w 9 8) (fld w 1 8) (bit w 0))
  | 0x11 => .ok (.rem (fld w 17 8) (fld w 9 8) (fld w 1 8) (bit w 0))
  | 0x12 => if bf w 0 1 = 0 then .ok (.prmb (fld w 17 8) (fld w 9 8) (fld w 1 8)) else .error .mustBeZero
  | 0x13 => .ok (.bfx (fld w 17 8) (fld w 9 8) (fld w 1 8) (bit w 0))
  | 0x14 => .ok (.bfi (fld w 17 8) (fld w 9 8) (fld w 1 8) (bit w 0))
  | 0x15 => if bf w 0 1 = 0 then .ok (.sel (fld w 17 8) (fld w 9 8) (fld w 1 8)) else .error .mustBeZero
  | 0x16 => decodeOp16 w
  | 0x17 => .ok (.addi (fld w 17 8) (fld w 9 8) (fld w 0 9))
  | 0x18 => .ok (.andi (fld w 17 8) (fld w 9 8) (fld w 0 9))
  | 0x19 => .ok (.ori (fld w 17 8) (fld w 9 8) (fld w 0 9))
  | 0x1A => .ok (.xori (fld w 17 8) (fld w 9 8) (fld w 0 9))
  | 0x1B => if bf w 5 4 = 0 then .ok (.shli (fld w 17 8) (fld w 9 8) (fld w 0 5)) else .error .mustBeZero
  | 0x1C => if bf w 5 4 = 0 then .ok (.shri (fld w 17 8) (fld w 9 8) (fld w 0 5)) else .error .mustBeZero
  | 0x1D => if bf w 5 4 = 0 then .ok (.roti (fld w 17 8) (fld w 9 8) (fld w 0 5)) else .error .mustBeZero
  | 0x1E => .ok (.muli (fld w 17 8) (fld w 9 8) (fld w 0 9))
  | 0x1F => .ok (.gaddi (fld w 17 8) (fld w 9 8) (fld w 0 9))
  | 0x20 => .ok (.ldh (fld w 17 8) (fld w 0 17))
  | 0x21 => if bf w 15 2 = 0 then .ok (.ldl (fld w 17 8) (fld w 0 15)) else .error .mustBeZero
  | 0x22 => .ok (.ldhg (fld w 17 8) (fld w 0 17))
  | 0x23 => .ok (.ldlg (fld w 17 8) (fld w 0 17))
  | 0x24 => .ok (.icmp (fld w 19 6) (fld w 11 8) (fld w 3 8) (fld w 0 3))
  | 0x25 => .ok (.icmpi (fld w 19 6) (fld w 11 8) (fld w 3 8) (fld w 0 3))
  | 0x26 => if bf w 0 3 = 0 then .ok (.plog (fld w 19 6) (fld w 13 6) (fld w 7 6) (fld w 3 4)) else .error .mustBeZero
  | 0x27 => decodeOp27 w
  | 0x28 => if bf w 0 9 = 0 ∧ bf w 17 8 = 0 then .ok (.setm (fld w 9 8)) else if bf w 0 5 = 16 ∧ bf w 17 8 = 0 then .ok (.setmField (fld w 9 8) (fld w 5 4)) else .error .reservedSub
  | 0x29 => if bf w 0 17 = 0 then .ok (.getm (fld w 17 8)) else .error .mustBeZero
  | 0x2A => if bf w 0 9 = 0 ∧ bf w 17 8 = 0 then .ok (.prset (fld w 9 8)) else if bf w 0 5 = 16 ∧ bf w 17 8 = 0 then .ok (.prsetField (fld w 9 8) (fld w 5 4)) else .error .reservedSub
  | 0x2B => if bf w 0 17 = 0 then .ok (.prget (fld w 17 8)) else .error .mustBeZero
  | 0x2C => if bf w 9 8 = 0 then .ok (.mfs (fld w 17 8) (bit w 8) (fld w 0 8)) else .error .mustBeZero
  | 0x2D => if bf w 17 8 = 0 then .ok (.mts (fld w 9 8) (bit w 8) (fld w 0 8)) else .error .mustBeZero
  | 0x2E => if bf w 16 9 = 0 then .ok (.dly (fld w 0 16)) else .error .mustBeZero
  | 0x2F => if bf w 0 5 = 0 then .ok (.vpah (fld w 17 8) (fld w 9 8) (fld w 5 4)) else .error .mustBeZero
  | 0x30 => .ok (.br (fld w 0 25))
  | 0x31 => .ok (.call (fld w 20 5) (fld w 0 20))
  | 0x32 => if bf w 5 4 = 0 ∧ bf w 17 8 = 0 then .ok (.callr (fld w 9 8) (fld w 0 5)) else .error .mustBeZero
  | 0x33 => if bf w 0 25 = 0 then .ok (.ret) else .error .mustBeZero
  | 0x34 => .ok (.brf (fld w 19 6) (bit w 18) (fld w 0 18))
  | 0x35 => .ok (.bre (fld w 0 25))
  | 0x36 => if bf w 0 25 = 0 then .ok (.join) else .error .mustBeZero
  | 0x37 => .ok (.brb (fld w 19 6) (bit w 18) (fld w 0 18))
  | 0x38 => .ok (.brg (fld w 17 8) (bit w 16) (fld w 0 16))
  | 0x39 => if bf w 17 8 = 0 then .ok (.brx (fld w 9 8) (fld w 0 9)) else .error .mustBeZero
  | 0x3A => if bf w 0 25 = 0 then .ok (.joinx) else .error .mustBeZero
  | 0x3B => if bf w 0 25 = 0 then .ok (.rgang) else .error .mustBeZero
  | 0x3C => if bf w 0 25 = 0 then .ok (.exit) else .error .mustBeZero
  | 0x3D => if bf w 9 16 = 0 then .ok (.trap (fld w 0 9)) else .error .mustBeZero
  | 0x3E => if bf w 0 25 = 0 then .ok (.rftAgain) else if bf w 0 25 = 1 then .ok (.rftNext) else .error .reservedSub
  | 0x3F => if bf w 9 16 = 0 then .ok (.brk (fld w 0 9)) else .error .mustBeZero
  | 0x40 => if bf w 0 17 = 0 then .ok (.gwid (fld w 17 8)) else .error .mustBeZero
  | 0x41 => if bf w 0 3 = 0 ∧ bf w 7 6 = 0 then .ok (.vote (fld w 19 6) (fld w 13 6) (fld w 3 4)) else .error .mustBeZero
  | 0x42 => if bf w 0 9 = 0 then .ok (.ballot (fld w 17 8) (fld w 9 8)) else .error .mustBeZero
  | 0x43 => if bf w 0 1 = 0 then .ok (.shfl (fld w 17 8) (fld w 9 8) (fld w 1 8)) else if bf w 0 1 = 1 then .ok (.shflImm (fld w 17 8) (fld w 9 8) (fld w 1 8)) else .error .reservedSub
  | 0x44 => if bf w 6 1 = 0 then .ok (.shfx (fld w 17 8) (fld w 9 8) (fld w 7 2) (fld w 0 6)) else .error .mustBeZero
  | 0x45 => if bf w 8 1 = 0 then .ok (.rsort (fld w 17 8) (fld w 9 8) (fld w 0 8)) else .error .mustBeZero
  | 0x46 => if bf w 8 9 = 0 then .ok (.wait (fld w 17 8) (fld w 0 8)) else .error .mustBeZero
  | 0x47 => decodeOp47 w
  | 0x48 => if bf w 6 3 = 0 ∧ bf w 17 8 = 0 then .ok (.bsync (fld w 9 8) (fld w 0 6)) else .error .mustBeZero
  | 0x49 => if bf w 5 4 = 0 ∧ bf w 17 8 = 0 then .ok (.bari (fld w 9 8) (fld w 0 5)) else .error .mustBeZero
  | 0x4A => if bf w 5 4 = 0 ∧ bf w 17 8 = 0 then .ok (.bara (fld w 9 8) (fld w 0 5)) else .error .mustBeZero
  | 0x4B => if bf w 5 4 = 0 ∧ bf w 17 8 = 0 then .ok (.barw (fld w 9 8) (fld w 0 5)) else .error .mustBeZero
  | 0x4C => if bf w 0 9 = 0 then .ok (.mwait (fld w 17 8) (fld w 9 8)) else .error .mustBeZero
  | 0x4D => if bf w 0 5 = 0 ∧ bf w 17 8 = 0 then .ok (.launch (fld w 9 8) (fld w 5 4)) else .error .mustBeZero
  | 0x4E => if bf w 0 25 = 0 then .ok (.lwait) else .error .mustBeZero
  | 0x4F => .ok (.lpb (fld w 0 25))
  | 0x50 => if bf w 0 1 = 0 then .ok (.ldg (fld w 17 8) (fld w 9 8) (fld w 5 4) (fld w 2 3) (bit w 1)) else .error .mustBeZero
  | 0x51 => if bf w 0 2 = 0 then .ok (.stg (fld w 17 8) (fld w 9 8) (fld w 5 4) (fld w 2 3)) else .error .mustBeZero
  | 0x52 => if bf w 0 2 = 0 then .ok (.lds (fld w 17 8) (fld w 9 8) (fld w 5 4) (fld w 2 3)) else .error .mustBeZero
  | 0x53 => if bf w 0 2 = 0 then .ok (.sts (fld w 17 8) (fld w 9 8) (fld w 5 4) (fld w 2 3)) else .error .mustBeZero
  | 0x54 => if bf w 0 1 = 0 ∧ bf w 2 3 = 0 then .ok (.ldf (fld w 17 8) (fld w 9 8) (fld w 5 4) (bit w 1)) else .error .mustBeZero
  | 0x55 => if bf w 0 5 = 0 then .ok (.stf (fld w 17 8) (fld w 9 8) (fld w 5 4)) else .error .mustBeZero
  | 0x56 => if bf w 3 1 = 0 then .ok (.ldp (fld w 17 8) (fld w 9 8) (fld w 5 4) (bit w 4) (fld w 0 3)) else .error .mustBeZero
  | 0x57 => if bf w 3 2 = 0 then .ok (.stp (fld w 17 8) (fld w 9 8) (fld w 5 4) (fld w 0 3)) else .error .mustBeZero
  | 0x58 => if bf w 0 1 = 0 then .ok (.ldgg (fld w 17 8) (fld w 9 8) (fld w 5 4) (fld w 2 3) (bit w 1)) else .error .mustBeZero
  | 0x59 => if bf w 0 2 = 0 then .ok (.stgg (fld w 17 8) (fld w 9 8) (fld w 5 4) (fld w 2 3)) else .error .mustBeZero
  | 0x5A => .ok (.atom (fld w 17 8) (fld w 9 8) (fld w 5 4) (fld w 2 3) (bit w 1) (bit w 0))
  | 0x5B => .ok (.atoms (fld w 17 8) (fld w 9 8) (fld w 5 4) (fld w 2 3) (bit w 1) (bit w 0))
  | 0x5C => if bf w 0 2 = 0 ∧ bf w 9 16 = 0 then .ok (.fence (fld w 6 3) (fld w 3 3) (bit w 2)) else .error .mustBeZero
  | 0x5D => if bf w 3 1 = 0 then .ok (.cmo (fld w 17 8) (fld w 9 8) (fld w 5 4) (bit w 4) (fld w 0 3)) else .error .mustBeZero
  | 0x5E => if bf w 0 4 = 0 ∧ bf w 5 4 = 0 ∧ bf w 17 8 = 0 then .ok (.pref (fld w 9 8) (bit w 4)) else .error .mustBeZero
  | 0x5F => if bf w 0 9 = 0 then .ok (.sprz (fld w 17 8) (fld w 9 8)) else .error .mustBeZero
  | 0x60 => if bf w 0 1 = 0 then .ok (.tcopyLd (fld w 17 8) (fld w 9 8) (fld w 1 8)) else if bf w 0 1 = 1 then .ok (.tcopySt (fld w 17 8) (fld w 9 8) (fld w 1 8)) else .error .reservedSub
  | 0x61 => if bf w 0 25 = 0 then .ok (.lrfence) else .error .mustBeZero
  | 0x62 => if bf w 24 1 = 0 then .ok (.mma (fld w 20 4) (fld w 17 3) (fld w 9 8) (fld w 1 8) (bit w 0)) else .error .mustBeZero
  | 0x63 => if bf w 24 1 = 0 then .ok (.mmag (fld w 20 4) (fld w 17 3) (fld w 9 8) (fld w 1 8) (bit w 0)) else .error .mustBeZero
  | 0x64 => if bf w 24 1 = 0 then .ok (.mmas (fld w 20 4) (fld w 17 3) (fld w 9 8) (fld w 1 8) (bit w 0)) else .error .mustBeZero
  | 0x65 => if bf w 0 5 = 0 ∧ bf w 9 8 = 0 ∧ bf w 20 5 = 0 then .ok (.accz (fld w 17 3) (fld w 5 4)) else .error .mustBeZero
  | 0x66 => if bf w 0 5 = 0 then .ok (.accrd (fld w 17 8) (fld w 9 8) (fld w 5 4)) else .error .mustBeZero
  | 0x67 => if bf w 0 5 = 0 then .ok (.accwr (fld w 17 8) (fld w 9 8) (fld w 5 4)) else .error .mustBeZero
  | 0x68 => if bf w 0 9 = 0 ∧ bf w 12 5 = 0 then .ok (.accst (fld w 17 8) (fld w 9 3)) else .error .mustBeZero
  | 0x69 => if bf w 0 1 = 0 then .ok (.rput (fld w 17 8) (fld w 9 8) (fld w 1 8)) else .error .mustBeZero
  | 0x6A => if bf w 0 1 = 0 then .ok (.rget (fld w 17 8) (fld w 9 8) (fld w 1 8)) else .error .mustBeZero
  | 0x6B => .ok (.ratom (fld w 17 8) (fld w 9 8) (fld w 5 4) (fld w 2 3) (bit w 1) (bit w 0))
  | 0x6C => if bf w 0 25 = 0 then .ok (.rfence) else .error .mustBeZero
  | 0x6D => if bf w 0 9 = 0 then .ok (.nwait (fld w 17 8) (fld w 9 8)) else .error .mustBeZero
  | 0x6E => if bf w 0 9 = 0 then .ok (.nadd (fld w 17 8) (fld w 9 8)) else .error .mustBeZero
  | 0x70 => if bf w 0 1 = 0 then .ok (.fadd (fld w 17 8) (fld w 9 8) (fld w 1 8)) else .error .mustBeZero
  | 0x71 => if bf w 0 1 = 0 then .ok (.fsub (fld w 17 8) (fld w 9 8) (fld w 1 8)) else .error .mustBeZero
  | 0x72 => if bf w 0 1 = 0 then .ok (.fmul (fld w 17 8) (fld w 9 8) (fld w 1 8)) else .error .mustBeZero
  | 0x73 => if bf w 0 1 = 0 then .ok (.fdiv (fld w 17 8) (fld w 9 8) (fld w 1 8)) else .error .mustBeZero
  | 0x74 => if bf w 0 1 = 0 then .ok (.fmin (fld w 17 8) (fld w 9 8) (fld w 1 8)) else .error .mustBeZero
  | 0x75 => if bf w 0 1 = 0 then .ok (.fmax (fld w 17 8) (fld w 9 8) (fld w 1 8)) else .error .mustBeZero
  | 0x76 => if bf w 0 1 = 0 then .ok (.fcpys (fld w 17 8) (fld w 9 8) (fld w 1 8)) else .error .mustBeZero
  | 0x77 => if bf w 0 1 = 0 then .ok (.fma (fld w 17 8) (fld w 9 8) (fld w 1 8)) else .error .mustBeZero
  | 0x78 => if bf w 0 1 = 0 then .ok (.fms (fld w 17 8) (fld w 9 8) (fld w 1 8)) else .error .mustBeZero
  | 0x79 => if bf w 0 1 = 0 then .ok (.fnma (fld w 17 8) (fld w 9 8) (fld w 1 8)) else .error .mustBeZero
  | 0x7A => .ok (.fcmp (fld w 19 6) (fld w 11 8) (fld w 3 8) (fld w 0 3))
  | 0x7B => decodeOp7B w
  | 0x7C => decodeOp7C w
  | 0x7D => decodeOp7D w
  | _ => .error .reservedOpcode

/-- A word's instruction, or why it is none (R46). -/
def decode (w : Word) : Except Reject Instr :=
  match decodeRaw w.toNat with
  | .error r => .error r
  | .ok i => match i.illegal with
    | none => .ok i
    | some r => .error r

/-- The instruction of a word of the opcode table (its bits as the table numbers them): every instruction is one
32-bit word, little-endian, so the word is the table's number itself. -/
def decodeTableWord (_nbits w : Nat) : Option Instr :=
  match decode (BitVec.ofNat 32 w) with
  | .ok i => some i
  | .error _ => none

/-- The word of an instruction as a number; a device step has none. Written from Tables 2.1 and 2.4 to 2.12. -/
def encodeNat (i : Instr) : Option Nat :=
  match i with
  | .add v0 v1 v2 v3 => some (0x02000000 + v0.toNat * 131072 + v1.toNat * 512 + v2.toNat * 2 + v3.toNat)
  | .sub v0 v1 v2 v3 => some (0x04000000 + v0.toNat * 131072 + v1.toNat * 512 + v2.toNat * 2 + v3.toNat)
  | .mul v0 v1 v2 v3 => some (0x06000000 + v0.toNat * 131072 + v1.toNat * 512 + v2.toNat * 2 + v3.toNat)
  | .mulh v0 v1 v2 v3 => some (0x08000000 + v0.toNat * 131072 + v1.toNat * 512 + v2.toNat * 2 + v3.toNat)
  | .mad v0 v1 v2 v3 => some (0x0A000000 + v0.toNat * 131072 + v1.toNat * 512 + v2.toNat * 2 + v3.toNat)
  | .min v0 v1 v2 v3 => some (0x0C000000 + v0.toNat * 131072 + v1.toNat * 512 + v2.toNat * 2 + v3.toNat)
  | .max v0 v1 v2 v3 => some (0x0E000000 + v0.toNat * 131072 + v1.toNat * 512 + v2.toNat * 2 + v3.toNat)
  | .and v0 v1 v2 v3 => some (0x10000000 + v0.toNat * 131072 + v1.toNat * 512 + v2.toNat * 2 + v3.toNat)
  | .or v0 v1 v2 v3 => some (0x12000000 + v0.toNat * 131072 + v1.toNat * 512 + v2.toNat * 2 + v3.toNat)
  | .xor v0 v1 v2 v3 => some (0x14000000 + v0.toNat * 131072 + v1.toNat * 512 + v2.toNat * 2 + v3.toNat)
  | .andn v0 v1 v2 v3 => some (0x16000000 + v0.toNat * 131072 + v1.toNat * 512 + v2.toNat * 2 + v3.toNat)
  | .shl v0 v1 v2 v3 => some (0x18000000 + v0.toNat * 131072 + v1.toNat * 512 + v2.toNat * 2 + v3.toNat)
  | .shr v0 v1 v2 v3 => some (0x1A000000 + v0.toNat * 131072 + v1.toNat * 512 + v2.toNat * 2 + v3.toNat)
  | .rot v0 v1 v2 v3 => some (0x1C000000 + v0.toNat * 131072 + v1.toNat * 512 + v2.toNat * 2 + v3.toNat)
  | .absd v0 v1 v2 v3 => some (0x1E000000 + v0.toNat * 131072 + v1.toNat * 512 + v2.toNat * 2 + v3.toNat)
  | .div v0 v1 v2 v3 => some (0x20000000 + v0.toNat * 131072 + v1.toNat * 512 + v2.toNat * 2 + v3.toNat)
  | .rem v0 v1 v2 v3 => some (0x22000000 + v0.toNat * 131072 + v1.toNat * 512 + v2.toNat * 2 + v3.toNat)
  | .prmb v0 v1 v2 => some (0x24000000 + v0.toNat * 131072 + v1.toNat * 512 + v2.toNat * 2)
  | .bfx v0 v1 v2 v3 => some (0x26000000 + v0.toNat * 131072 + v1.toNat * 512 + v2.toNat * 2 + v3.toNat)
  | .bfi v0 v1 v2 v3 => some (0x28000000 + v0.toNat * 131072 + v1.toNat * 512 + v2.toNat * 2 + v3.toNat)
  | .sel v0 v1 v2 => some (0x2A000000 + v0.toNat * 131072 + v1.toNat * 512 + v2.toNat * 2)
  | .clz v0 v1 v2 => some (0x2C000000 + v0.toNat * 131072 + v1.toNat * 512 + v2.toNat * 256)
  | .ctz v0 v1 v2 => some (0x2C000001 + v0.toNat * 131072 + v1.toNat * 512 + v2.toNat * 256)
  | .popc v0 v1 v2 => some (0x2C000002 + v0.toNat * 131072 + v1.toNat * 512 + v2.toNat * 256)
  | .brev v0 v1 v2 => some (0x2C000003 + v0.toNat * 131072 + v1.toNat * 512 + v2.toNat * 256)
  | .not v0 v1 v2 => some (0x2C000004 + v0.toNat * 131072 + v1.toNat * 512 + v2.toNat * 256)
  | .neg v0 v1 v2 => some (0x2C000005 + v0.toNat * 131072 + v1.toNat * 512 + v2.toNat * 256)
  | .abs v0 v1 v2 => some (0x2C000006 + v0.toNat * 131072 + v1.toNat * 512 + v2.toNat * 256)
  | .sex8 v0 v1 v2 => some (0x2C000007 + v0.toNat * 131072 + v1.toNat * 512 + v2.toNat * 256)
  | .sex16 v0 v1 v2 => some (0x2C000008 + v0.toNat * 131072 + v1.toNat * 512 + v2.toNat * 256)
  | .movg v0 v1 v2 => some (0x2C000009 + v0.toNat * 131072 + v1.toNat * 512 + v2.toNat * 128)
  | .movl v0 v1 v2 v3 => some (0x2C00000A + v0.toNat * 131072 + v1.toNat * 512 + v2.toNat * 128 + v3.toNat * 16)
  | .addi v0 v1 v2 => some (0x2E000000 + v0.toNat * 131072 + v1.toNat * 512 + v2.toNat)
  | .andi v0 v1 v2 => some (0x30000000 + v0.toNat * 131072 + v1.toNat * 512 + v2.toNat)
  | .ori v0 v1 v2 => some (0x32000000 + v0.toNat * 131072 + v1.toNat * 512 + v2.toNat)
  | .xori v0 v1 v2 => some (0x34000000 + v0.toNat * 131072 + v1.toNat * 512 + v2.toNat)
  | .shli v0 v1 v2 => some (0x36000000 + v0.toNat * 131072 + v1.toNat * 512 + v2.toNat)
  | .shri v0 v1 v2 => some (0x38000000 + v0.toNat * 131072 + v1.toNat * 512 + v2.toNat)
  | .roti v0 v1 v2 => some (0x3A000000 + v0.toNat * 131072 + v1.toNat * 512 + v2.toNat)
  | .muli v0 v1 v2 => some (0x3C000000 + v0.toNat * 131072 + v1.toNat * 512 + v2.toNat)
  | .gaddi v0 v1 v2 => some (0x3E000000 + v0.toNat * 131072 + v1.toNat * 512 + v2.toNat)
  | .ldh v0 v1 => some (0x40000000 + v0.toNat * 131072 + v1.toNat)
  | .ldl v0 v1 => some (0x42000000 + v0.toNat * 131072 + v1.toNat)
  | .ldhg v0 v1 => some (0x44000000 + v0.toNat * 131072 + v1.toNat)
  | .ldlg v0 v1 => some (0x46000000 + v0.toNat * 131072 + v1.toNat)
  | .icmp v0 v1 v2 v3 => some (0x48000000 + v0.toNat * 524288 + v1.toNat * 2048 + v2.toNat * 8 + v3.toNat)
  | .icmpi v0 v1 v2 v3 => some (0x4A000000 + v0.toNat * 524288 + v1.toNat * 2048 + v2.toNat * 8 + v3.toNat)
  | .plog v0 v1 v2 v3 => some (0x4C000000 + v0.toNat * 524288 + v1.toNat * 8192 + v2.toNat * 128 + v3.toNat * 8)
  | .pmovP2x v0 => some (0x4E000000 + v0.toNat * 131072)
  | .pmovX2p v0 => some (0x4E000001 + v0.toNat * 512)
  | .pmovMov v0 v1 => some (0x4E000002 + v0.toNat * 131072 + v1.toNat * 512)
  | .pmovNot v0 v1 => some (0x4E000003 + v0.toNat * 131072 + v1.toNat * 512)
  | .pmovSet v0 v1 => some (0x4E000004 + v0.toNat * 131072 + v1.toNat * 8)
  | .pmovLsb v0 v1 => some (0x4E000005 + v0.toNat * 131072 + v1.toNat * 512)
  | .setm v0 => some (0x50000000 + v0.toNat * 512)
  | .setmField v0 v1 => some (0x50000010 + v0.toNat * 512 + v1.toNat * 32)
  | .getm v0 => some (0x52000000 + v0.toNat * 131072)
  | .prset v0 => some (0x54000000 + v0.toNat * 512)
  | .prsetField v0 v1 => some (0x54000010 + v0.toNat * 512 + v1.toNat * 32)
  | .prget v0 => some (0x56000000 + v0.toNat * 131072)
  | .mfs v0 v1 v2 => some (0x58000000 + v0.toNat * 131072 + v1.toNat * 256 + v2.toNat)
  | .mts v0 v1 v2 => some (0x5A000000 + v0.toNat * 512 + v1.toNat * 256 + v2.toNat)
  | .dly v0 => some (0x5C000000 + v0.toNat)
  | .vpah v0 v1 v2 => some (0x5E000000 + v0.toNat * 131072 + v1.toNat * 512 + v2.toNat * 32)
  | .br v0 => some (0x60000000 + v0.toNat)
  | .call v0 v1 => some (0x62000000 + v0.toNat * 1048576 + v1.toNat)
  | .callr v0 v1 => some (0x64000000 + v0.toNat * 512 + v1.toNat)
  | .ret => some (0x66000000)
  | .brf v0 v1 v2 => some (0x68000000 + v0.toNat * 524288 + v1.toNat * 262144 + v2.toNat)
  | .bre v0 => some (0x6A000000 + v0.toNat)
  | .join => some (0x6C000000)
  | .brb v0 v1 v2 => some (0x6E000000 + v0.toNat * 524288 + v1.toNat * 262144 + v2.toNat)
  | .brg v0 v1 v2 => some (0x70000000 + v0.toNat * 131072 + v1.toNat * 65536 + v2.toNat)
  | .brx v0 v1 => some (0x72000000 + v0.toNat * 512 + v1.toNat)
  | .joinx => some (0x74000000)
  | .rgang => some (0x76000000)
  | .exit => some (0x78000000)
  | .trap v0 => some (0x7A000000 + v0.toNat)
  | .rftAgain => some (0x7C000000)
  | .rftNext => some (0x7C000001)
  | .brk v0 => some (0x7E000000 + v0.toNat)
  | .gwid v0 => some (0x80000000 + v0.toNat * 131072)
  | .vote v0 v1 v2 => some (0x82000000 + v0.toNat * 524288 + v1.toNat * 8192 + v2.toNat * 8)
  | .ballot v0 v1 => some (0x84000000 + v0.toNat * 131072 + v1.toNat * 512)
  | .shfl v0 v1 v2 => some (0x86000000 + v0.toNat * 131072 + v1.toNat * 512 + v2.toNat * 2)
  | .shflImm v0 v1 v2 => some (0x86000001 + v0.toNat * 131072 + v1.toNat * 512 + v2.toNat * 2)
  | .shfx v0 v1 v2 v3 => some (0x88000000 + v0.toNat * 131072 + v1.toNat * 512 + v2.toNat * 128 + v3.toNat)
  | .rsort v0 v1 v2 => some (0x8A000000 + v0.toNat * 131072 + v1.toNat * 512 + v2.toNat)
  | .wait v0 v1 => some (0x8C000000 + v0.toNat * 131072 + v1.toNat)
  | .tksRd v0 v1 => some (0x8E000000 + v0.toNat * 131072 + v1.toNat * 4)
  | .tksDrain => some (0x8E000001)
  | .tksRs v0 v1 => some (0x8E000002 + v0.toNat * 512 + v1.toNat * 4)
  | .bsync v0 v1 => some (0x90000000 + v0.toNat * 512 + v1.toNat)
  | .bari v0 v1 => some (0x92000000 + v0.toNat * 512 + v1.toNat)
  | .bara v0 v1 => some (0x94000000 + v0.toNat * 512 + v1.toNat)
  | .barw v0 v1 => some (0x96000000 + v0.toNat * 512 + v1.toNat)
  | .mwait v0 v1 => some (0x98000000 + v0.toNat * 131072 + v1.toNat * 512)
  | .launch v0 v1 => some (0x9A000000 + v0.toNat * 512 + v1.toNat * 32)
  | .lwait => some (0x9C000000)
  | .lpb v0 => some (0x9E000000 + v0.toNat)
  | .ldg v0 v1 v2 v3 v4 => some (0xA0000000 + v0.toNat * 131072 + v1.toNat * 512 + v2.toNat * 32 + v3.toNat * 4 + v4.toNat * 2)
  | .stg v0 v1 v2 v3 => some (0xA2000000 + v0.toNat * 131072 + v1.toNat * 512 + v2.toNat * 32 + v3.toNat * 4)
  | .lds v0 v1 v2 v3 => some (0xA4000000 + v0.toNat * 131072 + v1.toNat * 512 + v2.toNat * 32 + v3.toNat * 4)
  | .sts v0 v1 v2 v3 => some (0xA6000000 + v0.toNat * 131072 + v1.toNat * 512 + v2.toNat * 32 + v3.toNat * 4)
  | .ldf v0 v1 v2 v3 => some (0xA8000000 + v0.toNat * 131072 + v1.toNat * 512 + v2.toNat * 32 + v3.toNat * 2)
  | .stf v0 v1 v2 => some (0xAA000000 + v0.toNat * 131072 + v1.toNat * 512 + v2.toNat * 32)
  | .ldp v0 v1 v2 v3 v4 => some (0xAC000000 + v0.toNat * 131072 + v1.toNat * 512 + v2.toNat * 32 + v3.toNat * 16 + v4.toNat)
  | .stp v0 v1 v2 v3 => some (0xAE000000 + v0.toNat * 131072 + v1.toNat * 512 + v2.toNat * 32 + v3.toNat)
  | .ldgg v0 v1 v2 v3 v4 => some (0xB0000000 + v0.toNat * 131072 + v1.toNat * 512 + v2.toNat * 32 + v3.toNat * 4 + v4.toNat * 2)
  | .stgg v0 v1 v2 v3 => some (0xB2000000 + v0.toNat * 131072 + v1.toNat * 512 + v2.toNat * 32 + v3.toNat * 4)
  | .atom v0 v1 v2 v3 v4 v5 => some (0xB4000000 + v0.toNat * 131072 + v1.toNat * 512 + v2.toNat * 32 + v3.toNat * 4 + v4.toNat * 2 + v5.toNat)
  | .atoms v0 v1 v2 v3 v4 v5 => some (0xB6000000 + v0.toNat * 131072 + v1.toNat * 512 + v2.toNat * 32 + v3.toNat * 4 + v4.toNat * 2 + v5.toNat)
  | .fence v0 v1 v2 => some (0xB8000000 + v0.toNat * 64 + v1.toNat * 8 + v2.toNat * 4)
  | .cmo v0 v1 v2 v3 v4 => some (0xBA000000 + v0.toNat * 131072 + v1.toNat * 512 + v2.toNat * 32 + v3.toNat * 16 + v4.toNat)
  | .pref v0 v1 => some (0xBC000000 + v0.toNat * 512 + v1.toNat * 16)
  | .sprz v0 v1 => some (0xBE000000 + v0.toNat * 131072 + v1.toNat * 512)
  | .tcopyLd v0 v1 v2 => some (0xC0000000 + v0.toNat * 131072 + v1.toNat * 512 + v2.toNat * 2)
  | .tcopySt v0 v1 v2 => some (0xC0000001 + v0.toNat * 131072 + v1.toNat * 512 + v2.toNat * 2)
  | .lrfence => some (0xC2000000)
  | .mma v0 v1 v2 v3 v4 => some (0xC4000000 + v0.toNat * 1048576 + v1.toNat * 131072 + v2.toNat * 512 + v3.toNat * 2 + v4.toNat)
  | .mmag v0 v1 v2 v3 v4 => some (0xC6000000 + v0.toNat * 1048576 + v1.toNat * 131072 + v2.toNat * 512 + v3.toNat * 2 + v4.toNat)
  | .mmas v0 v1 v2 v3 v4 => some (0xC8000000 + v0.toNat * 1048576 + v1.toNat * 131072 + v2.toNat * 512 + v3.toNat * 2 + v4.toNat)
  | .accz v0 v1 => some (0xCA000000 + v0.toNat * 131072 + v1.toNat * 32)
  | .accrd v0 v1 v2 => some (0xCC000000 + v0.toNat * 131072 + v1.toNat * 512 + v2.toNat * 32)
  | .accwr v0 v1 v2 => some (0xCE000000 + v0.toNat * 131072 + v1.toNat * 512 + v2.toNat * 32)
  | .accst v0 v1 => some (0xD0000000 + v0.toNat * 131072 + v1.toNat * 512)
  | .rput v0 v1 v2 => some (0xD2000000 + v0.toNat * 131072 + v1.toNat * 512 + v2.toNat * 2)
  | .rget v0 v1 v2 => some (0xD4000000 + v0.toNat * 131072 + v1.toNat * 512 + v2.toNat * 2)
  | .ratom v0 v1 v2 v3 v4 v5 => some (0xD6000000 + v0.toNat * 131072 + v1.toNat * 512 + v2.toNat * 32 + v3.toNat * 4 + v4.toNat * 2 + v5.toNat)
  | .rfence => some (0xD8000000)
  | .nwait v0 v1 => some (0xDA000000 + v0.toNat * 131072 + v1.toNat * 512)
  | .nadd v0 v1 => some (0xDC000000 + v0.toNat * 131072 + v1.toNat * 512)
  | .fadd v0 v1 v2 => some (0xE0000000 + v0.toNat * 131072 + v1.toNat * 512 + v2.toNat * 2)
  | .fsub v0 v1 v2 => some (0xE2000000 + v0.toNat * 131072 + v1.toNat * 512 + v2.toNat * 2)
  | .fmul v0 v1 v2 => some (0xE4000000 + v0.toNat * 131072 + v1.toNat * 512 + v2.toNat * 2)
  | .fdiv v0 v1 v2 => some (0xE6000000 + v0.toNat * 131072 + v1.toNat * 512 + v2.toNat * 2)
  | .fmin v0 v1 v2 => some (0xE8000000 + v0.toNat * 131072 + v1.toNat * 512 + v2.toNat * 2)
  | .fmax v0 v1 v2 => some (0xEA000000 + v0.toNat * 131072 + v1.toNat * 512 + v2.toNat * 2)
  | .fcpys v0 v1 v2 => some (0xEC000000 + v0.toNat * 131072 + v1.toNat * 512 + v2.toNat * 2)
  | .fma v0 v1 v2 => some (0xEE000000 + v0.toNat * 131072 + v1.toNat * 512 + v2.toNat * 2)
  | .fms v0 v1 v2 => some (0xF0000000 + v0.toNat * 131072 + v1.toNat * 512 + v2.toNat * 2)
  | .fnma v0 v1 v2 => some (0xF2000000 + v0.toNat * 131072 + v1.toNat * 512 + v2.toNat * 2)
  | .fcmp v0 v1 v2 v3 => some (0xF4000000 + v0.toNat * 524288 + v1.toNat * 2048 + v2.toNat * 8 + v3.toNat)
  | .fabs v0 v1 => some (0xF6000000 + v0.toNat * 131072 + v1.toNat * 512)
  | .fneg v0 v1 => some (0xF6000001 + v0.toNat * 131072 + v1.toNat * 512)
  | .fmov v0 v1 => some (0xF6000002 + v0.toNat * 131072 + v1.toNat * 512)
  | .fclass v0 v1 => some (0xF6000003 + v0.toNat * 131072 + v1.toNat * 512)
  | .frnd v0 v1 v2 => some (0xF6000004 + v0.toNat * 131072 + v1.toNat * 512 + v2.toNat)
  | .fexpo v0 v1 => some (0xF6000008 + v0.toNat * 131072 + v1.toNat * 512)
  | .fsqrt v0 v1 v2 => some (0xF8000000 + v0.toNat * 131072 + v1.toNat * 512 + v2.toNat * 32)
  | .frcp v0 v1 v2 => some (0xF8000001 + v0.toNat * 131072 + v1.toNat * 512 + v2.toNat * 32)
  | .frsq v0 v1 v2 => some (0xF8000002 + v0.toNat * 131072 + v1.toNat * 512 + v2.toNat * 32)
  | .fexp2 v0 v1 v2 => some (0xF8000003 + v0.toNat * 131072 + v1.toNat * 512 + v2.toNat * 32)
  | .flog2 v0 v1 v2 => some (0xF8000004 + v0.toNat * 131072 + v1.toNat * 512 + v2.toNat * 32)
  | .fsin v0 v1 v2 => some (0xF8000005 + v0.toNat * 131072 + v1.toNat * 512 + v2.toNat * 32)
  | .fcos v0 v1 v2 => some (0xF8000006 + v0.toNat * 131072 + v1.toNat * 512 + v2.toNat * 32)
  | .ftanh v0 v1 v2 => some (0xF8000007 + v0.toNat * 131072 + v1.toNat * 512 + v2.toNat * 32)
  | .fcvtCls v0 v1 v2 => some (0xFA000000 + v0.toNat * 131072 + v1.toNat * 512 + v2.toNat * 16)
  | .fcvtF2s32 v0 v1 => some (0xFA000001 + v0.toNat * 131072 + v1.toNat * 512)
  | .fcvtF2n32 v0 v1 => some (0xFA000002 + v0.toNat * 131072 + v1.toNat * 512)
  | .fcvtF2s64 v0 v1 => some (0xFA000003 + v0.toNat * 131072 + v1.toNat * 512)
  | .fcvtF2n64 v0 v1 => some (0xFA000004 + v0.toNat * 131072 + v1.toNat * 512)
  | .fcvtS32f v0 v1 => some (0xFA000005 + v0.toNat * 131072 + v1.toNat * 512)
  | .fcvtN32f v0 v1 => some (0xFA000006 + v0.toNat * 131072 + v1.toNat * 512)
  | .fcvtS64f v0 v1 => some (0xFA000007 + v0.toNat * 131072 + v1.toNat * 512)
  | .fcvtN64f v0 v1 => some (0xFA000008 + v0.toNat * 131072 + v1.toNat * 512)
  | .fcvtF2ce v0 v1 => some (0xFA000009 + v0.toNat * 131072 + v1.toNat * 512)
  | .fcvtCef v0 v1 => some (0xFA00000A + v0.toNat * 131072 + v1.toNat * 512)
  | .frsp v0 v1 => some (0xFA00000B + v0.toNat * 131072 + v1.toNat * 512)
  | _ => none

/-- The word of an instruction. -/
def encode (i : Instr) : Option Word := (encodeNat i).map (BitVec.ofNat 32)

end Sys2Proof
end

