-- ==== Sys2Proof/Config.lean ====
section
/-! DEFINITION. What one part fixes and what the manual leaves open. Every `opaque` here is a free value: it has no
body, so a statement holds whatever it is. -/
namespace Sys2Proof.Config

/-- Free: which of `n` enabled moves of the machine's agents comes next, at step `tick` (log entry 1, DESIGN CHOICE). -/
opaque nextMove : (tick : Nat) → Nat
/-- Free: which allowed outcome a choice point takes, by step number and by a key that names the point
(early reads R105, R116; lane orders R206, R262, R263; dropped bytes R261) (log entry 7, DESIGN CHOICE). -/
opaque choose : (tick : Nat) → (key : Nat) → Nat
/-- Free, fixed for a part: which of the two adjacent members a faithful function returns (R191), by sub-function,
container width, operand encoding and PREC (log entry 9, DESIGN CHOICE). -/
opaque faithfulUp : (sub : Nat) → (cls : Nat) → (operand : Nat) → (prec : Nat) → Bool
/-- Free: the receive buffer size B of a virtual channel, in flits (R288) (log entry 10, DESIGN CHOICE). -/
opaque vcBuffer : (vc : Nat) → Nat
/-- Free: the private half of the panel's identity key, generated at assembly test (R376) (log entry 11, DESIGN CHOICE). -/
opaque identitySeed : BitVec 456
/-- Free: the fused digest of Finroth's signing key, 64 bytes (R376) (log entry 11, DESIGN CHOICE). -/
opaque fusedDigest : BitVec 512

/-- Cores of an island and lane positions of a core (R16). -/
def coresPerIsland : Nat := 128
/-- Slice positions of a core (R16). -/
def positions : Nat := 16
/-- Slots of each lane place (R16). -/
def slotsPerLane : Nat := 2048
/-- Bytes of core SRAM in one way (R199). -/
def wayBytes : Nat := 8192
/-- HBM4E bytes of one DRAM die (R21). -/
def dieBytes : Nat := 0x100000000
/-- Entries of a core TLB and of an island TLB (R274). -/
def coreTlb : Nat := 128
def islandTlb : Nat := 32768
/-- Record cache entries (R228). -/
def recordEntries : Nat := 16
/-- Copy engine queue and matrix engine queue entries (R231, R239). -/
def copyQueue : Nat := 64
def matrixQueue : Nat := 16
/-- Arrivals of one flit, the first and its 32 replays, after which a link retrains (R285). -/
def linkTries : Nat := 33
/-- Launch processors of the front end (R355, 1.4). -/
def launchProcessors : Nat := 16
/-- Cycles without a response after which a remote operation fails (Table 13.8). -/
def remoteTimeout : Nat := 0x1000000
/-- Cycles a handler may run on after a pre-emption request (R338). -/
def handlerLimit : Nat := 65536

end Sys2Proof.Config
end

