-- ==== Sys2Proof/Machine/Map.lean ====
section
/-! DEFINITION. Sparse tables: a list of key and value pairs whose keys strictly rise. -/
namespace Sys2Proof.Machine

/-- The value a table lists at key `k`. -/
def find {β : Type} (k : Nat) : SMap β → Option β
  | [] => none
  | (k', v) :: t => if k' = k then some v else find k t

/-- The table with `v` at `k`, every other key unchanged. -/
def put {β : Type} (k : Nat) (v : β) : SMap β → SMap β
  | [] => [(k, v)]
  | (k', v') :: t =>
    if k < k' then (k, v) :: (k', v') :: t
    else if k = k' then (k, v) :: t
    else (k', v') :: put k v t

/-- The table without key `k`. -/
def del {β : Type} (k : Nat) (m : SMap β) : SMap β := m.filter fun e => e.1 ≠ k

/-- Reads `k`; an unlisted key reads as `d`. -/
def getD {β : Type} (d : β) (k : Nat) (m : SMap β) : β := (find k m).getD d

/-- Writes `k`; writing what an unlisted key reads as removes the entry. -/
def setD {β : Type} [DecidableEq β] (d : β) (k : Nat) (v : β) (m : SMap β) : SMap β :=
  if v = d then del k m else put k v m

/-- Applies `f` to the value at `k`, if any. -/
def upd {β : Type} (k : Nat) (f : β → β) (m : SMap β) : SMap β :=
  match find k m with
  | none => m
  | some v => put k (f v) m

/-- The keys of a table strictly rise. -/
def rising {β : Type} : SMap β → Bool
  | [] => true
  | [_] => true
  | (k, _) :: (k', v') :: t => decide (k < k') && rising ((k', v') :: t)

/-- The canonical form of a table whose unlisted keys read as `d`. -/
def canonical {β : Type} [DecidableEq β] (d : β) (m : SMap β) : Bool :=
  rising m && m.all fun e => decide (e.2 ≠ d)

/-- The lowest key from `k` upward that a table does not list, below `k + fuel`. -/
def freshKey {β : Type} (m : SMap β) : (k fuel : Nat) → Nat
  | k, 0 => k
  | k, f + 1 => if (find k m).isSome then freshKey m (k + 1) f else k

/-- The numbers from `a` up to but not including `a + n`. -/
def upFrom (a : Nat) : Nat → List Nat
  | 0 => []
  | n + 1 => a :: upFrom (a + 1) n

/-- Element `i` of a list, `d` beyond its end. -/
def nth {α : Type} (d : α) : List α → Nat → α
  | [], _ => d
  | a :: _, 0 => a
  | _ :: t, i + 1 => nth d t i

/-- The list with element `i` replaced. -/
def setNth {α : Type} (l : List α) (i : Nat) (a : α) : List α := l.set i a

/-- The list with `f` applied to element `i`. -/
def modNth {α : Type} (l : List α) (i : Nat) (f : α → α) : List α :=
  match l, i with
  | [], _ => []
  | a :: t, 0 => f a :: t
  | a :: t, i + 1 => a :: modNth t i f

/-- The elements of a list, each once, in order of first appearance. -/
def distinct : List Nat → List Nat
  | [] => []
  | a :: t => a :: (distinct t).filter (· ≠ a)

/-- The list without its element `i`. -/
def dropNth {α : Type} (l : List α) (i : Nat) : List α := l.take i ++ l.drop (i + 1)

/-- The sum of a list of numbers. -/
def sumNat (l : List Nat) : Nat := l.foldl (· + ·) 0

/-- The greatest of a list of numbers, 0 for none. -/
def maxNat (l : List Nat) : Nat := l.foldl Nat.max 0

/-- The least of a list of numbers by `key`, first of equals. -/
def leastBy {α : Type} (key : α → Nat) : List α → Option α
  | [] => none
  | a :: t =>
    match leastBy key t with
    | none => some a
    | some b => if key a ≤ key b then some a else some b

/-- Insertion of `a` after every element whose key is no greater: a stable sort by `key`. -/
def insertBy {α : Type} (key : α → Nat) (a : α) : List α → List α
  | [] => [a]
  | b :: t => if key a ≤ key b then a :: b :: t else b :: insertBy key a t

/-- A stable ascending sort by `key`. -/
def sortBy {α : Type} (key : α → Nat) (l : List α) : List α := l.foldr (insertBy key) []

/-- A list without repeats of neighbouring equal numbers after sorting: the set of its elements, rising. -/
def asSet (l : List Nat) : List Nat :=
  (sortBy id l).foldr (fun a acc => match acc with | [] => [a] | b :: _ => if a = b then acc else a :: acc) []

end Sys2Proof.Machine
end

