-- ==== Sys2Proof/Machine/Bits.lean ====
section
/-! DEFINITION. Bit fields, sign extension and byte order (R5, R6). -/
namespace Sys2Proof.Machine

/-- Bits `lo + len − 1` to `lo` of a number. -/
def bits (v lo len : Nat) : Nat := v / 2 ^ lo % 2 ^ len
/-- One bit of a number. -/
def bitAt (v i : Nat) : Bool := v / 2 ^ i % 2 == 1
/-- A Bool as a number. -/
def ofBool (b : Bool) : Nat := if b then 1 else 0
/-- The signed value of the low `w` bits of `v`. -/
def signed (w v : Nat) : Int :=
  let u := v % 2 ^ w
  if u < 2 ^ (w - 1) then (u : Int) else (u : Int) - (2 ^ w : Nat)
/-- An exact integer modulo 2^w (two's-complement wrap). -/
def wrap (w : Nat) (r : Int) : Nat := (r % ((2 ^ w : Nat) : Int)).toNat
/-- The `n` little-endian bytes of a number (R6). -/
def leBytes : (n v : Nat) → List Byte
  | 0, _ => []
  | n + 1, v => BitVec.ofNat 8 v :: leBytes n (v / 256)
/-- The number whose little-endian bytes these are (R6). -/
def leNat : List Byte → Nat
  | [] => 0
  | b :: t => b.toNat + 256 * leNat t
/-- The numbers of the set bits of a mask of `n` bits, rising. -/
def setBits (n v : Nat) : List Nat := (upFrom 0 n).filter fun i => bitAt v i
/-- The mask with exactly these bits set. -/
def maskOf (l : List Nat) : Nat := (asSet l).foldl (fun a i => a + 2 ^ i) 0
/-- How many bits are set. -/
def popcount (n v : Nat) : Nat := (setBits n v).length
/-- `v` with bits `lo + len − 1` to `lo` replaced by `f`. -/
def setField (v lo len f : Nat) : Nat := v - bits v lo len * 2 ^ lo + f % 2 ^ len * 2 ^ lo
/-- The 32-bit word of a number. -/
def w32 (v : Nat) : Word := BitVec.ofNat 32 v
/-- The low or the high word of a 64-bit value. -/
def half (v : Nat) (h : Nat) : Word := BitVec.ofNat 32 (v / 2 ^ (32 * h))
/-- Merges `new` into `old` on the set bits of `mask`. -/
def mergeMask (old new mask : Word) : Word := (old &&& ~~~mask) ||| (new &&& mask)
/-- A whole-word mask. -/
def allOnes : Word := BitVec.allOnes 32
/-- Rounds `v` up to a multiple of `m`. -/
def roundUp (v m : Nat) : Nat := (v + m - 1) / m * m
/-- Number of bits of the binary form: the position of the leading one plus one, 0 for 0, below `fuel`. -/
def bitLen (v : Nat) : Nat := if v = 0 then 0 else Nat.log2 v + 1

end Sys2Proof.Machine
end

