-- ==== Sys2Proof/Machine/Flags.lean ====
section
/-! DEFINITION. Integer element arithmetic: types, saturation and the operations of Tables 5.4 to 5.8 (R139 to R151). -/
namespace Sys2Proof.Machine

/-- Signedness of MODE.IT (Table 5.4): s types are signed. -/
def itSigned (it : Nat) : Bool := it % 2 == 0
/-- Element width of MODE.IT (Table 5.4). -/
def itWidth (it : Nat) : Nat := if it ≤ 1 then 32 else if it ≤ 3 then 16 else 8
/-- Value of an element under a signedness. -/
def elemVal (sgn : Bool) (w u : Nat) : Int := if sgn then signed w u else ((u % 2 ^ w : Nat) : Int)
/-- The range of a type (Table 5.4). -/
def typeLo (sgn : Bool) (w : Nat) : Int := if sgn then -((2 ^ (w - 1) : Nat) : Int) else 0
def typeHi (sgn : Bool) (w : Nat) : Int := ((2 ^ (if sgn then w - 1 else w) : Nat) : Int) - 1
/-- An integer clamped to a range. -/
def clampInt (r lo hi : Int) : Int := if r < lo then lo else if hi < r then hi else r
/-- The fit of R140: clamp when saturating, else wrap. -/
def fit (sgn : Bool) (w : Nat) (sat : Bool) (r : Int) : Nat :=
  wrap w (if sat then clampInt r (typeLo sgn w) (typeHi sgn w) else r)

/-- Applies an element function to every element of 32-bit operands a, b and d (R139). -/
def perElem (it : Nat) (f : Nat → Nat → Nat → Nat) (a b d : Nat) : Nat :=
  let w := itWidth it
  sumNat ((upFrom 0 (32 / w)).map fun k => f (bits a (w * k) w) (bits b (w * k) w) (bits d (w * k) w) % 2 ^ w * 2 ^ (w * k))

/-! Element operations, by signedness, width and saturation (Table 5.5). -/

def opAdd (sgn : Bool) (w : Nat) (sat : Bool) (u v _acc : Nat) : Nat := fit sgn w sat (elemVal sgn w u + elemVal sgn w v)
def opSub (sgn : Bool) (w : Nat) (sat : Bool) (u v _acc : Nat) : Nat := fit sgn w sat (elemVal sgn w u - elemVal sgn w v)
def opMul (sgn : Bool) (w : Nat) (sat : Bool) (u v _acc : Nat) : Nat := fit sgn w sat (elemVal sgn w u * elemVal sgn w v)
/-- The high half of the product, rounded toward minus infinity (R142). -/
def opMulh (sgn : Bool) (w : Nat) (_sat : Bool) (u v _acc : Nat) : Nat :=
  wrap w (elemVal sgn w u * elemVal sgn w v / ((2 ^ w : Nat) : Int))
def opMad (sgn : Bool) (w : Nat) (sat : Bool) (u v acc : Nat) : Nat :=
  fit sgn w sat (elemVal sgn w u * elemVal sgn w v + elemVal sgn w acc)
def opMin (sgn : Bool) (w : Nat) (_sat : Bool) (u v _acc : Nat) : Nat := if elemVal sgn w u ≤ elemVal sgn w v then u else v
def opMax (sgn : Bool) (w : Nat) (_sat : Bool) (u v _acc : Nat) : Nat := if elemVal sgn w u ≤ elemVal sgn w v then v else u
def opShl (_sgn : Bool) (w : Nat) (_sat : Bool) (u v _acc : Nat) : Nat := u * 2 ^ (v % w) % 2 ^ w
/-- Right shift: arithmetic for s types, logical for n types. -/
def opShr (sgn : Bool) (w : Nat) (_sat : Bool) (u v _acc : Nat) : Nat :=
  wrap w (elemVal sgn w u / ((2 ^ (v % w) : Nat) : Int))
def opRot (_sgn : Bool) (w : Nat) (_sat : Bool) (u v _acc : Nat) : Nat :=
  (u * 2 ^ (v % w) % 2 ^ w + u / 2 ^ (w - v % w)) % 2 ^ w
def opAbsd (sgn : Bool) (w : Nat) (_sat : Bool) (u v _acc : Nat) : Nat :=
  (elemVal sgn w u - elemVal sgn w v).natAbs % 2 ^ w
/-- Division truncating toward zero, with the edge results of Table 5.6. -/
def opDiv (sgn : Bool) (w : Nat) (_sat : Bool) (u v _acc : Nat) : Nat :=
  if v % 2 ^ w = 0 then 2 ^ w - 1 else wrap w ((elemVal sgn w u).tdiv (elemVal sgn w v))
/-- Remainder with the sign of the dividend, with the edge results of Table 5.6. -/
def opRem (sgn : Bool) (w : Nat) (_sat : Bool) (u v _acc : Nat) : Nat :=
  if v % 2 ^ w = 0 then u else wrap w ((elemVal sgn w u).tmod (elemVal sgn w v))

/-! Operations over the whole register of `w` bits (32 or 64). -/

def opAnd (_sgn : Bool) (w : Nat) (u v _acc : Nat) : Nat := (u &&& v) % 2 ^ w
def opOr (_sgn : Bool) (w : Nat) (u v _acc : Nat) : Nat := (u ||| v) % 2 ^ w
def opXor (_sgn : Bool) (w : Nat) (u v _acc : Nat) : Nat := (u ^^^ v) % 2 ^ w
def opAndn (_sgn : Bool) (w : Nat) (u v _acc : Nat) : Nat := u &&& (2 ^ w - 1 - v % 2 ^ w)

/-- Position and clipped length of a bit field (R148). -/
def fieldPos (w v : Nat) : Nat := if w = 32 then bits v 0 5 else bits v 0 6
def fieldLen (w v : Nat) : Nat := Nat.min (Nat.min (if w = 32 then bits v 8 6 else bits v 8 7) w) (w - fieldPos w v)
/-- BFX: the field of a, extended by signedness; 0 for an empty field (R148). -/
def opBfx (sgn : Bool) (w : Nat) (u v _acc : Nat) : Nat :=
  let len := fieldLen w v
  if len = 0 then 0 else wrap w (elemVal sgn len (bits u (fieldPos w v) len))
/-- BFI: the low bits of a placed into the field of d (R148). -/
def opBfi (_sgn : Bool) (w : Nat) (u v acc : Nat) : Nat :=
  let len := fieldLen w v
  if len = 0 then acc else setField acc (fieldPos w v) len (u % 2 ^ len)

/-- PRMB: four result bytes from b:a by the selectors of the old d (R149). -/
def opPrmb (a b d : Nat) : Nat :=
  let src := a + 2 ^ 32 * b
  let byte := fun k =>
    let x := bits src (8 * bits d (5 * k) 3) 8
    match bits d (5 * k + 3) 2 with
    | 0 => x
    | 1 => 0
    | 2 => if bitAt x 7 then 255 else 0
    | _ => 255
  byte 0 + 2 ^ 8 * byte 1 + 2 ^ 16 * byte 2 + 2 ^ 24 * byte 3

/-! Unary operations (Table 5.8), by signedness, width and saturation. -/

/-- Leading zeros of a `w`-bit value. -/
def opClz (_sgn : Bool) (w : Nat) (_sat : Bool) (u : Nat) : Nat := w - bitLen (u % 2 ^ w)
/-- Trailing zeros of a `w`-bit value; `w` for 0. -/
def opCtz (_sgn : Bool) (w : Nat) (_sat : Bool) (u : Nat) : Nat :=
  match (upFrom 0 w).find? fun i => bitAt u i with | some i => i | none => w
def opPopc (_sgn : Bool) (w : Nat) (_sat : Bool) (u : Nat) : Nat := popcount w u
def opBrev (_sgn : Bool) (w : Nat) (_sat : Bool) (u : Nat) : Nat :=
  sumNat ((upFrom 0 w).map fun i => ofBool (bitAt u i) * 2 ^ (w - 1 - i))
def opNeg (sgn : Bool) (w : Nat) (sat : Bool) (u : Nat) : Nat := fit sgn w sat (- elemVal sgn w u)
def opAbs (sgn : Bool) (w : Nat) (sat : Bool) (u : Nat) : Nat := fit sgn w sat ((elemVal sgn w u).natAbs : Int)

/-- Compare conditions of ICMP and ICMPI over 32-bit values (Table 2.11). -/
def icmpCond (sgn : Bool) (cc : Nat) (a b : Nat) : Bool :=
  let u := elemVal sgn 32 a
  let v := elemVal sgn 32 b
  match cc with
  | 0 => decide (u = v) | 1 => decide (u ≠ v) | 2 => decide (u < v) | 3 => decide (u ≤ v)
  | 4 => decide (v < u) | 5 => decide (v ≤ u) | 6 => a &&& b != 0 | _ => a &&& b == 0

end Sys2Proof.Machine
end

