-- ==== Sys2Proof/Machine/State.lean ====
section
/-! DEFINITION. The state of the part as plain data, and its reset (spec/01 to spec/17; INVENTORY.md lists every piece).
Tables are keyed by Nat; an unlisted key of a table whose docstring gives a default reads as that default. -/
namespace Sys2Proof.Machine

/-- Why a run of the model stops. Each is raised only where no rule of the spec gives an effect. -/
inductive Fault where
  /-- Raised by the meaning of an instruction word when no split is issuing: a word has an effect only when a split
  issues it (R67). Safe: no run of `step` reaches it. -/
  | noIssuingSplit
  /-- Raised by a device step whose subject does not exist or is not in the condition the rule names, so that the
  step is not one the part takes in that state. Safe. -/
  | notEnabled (mnemonic : String)
  deriving DecidableEq, Repr

/-- Why the model gives an instruction no meaning. -/
inductive Refusal where
  /-- Raised by an arm of exec whose instruction has no meaning yet. Safe. -/
  | notModelled (mnemonic : String)
  deriving DecidableEq, Repr

/-! ### Lanes, slices, splits and teams (spec/03, 04, 05, 06, 15) -/

/-- When an outstanding register write is in place (R105, R107, R115): at an issue slot of its slice, or once the
operation is covered, named by its token and its ordinal among the operations posted to that token. -/
inductive Ripe where
  | slot (k : Nat)
  | cov (tok seq : Nat)
  deriving DecidableEq, Repr

/-- An outstanding write of one 32-bit register unit (R105, R116). -/
structure PendW where
  key : Nat
  val : Word
  mask : Word
  slot : Nat
  ripe : Ripe
  deriving DecidableEq, Repr

/-- An outstanding flag write of a lane (R177). -/
structure PendF where
  lane : Nat
  flags : Word
  ripe : Ripe
  deriving DecidableEq, Repr

/-- A write of a register unit by an operation that has landed (R116): its issue slot, and since when it is covered. -/
structure TokW where
  key : Nat
  slot : Nat
  ripe : Ripe
  deriving DecidableEq, Repr

/-- An operation standing on a token of a slice (R109, R111). Operation 0 stands for an increment whose word is parked
(R110, R276). -/
structure TokE where
  tok : Nat
  op : Nat
  done : Bool
  deriving DecidableEq, Repr

/-- A write that a copy engine made to a byte which a slice has stored unseen by the engine: its step and its operation (R318). -/
structure EngW where
  addr : Nat
  step : Nat
  op : Nat
  deriving DecidableEq, Repr

/-- One lane (Table 3.2, R50, R156, R329). -/
structure Lane where
  c : BitVec 8 := 0
  e : Bool := false
  d : Bool := false
  lid : Word := 0
  prec : Word := 0x00001018#32
  tprec : Word := 0
  deriving DecidableEq, Repr

/-- One slice (R125 to R133, R109, R171, R52, R302). -/
structure Slice where
  pos : Nat := 0
  origin : Nat := 0
  wb : Nat := 0
  size : Nat := 32
  /-- Register units, default 0: x slot n of lane i at 12n + i, half k of g register r at 24r + 12k + 4 (64 and 65 are
  the handler bank), predicate r of lane i at 12r + 8 + i. -/
  regs : SMap Word := []
  lanes : List Lane := []
  cpc : Option (BitVec 48) := none
  /-- h0 to h7, default 0 (Table 6.9). -/
  hs : SMap (BitVec 128) := []
  toks : List TokE := []
  /-- Standing counts, default 0 (R117). -/
  stand : SMap Nat := []
  /-- Operations posted so far to each token, default 0 (R115). -/
  posted : SMap Nat := []
  /-- Issue slots counted so far (R102). -/
  slot : Nat := 0
  pend : List PendW := []
  pendF : List PendF := []
  /-- Slot of the latest fixed-latency writer of each register unit, default 0 (R116). -/
  lastW : SMap Nat := []
  /-- Landed writes of operations while others of the slice are outstanding (R116). -/
  tokW : List TokW := []
  /-- Slot at which a word last read each unit that an operation is to write, with no write of it outstanding, default 0
  (R116). -/
  readAt : SMap Nat := []
  /-- Reads outstanding at the latest fence with a release part: what the slice writes after it comes after them (R308, R311). -/
  fenced : List Nat := []
  /-- Bytes the slice stored that no fence with the engine bit has covered, each with the step of the first such store: an engine
  may read a value held since then (R318). -/
  unseen : SMap Nat := []
  /-- What engine operations of the slice's splits wrote over them, which counts once their completion is observed (R311, R319). -/
  engW : List EngW := []
  /-- The last ordinal of each token that is covered, default 0 (R115). -/
  coveredTo : SMap Nat := []
  /-- The step at which a BARW last observed a phase of each byte barrier, default 0 (R212). -/
  barSeen : SMap Nat := []
  /-- The step of the latest fence of the slice with an acquire part and the engine bit (R314). -/
  engSeen : Nat := 0
  /-- The step of the latest BSYNC, RGANG or acquire of the slice, which shows it what other slices have stored in the scratchpad
  (R209, R317, R319). -/
  synced : Nat := 0
  /-- The g register written by LDHG or LDLG in the slot before (R36). -/
  chain : Option Nat := none
  cycleh : Word := 0
  /-- Remote fault record: TVAL of Table 13.9 and the subcause (R302). -/
  rfault : Option (DWord × Nat) := none
  /-- Child grids running that this slice launched (R368). -/
  children : Nat := 0
  retired : Bool := false
  deriving DecidableEq, Repr

/-- A cause with the values it reports (Table 15.1). -/
structure CauseRec where
  code : BitVec 8
  sub : Nat := 0
  tval : Nat := 0
  tlanes : Nat := 0
  pc : BitVec 48 := 0
  /-- Bits [63:48] of the address, set only where a fetch beyond 2^48 fails (R49, R271). -/
  pcHi : BitVec 16 := 0
  deriving DecidableEq, Repr

/-- The address of the instruction, as TPC holds it. -/
def CauseRec.tpc (c : CauseRec) : Nat := c.pc.toNat + 2 ^ 48 * c.pcHi.toNat

/-- What a not-ready split waits for (Table 3.1). -/
inductive Wait where
  | none
  | token (t n : Nat)
  | drain
  | restore (h : Nat) (vals : List (Nat × DWord))
  | rgang
  | bsync (b : Nat)
  | barw (b : Nat) (parity : Bool)
  | mwait (line : Nat) (tmo : Nat) (since : Nat) (ga : DWord) (hit : Bool)
  | lwait
  | nwait (ctr thr : Nat)
  | lrfence
  | rfence
  | fence (scope order : Nat) (eng : Bool)
  | order (ops : List Nat)
  | launch (lid : Nat)
  | accept (op : Nat)
  | check (op : Nat)
  | exact (ops : List Nat) (bad : Nat)
  deriving DecidableEq, Repr

/-- The need of an access (Table 12.5). -/
inductive Need where
  | r | w | rw | x
  deriving DecidableEq, Repr

/-- How one missing page of a parked translation stands (R276, R278): still to walk, missed at a level, in service,
declined with the cause and subcause of R275, or passed with its physical address. `hole` marks a leaf that landed in
a hole (R20). -/
inductive MissSt where
  | walk
  | missed (level : Nat) (hole : Bool)
  | service (svc : Nat) (hole : Bool)
  | declined (code sub : Nat)
  | passed (pa : Nat)
  deriving DecidableEq, Repr

/-- One missing translation of a park. -/
structure Miss where
  va : Nat
  need : Need
  st : MissSt
  /-- Which regions the access may name (Machine/Xlate.lean). -/
  cls : Nat := 0
  deriving DecidableEq, Repr

/-- What a parked split replays (R276, R277): its instruction, an engine's acceptance, or a fetch. -/
inductive ParkFor where
  | instr (i : Instr)
  | engine (op : Nat)
  | fetch
  deriving DecidableEq, Repr

/-- A split parked on translation misses. `passed` lists the checks that passed, by address, need and result; `step` is the step in
which the instruction issued. -/
structure Park where
  what : ParkFor
  misses : List Miss
  passed : List (Nat × Need × Nat)
  step : Nat := 0
  deriving DecidableEq, Repr

/-- An instruction whose checks are replayed, with the step of its issue, whose free choices its operands keep (R276). -/
structure Held where
  instr : Instr
  step : Nat
  deriving DecidableEq, Repr

/-- One split (R70, R134, R329, R335). -/
structure Split where
  team : Nat
  gang : Nat
  /-- Gang slices of the split, rising. -/
  slices : List Nat
  pc : BitVec 48
  /-- Bits [63:48] of the PC that a CALLR target gave; no fetch passes while one is set (R130, R271). -/
  pcHi : BitVec 16 := 0
  mode : Word
  handler : Bool := false
  tcause : Word := 0
  tpc : DWord := 0
  tval : DWord := 0
  tlanes : DWord := 0
  tsave : Word := 0
  age : Nat := 0
  busy : Nat := 0
  /-- Core cycle at which the instruction at PC first issued (R335). -/
  issuedAt : Nat := 0
  wait : Wait := .none
  park : Option Park := none
  /-- Translations that passed at a replay, for the instruction about to issue again (R276). -/
  passed : List (Nat × Need × Nat) := []
  /-- Translations that were declined, with cause and subcause, for that instruction. -/
  declined : List (Nat × Need × Nat × Nat) := []
  /-- The instruction that issues again, once its park has ended (R276). -/
  held : Option Held := none
  /-- The split with which it becomes one once the word they issued together has ended in each (R72). -/
  joinTo : Option Nat := none
  /-- The token hazard found at decode of a word whose checks are still in progress (R119). -/
  hazard : Option CauseRec := none
  pending : Option CauseRec := none
  /-- Issue cycle of the instruction that raised the pending cause (R335). -/
  pendAt : Nat := 0
  afterRft : Bool := false
  stepMark : Bool := false
  deriving DecidableEq, Repr

/-- What is kept of a saved split beside its save-area entry: its number, the wait it goes on with, the issue of the instruction it
stands at, and its marks of RFT and of single-stepping (R302, R335, R336, R341). -/
structure SavedSplit where
  sid : Nat
  wait : Wait
  joinTo : Option Nat := none
  issuedAt : Nat := 0
  pendAt : Nat := 0
  afterRft : Bool := false
  stepMark : Bool := false
  deriving DecidableEq, Repr

/-- A gang of a team (R61 to R65). -/
structure Gang where
  width : Nat
  role : Nat
  size : Nat
  entry : Nat := 0
  retired : Bool := false
  deriving DecidableEq, Repr

/-- A lane-counting barrier slot (Table 8.4). -/
structure Barrier where
  gm : BitVec 16 := 0
  nx : BitVec 11 := 0
  arr : BitVec 11 := 0
  deriving DecidableEq, Repr

/-- A byte-counting barrier (Table 8.6). -/
structure ByteBar where
  arm : Bool := false
  ph : Bool := false
  rem : Word := 0
  deriving DecidableEq, Repr

/-- One team (R62, R63, R200, R207, R210, R236). -/
structure Team where
  asid : Nat
  grid : Nat
  idx : Word
  x : Word
  y : BitVec 16
  z : BitVec 16
  site : Nat
  core : Nat
  gangs : List Gang
  scratchBase : Nat
  scratch : Nat
  /-- Allotted tile names with the role that owns each and the physical tile. -/
  tiles : List (Nat × Nat × Nat)
  /-- Physical barrier slots and byte barriers, in the order of the team's names. -/
  barPhys : List Nat
  bbPhys : List Nat
  bars : List Barrier
  bbs : List ByteBar
  /-- Children counted against the team by retired slices (R369). -/
  children : Nat := 0
  /-- Resident on its core; a saved team is not (R338, R342). -/
  resident : Bool := true
  /-- Save area (R339): address once placed, and the service that asks for it. -/
  saveAt : Option Nat := none
  /-- The save area came from the save pool. -/
  savePooled : Bool := false
  /-- Its splits in the order of the save area's split table, once saved. -/
  savedSids : List SavedSplit := []
  saveSvc : Option Nat := none
  deriving DecidableEq, Repr

/-- A grid in progress (R360, R367, R369). -/
structure Grid where
  asid : Nat
  launch : Nat
  header : Nat
  /-- Header in force, 128 bytes, and kernel descriptor, 128 bytes. -/
  hdr : List Byte
  kdesc : List Byte
  depth : Nat
  root : Nat
  teams : Nat
  /-- Teams not retired yet. -/
  unretired : Nat
  /-- Teams still to place, by site, each list rising. -/
  toPlace : List (Nat × List Nat)
  /-- Where the header of a child lies, as its LAUNCH translated it (R367, R368). -/
  hdrPa : Option Nat := none
  /-- Cores its teams ran on, for the release at its end (R351). -/
  cores : List Nat := []
  /-- Its teams placed so far. -/
  tids : List Nat := []
  /-- Who launched it: a packet, or a slice of a team. -/
  parent : Option (Nat × Nat)
  pkt : Option Nat
  deriving DecidableEq, Repr

/-! ### Outstanding operations (spec/04, 09, 10, 13) -/

/-- How the bytes of a load become a register value. -/
inductive Conv where
  | extend (sgn : Bool) (outBytes : Nat)
  | packed (p e : Nat) (prec : Word)
  deriving DecidableEq, Repr

/-- Whether an access loads, stores, or reads, modifies and writes. -/
inductive AccKind where
  | load | store | atom
  deriving DecidableEq, Repr

/-- The access of one lane or slice: one address per byte, the data of a store, the destination units of a load. -/
structure Acc where
  sk : Nat
  lane : Nat
  addrs : List Nat
  data : List Byte := []
  dst : List Nat := []
  conv : Conv := .extend false 4
  opV : Nat := 0
  opE : Nat := 0
  /-- PREC flags that a store's rounding sets (R173). -/
  fl : Nat := 0
  /-- Whether it is single-copy atomic; else its bytes are performed one by one (R174). -/
  whole : Bool := true
  /-- Bytes performed so far, by their place in the access. -/
  got : SMap Byte := []
  deriving DecidableEq, Repr

/-- A result computed at issue that lands at completion. -/
structure Land where
  sk : Nat
  key : Nat
  val : Word
  deriving DecidableEq, Repr

/-- A layout record as accepted (Table 9.5); dimension lists hold RANK entries. -/
structure LRec where
  fmt : Nat
  sfmt : Nat
  blk : Nat
  rank : Nat
  oob : Nat
  sat : Nat
  rnd : Nat
  tgt : Nat
  base : Nat
  sbase : Nat
  sizes : List Nat
  strides : List Nat
  boxes : List Nat
  deriving DecidableEq, Repr

/-- A TCOPY (R230 to R233). -/
structure TCopy where
  store : Bool
  ctl : DWord
  recAddr : DWord
  coord : DWord
  ep : Nat
  accepted : Bool := false
  lrec : Option LRec := none
  origin : List Int := []
  /-- Translated pages: virtual page base, physical page base, page bytes. -/
  pages : List (Nat × Nat × Nat) := []
  /-- Physical base of the team's scratchpad. -/
  scr : Nat := 0
  /-- The box origin and the record's bytes, once the acceptance has read them (R231). -/
  coords : Option (List Int) := none
  recBytes : Option (List Byte) := none
  /-- Box positions still to move. -/
  left : List Nat := []
  /-- Moved elements still to write, each by its address in the core SRAM with its bytes. -/
  outs : List (Nat × List Byte) := []
  /-- Computed scales not yet written, by the virtual address of the scale, and the source elements read for them, by box
  position (R221, R232). -/
  scales : List (Nat × Byte) := []
  srcs : SMap Nat := []
  deriving DecidableEq, Repr

/-- Which matrix operation (R245 to R251). -/
inductive MatKind where
  | mma (ow : Bool) | mmag (ow : Bool) | mmas (ow : Bool) | accz | accrd | accwr | accst
  deriving DecidableEq, Repr

/-- A matrix engine operation. -/
structure MatOp where
  kind : MatKind
  /-- Tile name, and physical tile once accepted. -/
  tile : Nat
  phys : Nat := 0
  ga : DWord := 0
  gb : DWord := 0
  accepted : Bool := false
  /-- Physical base of the team's scratchpad. -/
  scr : Nat := 0
  /-- ACCST: its elements still to write, each by its address in the core SRAM with its bytes, once its turn at the tile has come. -/
  outs : Option (List (Nat × List Byte)) := none
  /-- An operand read met an uncorrectable soft error (R242). -/
  bad : Bool := false
  /-- A and B as read at acceptance, row-major, CE16 encodings. -/
  amat : List Nat := []
  bmat : List Nat := []
  /-- ACCRD and ACCWR: slice, lane and column of each active guarded lane, with the data of ACCWR or the destination. -/
  cols : List (Nat × Nat × Nat) := []
  vals : List Word := []
  row : Nat := 0
  deriving DecidableEq, Repr

/-- A remote operation at its source (R293 to R302). -/
structure Remote where
  kind : PktKind
  /-- Token field reported by Table 13.9, and the value of its low 48 bits. -/
  tokField : Nat
  dstPanel : Nat
  dst : Nat
  /-- Remote pieces: offset on the destination island and bytes. -/
  rem : List (Nat × Nat) := []
  rva : Nat
  len : Nat := 0
  /-- Local pieces: physical address and bytes. -/
  loc : List (Nat × Nat) := []
  fenced : Bool := false
  /-- Counter of the target that a put increments. -/
  notify : Option Nat := none
  /-- What an NADD adds. -/
  val : Word := 0
  aop : BitVec 3 := 0
  sgn : Bool := false
  wide : Bool := false
  accs : List Acc := []
  route : List Nat
  relScope : Option Nat := none
  acq : Bool := false
  /-- Scope of the acquire part. -/
  scope : Nat := 0
  sent : Bool := false
  /-- Packets not yet answered, and of a get those not yet read at the target. -/
  partsLeft : List Nat := []
  unread : List Nat := []
  failed : Option Nat := none
  /-- Issue cycle of the core at issue. -/
  since : Nat := 0
  deriving DecidableEq, Repr

/-- What an operation does. -/
inductive OpBody where
  | result (lands : List Land) (flags : List (Nat × Nat × Word))
  | access (kind : AccKind) (scr : Bool) (accs : List Acc) (ep : Nat) (lu : Bool) (aop : BitVec 3) (sgn wide : Bool)
      (rel acq : Bool) (scope : Nat)
  | cmo (op : Nat) (l2 : Bool) (lines : List Nat) (ep : Nat)
  | vpah (d : Nat) (reads : List (Nat × Nat × Nat)) (ep : Nat)
  | tcopy (t : TCopy)
  | matrix (m : MatOp)
  | remote (r : Remote)
  | launch (lid : Nat)
  deriving DecidableEq, Repr

/-- One outstanding operation (R109 to R113). -/
structure Op where
  asid : Nat
  team : Nat
  site : Nat
  core : Nat
  /-- Slices of the issuing split and the token posted in each. -/
  slices : List Nat
  tok : Option Nat
  /-- Ordinal on its token, per slice (R115), and the issue slot, per slice. -/
  seqs : List (Nat × Nat)
  slots : List (Nat × Nat)
  pc : BitVec 48
  handler : Bool
  gang : Nat
  /-- Live lanes of the issuing split, by lane number. -/
  lanes : Nat
  /-- Operations that take effect before this one (R307, R314, R316). -/
  after : List Nat
  /-- The step of its issue, or the one behind the end of the latest operation it comes after: an engine's operand bytes are
  values held since then (R234, R241). -/
  since : Nat := 0
  /-- Reads that have their value before its acquire part runs (R314, R316). -/
  reads : List Nat := []
  /-- Register units it writes, by slice, as the pending record holds them (R118). -/
  record : List (Nat × Nat) := []
  /-- Virtual 64 KiB pages that its checks passed with (R281). -/
  pages : List Nat := []
  /-- L2 partition (R259). -/
  part : Nat
  /-- What the record of a cause reports of the issuing team, which the operation may outlive: root queue, index and GANGID (R113,
  R325). -/
  queue : Option Nat := none
  tidx : Nat := 0
  gid : Nat := 0
  body : OpBody
  deriving DecidableEq, Repr

/-! ### Cores, islands and the fabric (spec/01, 08, 11, 12, 13) -/

/-- A TLB entry: ASID, level of the leaf, virtual page number at that level, leaf. -/
structure Tlb where
  asid : Nat
  level : Nat
  vpn : Nat
  leaf : DWord
  deriving DecidableEq, Repr

/-- Who wrote a byte of core SRAM: a slice, or an engine operation. -/
inductive SramBy where
  | slice (sk : Nat)
  | engine (op : Nat)
  deriving DecidableEq, Repr

/-- A write of a byte of core SRAM: its step, the value it replaced, and who made it. -/
structure SramOld where
  step : Nat
  val : Byte
  who : SramBy
  deriving DecidableEq, Repr

/-- An engine operation that has completed on a core: its token with its ordinal in each slice, the byte barrier it credited, and
the step of its completion (R115, R212). -/
structure EngDone where
  team : Nat
  tok : Option Nat
  seqs : List (Nat × Nat)
  bar : Option Nat
  ended : Nat
  deriving DecidableEq, Repr

/-- One core (R199, R202, R228, R236, R274, R398). -/
structure Core where
  l1w : BitVec 6 := 8
  /-- Core SRAM bytes, default 0. -/
  scratch : SMap Byte := []
  /-- L1 lines by physical line number; of each the valid bytes with their dirty bits. -/
  l1 : SMap (SMap (Byte × Bool)) := []
  /-- Tile elements, default 0: physical tile p, row r, column c at 4096p + 64r + c. -/
  tiles : SMap Word := []
  /-- The writes that bytes of the core SRAM have seen while teams stand on the core, oldest first (R234, R241). -/
  sramPast : SMap (List SramOld) := []
  /-- Engine operations of its teams that have completed (R241, R319). -/
  engDone : SMap EngDone := []
  /-- Bytes of the core SRAM and tile elements with an uncorrectable soft error (R242). -/
  badSram : List Nat := []
  badTiles : List Nat := []
  /-- Record cache: the records it holds, and the step before which it was last invalidated (R228). -/
  recs : List Nat := []
  recSince : Nat := 0
  /-- Fetch buffer by physical address of the word, and the step before which it was last emptied (R398). -/
  fetch : SMap Word := []
  fetchSince : Nat := 0
  tlb : List Tlb := []
  /-- Issue cycles taken. -/
  cycles : Nat := 0
  deriving DecidableEq, Repr

/-- One L2 way (Table 11.3); `used` orders accesses for R258. -/
structure L2Way where
  tag : BitVec 18
  own : BitVec 4
  ret : BitVec 2
  lv : BitVec 4
  ld : BitVec 4
  lp : BitVec 4
  used : Nat
  deriving DecidableEq, Repr

/-- A layer map-out in progress (Table 11.10): die, step 2 to 4, mode, services awaited. -/
structure MapOut where
  die : Nat
  step : Nat
  host : Bool
  svc : Option Nat
  deriving DecidableEq, Repr

/-- One island (Table 1.4, R52, R64, R274, R282, R383). Link fields live in the links. -/
structure Island where
  cmap0 : BitVec 64 := BitVec.allOnes 64
  cmap1 : BitVec 64 := BitVec.allOnes 64
  hdie : BitVec 64 := BitVec.allOnes 64
  /-- HDIE as fused (Table 17.8). -/
  hdieFused : BitVec 64 := BitVec.allOnes 64
  igen : BitVec 64 := 0
  cycle : Nat := 0
  tlb : List Tlb := []
  nextCore : Nat := 0
  underReset : Bool := false
  live : Bool := true
  /-- Topology table, default 0. -/
  topo : SMap DWord := []
  amps : Nat := 1250
  mhz : Nat := 2000
  /-- Postponements in a row of each bank's refresh, default 0 (R267). -/
  postponed : SMap Nat := []
  mapouts : List MapOut := []
  /-- Partition way masks, default 0xFFFF (Table 11.4). -/
  masks : SMap (BitVec 16) := []
  deriving DecidableEq, Repr

/-- One virtual channel of a link direction (R285 to R288). -/
structure VChan where
  /-- Packets queued at the sender, with the flits of the first still to send. -/
  queue : List Nat := []
  left : Nat := 0
  sent : Nat := 0
  freedView : Int := 0
  freed : Nat := 0
  /-- Flits the receiver has accepted. -/
  got : Nat := 0
  /-- Cycles for which a flit has been held with zero credits. -/
  stall : Nat := 0
  deriving DecidableEq, Repr

/-- A flit that has a sequence number: its channel, its packet, and whether it is the packet's last (R285). -/
structure Flit where
  vc : Nat
  pk : Nat
  last : Bool
  deriving DecidableEq, Repr

/-- One link direction, out of a port of a site (R285, R288). `lanes` is 0 down, 1 or 2. -/
structure Link where
  lanes : Nat := 2
  /-- Lanes as fused, 0 for an absent external port (Table 1.4). -/
  fused : Nat := 2
  /-- The sender's next new number, and the number the receiver expects. -/
  seq : BitVec 12 := 0
  expect : BitVec 12 := 0
  /-- Flits sent and not yet accepted, oldest first, and how many of them are on their way ahead of the next to be sent. -/
  window : List Flit := []
  next : Nat := 0
  /-- A number the receiver has reported and the sender has not acted on. -/
  report : Option (BitVec 12) := none
  /-- Discarded arrivals in a row of the flit that the receiver expects. -/
  tries : Nat := 0
  /-- Flits the receiver accepted since its last credit audit (R288). -/
  accepted : Nat := 0
  request : VChan := {}
  response : VChan := {}
  control : VChan := {}
  auditAsked : Bool := false
  /-- Audits from another panel's receiver (log entry 71). -/
  audits : List (Nat × Nat × Nat) := []
  /-- Flit slots since control last had one (R287). -/
  slots : Nat := 0
  deriving DecidableEq, Repr

/-- A packet of this panel's fabric: where it stands, and whether it waits on a link (port, channel). -/
structure PktSt where
  pkt : Pkt
  site : Nat
  /-- Hops still to take. -/
  hops : List Nat
  onLink : Option (Nat × Nat)
  /-- Link and channel whose receive buffer it occupies. -/
  buf : Option (Nat × Nat) := none
  deriving DecidableEq, Repr

/-- How far a put of several packets has been performed at its target (R294, R295). -/
structure PutProg where
  site : Nat
  srcPanel : Nat
  src : Nat
  op : Nat
  done : Nat
  deriving DecidableEq, Repr

/-! ### Contexts and the front end (spec/12, 15, 16, 17) -/

/-- How a pre-emption stands (R338): none, stopping since these cycles of the islands, or past the handler limit. -/
inductive PreSt where
  | none | stopping (since : List (Nat × Nat)) | limit
  deriving DecidableEq, Repr

/-- One context (R269, R270, R291, R329, R336, R379, R385). -/
structure Ctx where
  pid : Word
  window : DWord
  modeWord : Word
  ring : EvRing
  events : Nat := 0
  /-- Translation descriptors by site. -/
  descs : SMap DWord := []
  tvec : DWord := 0
  dbg : Word := 0
  fills : List FillRange := []
  resident : Bool := true
  halted : Bool := false
  haltPending : Bool := false
  /-- The splits that debugger causes stopped, each with its cause (R337). -/
  haltAt : List (Nat × CauseRec) := []
  /-- Set when a fatal cause ends the context: the record to post and the queue, and the causes counted in LATER. -/
  ending : Bool := false
  endRec : Option (Nat × List Byte) := none
  later : Nat := 0
  /-- Splits that have not come to their next issue slot since, so that the first step of R325 is not complete. -/
  unstopped : List Nat := []
  /-- Command positions of CTX.END commands that end with it. -/
  endCmds : List Nat := []
  pre : PreSt := .none
  preQueued : Bool := false
  /-- The context to become resident once this one is saved (R338). -/
  next : Option Nat := none
  /-- Front-end cycle at which it became resident (R359). -/
  since : Nat := 0
  deriving DecidableEq, Repr

/-- Queue state (Table 16.1), record sequence and held records (R353). -/
structure Queue where
  en : Bool := false
  err : Bool := false
  has : Bool := false
  pri : BitVec 2 := 0
  grp : BitVec 8 := 0
  asid : BitVec 8 := 0
  rel : BitVec 11 := 0
  head : BitVec 11 := 0
  rbase : BitVec 64 := 0
  rcnt : BitVec 64 := 0
  rkey : BitVec 32 := 0
  conn : BitVec 10 := 0
  rlog : BitVec 5 := 4
  seq : Nat := 0
  held : List (List Byte) := []
  /-- The packet at HEAD as copied and found well formed, until it is dispatched (R348, R349; log entry 39). -/
  copy : Option (List Byte) := none
  deriving DecidableEq, Repr

/-- Group state (Table 16.4). -/
structure Group where
  dc : BitVec 16 := 0
  /-- Index of the last queue served among the queues of the group, rising; `qpHi` goes on from its 8 bits for a group of more
  than 256 queues (log entry 73, DESIGN CHOICE). -/
  qp : BitVec 8 := 0
  qpHi : BitVec 5 := 0
  weight : BitVec 8 := 1
  deriving DecidableEq, Repr

/-- What a queue would have dispatched next: a child's launch, a launch to repeat, or its head packet (R355, R363, R369). -/
inductive Cand where
  | child (lid : Nat)
  | again (lid pid : Nat)
  | head
  deriving DecidableEq, Repr

/-- A dispatch decision that waits for a free launch processor (R355). -/
structure Choice where
  level : Nat
  group : Nat
  queue : Nat
  cand : Cand
  cost : Nat
  deriving DecidableEq, Repr

/-- How a dispatched packet stands. -/
inductive PSt where
  | ready | waiting | running | finishing
  deriving DecidableEq, Repr

/-- A packet in flight (R348 to R352). -/
structure FPkt where
  q : Nat
  pos : Nat
  ty : Nat
  ocl : Nat
  fsc : Nat
  asid : Nat
  payload : List Byte
  st : PSt
  /-- Increments of a SIGNAL on other panels not yet answered. -/
  left : Nat := 0
  deriving DecidableEq, Repr

/-- The split that issued a LAUNCH, as its fault record reports it (Table 15.10). -/
structure LaunchSrc where
  site : Nat
  core : Nat
  gang : Nat
  idx : Nat
  pc : Nat
  deriving DecidableEq, Repr

/-- A prologue in progress: its slice, its PC, the instructions executed (R363). -/
structure Pro where
  sl : Slice
  pc : Nat
  n : Nat
  deriving DecidableEq, Repr

/-- A launch in progress (R362, R368). -/
structure Launch where
  asid : Nat
  pkt : Option Nat
  /-- Issuing team and slice of a LAUNCH instruction, with what its fault record reports, and its operation. -/
  parent : Option (Nat × Nat)
  src : Option LaunchSrc := none
  op : Option Nat := none
  /-- The release of the LAUNCH instruction has been performed, so that the header may be read (R368). -/
  ready : Bool := true
  header : Nat
  depth : Nat
  root : Nat
  /-- Where the header of a LAUNCH instruction lies, as that instruction translated it (R368). -/
  hdrPa : Option Nat := none
  /-- Header as copied; none until it is read. -/
  hdr : Option (List Byte) := none
  /-- The prologue that parked, the header in force once it is checked, and the kernel descriptor once it is (R362). -/
  pro : Option Pro := none
  force : Option (List Byte) := none
  kdesc : Option (List Byte) := none
  /-- Holds a launch processor. -/
  running : Bool := false
  misses : List Miss := []
  /-- Translations that have passed for what is being checked (R276). -/
  passed : List (Nat × Need × Nat) := []
  /-- Addresses whose service was declined, with the subcause of cause 0x05. -/
  declined : List (Nat × Nat) := []
  /-- Front-end cycle before which a launch whose prologue asked to be repeated does not run again (R363). -/
  due : Option Nat := none
  deriving DecidableEq, Repr

/-- A service that awaits a reply (R387). -/
inductive SvcKind where
  | fault (asid site : Nat) (va : Nat)
  /-- A copy fill, with the issuing core, the kind and the level of the fault, should it be passed on (Table 12.6). -/
  | fillRead (asid site : Nat) (va : Nat) (frames : List (Nat × Nat)) (range : FillRange) (core kind level : Nat)
  | save (asid tid : Nat) (bytes : Nat)
  | mapout (site die : Nat)
  deriving DecidableEq, Repr

/-- A shootdown on an island that has not been acknowledged (R281): the context and range, the operations and splits that hold
removed entries, and the position of its command. -/
structure Shoot where
  site : Nat
  asid : Nat
  first : Nat
  last : Nat
  ops : List Nat
  splits : List Nat
  pos : Nat
  deriving DecidableEq, Repr

/-- A pending service with its event, for reposting (R387). -/
structure Svc where
  kind : SvcKind
  asid : Option Nat
  event : List Byte
  posted : Nat
  deriving DecidableEq, Repr

/-- An RDMA message from the front end toward the host (R344). -/
inductive Rdma where
  | write (conn : Nat) (addr : Nat) (rkey : BitVec 32) (data : List Byte)
  | read (conn : Nat) (addr : Nat) (rkey : BitVec 32) (len : Nat) (svc : Nat)
  | reply (conn : Nat) (data : List Byte)
  | nak (conn : Nat)
  deriving DecidableEq, Repr

/-- A firmware image held by a complex (Table 17.7). -/
structure Image where
  bytes : List Byte := []
  version : BitVec 64 := 1
  deriving DecidableEq, Repr

/-- The Byrik front end (spec/16, spec/17). -/
structure FrontEnd where
  panel : BitVec 8 := 0
  /-- Queue SRAM, default 0. -/
  qsram : SMap Byte := []
  /-- Command ring bytes, default 0; result words, default 0; position of the next command. -/
  cring : SMap Byte := []
  cres : SMap DWord := []
  cpos : Nat := 0
  /-- Queues and groups, defaults of Tables 16.1 and 16.4. -/
  queues : SMap Queue := []
  groups : SMap Group := []
  /-- The dispatch decision that waits for a launch processor. -/
  chosen : Option Choice := none
  /-- Age counters of levels 1 to 3, whose turn it is in each level's ring, whether that turn has begun. -/
  ages : List Nat := [0, 0, 0, 0]
  turns : List Nat := [0, 0, 0, 0]
  begun : List Bool := [false, false, false, false]
  /-- Levels that are due (R356). -/
  dueLevels : List Bool := [false, false, false, false]
  pkts : SMap FPkt := []
  launches : SMap Launch := []
  grids : SMap Grid := []
  nextId : Nat := 1
  conns : List Nat := []
  ring : EvRing := ⟨0, 0, 0, 0, 4⟩
  events : Nat := 0
  svcs : SMap Svc := []
  nextSvc : Nat := 1
  slice : Nat := 0
  frames : SMap (List (Nat × Nat)) := []
  saves : SMap (List (Nat × Nat)) := []
  spares : SMap (List (Nat × Nat)) := []
  stv : BitVec 16 := 1
  upd : Bool := false
  /-- Command position of the FW.UPDATE in progress. -/
  updPos : Option Nat := none
  /-- Bytes of its image that an RDMA READ is to bring. -/
  updLen : Option Nat := none
  act : Bool := false
  laurel : Image := {}
  myrtle : Image := {}
  fcyc : Nat := 0
  /-- Shootdowns awaiting acknowledgement (R281). -/
  shoots : SMap Shoot := []
  deriving DecidableEq, Repr

/-- The issue group being issued (R67): none, or a core with the splits still to issue and those issued. -/
inductive Turn where
  | idle
  | issue (ck : Nat) (todo done : List Nat)
  deriving DecidableEq, Repr

/-- The machine. -/
structure State where
  /-- Free-value counter: the number of the step (log entry 1, DESIGN CHOICE). -/
  tick : Nat
  /-- The split whose word is being executed. -/
  cur : Option Nat
  turn : Turn
  /-- External events still to land, oldest first; `none` lets one internal step pass (log entry 2, DESIGN CHOICE). -/
  inputs : List (Option Instr)
  /-- IMAP.PRES (R21, R22). -/
  pres : BitVec 16
  /-- Islands, default the fused state. -/
  islands : SMap Island
  /-- Cores by 128 × site + core, default the reset core. -/
  cores : SMap Core
  teams : SMap Team
  /-- Slices by (16 × team + gang) × 16 + gang slice. -/
  slices : SMap Slice
  splits : SMap Split
  ctxs : SMap Ctx
  ops : SMap Op
  /-- Numbers given to teams, splits and operations. -/
  nextTeam : Nat
  nextSplit : Nat
  nextOp : Nat
  /-- HBM4E and vault bytes at their point of coherence, by 2^44 × site + offset; an unlisted byte reads 0. -/
  mem : List Host.Cell
  /-- Values that aligned 8-byte words of memory held before later writes, each with the step of the write, as far back as record
  caches and fetch buffers of cores with teams may show them (R228, R398). -/
  past : SMap (List (Nat × DWord))
  /-- HBM4E's own byte where it differs from the byte the L2 holds dirty. -/
  stale : SMap Byte
  /-- Poisoned lines, each with the bytes rewritten since. -/
  poison : SMap (List Nat)
  /-- L2 ways by ((32 × site + slice) × 4096 + set) × 16 + way. -/
  l2 : SMap L2Way
  l2use : Nat
  /-- Notify counters by 4096 × site + n, default 0. -/
  ctrs : SMap Word
  /-- Link directions by 24 × site + port, default two lanes. -/
  links : SMap Link
  pkts : SMap PktSt
  nextPkt : Nat
  puts : List PutProg
  /-- Packets sent to other panels, with site and port; a packet's rest of route is in its hops. -/
  extOut : List (Nat × Nat × Pkt)
  rdmaOut : List Rdma
  fe : FrontEnd
  deriving DecidableEq, Repr

/-- The part right after power-on: every island in its fused state (log entry 3, DESIGN CHOICE), no context, nothing in memory. -/
def State.reset : State where
  tick := 0
  cur := none
  turn := .idle
  inputs := []
  pres := 0xFFFF#16
  islands := []
  cores := []
  teams := []
  slices := []
  splits := []
  ctxs := []
  ops := []
  nextTeam := 1
  nextSplit := 1
  nextOp := 1
  mem := []
  past := []
  stale := []
  poison := []
  l2 := []
  l2use := 0
  ctrs := []
  links := []
  pkts := []
  nextPkt := 1
  puts := []
  extOut := []
  rdmaOut := []
  fe := {}

end Sys2Proof.Machine
end

