-- ==== Sys2Proof/Machine/Ops.lean ====
section
/-! DEFINITION. Access to the state, the registers under the old-or-new rule (R105, R116), and the issue context. -/
namespace Sys2Proof.Machine

/-- The outcome of a step of this machine. -/
abbrev Out := Host.Outcome State Fault Refusal

/-! ### Tables of the state -/

/-- Key of a slice (State.slices). -/
def sliceKey (team gang j : Nat) : Nat := (16 * team + gang) * 16 + j
/-- Key of a core (State.cores). -/
def coreKey (site core : Nat) : Nat := 128 * site + core
/-- Island `site`; an unlisted island is in its fused state. -/
def State.island (s : State) (site : Nat) : Island := getD {} site s.islands
/-- Writes an island. -/
def State.setIsland (s : State) (site : Nat) (i : Island) : State := { s with islands := put site i s.islands }
/-- Core by its key; an unlisted core is in its reset state. -/
def State.core (s : State) (ck : Nat) : Core := getD {} ck s.cores
/-- Writes a core. -/
def State.setCore (s : State) (ck : Nat) (c : Core) : State := { s with cores := put ck c s.cores }
/-- Slice by its key. -/
def State.slice (s : State) (sk : Nat) : Slice := getD {} sk s.slices
/-- Writes a slice. -/
def State.setSlice (s : State) (sk : Nat) (x : Slice) : State := { s with slices := put sk x s.slices }
/-- Applies `f` to a slice. -/
def State.modSlice (s : State) (sk : Nat) (f : Slice → Slice) : State := s.setSlice sk (f (s.slice sk))
/-- Changes several slices alike. -/
def State.mapSlices (s : State) (keys : List Nat) (f : Slice → Slice) : State := keys.foldl (fun t k => t.modSlice k f) s
/-- Some slices have passed a point at which they see what other slices of the core have stored (R209, R317, R319). -/
def noteSynced (s : State) (keys : List Nat) : State := s.mapSlices keys fun sl => { sl with synced := s.tick }
/-- Writes a split. -/
def State.setSplit (s : State) (sid : Nat) (x : Split) : State := { s with splits := put sid x s.splits }
/-- Applies `f` to a split that exists. -/
def State.modSplit (s : State) (sid : Nat) (f : Split → Split) : State := { s with splits := upd sid f s.splits }
/-- Applies `f` to a team that exists. -/
def State.modTeam (s : State) (tid : Nat) (f : Team → Team) : State := { s with teams := upd tid f s.teams }
/-- Applies `f` to a context that exists. -/
def State.modCtx (s : State) (asid : Nat) (f : Ctx → Ctx) : State := { s with ctxs := upd asid f s.ctxs }
/-- Applies `f` to an operation that exists. -/
def State.modOp (s : State) (o : Nat) (f : Op → Op) : State := { s with ops := upd o f s.ops }
/-- Applies `f` to the front end. -/
def State.modFe (s : State) (f : FrontEnd → FrontEnd) : State := { s with fe := f s.fe }
/-- Queue and group state, with the defaults of Tables 16.1 and 16.4. -/
def State.queue (s : State) (q : Nat) : Queue := getD {} q s.fe.queues
def State.setQueue (s : State) (q : Nat) (x : Queue) : State := s.modFe fun f => { f with queues := put q x f.queues }
def State.group (s : State) (g : Nat) : Group := getD {} g s.fe.groups
def State.setGroup (s : State) (g : Nat) (x : Group) : State := s.modFe fun f => { f with groups := put g x f.groups }
/-- Whether a site is populated (R22). -/
def State.populated (s : State) (site : Nat) : Bool := decide (site < 16) && s.pres.getLsbD site
/-- Whether a site is out of reset and serving: IMAP.LIVE as every other island reads it (R22). -/
def State.live (s : State) (site : Nat) : Bool := s.populated site && (s.island site).live

/-- Issue cycles a core has taken. -/
def State.cycleOf (s : State) (site core : Nat) : Nat := (s.core (coreKey site core)).cycles

/-! ### Register units -/

/-- Unit of absolute window slot `n` of lane `i`. -/
def keyX (n i : Nat) : Nat := 12 * n + i
/-- Unit of half `k` of g register `r`; 64 and 65 name the handler bank. -/
def keyG (r k : Nat) : Nat := 24 * r + 12 * k + 4
/-- Unit of predicate `r` of lane `i`. -/
def keyP (r i : Nat) : Nat := 12 * r + 8 + i
/-- The g register an index names in a mode: the handler bank replaces g62 and g63 in handler mode (R331). -/
def gIndex (handler : Bool) (r : Nat) : Nat :=
  if handler then (if r = 62 then 64 else if r = 63 then 65 else r) else r

/-- Whether an outstanding write is in place at slot `k`. -/
def Ripe.at (k : Nat) : Ripe → Bool
  | .slot r => decide (r ≤ k)
  | .cov _ _ => false

/-- Reads one register unit under R105 and R116: the value in place, or that of a later outstanding write, as the
free choice for this step and unit says. -/
def readUnit (tick sk : Nat) (sl : Slice) (key : Nat) : Word :=
  let ps := sl.pend.filter fun p => p.key == key
  if ps.isEmpty then getD 0 key sl.regs
  else (ps.take (Config.choose tick (sk * 8192 + key) % (ps.length + 1))).foldl
    (fun v p => mergeMask v p.val p.mask) (getD 0 key sl.regs)

/-- Reads a unit as if every outstanding write had passed (the chain of R36, and reads by units that see the final
value). -/
def readFinal (sl : Slice) (key : Nat) : Word :=
  (sl.pend.filter fun p => p.key == key).foldl (fun v p => mergeMask v p.val p.mask) (getD 0 key sl.regs)

/-- Folds into the registers every outstanding write that is in place at slot `k`, and every write before it to its
unit (R105, R106). -/
def foldPend (k : Nat) : List PendW → SMap Word → List PendW × SMap Word
  | [], m => ([], m)
  | p :: t, m =>
    if p.ripe.at k || t.any (fun q => q.key == p.key && q.ripe.at k) then
      foldPend k t (setD 0 p.key (mergeMask (getD 0 p.key m) p.val p.mask) m)
    else
      let r := foldPend k t m
      (p :: r.1, r.2)

/-- ORs flags into PREC of lane `i` (R163, R177). -/
def orPrec (lanes : List Lane) (i : Nat) (f : Word) : List Lane :=
  modNth lanes i fun l => { l with prec := l.prec ||| f }

/-- Applies the flag writes in place at slot `k`. -/
def foldFlags (k : Nat) : List PendF → List Lane → List PendF × List Lane
  | [], ls => ([], ls)
  | p :: t, ls =>
    if p.ripe.at k then foldFlags k t (orPrec ls p.lane p.flags)
    else
      let r := foldFlags k t ls
      (p :: r.1, r.2)

/-- Brings the registers of a slice up to slot `k`. -/
def Slice.foldTo (sl : Slice) (k : Nat) : Slice :=
  let r := foldPend k sl.pend sl.regs
  let f := foldFlags k sl.pendF sl.lanes
  { sl with pend := r.1, regs := r.2, pendF := f.1, lanes := f.2 }

/-- One issued word: `n` issue slots pass (R102, R108). -/
def Slice.pass (sl : Slice) (n : Nat) : Slice :=
  ({ sl with slot := sl.slot + n, chain := none }).foldTo (sl.slot + n)

/-- Every outstanding fixed-latency result counts as in place (R107). -/
def Slice.settle (sl : Slice) : Slice :=
  let f : Ripe → Ripe := fun r => match r with | .slot _ => .slot 0 | r => r
  ({ sl with pend := sl.pend.map (fun (p : PendW) => { p with ripe := f p.ripe }),
             pendF := sl.pendF.map (fun (p : PendF) => { p with ripe := f p.ripe }) }).foldTo sl.slot

/-- Counts of a token: operations not retired, and the standing count (R109). -/
def Slice.outstanding (sl : Slice) (t : Nat) : Nat := (sl.toks.filter fun e => e.tok == t).length
def Slice.standing (sl : Slice) (t : Nat) : Nat := getD 0 t sl.stand
def Slice.count (sl : Slice) (t : Nat) : Nat := sl.outstanding t + sl.standing t

/-- A write counted as in place from slot `k` on when `cov` covers its operation. -/
def Ripe.cover (cov : Nat → Nat → Bool) (k : Nat) : Ripe → Ripe
  | .cov t q => if cov t q then .slot k else .cov t q
  | r => r

/-- What the end of a WAIT t, n covers (R115; log entry 20, DEDUCED): an operation followed by enough others. -/
def Slice.cover (sl : Slice) (cov : Nat → Nat → Bool) : Slice :=
  ({ sl with pend := sl.pend.map (fun (p : PendW) => { p with ripe := p.ripe.cover cov 0 }),
             pendF := sl.pendF.map (fun (p : PendF) => { p with ripe := p.ripe.cover cov 0 })
             tokW := sl.tokW.map fun (e : TokW) => { e with ripe := e.ripe.cover cov sl.slot } }).foldTo sl.slot

/-- Operations of token `t` up to ordinal `q` are covered. -/
def Slice.noteCover (sl : Slice) (t q : Nat) : Slice :=
  { sl with coveredTo := put t (Nat.max q (getD 0 t sl.coveredTo)) sl.coveredTo }
/-- Covers, of token `t`, every operation followed by at least `n` posted ones, standing counts included. -/
def Slice.coverToken (sl : Slice) (t n : Nat) : Slice :=
  let p := getD 0 t sl.posted
  (sl.cover fun t' q => t' == t && decide (n ≤ p - q + sl.standing t)).noteCover t (Nat.min p (p + sl.standing t - n))
/-- Covers every operation of the tokens `ts` (TKS.drain, TKS.rs, resume). -/
def Slice.coverAll (sl : Slice) (ts : List Nat) : Slice :=
  ts.foldl (fun x t => x.noteCover t (getD 0 t sl.posted)) (sl.cover fun t' _ => ts.contains t')

/-- Adds a fixed-latency write of a unit with issue distance `dist` (R103, R106). -/
def Slice.write (sl : Slice) (dist : Nat) (key : Nat) (val : Word) (mask : Word := allOnes) : Slice :=
  { sl with pend := sl.pend ++ [⟨key, val, mask, sl.slot, .slot (sl.slot + dist)⟩]
            lastW := put key sl.slot sl.lastW }

/-- Several writes of one instruction. -/
def Slice.writes (sl : Slice) (dist : Nat) (ws : List (Nat × Word)) : Slice :=
  ws.foldl (fun x w => x.write dist w.1 w.2) sl

/-- Writes a g register; g0 discards the write (R132). -/
def Slice.writeG (sl : Slice) (handler : Bool) (dist r : Nat) (v : Nat) : Slice :=
  if r = 0 then sl
  else (sl.write dist (keyG (gIndex handler r) 0) (half v 0)).write dist (keyG (gIndex handler r) 1) (half v 1)

/-- Reads a g register; g0 reads 0 (R132). -/
def readG (tick sk : Nat) (sl : Slice) (handler : Bool) (r : Nat) : Nat :=
  if r = 0 then 0
  else (readUnit tick sk sl (keyG (gIndex handler r) 0)).toNat
    + 2 ^ 32 * (readUnit tick sk sl (keyG (gIndex handler r) 1)).toNat

/-- Reads a predicate of a lane; p0 reads true (R133). -/
def readP (tick sk : Nat) (sl : Slice) (r i : Nat) : Bool :=
  if r = 0 then true else (readUnit tick sk sl (keyP r i)).getLsbD 0

/-! ### MODE (Table 5.3) -/

def modeG (m : Word) : Nat := bits m.toNat 0 6
def modeGN (m : Word) : Bool := m.getLsbD 6
def modeSP (m : Word) : Nat := bits m.toNat 7 6
def modeIT (m : Word) : Nat := bits m.toNat 13 3
def modeSAT (m : Word) : Bool := m.getLsbD 16
def modeEP (m : Word) : Nat := bits m.toNat 17 2
def modeORD (m : Word) : Nat := bits m.toNat 20 3
def modeSCP (m : Word) : Nat := bits m.toNat 23 3
/-- A MODE value R40 and R334 accept: reserved bits zero, IT, ORD and SCP listed. -/
def modeValid (m : Word) : Bool :=
  bits m.toNat 26 6 == 0 && !m.getLsbD 19 && decide (modeIT m ≤ 5) && decide (modeORD m ≤ 4) && decide (modeSCP m ≤ 4)

/-! ### Lanes of a split -/

/-- Live: not exited; active: live with counter 0 (R75). -/
def Lane.live (l : Lane) : Bool := !l.e
def Lane.active (l : Lane) : Bool := !l.e && l.c == 0
/-- Lane `i` of a slice. -/
def Slice.lane (sl : Slice) (i : Nat) : Lane := nth {} sl.lanes i
/-- Lane places of a slice. -/
def fourLanes : List Nat := [0, 1, 2, 3]
/-- Whether some lane of the slice is active, and whether some lane is live. -/
def Slice.anyActive (sl : Slice) : Bool := sl.lanes.any Lane.active
def Slice.anyLive (sl : Slice) : Bool := sl.lanes.any Lane.live
/-- Each lane of a slice rewritten by its place. -/
def Slice.mapLanes (sl : Slice) (f : Nat → Lane → Lane) : Slice :=
  { sl with lanes := (fourLanes.zip sl.lanes).map fun e => f e.1 e.2 }

/-- NEST of a lane (Table 2.14). -/
def Lane.nest (l : Lane) : Nat := l.c.toNat + 256 * ofBool l.e + 512 * ofBool l.d

/-- The issuing split with what its instruction sees. -/
structure Iss where
  sid : Nat
  sp : Split
  tm : Team
  deriving DecidableEq, Repr

/-- Slice keys of a split, rising. -/
def Split.keys (sp : Split) : List Nat := sp.slices.map (sliceKey sp.team sp.gang)
/-- The lowest slice of the issuing split (R34). -/
def Iss.low (cx : Iss) : Nat := sliceKey cx.sp.team cx.sp.gang (cx.sp.slices.headD 0)
/-- The core the split runs on. -/
def Iss.ck (cx : Iss) : Nat := coreKey cx.tm.site cx.tm.core
/-- Gang of the split. -/
def Iss.gang (cx : Iss) : Gang := nth ⟨8, 0, 32, 0, false⟩ cx.tm.gangs cx.sp.gang
/-- A g operand taken from the lowest slice (R34). -/
def Iss.g (cx : Iss) (s : State) (r : Nat) : Nat := readG s.tick cx.low (s.slice cx.low) cx.sp.handler r
/-- The context of the split. -/
def Iss.asid (cx : Iss) : Nat := cx.tm.asid

/-- One lane as an instruction reads it. -/
structure LaneEnv where
  tick : Nat
  sk : Nat
  sl : Slice
  /-- Lane place in the slice, and lane number in the gang (R61). -/
  i : Nat
  n : Nat
  sp : Split

def LaneEnv.lane (le : LaneEnv) : Lane := le.sl.lane le.i
/-- Unit of x slot `n` of the lane, relative to the window base (R126). -/
def LaneEnv.key (le : LaneEnv) (n : Nat) : Nat := keyX (le.sl.wb + n) le.i
def LaneEnv.x (le : LaneEnv) (n : Nat) : Word := readUnit le.tick le.sk le.sl (le.key n)
/-- `k` slots from `n` upward, the lowest least significant. -/
def LaneEnv.xs (le : LaneEnv) (n : Nat) : (k : Nat) → Nat
  | 0 => 0
  | k + 1 => (le.x n).toNat + 2 ^ 32 * le.xs (n + 1) k
def LaneEnv.p (le : LaneEnv) (r : Nat) : Bool := readP le.tick le.sk le.sl r le.i
/-- The guard of the lane (R135). -/
def LaneEnv.guard (le : LaneEnv) : Bool := xor (le.p (modeG le.sp.mode)) (modeGN le.sp.mode)

/-- The four lanes of slice `j` of a split. -/
def laneEnvs (s : State) (sp : Split) (j : Nat) : List LaneEnv :=
  let sk := sliceKey sp.team sp.gang j
  let sl := s.slice sk
  fourLanes.map fun i => ⟨s.tick, sk, sl, i, 4 * j + i, sp⟩
/-- Every lane of a split, by rising lane number. -/
def splitLanes (s : State) (sp : Split) : List LaneEnv := (sp.slices.map (laneEnvs s sp)).flatten
def liveLanes (s : State) (sp : Split) : List LaneEnv := (splitLanes s sp).filter fun l => l.lane.live
def activeLanes (s : State) (sp : Split) : List LaneEnv := (splitLanes s sp).filter fun l => l.lane.active
/-- Active lanes that pass the guard (R75, R135). -/
def guardedLanes (s : State) (sp : Split) : List LaneEnv :=
  (activeLanes s sp).filter LaneEnv.guard
/-- The 64-bit mask of lane numbers (Table 15.1, TLANES). -/
def laneMask (ls : List LaneEnv) : Nat := maskOf (ls.map (·.n))
def liveMask (s : State) (sp : Split) : Nat := laneMask (liveLanes s sp)

/-- The writes of x slots `n`, `n+1`, … of a lane with the words of a value, lowest first. -/
def LaneEnv.put (le : LaneEnv) (n k : Nat) (v : Nat) : List (Nat × Word) :=
  (upFrom 0 k).map fun j => (le.key (n + j), half v j)

/-- Each active guarded lane makes the writes `f` gives, with issue distance `dist` (R103, R135). -/
def perLane (s : State) (cx : Iss) (dist : Nat) (f : LaneEnv → List (Nat × Word)) : State :=
  (guardedLanes s cx.sp).foldl (fun t le => t.modSlice le.sk fun sl => sl.writes dist (f le)) s

/-- Each slice of the split is rewritten by `f` of its key and itself. -/
def perSlice (s : State) (cx : Iss) (f : Nat → Slice → Slice) : State :=
  (distinct cx.sp.keys).foldl (fun t sk => t.modSlice sk (f sk)) s

/-- A g register of each slice gets `f` of that slice's own copies (R132). -/
def perSliceG (s : State) (cx : Iss) (dist d : Nat) (f : (Nat → Nat) → Nat) : State :=
  perSlice s cx fun sk sl => sl.writeG cx.sp.handler dist d (f (readG s.tick sk sl cx.sp.handler))

/-! ### Program counters and division of splits (R70, R102) -/

/-- The address `n` bytes on, modulo 2^48. -/
def addPc (pc : BitVec 48) (n : Int) : BitVec 48 := BitVec.ofInt 48 ((pc.toNat : Int) + n)

/-- Distinct next PCs in order of first choice. -/
def distinctPcs : List DWord → List DWord
  | [] => []
  | a :: t => a :: (distinctPcs t).filter (· ≠ a)

/-- A split at a 64-bit PC: the address and the bits above it (R130, R271). -/
def Split.at (sp : Split) (pc : DWord) : Split := { sp with pc := pc.setWidth 48, pcHi := (pc >>> 48).setWidth 16 }

/-- Divides a split by its slices' next PCs: each but one forms a new split with a copy of MODE and the handler registers and
age 0 (R70, R329). The slices that chose as the lowest slice did keep the old one (log entry 77, DESIGN CHOICE). -/
def divideFar (s : State) (sid : Nat) (sp : Split) (next : List (Nat × DWord)) : State :=
  match distinctPcs (next.map (·.2)) with
  | [] => s
  | p :: rest =>
    let pick := fun pc => (next.filter fun e => decide (e.2 = pc)).map (·.1)
    let s := s.setSplit sid { sp.at p with slices := pick p }
    rest.foldl (fun s pc =>
      let n := Nat.max s.nextSplit (sid + 1)
      { s with splits := put n { sp.at pc with slices := pick pc, age := 0, busy := 0 } s.splits, nextSplit := n + 1 }) s

/-- As `divideFar`, for next PCs within the address space. -/
def divide (s : State) (sid : Nat) (sp : Split) (next : List (Nat × BitVec 48)) : State :=
  divideFar s sid sp (next.map fun e => (e.1, e.2.setWidth 64))

/-- One issue slot (or `n`) passes in every slice of the split (R102). -/
def passSlots (s : State) (cx : Iss) (n : Nat) : State := perSlice s cx fun _ sl => sl.pass n

/-- The end of an issued word whose split goes on at `pc`, occupying issue for `busy` cycles in all (R66). -/
def goTo (s : State) (cx : Iss) (pc : BitVec 48) (slots busy : Nat) : State :=
  (passSlots s cx slots).modSplit cx.sid fun sp => { sp with pc := pc, busy := busy - 1, passed := [], declined := [], hazard := none, held := none }

/-- The end of an ordinary word: the split goes on at the next word. -/
def advance (s : State) (cx : Iss) : State := goTo s cx (addPc cx.sp.pc 4) 1 1

/-- As `advance`, with an issue occupancy of `busy` cycles. -/
def advanceBusy (s : State) (cx : Iss) (busy : Nat) : State := goTo s cx (addPc cx.sp.pc 4) 1 busy

/-- The end of an issued word after which the split waits with its PC at the word (Table 3.1, R341). -/
def advanceWait (s : State) (cx : Iss) (w : Wait) : State :=
  (passSlots s cx 1).modSplit cx.sid fun sp => { sp with wait := w, passed := [], declined := [], hazard := none, held := none }

/-- Every slice of the issuing split finds its earlier fixed-latency results in place (R107). -/
def settleSplit (s : State) (cx : Iss) : State := perSlice s cx fun _ sl => sl.settle

/-- As `advance`, for a word that may fault (R328): fetch was suspended until its last check had passed (R66, R107). -/
def advanceHeld (s : State) (cx : Iss) : State := settleSplit (advance s cx) cx

/-- The end of a wait: the split goes on at the next word with every earlier fixed-latency result in place (R107). -/
def endWait (s : State) (sid : Nat) : State :=
  match find sid s.splits with
  | none => s
  | some sp =>
    let s := sp.keys.foldl (fun t sk => t.modSlice sk Slice.settle) s
    s.setSplit sid { sp with wait := .none, pc := addPc sp.pc 4, passed := [], declined := [], hazard := none, held := none }

/-- The end of an issued branch: each slice of the split has its own next PC (R70). -/
def branch (s : State) (cx : Iss) (next : List (Nat × BitVec 48)) : State :=
  let s := passSlots s cx 1
  divide s cx.sid { cx.sp with busy := 0, passed := [], declined := [], hazard := none, held := none } next

/-- As `branch`, for 64-bit targets (R130). -/
def branchFar (s : State) (cx : Iss) (next : List (Nat × DWord)) : State :=
  let s := passSlots s cx 1
  divideFar s cx.sid { cx.sp with busy := 0, passed := [], declined := [], hazard := none, held := none } next

/-- L2 partition of a context (Table 12.1, R259). -/
def partOf (s : State) (asid : Nat) : Nat := match find asid s.ctxs with | some c => bits c.pid.toNat 0 4 | none => 0

/-! ### Kinds of operations (R308, R314) -/

/-- A store or an atomic of a slice, scratchpad included. -/
def OpBody.isWrite : OpBody → Bool
  | .access k .. => k != .load
  | _ => false
/-- A store or an atomic to memory. -/
def OpBody.isMemWrite : OpBody → Bool
  | .access k scr .. => k != .load && !scr
  | _ => false
/-- A load or an atomic, scratchpad and remote ones included. -/
def OpBody.isRead : OpBody → Bool
  | .access k .. => k != .store
  | .vpah .. => true
  | .remote r => r.kind == .atom
  | _ => false
/-- An RPUT, RATOM or NADD not yet performed at its target. -/
def OpBody.isRemoteWrite : OpBody → Bool
  | .remote r => r.kind != .get
  | _ => false
/-- A remote operation not yet performed at its target, which for RGET is the reading there (R300). -/
def OpBody.isAtTarget : OpBody → Bool
  | .remote r => r.kind != .get || !r.sent || !r.unread.isEmpty
  | _ => false
/-- What a slice writes for others to see: stores and atomics, and remote operations but RGET (R308). -/
def OpBody.publishes : OpBody → Bool
  | .access k .. => k != .load
  | .remote r => r.kind != .get
  | _ => false
/-- TCOPY, ACCST, MMA, MMAG and MMAS. -/
def OpBody.isEngine : OpBody → Bool
  | .tcopy _ => true
  | .matrix m => match m.kind with | .mma _ | .mmag _ | .mmas _ | .accst => true | _ => false
  | _ => false

/-- Atomics with an acquire part. -/
def OpBody.isAcquire : OpBody → Bool
  | .access _ _ _ _ _ _ _ _ _ acq _ => acq
  | .remote r => r.acq
  | _ => false

/-- Whether an operation is a load, store or atomic access of a slice, remote atomics included (R209, R317). -/
def OpBody.isAccess : OpBody → Bool
  | .access .. | .vpah .. => true
  | .remote r => r.kind == .atom
  | _ => false
/-- Outstanding operations of some slices that `f` picks. -/
def opsOf (s : State) (keys : List Nat) (f : OpBody → Bool) : List Nat :=
  (s.ops.filter fun e => f e.2.body && e.2.slices.any fun k => keys.contains k).map (·.1)

/-- What an operation of some slices comes after because a fence with a release part stands before it (R308, R311; log entry 61,
DEDUCED). -/
def fencedOps (s : State) (keys : List Nat) (b : OpBody) : List Nat :=
  if b.publishes then (keys.map fun k => (s.slice k).fenced).flatten else []
/-- The reads that an operation's acquire part waits for (R314, R316). -/
def acquireReads (s : State) (keys : List Nat) (b : OpBody) : List Nat :=
  if b.isAcquire then opsOf s keys OpBody.isRead else []

/-! ### Posting operations (R110, R111) -/

/-- Register units an outstanding operation writes in a slice, by lane place (4 for once-per-slice ones). -/
def OpBody.dests (sk : Nat) : OpBody → List Nat
  | .result lands _ => (lands.filter fun l => l.sk == sk).map (·.key)
  | .access _ _ accs .. => ((accs.filter fun a => a.sk == sk).map (·.dst)).flatten
  | .matrix m => if m.kind = .accrd then (m.cols.filter fun c => c.1 == sk).map fun c => c.2.2 else []
  | .remote r => ((r.accs.filter fun a => a.sk == sk).map (·.dst)).flatten
  | _ => []

/-- Unit under which the pending record holds h descriptor `n`. -/
def keyH (n : Nat) : Nat := 16384 + n
/-- The h descriptor an outstanding operation writes. -/
def OpBody.hdest : OpBody → Option Nat
  | .vpah d .. => some d
  | _ => none

/-- The units of the pending record that an operation of some slices adds (R118). -/
def OpBody.record (keys : List Nat) (b : OpBody) : List (Nat × Nat) :=
  (keys.map fun k => (b.dests k ++ (b.hdest.map keyH).toList).map fun u => (k, u)).flatten

/-- GANGID of a gang (Table 2.14). -/
def gangId (t : Team) (gang : Nat) : Nat := gang + 16 * (nth ⟨8, 0, 32, 0, false⟩ t.gangs gang).role
/-- The queue whose packet started a grid's root (R325). -/
def rootQueue (s : State) (grid : Nat) : Option Nat := (find grid s.fe.grids).map (·.root)

/-- A new operation of the split, posted to its token in every slice of the split. -/
def mkOp (s : State) (cx : Iss) (tok : Option Nat) (after : List Nat) (body : OpBody) : Op :=
  { asid := cx.tm.asid, team := cx.sp.team, site := cx.tm.site, core := cx.tm.core
    slices := cx.sp.keys, tok := tok
    seqs := cx.sp.keys.map fun k => (k, match tok with | some t => getD 0 t (s.slice k).posted + 1 | none => 0)
    slots := cx.sp.keys.map fun k => (k, (s.slice k).slot)
    pc := cx.sp.pc, handler := cx.sp.handler, gang := cx.sp.gang, lanes := liveMask s cx.sp
    after := after ++ fencedOps s cx.sp.keys body
    since := s.tick
    reads := acquireReads s cx.sp.keys body
    record := body.record cx.sp.keys
    part := partOf s cx.tm.asid
    queue := rootQueue s cx.tm.grid, tidx := cx.tm.idx.toNat, gid := gangId cx.tm cx.sp.gang
    body := body }

/-- Adds an operation and stands it on its token in the given slices. -/
def addOp (s : State) (o : Op) : State :=
  let id := s.nextOp
  let s := { s with ops := put id o s.ops, nextOp := id + 1 }
  match o.tok with
  | none => s
  | some t => o.slices.foldl (fun u k => u.modSlice k fun sl =>
      { sl with toks := sl.toks ++ [(⟨t, id, false⟩ : TokE)], posted := put t (getD 0 t sl.posted + 1) sl.posted }) s

/-- Posts one operation that completes once for the split (R110). -/
def postSplit (s : State) (cx : Iss) (tok : Option Nat) (after : List Nat) (body : OpBody) : State :=
  addOp s (mkOp s cx tok after body)

/-- Posts one operation for each slice of the split, which completes for that slice alone (R110). -/
def postSlices (s : State) (cx : Iss) (tok : Nat) (after : Nat → List Nat) (body : Nat → OpBody) : State :=
  cx.sp.keys.foldl (fun t k =>
    addOp t { mkOp s cx (some tok) [] (body k) with
      slices := [k], record := (body k).record [k]
      after := after k ++ fencedOps s [k] (body k), reads := acquireReads s [k] (body k) }) s

/-- A slice without the increments of its parked word, which issues again (R110, R276). -/
def Slice.unhold (sl : Slice) : Slice := { sl with toks := sl.toks.filter fun e => e.op != 0 }

/-- Whether posting to token `t` would take some count past 255 (R112). -/
def tokenFull (s : State) (sp : Split) (t : Nat) : Bool :=
  sp.keys.any fun k => decide (255 ≤ (s.slice k).unhold.count t)

/-- Retires from the front of each token's queue the operations that have completed (R111). -/
def retireToks : List TokE → List TokE → List TokE
  | kept, [] => kept
  | kept, e :: t =>
    if e.done && !(kept.any fun k => k.tok == e.tok) then retireToks kept t else retireToks (kept ++ [e]) t

/-- Marks an operation completed on its token in one slice and retires what it can (R111). -/
def Slice.complete (sl : Slice) (op : Nat) : Slice :=
  let toks := retireToks [] (sl.toks.map fun e => if e.op = op then { e with done := true } else e)
  if toks.isEmpty then { sl with toks := toks, tokW := [], readAt := [] } else { sl with toks := toks }

/-- Whether a landed write of an operation and one issued at `slot` are concurrent: neither is covered at the other's
issue, and no fixed-latency write stands between them (R116). -/
def TokW.meets (e : TokW) (key slot lastW : Nat) : Bool :=
  e.key == key && (decide (slot < e.slot) || match e.ripe with | .cov .. => true | .slot c => decide (slot < c))
    && !(decide (e.slot < lastW) && decide (lastW ≤ slot))

/-- Whether an outstanding write of a unit stands against one issued at `slot`: a later one, or an operation's that is
not covered. -/
def PendW.rival (key slot : Nat) (q : PendW) : Bool :=
  q.key == key && (decide (slot < q.slot) || match q.ripe with | .cov .. => true | .slot _ => false)

/-- Puts a write before the first outstanding one it stands against, behind the writes it follows; it goes when none is
outstanding. -/
def insertLoser (w : PendW) (ps : List PendW) : List PendW :=
  let back := (ps.reverse.takeWhile fun q => q.key ≠ w.key || q.rival w.key w.slot).reverse
  let front := ps.take (ps.length - back.length)
  let mid := back.takeWhile fun q => !q.rival w.key w.slot
  match back.drop mid.length with
  | [] => ps
  | rest => front ++ mid ++ [w] ++ rest

/-- Lands one register unit of an operation with the given token, ordinal and issue slot (R110, R115, R116). Against a
later write of the unit, and against another operation's write when neither was covered at the other, the outcome is a
free choice for each unit; a later fixed-latency value that has been read in place stays (log entry 54, DEDUCED). -/
def Slice.land (sl : Slice) (tick sk : Nat) (ripe : Ripe) (slot key : Nat) (val : Word) : Slice :=
  let lastW := getD 0 key sl.lastW
  let fixed := decide (slot < lastW)
  let later := sl.pend.filter fun q => q.key == key && decide (slot < q.slot)
  let seen := fixed && later.isEmpty && decide (lastW < getD 0 key sl.readAt)
  let loses := seen || ((fixed || sl.tokW.any fun e => e.meets key slot lastW)
    && !(Config.choose tick (20 * 2 ^ 64 + sk * 8192 + key) % 2 == 0))
  if loses then { sl with pend := insertLoser ⟨key, val, allOnes, slot, ripe⟩ sl.pend }
  else
    let ripe' := if fixed then
        (match (later.filter fun q => match q.ripe with | .slot _ => true | .cov .. => false).getLast? with
          | some q => q.ripe | none => .slot 0)
      else ripe
    ({ sl with pend := sl.pend ++ [(⟨key, val, allOnes, slot, ripe'⟩ : PendW)]
               tokW := sl.tokW ++ [(⟨key, slot, ripe⟩ : TokW)] }).foldTo sl.slot

end Sys2Proof.Machine
end

