-- ==== Sys2Proof/Machine/Records.lean ====
section
/-! DEFINITION. What the front end writes toward the host: queue records (R325, R326, R353) and events (R385 to R387). -/
namespace Sys2Proof.Machine

/-- Whether a connection is established (R344). -/
def State.connected (s : State) (conn : Nat) : Bool := s.fe.conns.contains conn

/-- The 64 bytes of Table 15.2 (log entry 37, DEDUCED). -/
def errRecord (code sub kind flags island core gang idx later tpc tval tlanes pid : Nat) : List Byte :=
  leBytes 1 code ++ leBytes 1 sub ++ leBytes 1 kind ++ leBytes 1 flags ++ leBytes 1 island ++ leBytes 1 core
    ++ leBytes 1 gang ++ leBytes 1 0 ++ leBytes 4 idx ++ leBytes 4 later ++ leBytes 8 tpc ++ leBytes 8 tval
    ++ leBytes 8 tlanes ++ leBytes 4 pid ++ leBytes 20 0

/-- Sends the records a queue holds, oldest first, each followed by its count message (R353). -/
def sendRecords (q : Nat) : List (List Byte) → State → State
  | [], s => s
  | r :: t, s =>
    let u := s.queue q
    let c := u.conn.toNat
    let ms : List Rdma := [.write c ((u.rbase.toNat + 64 * (u.seq % 2 ^ u.rlog.toNat)) % 2 ^ 64) u.rkey r,
      .write c u.rcnt.toNat u.rkey (leBytes 8 (u.seq + 1))]
    let s := { s with rdmaOut := s.rdmaOut ++ ms }
    sendRecords q t (s.setQueue q { u with seq := u.seq + 1 })

/-- Writes what a queue holds once its connection is established (R353). -/
def flushRecords (q : Nat) (s : State) : State :=
  let u := s.queue q
  if s.connected u.conn.toNat then sendRecords q u.held (s.setQueue q { u with held := [] }) else s

/-- Posts a record to a queue's ring: written at once, or held while the connection is not established, the oldest
displaced beyond 2^RLOG (R353). -/
def postRecord (q : Nat) (r : List Byte) (s : State) : State :=
  let u := s.queue q
  let held := u.held ++ [r]
  flushRecords q (s.setQueue q { u with held := held.drop (held.length - 2 ^ u.rlog.toNat) })

/-- The 64 bytes of Table 17.10; `island` 255 for none. -/
def eventRecord (etype flags svc island panel asid : Nat) (payload : List Byte) : List Byte :=
  leBytes 1 etype ++ leBytes 1 flags ++ leBytes 2 svc ++ leBytes 1 island ++ leBytes 1 panel ++ leBytes 2 0
    ++ leBytes 4 asid ++ leBytes 4 0 ++ (payload ++ leBytes 48 0).take 48

/-- The messages that write event number `e` of a ring; none for a ring that is not set (R385). -/
def eventMsgs (r : EvRing) (e : Nat) (ev : List Byte) : List Rdma :=
  if r.base = 0 then []
  else [.write r.conn.toNat ((r.base.toNat + 64 * (e % 2 ^ r.log.toNat)) % 2 ^ 64) r.key ev,
        .write r.conn.toNat r.cnt.toNat r.key (leBytes 8 (e + 1))]

/-- Posts an event on the panel event ring (R385). -/
def postPanel (ev : List Byte) (s : State) : State :=
  if s.fe.ring.base = 0 then s
  else { s with rdmaOut := s.rdmaOut ++ eventMsgs s.fe.ring s.fe.events ev
                fe := { s.fe with events := s.fe.events + 1 } }

/-- Posts an event on a context's event ring (R385). -/
def postCtx (asid : Nat) (ev : List Byte) (s : State) : State :=
  match find asid s.ctxs with
  | none => s
  | some c =>
    if c.ring.base = 0 then s
    else { s with rdmaOut := s.rdmaOut ++ eventMsgs c.ring c.events ev
                  ctxs := put asid { c with events := c.events + 1 } s.ctxs }

/-- Whether every service number awaits a reply, so that no service can be opened (R387). -/
def svcsFull (s : State) : Bool := decide (0xFFFF ≤ s.fe.svcs.length)

/-- The lowest service number from `nextSvc` on that no pending service holds, wrapping; 16 bits and not 0 (R387). -/
def freeSvc (s : State) : Nat :=
  let a := if s.fe.nextSvc % 0x10000 = 0 then 1 else s.fe.nextSvc % 0x10000
  let n := freshKey s.fe.svcs a (0x10000 - a)
  if n < 0x10000 then n else freshKey s.fe.svcs 1 a

/-- Opens a service under a fresh number (R387). -/
def openSvc (k : SvcKind) (asid : Option Nat) (event : List Byte) (s : State) : State :=
  let n := freeSvc s
  s.modFe fun f => { f with svcs := put n ⟨k, asid, event, f.fcyc⟩ f.svcs, nextSvc := n + 1 }

/-- An event with no service. -/
def plainEvent (s : State) (etype flags island asid : Nat) (payload : List Byte) : List Byte :=
  eventRecord etype flags 0 island s.fe.panel.toNat asid payload

end Sys2Proof.Machine
end

