-- ==== Sys2Proof/Machine/Trap.lean ====
section
/-! DEFINITION. Raising a cause (R324 to R337): delivery to handler mode, the end of a context, the debugger's halt,
and the return from a handler. -/
namespace Sys2Proof.Machine

/-- Delivery class of a cause (Table 15.1). -/
inductive Class where
  | user | fatal | debugger
  deriving DecidableEq, Repr

def causeClass (code : BitVec 8) : Class :=
  match code.toNat with
  | 0x03 | 0x07 | 0x08 | 0x0B | 0x0D | 0x0E | 0x10 | 0x17 => .user
  | 0x0F | 0x11 => .debugger
  | _ => .fatal

/-- A cause of an instruction; its PC is filled in when it is raised. -/
def cause (code : Nat) (sub : Nat := 0) (tval : Nat := 0) (tlanes : Nat := 0) : CauseRec :=
  { code := BitVec.ofNat 8 code, sub := sub, tval := tval, tlanes := tlanes }

/-- TCAUSE of a cause (Table 15.3). -/
def CauseRec.tcause (c : CauseRec) : Word := w32 (c.code.toNat + 256 * (c.sub % 256))

/-- Splits of the gang of `sp`, with their numbers. -/
def gangSplits (s : State) (team gang : Nat) : List (Nat × Split) :=
  s.splits.filter fun e => decide (e.2.team = team) && decide (e.2.gang = gang)

/-- Flags that completed operations set in a lane and that are not covered yet: PREC holds them already (R177). -/
def Slice.flagsOf (sl : Slice) (i : Nat) : Word :=
  (sl.pendF.filter fun p => p.lane == i).foldl (fun v p => v ||| p.flags) 0

/-- A fatal cause ends the context (R325): it is marked, its record is kept until its operations have drained, and
further fatal causes are counted in LATER as long as a split of it has not stopped: those of the issue group in progress issue their
word, each stops when its core next looks at it with nothing else to wait for (log entry 40, DEDUCED). -/
def endContext (s : State) (asid : Nat) (rec : Option (Nat × List Byte)) : State :=
  let mine := (s.splits.filter fun e => (find e.2.team s.teams).any fun t => t.asid == asid).map (·.1)
  s.modCtx asid fun c =>
    if c.ending then (if c.unstopped.any fun x => (find x s.splits).isSome then { c with later := c.later + 1 } else c)
    else { c with ending := true, endRec := rec, unstopped := mine }

/-- The record of a cause at a split of a team (Table 15.2); FLAGS[1] is MORE of a remote fault (Table 13.9). -/
def causeRecord (s : State) (sp : Split) (t : Team) (c : CauseRec) (flag0 : Bool) : List Byte :=
  let pid := match find t.asid s.ctxs with | some x => x.pid.toNat | none => 0
  let more := c.code == 8 && bitAt c.tval 63
  errRecord c.code.toNat c.sub 0 (ofBool flag0 + 2 * ofBool more) t.site t.core (gangId t sp.gang) t.idx.toNat 0
    c.tpc c.tval c.tlanes pid

/-- Ends the context of split `sid` with the record of a fatal cause (R324, R325). -/
def raiseFatal (s : State) (sid : Nat) (c : CauseRec) (flag0 : Bool) : State :=
  match find sid s.splits with
  | none => s
  | some sp =>
    match find sp.team s.teams with
    | none => s
    | some t => endContext s t.asid ((rootQueue s t.grid).map fun q => (q, causeRecord s sp t c flag0))

/-- Delivery of a user cause (R330); with TVEC = 0 it ends the context. Every outstanding fixed-latency result is in place first (R107). -/
def deliver (s : State) (sid : Nat) (c : CauseRec) : State :=
  match find sid s.splits with
  | none => s
  | some sp =>
    let tvec : DWord := match (find sp.team s.teams).bind fun t => find t.asid s.ctxs with | some x => x.tvec | none => 0
    if tvec = 0 then raiseFatal s sid c true else
    let s := sp.keys.foldl (fun t sk => t.modSlice sk fun sl =>
      let sl := sl.settle
      sl.mapLanes fun i l => if l.live then { l with tprec := l.prec ||| sl.flagsOf i } else l) s
    s.setSplit sid { sp with
      tcause := c.tcause, tpc := BitVec.ofNat 64 c.tpc, tval := BitVec.ofNat 64 c.tval
      tlanes := BitVec.ofNat 64 c.tlanes, tsave := sp.mode, mode := 0, handler := true
      pc := BitVec.ofNat 48 tvec.toNat, pcHi := 0, wait := .none, park := none, passed := [], declined := [], hazard := none, held := none
      pending := none, stepMark := false }

/-- A debugger cause halts the context with its split stopped at the instruction (R124, R337); during a pre-emption the
context goes on to be saved, and resumes halted (R338). -/
def raiseHalt (s : State) (sid asid : Nat) (c : CauseRec) : State :=
  s.modCtx asid fun x =>
    let x := { x with haltAt := x.haltAt ++ [(sid, c)] }
    if x.pre = .none then { x with halted := true } else { x with haltPending := true }

/-- Raises a cause at split `sid`: the one way a cause is taken (R324, R330, R335, R337). A second user cause of a
gang that has a split in handler mode is kept pending; nothing is taken from the split but the issue itself. -/
def raiseAt (s : State) (sid : Nat) (c : CauseRec) : State :=
  match find sid s.splits with
  | none => s
  | some sp =>
    match find sp.team s.teams with
    | none => s
    | some t =>
      let x := find t.asid s.ctxs
      let tvec : DWord := match x with | some x => x.tvec | none => 0
      let att := match x with | some x => x.dbg.getLsbD 0 | none => false
      let c := { c with pc := sp.pc, pcHi := sp.pcHi }
      let s := (sp.keys.foldl (fun t sk => t.modSlice sk Slice.settle) s).modSplit sid fun p =>
        { p with passed := [], declined := [], hazard := none, held := none, park := none, wait := .none, stepMark := false }
      match causeClass c.code with
      | .fatal => raiseFatal s sid c sp.handler
      | .debugger => if att then raiseHalt s sid t.asid c else raiseFatal s sid c sp.handler
      | .user =>
        if sp.handler || tvec = 0 then raiseFatal s sid c true
        else if (gangSplits s sp.team sp.gang).any fun e => e.2.handler then
          s.modSplit sid fun p => { p with pending := some c, pendAt := sp.issuedAt }
        else deliver s sid c

/-- Delivers the first pending cause of a gang once no split of it is in handler mode (R335); none is delivered while a
pre-emption stops the context (R338). -/
def deliverPending (s : State) (team gang : Nat) : State :=
  let g := gangSplits s team gang
  let stopping := match (find team s.teams).bind fun t => find t.asid s.ctxs with | some c => c.pre ≠ .none | none => false
  if stopping || g.any fun e => e.2.handler then s
  else
    match leastBy (fun e => e.2.pendAt * 256 + e.2.slices.headD 0) (g.filter fun e => e.2.pending.isSome) with
    | none => s
    | some e => match e.2.pending with | none => s | some c => deliver s e.1 c

end Sys2Proof.Machine
end

