-- ==== Sys2Proof/Machine/Operands.lean ====
section
/-! DEFINITION. Register operands of the instruction words: which slots each names, the window check of R126, the token
check of R119, f operands (R32, R158), and the shared prologue of every word. -/
namespace Sys2Proof.Machine

/-! ### PREC (Tables 6.1, 6.2) -/

def precP (v : Word) : Nat := bits v.toNat 0 7
def precCLS (v : Word) : Nat := bits v.toNat 7 2
def precRM (v : Word) : Nat := bits v.toNat 9 2
def precXT (v : Word) : Bool := v.getLsbD 11
def precSUB (v : Word) : Bool := v.getLsbD 12
/-- The smallest class that fits a precision (Table 6.2); 0 for none. -/
def fitClass (p : Nat) : Nat := if p ≤ 24 then 1 else if p ≤ 53 then 2 else if p ≤ 113 then 3 else 0
/-- Largest precision of a class. -/
def classMaxP (c : Nat) : Nat := match c with | 1 => 24 | 2 => 53 | _ => 113
/-- Effective class of a PREC value: 1, 2 or 3 for W1, W2, W4 (R157). -/
def effClass (v : Word) : Nat := if precCLS v = 0 then fitClass (precP v) else precCLS v
/-- Slots of a class (Table 6.2). -/
def classSlots (c : Nat) : Nat := match c with | 1 => 1 | 2 => 2 | _ => 4
/-- A PREC value R157 calls valid. -/
def precValid (v : Word) : Bool :=
  decide (2 ≤ precP v) && decide (precP v ≤ 113)
    && (precCLS v == 0 || decide (precP v ≤ classMaxP (precCLS v)))
    && bits v.toNat 29 3 == 0 && bits v.toNat 13 11 == 0

/-! ### Operands of the words -/

/-- What a register field names: `cnt` x slots, an f register of the lane's class or of a stated class, a g register or
an h descriptor. -/
inductive OKind where
  | x (n cnt : Nat)
  | f (n : Nat)
  | fOf (n cls : Nat)
  | g (n : Nat)
  | h (n : Nat)
  deriving DecidableEq, Repr

/-- One register operand with its use. -/
structure Opd where
  kind : OKind
  reads : Bool
  writes : Bool
  deriving DecidableEq, Repr

def xr (n : BitVec 8) (cnt : Nat := 1) : Opd := ⟨.x n.toNat cnt, true, false⟩
def xw (n : BitVec 8) (cnt : Nat := 1) : Opd := ⟨.x n.toNat cnt, false, true⟩
def xrw (n : BitVec 8) (cnt : Nat := 1) : Opd := ⟨.x n.toNat cnt, true, true⟩
def fr (n : BitVec 8) : Opd := ⟨.f n.toNat, true, false⟩
def fw (n : BitVec 8) : Opd := ⟨.f n.toNat, false, true⟩
def frw (n : BitVec 8) : Opd := ⟨.f n.toNat, true, true⟩
def gr (n : BitVec 8) : Opd := ⟨.g n.toNat, true, false⟩
def gw (n : BitVec 8) : Opd := ⟨.g n.toNat, false, true⟩
def grw (n : BitVec 8) : Opd := ⟨.g n.toNat, true, true⟩

/-- Operands of a format A integer word (R33). -/
def aluOpds (d a b : BitVec 8) (e accum : Bool) : List Opd :=
  if e then [if accum then grw d else gw d, gr a, gr b] else [if accum then xrw d else xw d, xr a, xr b]
/-- Operands of an IUN word with code 0 to 8 (R37). -/
def iunOpds (d a : BitVec 8) (g : Bool) : List Opd := if g then [gw d, gr a] else [xw d, xr a]
/-- Slots of an atomic's data register (R42, R263). -/
def atomSlots (o : BitVec 3) (w : Bool) : Nat := (if w then 2 else 1) * (if o.toNat = 7 then 2 else 1)
/-- Operands of an atomic with an address of `ac` slots. -/
def atomOpds (d a : BitVec 8) (o : BitVec 3) (w : Bool) (ac : Nat) : List Opd :=
  [⟨.x d.toNat (atomSlots o w), true, true⟩, xr a ac]

/-- The register operands of a word in the order of its fields: d, then a, then b (R126). -/
def operands : Instr → List Opd
  | .add d a b e | .sub d a b e | .mul d a b e | .mulh d a b e | .min d a b e | .max d a b e | .and d a b e
  | .or d a b e | .xor d a b e | .andn d a b e | .shl d a b e | .shr d a b e | .rot d a b e | .absd d a b e
  | .div d a b e | .rem d a b e | .bfx d a b e => aluOpds d a b e false
  | .mad d a b e | .bfi d a b e => aluOpds d a b e true
  | .prmb d a b => [xrw d, xr a, xr b]
  | .sel d a b => [xw d, xr a, xr b]
  | .clz d a g | .ctz d a g | .popc d a g | .brev d a g | .not d a g | .neg d a g | .abs d a g | .sex8 d a g
  | .sex16 d a g => iunOpds d a g
  | .movg d a p => [xw d (if p then 2 else 1), gr a]
  | .movl d a p _ => [gw d, xr a (if p then 2 else 1)]
  | .addi d a _ | .andi d a _ | .ori d a _ | .xori d a _ | .muli d a _ => [xw d, xr a]
  | .shli d a _ | .shri d a _ | .roti d a _ => [xw d, xr a]
  | .gaddi d a _ => [gw d, gr a]
  | .ldh d _ | .ldl d _ => [xw d]
  | .ldhg d _ => [gw d]
  | .ldlg d _ => [grw d]
  | .icmp _ a b _ => [xr a, xr b]
  | .icmpi _ a _ _ => [xr a]
  | .pmovP2x d => [xw d 2]
  | .pmovX2p a => [xr a 2]
  | .pmovLsb _ a => [xr a]
  | .setm a => [gr a]
  | .getm d => [gw d]
  | .prset a => [xr a]
  | .prget d => [xw d]
  | .mfs d g _ => [if g then gw d else xw d]
  | .mts a g _ => [if g then gr a else xr a]
  | .vpah d a _ => [⟨.h d.toNat, false, true⟩, gr a]
  | .call .. => [⟨.g 63, false, true⟩]
  | .callr a _ => [xr a 2, ⟨.g 63, false, true⟩]
  | .ret => [⟨.g 63, true, false⟩]
  | .brg g _ _ => [gr g]
  | .brx a _ => [xr a]
  | .gwid d => [xw d]
  | .ballot d _ => [xw d 2]
  | .shfl d a b => [xw d, xr a, xr b]
  | .shflImm d a _ | .shfx d a _ _ => [xw d, xr a]
  | .rsort d a c => [⟨.x d.toNat c.toNat, true, true⟩, xr a]
  | .tksRd d _ => [gw d]
  | .tksRs a _ => [gr a]
  | .bsync a _ | .bari a _ | .bara a _ | .barw a _ | .launch a _ => [gr a]
  | .mwait d a | .nwait d a | .nadd d a => [gr d, gr a]
  | .sprz d a => [gw d, gr a]
  | .ldg d a _ s _ => [xw d (sizeSlots s), xr a 2]
  | .stg d a _ s => [xr d (sizeSlots s), xr a 2]
  | .lds d a _ s => [xw d (sizeSlots s), xr a]
  | .sts d a _ s => [xr d (sizeSlots s), xr a]
  | .ldf d a _ _ => [fw d, xr a 2]
  | .stf d a _ => [fr d, xr a 2]
  | .ldp d a _ _ h => [fw d, xr a, ⟨.h h.toNat, true, false⟩]
  | .stp d a _ h => [fr d, xr a, ⟨.h h.toNat, true, false⟩]
  | .ldgg d a _ _ _ => [gw d, gr a]
  | .stgg d a _ _ => [gr d, gr a]
  | .atom d a _ o _ w | .ratom d a _ o _ w => atomOpds d a o w 2
  | .atoms d a _ o _ w => atomOpds d a o w 1
  | .cmo d a _ _ _ => [gr d, xr a 2]
  | .pref a _ => [xr a 2]
  | .tcopyLd d a b | .tcopySt d a b | .rput d a b | .rget d a b => [gr d, gr a, gr b]
  | .mma _ _ a b _ | .mmag _ _ a b _ | .mmas _ _ a b _ => [gr a, gr b]
  | .accrd d a _ => [xw d, gr a]
  | .accwr d a _ => [gr d, xr a]
  | .accst d _ => [gr d]
  | .fadd d a b | .fsub d a b | .fmul d a b | .fdiv d a b | .fmin d a b | .fmax d a b | .fcpys d a b =>
    [fw d, fr a, fr b]
  | .fma d a b | .fms d a b | .fnma d a b => [frw d, fr a, fr b]
  | .fcmp _ a b _ => [fr a, fr b]
  | .fabs d a | .fneg d a | .fmov d a | .frnd d a _ | .frsp d a => [fw d, fr a]
  | .fclass d a | .fexpo d a | .fcvtF2s32 d a | .fcvtF2n32 d a | .fcvtF2ce d a => [xw d, fr a]
  | .fsqrt d a _ | .frcp d a _ | .frsq d a _ | .fexp2 d a _ | .flog2 d a _ | .fsin d a _ | .fcos d a _
  | .ftanh d a _ => [fw d, fr a]
  | .fcvtCls d a c => [⟨.fOf d.toNat c.toNat, false, true⟩, fr a]
  | .fcvtF2s64 d a | .fcvtF2n64 d a => [xw d 2, fr a]
  | .fcvtS32f d a | .fcvtN32f d a | .fcvtCef d a => [fw d, xr a]
  | .fcvtS64f d a | .fcvtN64f d a => [fw d, xr a 2]
  | _ => []

/-- The token an instruction posts to, when its fields name it (Table 4.2). -/
def tokenOf : Instr → Option Nat
  | .div .. | .rem .. | .fdiv .. => some 8
  | .vpah _ _ t | .ldg _ _ t _ _ | .stg _ _ t _ | .lds _ _ t _ | .sts _ _ t _ | .ldf _ _ t _ | .stf _ _ t
  | .ldp _ _ t _ _ | .stp _ _ t _ | .ldgg _ _ t _ _ | .stgg _ _ t _ | .atom _ _ t _ _ _ | .atoms _ _ t _ _ _
  | .ratom _ _ t _ _ _ | .cmo _ _ t _ _ | .mma t _ _ _ _ | .mmag t _ _ _ _ | .mmas t _ _ _ _ | .accz _ t
  | .accrd _ _ t | .accwr _ _ t | .fsqrt _ _ t | .frcp _ _ t | .frsq _ _ t | .fexp2 _ _ t | .flog2 _ _ t
  | .fsin _ _ t | .fcos _ _ t | .ftanh _ _ t | .launch _ t => some t.toNat
  | _ => none

/-- Lowest slot and slots an operand names in a lane of PREC `v`; none for g and h operands (R32, R158). -/
def OKind.slots (v : Word) : OKind → Option (Nat × Nat)
  | .x n cnt => some (n, cnt)
  | .f n => some (classSlots (effClass v) * n, classSlots (effClass v))
  | .fOf n c => some (classSlots c * n, classSlots c)
  | .g _ | .h _ => none

/-- The lowest slot at or beyond the room `S − WB` that an operand names in a lane, if any (R126). -/
def beyond (room : Nat) (o : Opd) (v : Word) : Option Nat :=
  match o.kind.slots v with
  | none => none
  | some (n, k) => if k = 0 || decide (n + k ≤ room) then none else some (Nat.max n room)

/-- Whether an operand is an f operand, judged by each lane's class. -/
def OKind.isF : OKind → Bool
  | .f _ | .fOf _ _ => true
  | _ => false

/-- Window overflow of one operand (R126): the report when some slot it names is out of range. TVAL holds the slot and WB of the
lowest-numbered lane's slice in which it is, the slot modulo 512 (log entry 56, DEDUCED). -/
def windowOf (s : State) (sp : Split) (o : Opd) : Option CauseRec :=
  let bad := (if o.kind.isF then liveLanes s sp else splitLanes s sp).filter fun l =>
    (beyond (l.sl.size - l.sl.wb) o l.lane.prec).isSome
  match bad with
  | [] => none
  | l :: _ =>
    let slot := (beyond (l.sl.size - l.sl.wb) o l.lane.prec).getD 0
    some (cause 0x03 0 (slot % 512 + 2 ^ 16 * l.sl.wb) (if o.kind.isF then laneMask bad else liveMask s sp))

/-- Window overflow of a word: the first register field that names an out-of-range slot (R126). -/
def windowCheck (s : State) (cx : Iss) (os : List Opd) : Option CauseRec := os.findSome? (windowOf s cx.sp)

/-! ### Token checking (R118, R119) -/

/-- Register units and indices an operand touches in a lane: (unit, reported kind, reported index). -/
def touched (cx : Iss) (le : LaneEnv) (o : Opd) : List (Nat × Nat × Nat) :=
  match o.kind with
  | .g n => if n = 0 then [] else
      [(keyG (gIndex cx.sp.handler n) 0, 1, n), (keyG (gIndex cx.sp.handler n) 1, 1, n)]
  | .h n => [(keyH n, 2, n)]
  | k => match k.slots le.lane.prec with
    | none => []
    | some (n, c) => (upFrom n c).map fun m => (le.key m, 0, m)

/-- The pending operation of slice `sk` that writes `unit`, by its token (R118): of several the one posted first (log entry 78, DESIGN
CHOICE). -/
def pendingUnit (s : State) (sk unit : Nat) : Option Nat :=
  s.ops.findSome? fun e => if e.2.record.contains (sk, unit) then e.2.tok else none

/-- Lanes of a slice that give the target of a CALLR: the active ones, else the lowest live one (R130). -/
def callrLanes (les : List LaneEnv) : List LaneEnv :=
  match les.filter fun le => le.lane.active with
  | [] => ((les.filter fun le => le.lane.live).head?).toList
  | ls => ls

/-- How a BRX acts in a slice: fresh with CPC invalid, fresh inside a case, or a re-dispatch (R87). -/
inductive BrxKind where
  | outer | inner | again
  deriving DecidableEq, Repr

def brxKind (cx : Iss) (sl : Slice) : BrxKind :=
  match sl.cpc with
  | none => .outer
  | some p => if p = cx.sp.pc then .again else .inner

/-- Lanes of a slice whose index a BRX reads: the active ones, or at a re-dispatch those still parked (R87). -/
def brxLanes (cx : Iss) (les : List LaneEnv) (sl : Slice) : List LaneEnv :=
  match brxKind cx sl with
  | .again => les.filter fun le => le.lane.live && le.lane.c == 1 && !le.lane.d
  | _ => les.filter fun le => le.lane.active

/-- Source lane number of a shuffle in a lane (Table 3.7). -/
def shuffleSrc (i : Instr) (le : LaneEnv) : Int :=
  match i with
  | .shfl _ _ b => ((le.x b.toNat).toNat : Int)
  | .shflImm _ _ b => (b.toNat : Int)
  | .shfx _ _ m k => match m.toNat with
    | 0 => ((le.n ^^^ k.toNat : Nat) : Int)
    | 1 => (le.n : Int) - k.toNat
    | _ => (le.n : Int) + k.toNat
  | _ => (le.n : Int)

/-- The lane a shuffle reads for a lane, if it is active in the split (R96). -/
def shuffleFrom (s : State) (sp : Split) (i : Instr) (le : LaneEnv) : Option LaneEnv :=
  (activeLanes s sp).find? fun o => decide ((o.n : Int) = shuffleSrc i le)

/-- Words that execute once for the split and take their g operands from its lowest slice (R34). -/
def oncePerSplit : Instr → Bool
  | .tcopyLd .. | .tcopySt .. | .mma .. | .mmag .. | .mmas .. | .accst .. | .accrd .. | .accwr .. | .rput .. | .rget ..
  | .nadd .. | .nwait .. | .launch .. | .bsync .. | .bari .. | .bara .. | .barw .. | .mwait .. | .setm .. | .sprz .. => true
  | _ => false

/-- Lanes in which a word reads or writes an x operand. -/
def xLanes (s : State) (cx : Iss) (i : Instr) (o : Opd) : List LaneEnv :=
  let per := fun (f : List LaneEnv → Slice → List LaneEnv) =>
    (cx.sp.slices.map fun j => f (laneEnvs s cx.sp j) (s.slice (sliceKey cx.sp.team cx.sp.gang j))).flatten
  let source := fun (own : Bool) => (splitLanes s cx.sp).filter fun le => (guardedLanes s cx.sp).any fun l =>
    (own && l.n == le.n) || (shuffleFrom s cx.sp i l).any fun m => m.n == le.n
  match i with
  | .movl _ _ _ l => per fun les _ => les.filter fun le => le.i == l.toNat
  | .brx .. => per fun les sl => brxLanes cx les sl
  | .callr .. => per fun les _ => callrLanes les
  | .rsort .. => splitLanes s cx.sp
  | .shfl _ a b => if o.reads && o.kind == .x a.toNat 1 then source (a == b) else guardedLanes s cx.sp
  | .shflImm .. | .shfx .. => if o.reads then source false else guardedLanes s cx.sp
  | _ => guardedLanes s cx.sp

/-- Lanes in which a word touches an operand: every lane of the slices concerned for a g or h one (R119). -/
def opdLanes (s : State) (cx : Iss) (i : Instr) (o : Opd) : List LaneEnv :=
  match o.kind with
  | .g _ => if oncePerSplit i && !o.writes then (splitLanes s cx.sp).filter fun le => le.sk == cx.low else splitLanes s cx.sp
  | .h _ => splitLanes s cx.sp
  | _ => xLanes s cx i o

/-- A pending register that a word reads or writes in a lane: the operand, the lane, kind and index of the register as reported, and the
token of the operation (R119). -/
structure Hit where
  opd : Opd
  lane : LaneEnv
  kind : Nat
  index : Nat
  tok : Nat

/-- The pending registers that a word touches, in the order of its operands and of its lanes (R119). -/
def hitsOf (s : State) (cx : Iss) (i : Instr) : List Hit :=
  ((operands i).map fun o => ((opdLanes s cx i o).map fun le => (touched cx le o).filterMap fun u =>
    (pendingUnit s le.sk u.1).map fun t => (⟨o, le, u.2.1, u.2.2, t⟩ : Hit)).flatten).flatten

/-- Token hazard of a word (R119): TVAL reports the first pending register that it touches, and whether it reads it, writes it or both;
TLANES holds every lane in which it touches one. A hazard found at its decode, before its checks parked it, stands. -/
def hazardCheck (s : State) (cx : Iss) (i : Instr) : Option CauseRec :=
  let tkc := match find cx.tm.asid s.ctxs with | some c => c.dbg.getLsbD 1 | none => false
  if cx.sp.hazard.isSome then cx.sp.hazard
  else if !tkc then none
  else
    let hs := hitsOf s cx i
    hs.head?.map fun h =>
      let same := hs.filter fun x => x.kind == h.kind && x.index == h.index
      let rd := same.any fun x => x.opd.reads
      let wr := same.any fun x => x.opd.writes
      cause 0x0F 0 (h.index + 256 * (if rd && wr then 2 else if wr then 1 else 0) + 1024 * h.kind + 4096 * h.tok)
        (laneMask (hs.map Hit.lane))

/-- Whether the checks of the word at a split are still in progress: its translation is parked, or an engine is to accept it.
-/
def checksOn (s : State) (sid : Nat) : Bool :=
  (find sid s.splits).any fun sp => sp.park.isSome || match sp.wait with | .accept _ => true | _ => false

/-- Whether the word at a split is about to raise cause 0x0D, which comes before a token hazard (R48, R178). -/
def trapDue (s : State) (sid : Nat) : Bool :=
  (find sid s.splits).any fun sp => match sp.wait with | .exact _ bad => bad != 0 | _ => false

/-- Marks, in each slice, the units a word reads that an operation is to write and that no outstanding write stands on
(R116). -/
def noteReads (s : State) (cx : Iss) (i : Instr) : State :=
  ((operands i).filter fun o => o.reads).foldl (fun t o =>
    (opdLanes s cx i o).foldl (fun t le => (touched cx le o).foldl (fun t u =>
      if (pendingUnit s le.sk u.1).isSome && !(le.sl.pend.any fun q => q.key == u.1) then
        t.modSlice le.sk fun sl => { sl with readAt := put u.1 le.sl.slot sl.readAt }
      else t) t) t) s

/-! ### The issuing split, and the prologue every word shares -/

/-- The split `s.cur` names, with its team. -/
def issuing (s : State) : Option Iss :=
  match s.cur with
  | none => none
  | some sid =>
    match find sid s.splits with
    | none => none
    | some sp => (find sp.team s.teams).map fun t => ⟨sid, sp, t⟩

/-- Runs the meaning of word `i` for the issuing split. `pre` gives the causes ranked before the window check (0x02);
the window check of R126 follows; `body` answers a cause, or the state after the word; the token check of R119 comes
after every cause and before any effect; of a word whose checks go on after its issue, it is kept for their end. -/
def runIssue (s : State) (i : Instr) (pre : Iss → Option CauseRec) (body : Iss → Except CauseRec State) : Out :=
  match issuing s with
  | none => .fault .noIssuingSplit
  | some cx =>
    match pre cx with
    | some c => .next (raiseAt s cx.sid c)
    | none =>
      match windowCheck s cx (operands i) with
      | some c => .next (raiseAt s cx.sid c)
      | none =>
        match body cx with
        | .error c => .next (raiseAt s cx.sid c)
        | .ok t =>
          match hazardCheck s cx i with
          | none => .next t
          | some c =>
            if checksOn t cx.sid then .next (t.modSplit cx.sid fun p => { p with hazard := some c })
            else if trapDue t cx.sid then .next t
            else .next (raiseAt s cx.sid c)

/-- A word that raises nothing beyond the shared checks. -/
def plain (s : State) (i : Instr) (body : Iss → State) : Out :=
  runIssue s i (fun _ => none) fun cx => .ok (body cx)

/-- A word that may raise a cause of its own. -/
def checked (s : State) (i : Instr) (body : Iss → Except CauseRec State) : Out := runIssue s i (fun _ => none) body

end Sys2Proof.Machine
end

