-- ==== Sys2Proof/Machine/Integer.lean ====
section
/-! DEFINITION. Meanings of the integer instructions 0x01 to 0x25 (spec/05 sections 5.6 to 5.10). -/
namespace Sys2Proof.Machine

/-! ### Shared moulds -/

/-- The state after a format A integer word with a fixed latency: per element of each active guarded lane, or once per
slice on 64-bit g values with wrapping arithmetic (R141, R144). -/
def aluEffect (s : State) (cx : Iss) (d a b : BitVec 8) (e : Bool) (dist : Nat)
    (fx : Nat → Bool → Nat → Nat → Nat → Nat) (fg : Bool → Nat → Nat → Nat → Nat) : State :=
  let it := modeIT cx.sp.mode
  let sat := modeSAT cx.sp.mode
  if e then perSliceG s cx 2 d.toNat fun g => fg (itSigned it) (g a.toNat) (g b.toNat) (g d.toNat)
  else perLane s cx dist fun le => [(le.key d.toNat, w32 (fx it sat (le.x a.toNat).toNat (le.x b.toNat).toNat (le.x d.toNat).toNat))]

/-- A format A integer word whose operation acts per element of IT. -/
def aluElem (s : State) (i : Instr) (d a b : BitVec 8) (e : Bool) (dist : Nat)
    (f : Bool → Nat → Bool → Nat → Nat → Nat → Nat) : Out :=
  plain s i fun cx => advance (aluEffect s cx d a b e dist
    (fun it sat => perElem it (f (itSigned it) (itWidth it) sat)) (fun sgn => f sgn 64 false)) cx

/-- A format A integer word whose operation acts on the whole register. -/
def aluWhole (s : State) (i : Instr) (d a b : BitVec 8) (e : Bool)
    (f : Bool → Nat → Nat → Nat → Nat → Nat) : Out :=
  plain s i fun cx => advance (aluEffect s cx d a b e 2 (fun it _ => f (itSigned it) 32) (fun sgn => f sgn 64)) cx

/-- DIV and REM: operands read at issue, the result lands on t8 at completion (R143, R144). -/
def divEffect (s : State) (cx : Iss) (d a b : BitVec 8) (e : Bool)
    (f : Bool → Nat → Bool → Nat → Nat → Nat → Nat) : State :=
  let it := modeIT cx.sp.mode
  let lands := fun (k : Nat) =>
    if e then
      let sl := s.slice k
      let g := readG s.tick k sl cx.sp.handler
      let v := f (itSigned it) 64 false (g a.toNat) (g b.toNat) 0
      if d.toNat = 0 then [] else
        [⟨k, keyG (gIndex cx.sp.handler d.toNat) 0, half v 0⟩, ⟨k, keyG (gIndex cx.sp.handler d.toNat) 1, half v 1⟩]
    else ((guardedLanes s cx.sp).filter fun le => le.sk == k).map fun le =>
      (⟨k, le.key d.toNat, w32 (perElem it (f (itSigned it) (itWidth it) false) (le.x a.toNat).toNat (le.x b.toNat).toNat 0)⟩ : Land)
  postSlices s cx 8 (fun _ => []) fun k => .result (lands k) []

def divWord (s : State) (i : Instr) (d a b : BitVec 8) (e : Bool)
    (f : Bool → Nat → Bool → Nat → Nat → Nat → Nat) : Out :=
  plain s i fun cx => advance (divEffect s cx d a b e f) cx

/-- The state after an IUN word with code 0 to 8 (R37, R151). -/
def iunEffect (s : State) (cx : Iss) (d a : BitVec 8) (g : Bool) (fx : Nat → Bool → Nat → Nat)
    (fg : Bool → Nat → Nat) : State :=
  let it := modeIT cx.sp.mode
  if g then perSliceG s cx 2 d.toNat fun r => fg (itSigned it) (r a.toNat)
  else perLane s cx 2 fun le => [(le.key d.toNat, w32 (fx it (modeSAT cx.sp.mode) (le.x a.toNat).toNat))]

/-- An IUN word that acts per element. -/
def iunElem (s : State) (i : Instr) (d a : BitVec 8) (g : Bool) (f : Bool → Nat → Bool → Nat → Nat) : Out :=
  plain s i fun cx => advance (iunEffect s cx d a g
    (fun it sat u => perElem it (fun x _ _ => f (itSigned it) (itWidth it) sat x) u 0 0) (fun sgn => f sgn 64 false)) cx

/-- An IUN word that acts on the whole register. -/
def iunWhole (s : State) (i : Instr) (d a : BitVec 8) (g : Bool) (f : Nat → Nat → Nat) : Out :=
  plain s i fun cx => advance (iunEffect s cx d a g (fun _ _ => f 32) (fun _ => f 64)) cx

/-- The state after an immediate word: per active guarded lane, by type and saturation (R145). -/
def immEffect (s : State) (cx : Iss) (d a : BitVec 8) (dist : Nat) (f : Nat → Bool → Nat → Nat) : State :=
  perLane s cx dist fun le => [(le.key d.toNat, w32 (f (modeIT cx.sp.mode) (modeSAT cx.sp.mode) (le.x a.toNat).toNat))]

/-- An immediate word that acts per element with the sign-extended immediate read modulo the width (R145). -/
def immElem (s : State) (i : Instr) (d a : BitVec 8) (imm : BitVec 9) (dist : Nat)
    (f : Bool → Nat → Bool → Nat → Nat → Nat → Nat) : Out :=
  plain s i fun cx => advance (immEffect s cx d a dist fun it sat u =>
    perElem it (fun x _ _ => f (itSigned it) (itWidth it) sat x (wrap (itWidth it) imm.toInt) 0) u 0 0) cx

/-- An immediate word that acts on all 32 bits. -/
def immWhole (s : State) (i : Instr) (d a : BitVec 8) (imm : BitVec 9) (f : Bool → Nat → Nat → Nat → Nat → Nat) : Out :=
  plain s i fun cx => advance (immEffect s cx d a 2 fun _ _ u => f false 32 u (wrap 32 imm.toInt) 0) cx

/-- A shift by an immediate: the amount modulo the width for every element (R145). -/
def immShift (s : State) (i : Instr) (d a : BitVec 8) (amt : BitVec 5)
    (f : Bool → Nat → Bool → Nat → Nat → Nat → Nat) : Out :=
  plain s i fun cx => advance (immEffect s cx d a 2 fun it sat u =>
    perElem it (fun x _ _ => f (itSigned it) (itWidth it) sat x (amt.toNat % itWidth it) 0) u 0 0) cx

/-- Writes predicate `p` in each active guarded lane; p0 discards (R133). -/
def predEffect (s : State) (cx : Iss) (dist : Nat) (p : Nat) (f : LaneEnv → Bool) : State :=
  if p = 0 then s else perLane s cx dist fun le => [(keyP p le.i, w32 (ofBool (f le)))]

/-- ICMP and ICMPI (R152). -/
def icmpWord (s : State) (i : Instr) (p : BitVec 6) (a : BitVec 8) (b : LaneEnv → Nat) (c : BitVec 3) : Out :=
  plain s i fun cx => advance (predEffect s cx 2 p.toNat fun le =>
    icmpCond (itSigned (modeIT cx.sp.mode)) c.toNat (le.x a.toNat).toNat (b le)) cx

/-! ### Register-register (R141 to R144) -/

/-- ADD (R141): sum, fitted. -/
def execAdd (d a b : BitVec 8) (e : Bool) (s : State) : Out := aluElem s (.add d a b e) d a b e 2 opAdd

/-- SUB (R141): difference, fitted. -/
def execSub (d a b : BitVec 8) (e : Bool) (s : State) : Out := aluElem s (.sub d a b e) d a b e 2 opSub

/-- MUL (R142): product, fitted. -/
def execMul (d a b : BitVec 8) (e : Bool) (s : State) : Out := aluElem s (.mul d a b e) d a b e 4 opMul

/-- MULH (R142): high half of the product. -/
def execMulh (d a b : BitVec 8) (e : Bool) (s : State) : Out := aluElem s (.mulh d a b e) d a b e 4 opMulh

/-- MAD (R142): product plus the old destination, fitted once. -/
def execMad (d a b : BitVec 8) (e : Bool) (s : State) : Out := aluElem s (.mad d a b e) d a b e 4 opMad

/-- MIN (R141): lesser. -/
def execMin (d a b : BitVec 8) (e : Bool) (s : State) : Out := aluElem s (.min d a b e) d a b e 2 opMin

/-- MAX (R141): greater. -/
def execMax (d a b : BitVec 8) (e : Bool) (s : State) : Out := aluElem s (.max d a b e) d a b e 2 opMax

/-- SHL (R141): left shift. -/
def execShl (d a b : BitVec 8) (e : Bool) (s : State) : Out := aluElem s (.shl d a b e) d a b e 2 opShl

/-- SHR (R141): right shift. -/
def execShr (d a b : BitVec 8) (e : Bool) (s : State) : Out := aluElem s (.shr d a b e) d a b e 2 opShr

/-- ROT (R141): rotate left. -/
def execRot (d a b : BitVec 8) (e : Bool) (s : State) : Out := aluElem s (.rot d a b e) d a b e 2 opRot

/-- ABSD (R141): absolute difference. -/
def execAbsd (d a b : BitVec 8) (e : Bool) (s : State) : Out := aluElem s (.absd d a b e) d a b e 2 opAbsd

/-- AND (R141). -/
def execAnd (d a b : BitVec 8) (e : Bool) (s : State) : Out := aluWhole s (.and d a b e) d a b e opAnd

/-- OR (R141). -/
def execOr (d a b : BitVec 8) (e : Bool) (s : State) : Out := aluWhole s (.or d a b e) d a b e opOr

/-- XOR (R141). -/
def execXor (d a b : BitVec 8) (e : Bool) (s : State) : Out := aluWhole s (.xor d a b e) d a b e opXor

/-- ANDN (R141). -/
def execAndn (d a b : BitVec 8) (e : Bool) (s : State) : Out := aluWhole s (.andn d a b e) d a b e opAndn

/-- BFX (R148). -/
def execBfx (d a b : BitVec 8) (e : Bool) (s : State) : Out := aluWhole s (.bfx d a b e) d a b e opBfx

/-- BFI (R148). -/
def execBfi (d a b : BitVec 8) (e : Bool) (s : State) : Out := aluWhole s (.bfi d a b e) d a b e opBfi

/-- DIV (R143, Table 5.6). -/
def execDiv (d a b : BitVec 8) (e : Bool) (s : State) : Out := divWord s (.div d a b e) d a b e opDiv

/-- REM (R143, Table 5.6). -/
def execRem (d a b : BitVec 8) (e : Bool) (s : State) : Out := divWord s (.rem d a b e) d a b e opRem

/-- PRMB (R149). -/
def execPrmb (d a b : BitVec 8) (s : State) : Out :=
  plain s (.prmb d a b) fun cx => advance (perLane s cx 2 fun le =>
    [(le.key d.toNat, w32 (opPrmb (le.x a.toNat).toNat (le.x b.toNat).toNat (le.x d.toNat).toNat))]) cx

/-- SEL (R150). -/
def execSel (d a b : BitVec 8) (s : State) : Out :=
  plain s (.sel d a b) fun cx => advance (perLane s cx 2 fun le =>
    [(le.key d.toNat, if le.p (modeSP cx.sp.mode) then le.x a.toNat else le.x b.toNat)]) cx

/-! ### IUN (R37, R151) -/

/-- CLZ (Table 5.8). -/
def execClz (d a : BitVec 8) (g : Bool) (s : State) : Out := iunElem s (.clz d a g) d a g opClz

/-- CTZ (Table 5.8). -/
def execCtz (d a : BitVec 8) (g : Bool) (s : State) : Out := iunElem s (.ctz d a g) d a g opCtz

/-- POPC (Table 5.8). -/
def execPopc (d a : BitVec 8) (g : Bool) (s : State) : Out := iunElem s (.popc d a g) d a g opPopc

/-- BREV (Table 5.8). -/
def execBrev (d a : BitVec 8) (g : Bool) (s : State) : Out := iunElem s (.brev d a g) d a g opBrev

/-- NEG (Table 5.8). -/
def execNeg (d a : BitVec 8) (g : Bool) (s : State) : Out := iunElem s (.neg d a g) d a g opNeg

/-- ABS (Table 5.8). -/
def execAbs (d a : BitVec 8) (g : Bool) (s : State) : Out := iunElem s (.abs d a g) d a g opAbs

/-- NOT (Table 5.8): every bit complemented. -/
def execNot (d a : BitVec 8) (g : Bool) (s : State) : Out :=
  iunWhole s (.not d a g) d a g fun w u => 2 ^ w - 1 - u % 2 ^ w

/-- SEX8 (Table 5.8): bits [7:0] sign-extended. -/
def execSex8 (d a : BitVec 8) (g : Bool) (s : State) : Out := iunWhole s (.sex8 d a g) d a g fun w u => wrap w (signed 8 u)

/-- SEX16 (Table 5.8): bits [15:0] sign-extended. -/
def execSex16 (d a : BitVec 8) (g : Bool) (s : State) : Out := iunWhole s (.sex16 d a g) d a g fun w u => wrap w (signed 16 u)

/-- MOVG (R37): g to x in each active guarded lane, each slice its own g. -/
def execMovg (d a : BitVec 8) (p : Bool) (s : State) : Out :=
  plain s (.movg d a p) fun cx => advance (perLane s cx 2 fun le =>
    le.put d.toNat (if p then 2 else 1) (readG s.tick le.sk le.sl cx.sp.handler a.toNat)) cx

/-- MOVL (R37, Table 5.8): x of one lane of the slice to g, whatever that lane's activity. -/
def execMovl (d a : BitVec 8) (p : Bool) (l : BitVec 2) (s : State) : Out :=
  plain s (.movl d a p l) fun cx => advance (perSlice s cx fun sk sl =>
    let x := fun (n : Nat) => (readUnit s.tick sk sl (keyX (sl.wb + n) l.toNat)).toNat
    sl.writeG cx.sp.handler 2 d.toNat (x a.toNat + if p then 2 ^ 32 * x (a.toNat + 1) else 0)) cx

/-! ### Immediates (R145 to R147) -/

/-- ADDI (Table 5.7). -/
def execAddi (d a : BitVec 8) (i : BitVec 9) (s : State) : Out := immElem s (.addi d a i) d a i 2 opAdd

/-- MULI (Table 5.7). -/
def execMuli (d a : BitVec 8) (i : BitVec 9) (s : State) : Out := immElem s (.muli d a i) d a i 4 opMul

/-- ANDI (Table 5.7). -/
def execAndi (d a : BitVec 8) (i : BitVec 9) (s : State) : Out := immWhole s (.andi d a i) d a i opAnd

/-- ORI (Table 5.7). -/
def execOri (d a : BitVec 8) (i : BitVec 9) (s : State) : Out := immWhole s (.ori d a i) d a i opOr

/-- XORI (Table 5.7). -/
def execXori (d a : BitVec 8) (i : BitVec 9) (s : State) : Out := immWhole s (.xori d a i) d a i opXor

/-- SHLI (Table 5.7). -/
def execShli (d a : BitVec 8) (i : BitVec 5) (s : State) : Out := immShift s (.shli d a i) d a i opShl

/-- SHRI (Table 5.7). -/
def execShri (d a : BitVec 8) (i : BitVec 5) (s : State) : Out := immShift s (.shri d a i) d a i opShr

/-- ROTI (Table 5.7). -/
def execRoti (d a : BitVec 8) (i : BitVec 5) (s : State) : Out := immShift s (.roti d a i) d a i opRot

/-- GADDI (R146). -/
def execGaddi (d a : BitVec 8) (i : BitVec 9) (s : State) : Out :=
  plain s (.gaddi d a i) fun cx => advance (perSliceG s cx 2 d.toNat fun g => wrap 64 ((g a.toNat : Int) + i.toInt)) cx

/-- LDH (R147). -/
def execLdh (d : BitVec 8) (i : BitVec 17) (s : State) : Out :=
  plain s (.ldh d i) fun cx => advance (perLane s cx 2 fun le => [(le.key d.toNat, w32 (i.toNat * 2 ^ 15))]) cx

/-- LDL (R36, R147): writes bits [14:0] alone and does not read the slot. -/
def execLdl (d : BitVec 8) (i : BitVec 15) (s : State) : Out :=
  plain s (.ldl d i) fun cx => advance ((guardedLanes s cx.sp).foldl (fun t le => t.modSlice le.sk fun sl =>
    sl.write 2 (le.key d.toNat) (w32 i.toNat) 0x7FFF#32) s) cx

/-- Marks a member of an LDHG and LDLG chain in every slice of the split (R36). -/
def setChain (s : State) (cx : Iss) (d : Nat) : State := perSlice s cx fun _ sl => { sl with chain := some d }

/-- LDHG (R147). -/
def execLdhg (d : BitVec 8) (i : BitVec 17) (s : State) : Out :=
  plain s (.ldhg d i) fun cx =>
    setChain (advance (perSliceG s cx 2 d.toNat fun _ => wrap 64 i.toInt) cx) cx (gIndex cx.sp.handler d.toNat)

/-- LDLG (R36, R147): directly after a member of its chain it reads that member's value. -/
def execLdlg (d : BitVec 8) (i : BitVec 17) (s : State) : Out :=
  plain s (.ldlg d i) fun cx =>
    let r := gIndex cx.sp.handler d.toNat
    setChain (advance (perSlice s cx fun sk sl =>
      let old := if d.toNat ≠ 0 && sl.chain == some r then
          (readFinal sl (keyG r 0)).toNat + 2 ^ 32 * (readFinal sl (keyG r 1)).toNat
        else readG s.tick sk sl cx.sp.handler d.toNat
      sl.writeG cx.sp.handler 2 d.toNat ((old * 2 ^ 17 + i.toNat) % 2 ^ 64)) cx) cx r

/-! ### Compares (R152) -/

/-- ICMP (R152). -/
def execIcmp (p : BitVec 6) (a b : BitVec 8) (c : BitVec 3) (s : State) : Out :=
  icmpWord s (.icmp p a b c) p a (fun le => (le.x b.toNat).toNat) c

/-- ICMPI (R152). -/
def execIcmpi (p : BitVec 6) (a i : BitVec 8) (c : BitVec 3) (s : State) : Out :=
  icmpWord s (.icmpi p a i c) p a (fun _ => wrap 32 i.toInt) c

end Sys2Proof.Machine
end

