-- ==== Sys2Proof/Machine/Control.lean ====
section
/-! DEFINITION. Meanings of the predicate, MODE, PREC and state-register instructions 0x26 to 0x2E (spec/02 section 2.6,
spec/04 section 4.2, spec/05 sections 5.4 and 5.10, spec/06 section 6.5). -/
namespace Sys2Proof.Machine

/-- The word of an instruction, which cause 0x01 and cause 0x02 report (Table 15.1). -/
def wordOf (i : Instr) : Nat := (encodeNat i).getD 0
/-- Cause 0x01 and cause 0x02 of an instruction (R46, R48, R51): every live lane of the split meets it (log entry 47, DEDUCED). -/
def illegalWord (s : State) (cx : Iss) (i : Instr) : CauseRec := cause 0x01 0 (wordOf i) (liveMask s cx.sp)
def privileged (s : State) (cx : Iss) (i : Instr) : CauseRec := cause 0x02 0 (wordOf i) (liveMask s cx.sp)

/-! ### Predicates (R153, R154) -/

/-- PLOG (R153). -/
def execPlog (d a b : BitVec 6) (t : BitVec 4) (s : State) : Out :=
  plain s (.plog d a b t) fun cx => advance (predEffect s cx 2 d.toNat fun le =>
    bitAt t.toNat (2 * ofBool (le.p a.toNat) + ofBool (le.p b.toNat))) cx

/-- PMOV.p2x (Table 2.7). -/
def execPmovP2x (d : BitVec 8) (s : State) : Out :=
  plain s (.pmovP2x d) fun cx => advance (perLane s cx 2 fun le =>
    le.put d.toNat 2 (sumNat ((upFrom 0 64).map fun j => ofBool (le.p j) * 2 ^ j))) cx

/-- PMOV.x2p (Table 2.7): p0 is left unchanged. -/
def execPmovX2p (a : BitVec 8) (s : State) : Out :=
  plain s (.pmovX2p a) fun cx => advance (perLane s cx 2 fun le =>
    let v := le.xs a.toNat 2
    (upFrom 1 63).map fun j => (keyP j le.i, w32 (ofBool (bitAt v j)))) cx

/-- PMOV.mov (Table 2.7). -/
def execPmovMov (d a : BitVec 8) (s : State) : Out :=
  plain s (.pmovMov d a) fun cx => advance (predEffect s cx 2 d.toNat fun le => le.p a.toNat) cx

/-- PMOV.not (Table 2.7). -/
def execPmovNot (d a : BitVec 8) (s : State) : Out :=
  plain s (.pmovNot d a) fun cx => advance (predEffect s cx 2 d.toNat fun le => !le.p a.toNat) cx

/-- PMOV.set (Table 2.7). -/
def execPmovSet (d : BitVec 8) (v : Bool) (s : State) : Out :=
  plain s (.pmovSet d v) fun cx => advance (predEffect s cx 2 d.toNat fun _ => v) cx

/-- PMOV.lsb (Table 2.7). -/
def execPmovLsb (d a : BitVec 8) (s : State) : Out :=
  plain s (.pmovLsb d a) fun cx => advance (predEffect s cx 2 d.toNat fun le => (le.x a.toNat).getLsbD 0) cx

/-! ### MODE (R39, R40, R136, R137) -/

/-- Position and width of a MODE field by its code (Tables 2.8 and 5.3). -/
def modeField (f : Nat) : Nat × Nat :=
  match f with
  | 0 => (0, 6) | 1 => (6, 1) | 2 => (7, 6) | 3 => (13, 3) | 4 => (16, 1) | 5 => (17, 2) | 6 => (20, 3) | _ => (23, 3)

/-- The split takes a new MODE, in force for its next instruction (R136). -/
def setMode (s : State) (cx : Iss) (m : Word) : State := s.modSplit cx.sid fun sp => { sp with mode := m }

/-- SETM register form (R39, R40, R136). -/
def execSetm (a : BitVec 8) (s : State) : Out :=
  checked s (.setm a) fun cx =>
    let m := w32 (cx.g s a.toNat)
    if modeValid m then .ok (setMode (advance s cx) cx m) else .error (illegalWord s cx (.setm a))

/-- SETM field form (R39, Table 2.8); an immediate beyond the field's values is refused at decode. -/
def execSetmField (i : BitVec 8) (f : BitVec 4) (s : State) : Out :=
  plain s (.setmField i f) fun cx =>
    let p := modeField f.toNat
    setMode (advance s cx) cx (w32 (setField cx.sp.mode.toNat p.1 p.2 i.toNat))

/-- GETM (R137). -/
def execGetm (d : BitVec 8) (s : State) : Out :=
  plain s (.getm d) fun cx => advance (perSliceG s cx 2 d.toNat fun _ => cx.sp.mode.toNat) cx

/-! ### PREC (R39, R40, R166, R167, R177) -/

/-- Position and width of a PREC field by its code (Tables 2.8 and 6.1). -/
def precField (f : Nat) : Nat × Nat :=
  match f with
  | 0 => (0, 7) | 1 => (7, 2) | 2 => (9, 2) | 3 => (11, 1) | 4 => (12, 1) | _ => (24, 5)

/-- A free choice of flag bits (R177). -/
def freeBits (tick sk lane n : Nat) : Word := w32 (Config.choose tick (sk * 8192 + 6144 + 64 * lane + n))

/-- The outstanding flag writes of a lane, each bit of each kept or dropped freely (R177). -/
def thinFlags (tick sk lane : Nat) : Nat → List PendF → List PendF
  | _, [] => []
  | n, p :: t =>
    (if p.lane = lane then { p with flags := p.flags &&& freeBits tick sk lane n } else p) :: thinFlags tick sk lane (n + 1) t

/-- Unit under which a slice notes the slot of a lane's latest PRSET. -/
def keyPrset (i : Nat) : Nat := 4096 + i

/-- As `keyPrset`, for a PRSET in handler mode. -/
def keyPrsetH (i : Nat) : Nat := 4108 + i

/-- A PRSET of one lane: PREC takes the value; flag writes still outstanding may or may not survive it (R166, R177). -/
def Slice.setPrec (sl : Slice) (tick sk i : Nat) (handler : Bool) (v : Word) : Slice :=
  { sl with lanes := modNth sl.lanes i fun l => { l with prec := v }
            pendF := thinFlags tick sk i 0 sl.pendF
            lastW := put (if handler then keyPrsetH i else keyPrset i) sl.slot sl.lastW }

/-- PRSET of the value `v` gives each active guarded lane, or cause 0x18 when `bad` holds in one (R166). -/
def prsetWord (s : State) (cx : Iss) (v : LaneEnv → Word) (bad : LaneEnv → Bool) (immHi : Nat) : Except CauseRec State :=
  match (guardedLanes s cx.sp).filter bad with
  | l :: t => .error (cause 0x18 0 ((v l).toNat + 2 ^ 32 * immHi) (laneMask (l :: t)))
  | [] => .ok (advance ((guardedLanes s cx.sp).foldl (fun t le =>
      t.modSlice le.sk fun sl => sl.setPrec s.tick le.sk le.i cx.sp.handler (v le)) s) cx)

/-- PRSET register form (R39, R166). -/
def execPrset (a : BitVec 8) (s : State) : Out :=
  checked s (.prset a) fun cx => prsetWord s cx (fun le => le.x a.toNat) (fun le => !precValid (le.x a.toNat)) 0

/-- PRSET field form (R39, R166): the whole 8-bit immediate of the P field is judged. -/
def execPrsetField (i : BitVec 8) (f : BitVec 4) (s : State) : Out :=
  checked s (.prsetField i f) fun cx =>
    let p := precField f.toNat
    let v := fun (le : LaneEnv) => w32 (setField le.lane.prec.toNat p.1 p.2 i.toNat)
    prsetWord s cx v (fun le => (f.toNat == 0 && decide (113 < i.toNat)) || !precValid (v le))
      (if f.toNat = 0 ∧ 113 < i.toNat then i.toNat else 0)

/-- PREC as PRGET reads it: each flag bit of an outstanding write read with or without it (R177). -/
def precRead (le : LaneEnv) : Word :=
  (thinFlags le.tick le.sk le.i 32 (le.sl.pendF.filter fun p => p.lane == le.i)).foldl
    (fun v p => v ||| p.flags) le.lane.prec

/-- PRGET (R167). -/
def execPrget (d : BitVec 8) (s : State) : Out :=
  plain s (.prget d) fun cx => advance (perLane s cx 2 fun le => [(le.key d.toNat, precRead le)]) cx

/-! ### State registers (R50 to R52, R138, Table 2.14) -/

/-- A state register of slice or wider scope, as slice `sl` of the issuing split reads it. -/
def readSliceState (s : State) (cx : Iss) (sl : Slice) (idx : Nat) : Nat :=
  let c := find cx.tm.asid s.ctxs
  match idx with
  | 0x01 => gangId cx.tm cx.sp.gang
  | 0x02 => cx.tm.idx.toNat
  | 0x03 => cx.tm.x.toNat + 2 ^ 32 * cx.tm.y.toNat + 2 ^ 48 * cx.tm.z.toNat
  | 0x08 => cx.tm.core
  | 0x09 => cx.tm.site
  | 0x0A => s.fe.panel.toNat
  | 0x10 => 2 ^ 16 * sl.wb + sl.size
  | 0x12 => (s.island cx.tm.site).cycle % 2 ^ 64
  | 0x13 => sl.cycleh.toNat
  | 0x20 => match c with | some x => x.tvec.toNat | none => 0
  | 0x21 => cx.sp.tcause.toNat
  | 0x22 => cx.sp.tpc.toNat
  | 0x23 => cx.sp.tval.toNat
  | 0x24 => cx.sp.tlanes.toNat
  | 0x25 => cx.sp.tsave.toNat
  | 0x30 => match c with | some x => x.dbg.toNat | none => 0
  | 0x40 => match c with | some x => x.pid.toNat | none => 0
  | _ => 0

/-- A state register as a lane reads it through the x form. -/
def readLaneState (s : State) (cx : Iss) (le : LaneEnv) (idx : Nat) : Nat :=
  match idx with
  | 0x00 => le.lane.lid.toNat
  | 0x11 => le.lane.nest
  | 0x26 => le.lane.tprec.toNat
  | _ => readSliceState s cx le.sl idx % 2 ^ 32

/-- The registers only handler mode may write (RWH), and those that no instruction may write (R51). -/
def isRwh (idx : Nat) : Bool := decide (0x21 ≤ idx) && decide (idx ≤ 0x26)
def isRo (idx : Nat) : Bool := !isRwh idx && idx != 0x20

/-- MFS (R50 to R52, R138): PID is read in handler mode only; the x form of CYCLE latches its high half in every slice
of the split. -/
def execMfs (d : BitVec 8) (g : Bool) (i : BitVec 8) (s : State) : Out :=
  runIssue s (.mfs d g i) (fun cx => if i.toNat = 0x40 && !cx.sp.handler then some (privileged s cx (.mfs d g i)) else none)
    fun cx =>
      let t := if g then perSlice s cx fun _ sl => sl.writeG cx.sp.handler 4 d.toNat (readSliceState s cx sl i.toNat)
        else perLane s cx 4 fun le => [(le.key d.toNat, w32 (readLaneState s cx le i.toNat))]
      let t := if i.toNat = 0x12 && !g then
          perSlice t cx fun _ sl => { sl with cycleh := half (readSliceState s cx sl 0x12) 1 }
        else t
      .ok (advance t cx)

/-- Writes a state register of split or context scope with the bits its layout lets through (Table 15.3). `old` is
its value; the x form replaces bits [31:0] alone. -/
def writeSplitState (s : State) (cx : Iss) (idx : Nat) (v : Nat) : State :=
  let fix := fun (m : Nat) => BitVec.ofNat 64 (v &&& m)
  match idx with
  | 0x20 => s.modCtx cx.tm.asid fun c => { c with tvec := fix 0x0000FFFFFFFFFFFC }
  | 0x21 => s.modSplit cx.sid fun p => { p with tcause := w32 (v &&& 0xFFFF) }
  | 0x22 => s.modSplit cx.sid fun p => { p with tpc := fix 0x0000FFFFFFFFFFFC }
  | 0x23 => s.modSplit cx.sid fun p => { p with tval := BitVec.ofNat 64 v }
  | 0x24 => s.modSplit cx.sid fun p => { p with tlanes := BitVec.ofNat 64 v }
  | 0x25 => s.modSplit cx.sid fun p => { p with tsave := w32 v }
  | _ => s

/-- MTS (R50, R51, R138): of several lanes the highest-numbered wins, of several slices the highest (log entry 21, DESIGN CHOICE). -/
def execMts (a : BitVec 8) (g : Bool) (i : BitVec 8) (s : State) : Out :=
  runIssue s (.mts a g i)
    (fun cx => if isRo i.toNat || (isRwh i.toNat && !cx.sp.handler) then some (privileged s cx (.mts a g i)) else none)
    fun cx =>
      let t :=
        if i.toNat = 0x26 then
          (guardedLanes s cx.sp).foldl (fun t le => t.modSlice le.sk fun sl =>
            { sl with lanes := modNth sl.lanes le.i fun l => { l with tprec := le.x a.toNat } }) s
        else if g then
          match cx.sp.keys.getLast? with
          | none => s
          | some k => writeSplitState s cx i.toNat (readG s.tick k (s.slice k) cx.sp.handler a.toNat)
        else
          match (guardedLanes s cx.sp).getLast? with
          | none => s
          | some le =>
            let old := readSliceState s cx le.sl i.toNat
            writeSplitState s cx i.toNat (old / 2 ^ 32 * 2 ^ 32 + (le.x a.toNat).toNat)
      .ok (advance t cx)

/-- DLY (R108): n + 1 issue slots, and issue occupancy n + 1. -/
def execDly (n : BitVec 16) (s : State) : Out :=
  plain s (.dly n) fun cx => goTo s cx (addPc cx.sp.pc 4) (n.toNat + 1) (n.toNat + 1)

end Sys2Proof.Machine
end

