-- ==== Sys2Proof/Machine/Round.lean ====
section
/-! DEFINITION. Binary floating-point numbers: encodings, exact values, and the one rounding of R159 to R163. -/
namespace Sys2Proof.Machine

/-- An encoded value: a NaN with its signalling bit, an infinity, or ±m × 2^e. -/
inductive FVal where
  | nan (signalling : Bool)
  | inf (neg : Bool)
  | fin (neg : Bool) (m : Nat) (e : Int)
  deriving DecidableEq, Repr

/-- An exact result before rounding: NaN (with NV when `nv`), infinity, zero, or ±(n ÷ d) × 2^e with n, d > 0. -/
inductive XVal where
  | nan (nv : Bool)
  | inf (neg : Bool)
  | num (neg : Bool) (n d : Nat) (e : Int)
  deriving DecidableEq, Repr

/-- A result encoding with its flags: 1 NX, 2 UF, 4 OF, 8 DZ, 16 NV (PREC [28:24]). -/
structure FRes where
  v : Nat
  flags : Nat
  deriving DecidableEq, Repr

/-- A target of rounding: precision, exponent bits, trailing field bits of the encoding, RM and SUB. -/
structure Rnd where
  p : Nat
  eb : Nat
  t : Nat
  rm : Nat
  sub : Bool
  deriving DecidableEq, Repr

def fNX : Nat := 1
def fUF : Nat := 2
def fOF : Nat := 4
def fDZ : Nat := 8
def fNV : Nat := 16

/-- Exponent bits and trailing field bits of a container class (Table 6.2). -/
def classEb (c : Nat) : Nat := match c with | 1 => 8 | 2 => 11 | _ => 15
def classT (c : Nat) : Nat := match c with | 1 => 23 | 2 => 52 | _ => 112

/-- Bias, emin and emax of an exponent width. -/
def biasOf (eb : Nat) : Int := ((2 ^ (eb - 1) - 1 : Nat) : Int)
def eminOf (eb : Nat) : Int := 1 - biasOf eb
def emaxOf (eb : Nat) : Int := biasOf eb

/-- `m × 2^k`, dropping bits below one when `k` is negative. -/
def shiftBy (m : Nat) (k : Int) : Nat := if 0 ≤ k then m * 2 ^ k.toNat else m / 2 ^ (-k).toNat

/-- The value of an encoding with exponent width `eb` and `t` trailing bits. -/
def decodeF (eb t v : Nat) : FVal :=
  let fr := bits v 0 t
  let ex := bits v t eb
  let neg := bitAt v (t + eb)
  if ex = 2 ^ eb - 1 then (if fr = 0 then .inf neg else .nan (!bitAt v (t - 1)))
  else if ex = 0 then .fin neg fr (eminOf eb - t)
  else .fin neg (2 ^ t + fr) ((ex : Int) - biasOf eb - t)

/-- Encodings of the special values. -/
def encNan (eb t : Nat) : Nat := (2 ^ eb - 1) * 2 ^ t + 2 ^ (t - 1)
def encInf (eb t : Nat) (neg : Bool) : Nat := (2 ^ eb - 1) * 2 ^ t + ofBool neg * 2 ^ (eb + t)
/-- Encoding of ±m × 2^q, a value of the target. -/
def encFin (eb t : Nat) (neg : Bool) (m : Nat) (q : Int) : Nat :=
  let s := ofBool neg * 2 ^ (eb + t)
  if m = 0 then s
  else
    let l : Int := (Nat.log2 m : Int) + q
    if l < eminOf eb then s + shiftBy m (q - (eminOf eb - t))
    else s + ((l + biasOf eb).toNat * 2 ^ t + (shiftBy m (t - (Nat.log2 m : Int)) - 2 ^ t))

/-- Exponent of the leading bit of n ÷ d × 2^e. -/
def leadExp (n d : Nat) (e : Int) : Int :=
  let l : Int := (Nat.log2 n : Int) - Nat.log2 d
  (if shiftBy d l ≤ n ∧ (0 ≤ l ∨ d ≤ shiftBy n (-l)) then l else l - 1) + e

/-- n ÷ d × 2^e as a number of quanta 2^q: the whole part, the rest and what it is divided by. -/
def quanta (n d : Nat) (e q : Int) : Nat × Nat × Nat :=
  let num := shiftBy n (if q ≤ e then e - q else 0)
  let den := shiftBy d (if q ≤ e then 0 else q - e)
  (num / den, num % den, den)

/-- Whether a rounding mode moves away from zero, with `k` quanta and the rest `r` of `den` (R160). -/
def roundsUp (rm : Nat) (neg : Bool) (k r den : Nat) : Bool :=
  match rm with
  | 0 => decide (den < 2 * r) || (decide (2 * r = den) && k % 2 == 1)
  | 1 => false
  | 2 => !neg && r != 0
  | _ => neg && r != 0

/-- The value that replaces an overflowed result (R160). -/
def overflowVal (x : Rnd) (neg : Bool) : Nat :=
  let big := encFin x.eb x.t neg (2 ^ x.p - 1) (emaxOf x.eb - x.p + 1)
  match x.rm with
  | 0 => encInf x.eb x.t neg
  | 1 => big
  | 2 => if neg then big else encInf x.eb x.t neg
  | _ => if neg then encInf x.eb x.t neg else big

/-- The whole number of quanta that a rounding mode gives (R160). -/
def roundTo (rm : Nat) (neg : Bool) (u : Nat × Nat × Nat) : Nat := if roundsUp rm neg u.1 u.2.1 u.2.2 then u.1 + 1 else u.1

/-- A nonzero exact value rounded to a target: R160, R161, R163. It overflows when its rounding to P bits under RM, or to the nearest,
does: Table 6.4 sets OF for a value that RTZ cuts below the bound (log entry 83, DEDUCED). -/
def roundNum (x : Rnd) (neg : Bool) (n d : Nat) (e : Int) : FRes :=
  let l := leadExp n d e
  let qu : Int := l - x.p + 1
  let qs : Int := eminOf x.eb - x.p + 1
  -- rounded to P bits with an unbounded exponent range
  let u := quanta n d e qu
  let mu := roundTo x.rm neg u
  if emaxOf x.eb < (Nat.log2 (Nat.max mu (roundTo 0 neg u)) : Int) + qu then ⟨overflowVal x neg, fOF + fNX⟩
  else if eminOf x.eb ≤ l then ⟨encFin x.eb x.t neg mu qu, if u.2.1 = 0 then 0 else fNX⟩
  else if !x.sub then
    if (Nat.log2 mu : Int) + qu < eminOf x.eb then ⟨encFin x.eb x.t neg 0 0, fUF + fNX⟩
    else ⟨encFin x.eb x.t neg mu qu, fUF + fNX⟩
  else
    let v := quanta n d e qs
    let mv := roundTo x.rm neg v
    ⟨encFin x.eb x.t neg mv qs, if v.2.1 = 0 then 0 else fUF + fNX⟩

/-- An exact result rounded to a target (R160 to R163). -/
def roundX (x : Rnd) : XVal → FRes
  | .nan nv => ⟨encNan x.eb x.t, if nv then fNV else 0⟩
  | .inf neg => ⟨encInf x.eb x.t neg, 0⟩
  | .num neg n d e => if n = 0 then ⟨encFin x.eb x.t neg 0 0, 0⟩ else roundNum x neg n d e

/-- A value as an exact result: the rule of R179 for one operand. -/
def FVal.exact : FVal → XVal
  | .nan s => .nan s
  | .inf n => .inf n
  | .fin n m e => .num n m 1 e

def FVal.isNan : FVal → Bool
  | .nan _ => true
  | _ => false
def FVal.isSnan : FVal → Bool
  | .nan s => s
  | _ => false
def FVal.isZero : FVal → Bool
  | .fin _ 0 _ => true
  | _ => false
def FVal.isInf : FVal → Bool
  | .inf _ => true
  | _ => false
def FVal.neg : FVal → Bool
  | .nan _ => false
  | .inf n => n
  | .fin n _ _ => n
/-- The value with its sign inverted. -/
def FVal.negate : FVal → FVal
  | .nan s => .nan s
  | .inf n => .inf (!n)
  | .fin n m e => .fin (!n) m e

/-- ±m as an integer of quanta 2^q, for q ≤ e. -/
def scaled (neg : Bool) (m : Nat) (e q : Int) : Int :=
  let v : Int := (shiftBy m (e - q) : Nat)
  if neg then -v else v

/-- Exact sum (R179, R180). -/
def addX (rm : Nat) (nv : Bool) : FVal → FVal → XVal
  | .nan a, b => .nan (nv || a || b.isSnan)
  | a, .nan b => .nan (nv || b || a.isSnan)
  | .inf a, .inf b => if a = b then .inf a else .nan true
  | .inf a, _ => .inf a
  | _, .inf b => .inf b
  | .fin na ma ea, .fin nb mb eb =>
    let q := if ea ≤ eb then ea else eb
    let r := scaled na ma ea q + scaled nb mb eb q
    if r = 0 then .num (if ma = 0 ∧ mb = 0 ∧ na = nb then na else rm == 3) 0 1 0
    else .num (decide (r < 0)) r.natAbs 1 q

/-- The product as a value, with the flag that it is an invalid operation (R179, R180). -/
def mulV : FVal → FVal → FVal × Bool
  | .nan a, b => (.nan (a || b.isSnan), false)
  | a, .nan b => (.nan (b || a.isSnan), false)
  | .inf a, b => if b.isZero then (.nan true, true) else (.inf (xor a b.neg), false)
  | a, .inf b => if a.isZero then (.nan true, true) else (.inf (xor a.neg b), false)
  | .fin na ma ea, .fin nb mb eb => (.fin (xor na nb) (ma * mb) (ea + eb), false)

/-- a × b + c, exact (R179 to R181). -/
def fmaX (rm : Nat) (a b c : FVal) : XVal :=
  let p := mulV a b
  addX rm (p.2 || a.isSnan || b.isSnan || c.isSnan) p.1 c

/-- a ÷ b with the flag DZ (R182). -/
def divX : FVal → FVal → XVal × Bool
  | .nan a, b => (.nan (a || b.isSnan), false)
  | a, .nan b => (.nan (b || a.isSnan), false)
  | .inf _, .inf _ => (.nan true, false)
  | .inf a, b => (.inf (xor a b.neg), false)
  | a, .inf b => (.num (xor a.neg b) 0 1 0, false)
  | .fin na ma ea, .fin nb mb eb =>
    if mb = 0 then (if ma = 0 then (.nan true, false) else (.inf (xor na nb), true))
    else (.num (xor na nb) ma mb (ea - eb), false)

/-- Whether one non-NaN value is less than another, zeros equal. -/
def ltF : FVal → FVal → Bool
  | .inf true, .inf true => false
  | .inf true, _ => true
  | _, .inf true => false
  | .inf false, _ => false
  | _, .inf false => true
  | .fin na ma ea, .fin nb mb eb =>
    let q := if ea ≤ eb then ea else eb
    decide (scaled na ma ea q < scaled nb mb eb q)
  | _, _ => false

/-- ±m × 2^e rounded to an integer under a rounding mode; the flag says it changed. -/
def toInteger (rm : Nat) (neg : Bool) (m : Nat) (e : Int) : Nat × Bool :=
  let u := quanta m 1 e 0
  (if roundsUp rm neg u.1 u.2.1 u.2.2 then u.1 + 1 else u.1, u.2.1 != 0)

/-- The integer square root by bits: the greatest r below 2^(b+1) with r² ≤ n, given r so far. -/
def sqrtBits (n : Nat) : (b r : Nat) → Nat
  | 0, r => if (r + 1) * (r + 1) ≤ n then r + 1 else r
  | b + 1, r => sqrtBits n b (if (r + 2 ^ (b + 1)) * (r + 2 ^ (b + 1)) ≤ n then r + 2 ^ (b + 1) else r)
/-- The integer square root. -/
def isqrt (n : Nat) : Nat := sqrtBits n (Nat.log2 n / 2 + 1) 0

/-- A value known by the floor of its scaled magnitude and whether that is exact: an odd unit below stands for the
rest, which rounding to fewer bits cannot tell from it. -/
def sticky (neg : Bool) (k : Nat) (exact : Bool) (e : Int) : XVal :=
  .num neg (2 * k + ofBool (!exact)) 1 (e - 1)

/-- √(m × 2^e), with more than 116 bits before its sticky part (R191). -/
def sqrtX (m : Nat) (e : Int) : XVal :=
  let m' := if e % 2 = 0 then m else 2 * m
  let e' := if e % 2 = 0 then e else e - 1
  let k := isqrt (m' * 2 ^ 256)
  sticky false k (k * k == m' * 2 ^ 256) (e' / 2 - 128)

/-- 1 ÷ √(m × 2^e) (R191). -/
def rsqrtX (m : Nat) (e : Int) : XVal :=
  let m' := if e % 2 = 0 then m else 2 * m
  let e' := if e % 2 = 0 then e else e - 1
  let k := isqrt (2 ^ 512 / m')
  sticky false k (k * k * m' == 2 ^ 512) (-(e' / 2) - 256)

/-- One of the two members adjacent to a nonzero exact value, or the value itself (R191): `up` chooses between them. -/
def faithfulNum (x : Rnd) (up : Bool) (neg : Bool) (n d : Nat) (e : Int) : FRes :=
  let l := leadExp n d e
  let qu : Int := l - x.p + 1
  let qs : Int := eminOf x.eb - x.p + 1
  let q := if qu < qs then qs else qu
  let u := quanta n d e q
  let tiny := decide (l < eminOf x.eb)
  if emaxOf x.eb < l ∨ (l = emaxOf x.eb ∧ u.1 = 2 ^ x.p - 1 ∧ u.2.1 ≠ 0) then
    ⟨if up then overflowVal x neg else encFin x.eb x.t neg (2 ^ x.p - 1) (emaxOf x.eb - x.p + 1), fOF + fNX⟩
  else
    let k := if u.2.1 ≠ 0 && up then u.1 + 1 else u.1
    if !x.sub && decide ((Nat.log2 k : Int) + q < eminOf x.eb ∨ k = 0) then
      ⟨encFin x.eb x.t neg 0 0, fNX + (if tiny then fUF else 0)⟩
    else ⟨encFin x.eb x.t neg k q, if u.2.1 = 0 then 0 else fNX + (if tiny then fUF else 0)⟩

/-- A faithful result (R191). -/
def faithfulX (x : Rnd) (up : Bool) : XVal → FRes
  | .num neg n d e => if n = 0 then ⟨encFin x.eb x.t neg 0 0, 0⟩ else faithfulNum x up neg n d e
  | v => roundX x v

end Sys2Proof.Machine
end

