-- ==== Sys2Proof/Machine/Float.lean ====
section
/-! DEFINITION. Meanings of the floating-point instructions 0x70 to 0x7B and 0x7D (spec/07 sections 7.1 to 7.5, 7.7). -/
namespace Sys2Proof.Machine

/-! ### Operands and results of a lane (R158, R175) -/

/-- Effective class of the lane (R157). -/
def LaneEnv.cls (le : LaneEnv) : Nat := effClass le.lane.prec
/-- The target of rounding of a lane with class `c` (R160). -/
def LaneEnv.rndAt (le : LaneEnv) (p c : Nat) : Rnd :=
  ⟨p, classEb c, classT c, precRM le.lane.prec, precSUB le.lane.prec⟩
def LaneEnv.rnd (le : LaneEnv) : Rnd := le.rndAt (precP le.lane.prec) le.cls
/-- The container of f register `n` as stored (R158). -/
def LaneEnv.fraw (le : LaneEnv) (n : Nat) : Nat := le.xs (classSlots le.cls * n) (classSlots le.cls)
/-- A subnormal read as a zero of its own sign when SUB = 0 (R161). -/
def flushOperand (sub : Bool) (eb : Nat) (t : Nat) : FVal → FVal
  | .fin n m e => if !sub && decide (m < 2 ^ t) && e == eminOf eb - t then .fin n 0 0 else .fin n m e
  | v => v
/-- The value of f register `n` as stored. -/
def LaneEnv.fstored (le : LaneEnv) (n : Nat) : FVal := decodeF (classEb le.cls) (classT le.cls) (le.fraw n)
/-- The value of f register `n` as an operand. -/
def LaneEnv.f (le : LaneEnv) (n : Nat) : FVal :=
  flushOperand (precSUB le.lane.prec) (classEb le.cls) (classT le.cls) (le.fstored n)
/-- The writes of f register `n` with a container. -/
def LaneEnv.putF (le : LaneEnv) (n v : Nat) : List (Nat × Word) :=
  le.put (classSlots le.cls * n) (classSlots le.cls) v
/-- The lane's PREC flags of a result. -/
def FRes.word (r : FRes) : Word := w32 (r.flags * 2 ^ 24)

/-! ### Class groups (R104, R176) -/

/-- Class groups: the classes present among the active lanes, widest first. -/
def classGroups (s : State) (sp : Split) : List Nat :=
  [3, 2, 1].filter fun c => (activeLanes s sp).any fun le => le.cls == c
/-- Issue occupancy (R176). -/
def fpBusy (s : State) (sp : Split) : Nat :=
  Nat.max 1 (sumNat ((classGroups s sp).map fun c => match c with | 1 => 1 | 2 => 4 | _ => 16))
/-- Distance of an FP arithmetic instruction (R104, Table 4.1). -/
def fpDist (s : State) (sp : Split) : Nat :=
  match (classGroups s sp).headD 1 with | 3 => 10 | 2 => 6 | _ => 4

/-! ### Shared moulds -/

/-- Adds an outstanding flag write of a lane (R177). -/
def Slice.writeFlags (sl : Slice) (dist i : Nat) (f : Word) : Slice :=
  if f = 0 then sl else { sl with pendF := sl.pendF ++ [(⟨i, f, .slot (sl.slot + dist)⟩ : PendF)] }

/-- The lanes with XT = 1 whose result is inexact (R178). -/
def inexactLanes (rs : List (LaneEnv × FRes)) : List LaneEnv :=
  (rs.filter fun r => precXT r.1.lane.prec && bitAt r.2.flags 0).map (·.1)

/-- Whether a word subject to cause 0x0D subcause 1 suspends fetch until its results are known: some active guarded lane has
XT = 1 (R178). -/
def exactMode (s : State) (sp : Split) : Bool := (guardedLanes s sp).any fun le => precXT le.lane.prec

/-- The end of a fixed-latency FP word that rounds: with XT = 1 its results are known, and in place, before the split goes on
(R107, R178). -/
def fpEnd (s : State) (cx : Iss) (t : State) : State :=
  let u := advanceBusy t cx (fpBusy s cx.sp)
  if exactMode s cx.sp then settleSplit u cx else u

/-- A fixed-latency FP word that rounds: each active guarded lane takes its result and flags; with XT = 1 an inexact one traps
(R164, R176 to R178). -/
def fpWord (s : State) (i : Instr) (dist : Iss → Nat) (f : LaneEnv → FRes) (dst : LaneEnv → Nat → List (Nat × Word)) : Out :=
  checked s i fun cx =>
    let rs := (guardedLanes s cx.sp).map fun le => (le, f le)
    match inexactLanes rs with
    | l :: t => .error (cause 0x0D 1 0 (laneMask (l :: t)))
    | [] =>
      let d := dist cx
      .ok (fpEnd s cx (rs.foldl (fun u r => u.modSlice r.1.sk fun sl =>
        (sl.writes d (dst r.1 r.2.v)).writeFlags d r.1.i r.2.word) s))

/-- A word of Table 7.2 that rounds into f d. -/
def fpArith (s : State) (i : Instr) (d : BitVec 8) (f : LaneEnv → FRes) : Out :=
  fpWord s i (fun cx => fpDist s cx.sp) f fun le v => le.putF d.toNat v

/-- A word with distance 4 that writes f d. -/
def fpConv (s : State) (i : Instr) (d : BitVec 8) (f : LaneEnv → FRes) : Out :=
  fpWord s i (fun _ => 4) f fun le v => le.putF d.toNat v

/-- A word with distance 4 that writes `k` x slots from d. -/
def fpToX (s : State) (i : Instr) (d : BitVec 8) (k : Nat) (f : LaneEnv → FRes) : Out :=
  fpWord s i (fun _ => 4) f fun le v => le.put d.toNat k v

/-- A word with distance 4 that writes x d and never traps (Table 7.1). -/
def fpQuery (s : State) (i : Instr) (d : BitVec 8) (f : LaneEnv → Nat) : Out :=
  plain s i fun cx => advanceBusy (perLane s cx 4 fun le => le.put d.toNat 1 (f le)) cx (fpBusy s cx.sp)

/-- A sign operation on container bits (R184). -/
def fpSign (s : State) (i : Instr) (d : BitVec 8) (f : LaneEnv → (bit v : Nat) → Nat) (a : BitVec 8) : Out :=
  plain s i fun cx => advanceBusy (perLane s cx 2 fun le =>
    le.putF d.toNat (f le (classEb le.cls + classT le.cls) (le.fraw a.toNat))) cx (fpBusy s cx.sp)

/-- Posts one token operation per slice with results and flags known at issue. With XT = 1 in some active guarded lane the
split waits for their completion; when such a lane is inexact the operations write nothing, and the trap follows their
completion (R177, R178; log entry 49, DEDUCED). -/
def fpPost (s : State) (cx : Iss) (tok d : Nat) (f : LaneEnv → FRes) : State :=
  let rs := (guardedLanes s cx.sp).map fun le => (le, f le)
  let bad := inexactLanes rs
  let of := fun (k : Nat) => if bad.isEmpty then rs.filter fun r => r.1.sk == k else []
  let t := postSlices s cx tok (fun _ => []) fun k => .result
    ((of k).map fun r => (r.1.putF d r.2.v).map fun w => (⟨k, w.1, w.2⟩ : Land)).flatten
    ((of k).map fun r => (k, r.1.i, r.2.word))
  if exactMode s cx.sp then
    (advanceWait t cx (.exact (upFrom s.nextOp cx.sp.keys.length) (laneMask bad))).modSplit cx.sid fun p =>
      { p with busy := fpBusy s cx.sp - 1 }
  else advanceBusy t cx (fpBusy s cx.sp)

/-! ### Arithmetic (R181 to R183) -/

/-- FADD (R181). -/
def execFadd (d a b : BitVec 8) (s : State) : Out := fpArith s (.fadd d a b) d fun le =>
  roundX le.rnd (addX le.rnd.rm false (le.f a.toNat) (le.f b.toNat))
/-- FSUB (R181). -/
def execFsub (d a b : BitVec 8) (s : State) : Out := fpArith s (.fsub d a b) d fun le =>
  roundX le.rnd (addX le.rnd.rm false (le.f a.toNat) (le.f b.toNat).negate)
/-- FMUL (R181). -/
def execFmul (d a b : BitVec 8) (s : State) : Out := fpArith s (.fmul d a b) d fun le =>
  roundX le.rnd (mulV (le.f a.toNat) (le.f b.toNat)).1.exact
/-- FMA (R181). -/
def execFma (d a b : BitVec 8) (s : State) : Out := fpArith s (.fma d a b) d fun le =>
  roundX le.rnd (fmaX le.rnd.rm (le.f a.toNat) (le.f b.toNat) (le.f d.toNat))
/-- FMS (R181). -/
def execFms (d a b : BitVec 8) (s : State) : Out := fpArith s (.fms d a b) d fun le =>
  roundX le.rnd (fmaX le.rnd.rm (le.f a.toNat) (le.f b.toNat) (le.f d.toNat).negate)
/-- FNMA (R181). -/
def execFnma (d a b : BitVec 8) (s : State) : Out := fpArith s (.fnma d a b) d fun le =>
  roundX le.rnd (fmaX le.rnd.rm (le.f a.toNat).negate (le.f b.toNat) (le.f d.toNat))

/-- The result of FDIV in a lane (R182). -/
def divRes (x : Rnd) (a b : FVal) : FRes :=
  let q := divX a b
  let r := roundX x q.1
  if q.2 then { r with flags := r.flags + fDZ } else r

/-- FDIV (R182). -/
def execFdiv (d a b : BitVec 8) (s : State) : Out :=
  plain s (.fdiv d a b) fun cx => fpPost s cx 8 d.toNat fun le => divRes le.rnd (le.f a.toNat) (le.f b.toNat)

/-- The smaller of two values, −0 below +0 (R183). -/
def lessF (a b : FVal) : Bool := ltF a b || (a.isZero && b.isZero && a.neg && !b.neg)
/-- FMIN and FMAX of two operands (R183). -/
def minMax (big : Bool) (a b : FVal) : XVal :=
  if a.isNan || b.isNan then .nan (a.isSnan || b.isSnan)
  else if lessF a b then (if big then b else a).exact else (if big then a else b).exact

/-- FMIN (R183). -/
def execFmin (d a b : BitVec 8) (s : State) : Out := fpArith s (.fmin d a b) d fun le =>
  roundX le.rnd (minMax false (le.f a.toNat) (le.f b.toNat))
/-- FMAX (R183). -/
def execFmax (d a b : BitVec 8) (s : State) : Out := fpArith s (.fmax d a b) d fun le =>
  roundX le.rnd (minMax true (le.f a.toNat) (le.f b.toNat))

/-! ### Sign operations (R184) -/

/-- FCPYS (R184). -/
def execFcpys (d a b : BitVec 8) (s : State) : Out := fpSign s (.fcpys d a b) d (fun le k v =>
  setField v k 1 (ofBool (bitAt (le.fraw b.toNat) k))) a
/-- FABS (R184). -/
def execFabs (d a : BitVec 8) (s : State) : Out := fpSign s (.fabs d a) d (fun _ k v => setField v k 1 0) a
/-- FNEG (R184). -/
def execFneg (d a : BitVec 8) (s : State) : Out :=
  fpSign s (.fneg d a) d (fun _ k v => setField v k 1 (1 - ofBool (bitAt v k))) a
/-- FMOV (R184). -/
def execFmov (d a : BitVec 8) (s : State) : Out := fpSign s (.fmov d a) d (fun _ _ v => v) a

/-! ### Comparison (R185) -/

/-- Equality of values, zeros equal. -/
def eqF (a b : FVal) : Bool := !a.isNan && !b.isNan && !ltF a b && !ltF b a
/-- The condition of FCMP with code `cc` (Table 2.11). -/
def fcmpCond (cc : Nat) (a b : FVal) : Bool :=
  let un := a.isNan || b.isNan
  match cc with
  | 0 => eqF a b
  | 1 => !eqF a b
  | 2 => !un && ltF a b
  | 3 => !un && (ltF a b || eqF a b)
  | 4 => !un && ltF b a
  | 5 => !un && (ltF b a || eqF a b)
  | 6 => un
  | _ => !un
/-- Whether FCMP sets NV (R185). -/
def fcmpNv (cc : Nat) (a b : FVal) : Bool :=
  if 2 ≤ cc ∧ cc ≤ 5 then a.isNan || b.isNan else a.isSnan || b.isSnan

/-- FCMP (R185). -/
def execFcmp (p : BitVec 6) (a b : BitVec 8) (c : BitVec 3) (s : State) : Out :=
  plain s (.fcmp p a b c) fun cx =>
    let d := fpDist s cx.sp
    let t := predEffect s cx d p.toNat fun le => fcmpCond c.toNat (le.f a.toNat) (le.f b.toNat)
    let t := (guardedLanes s cx.sp).foldl (fun u le => u.modSlice le.sk fun sl =>
      sl.writeFlags d le.i (if fcmpNv c.toNat (le.f a.toNat) (le.f b.toNat) then w32 (fNV * 2 ^ 24) else 0)) t
    advanceBusy t cx (fpBusy s cx.sp)

/-! ### FUN (R187 to R189) -/

/-- Whether a finite nonzero value is a member of the value set of a target (R159). -/
def inValueSet (x : Rnd) (m : Nat) (e : Int) : Bool :=
  let l := leadExp m 1 e
  let qu : Int := l - x.p + 1
  let qs : Int := eminOf x.eb - x.p + 1
  (quanta m 1 e (if qu < qs then qs else qu)).2.1 == 0

/-- The mask of FCLASS (Table 7.4). -/
def fclassOf (x : Rnd) : FVal → Nat
  | .nan s => if s then 2 ^ 8 else 2 ^ 9
  | .inf n => if n then 1 else 2 ^ 7
  | .fin n m e =>
    if m = 0 then (if n then 2 ^ 3 else 2 ^ 4)
    else
      let sub := decide (leadExp m 1 e < eminOf x.eb)
      (match n, sub with | true, true => 2 ^ 2 | true, false => 2 | false, true => 2 ^ 5 | false, false => 2 ^ 6)
        + (if inValueSet x m e then 0 else 2 ^ 10)

/-- FCLASS (R187). -/
def execFclass (d a : BitVec 8) (s : State) : Out :=
  fpQuery s (.fclass d a) d fun le => fclassOf le.rnd (le.fstored a.toNat)

/-- The integral value of an operand as an exact result (R188). -/
def integralX (rm : Nat) : FVal → XVal
  | .fin n m e => if m = 0 ∨ 0 ≤ e then .num n m 1 e else .num n (toInteger rm n m e).1 1 0
  | v => v.exact

/-- FRND (R188). -/
def execFrnd (d a : BitVec 8) (m : BitVec 2) (s : State) : Out := fpArith s (.frnd d a m) d fun le =>
  roundX le.rnd (integralX m.toNat (le.f a.toNat))

/-- The result of FEXPO (R189). -/
def fexpoOf : FVal → Nat
  | .nan _ => 0x7FFFFFFF
  | .inf _ => 0x7FFFFFFE
  | .fin _ m e => if m = 0 then 0x80000000 else wrap 32 (leadExp m 1 e)

/-- FEXPO (R189). -/
def execFexpo (d a : BitVec 8) (s : State) : Out :=
  fpQuery s (.fexpo d a) d fun le => fexpoOf (le.fstored a.toNat)

/-! ### Conversions (R193 to R198) -/

/-- FCVT.cls (R194). -/
def execFcvtCls (d a : BitVec 8) (c : BitVec 2) (s : State) : Out :=
  fpWord s (.fcvtCls d a c) (fun _ => 4)
    (fun le => roundX (le.rndAt (Nat.min (precP le.lane.prec) (classMaxP c.toNat)) c.toNat) (le.f a.toNat).exact)
    fun le v => le.put (classSlots c.toNat * d.toNat) (classSlots c.toNat) v

/-- Conversion to an integer of `w` bits (Table 7.6). -/
def toIntRes (rm : Nat) (sgn : Bool) (w : Nat) : FVal → FRes
  | .nan _ => ⟨0, fNV⟩
  | .inf n => ⟨if n then (if sgn then 2 ^ (w - 1) else 0) else (if sgn then 2 ^ (w - 1) - 1 else 2 ^ w - 1), fNV⟩
  | .fin n m e =>
    let r := toInteger rm n m e
    let v : Int := if n then -(r.1 : Int) else r.1
    let hi : Int := if sgn then 2 ^ (w - 1) - 1 else 2 ^ w - 1
    let lo : Int := if sgn then -(2 ^ (w - 1)) else 0
    if hi < v then ⟨wrap w hi, fNV⟩ else if v < lo then ⟨wrap w lo, fNV⟩
    else ⟨wrap w v, if r.2 then fNX else 0⟩

/-- FCVT.f2s32 (R195). -/
def execFcvtF2s32 (d a : BitVec 8) (s : State) : Out :=
  fpToX s (.fcvtF2s32 d a) d 1 fun le => toIntRes le.rnd.rm true 32 (le.f a.toNat)
/-- FCVT.f2n32 (R195). -/
def execFcvtF2n32 (d a : BitVec 8) (s : State) : Out :=
  fpToX s (.fcvtF2n32 d a) d 1 fun le => toIntRes le.rnd.rm false 32 (le.f a.toNat)
/-- FCVT.f2s64 (R195). -/
def execFcvtF2s64 (d a : BitVec 8) (s : State) : Out :=
  fpToX s (.fcvtF2s64 d a) d 2 fun le => toIntRes le.rnd.rm true 64 (le.f a.toNat)
/-- FCVT.f2n64 (R195). -/
def execFcvtF2n64 (d a : BitVec 8) (s : State) : Out :=
  fpToX s (.fcvtF2n64 d a) d 2 fun le => toIntRes le.rnd.rm false 64 (le.f a.toNat)

/-- An integer rounded to the lane's target (R196). -/
def ofIntRes (x : Rnd) (v : Int) : FRes := roundX x (.num (decide (v < 0)) v.natAbs 1 0)

/-- FCVT.s32f (R196). -/
def execFcvtS32f (d a : BitVec 8) (s : State) : Out :=
  fpConv s (.fcvtS32f d a) d fun le => ofIntRes le.rnd (signed 32 (le.xs a.toNat 1))
/-- FCVT.n32f (R196). -/
def execFcvtN32f (d a : BitVec 8) (s : State) : Out :=
  fpConv s (.fcvtN32f d a) d fun le => ofIntRes le.rnd (le.xs a.toNat 1)
/-- FCVT.s64f (R196). -/
def execFcvtS64f (d a : BitVec 8) (s : State) : Out :=
  fpConv s (.fcvtS64f d a) d fun le => ofIntRes le.rnd (signed 64 (le.xs a.toNat 2))
/-- FCVT.n64f (R196). -/
def execFcvtN64f (d a : BitVec 8) (s : State) : Out :=
  fpConv s (.fcvtN64f d a) d fun le => ofIntRes le.rnd (le.xs a.toNat 2)

/-- FCVT.f2ce (R197): rounded to (8, W1), the top half of the binary32 encoding. -/
def execFcvtF2ce (d a : BitVec 8) (s : State) : Out :=
  fpToX s (.fcvtF2ce d a) d 1 fun le =>
    let r := roundX (le.rndAt 8 1) (le.f a.toNat).exact
    ⟨r.v / 2 ^ 16, r.flags⟩

/-- The value of a CE16 code; it has no signalling NaNs (R197). -/
def ce16 (v : Nat) : FVal :=
  match decodeF 8 7 (v % 2 ^ 16) with | .nan _ => .nan false | x => x

/-- FCVT.cef (R197). -/
def execFcvtCef (d a : BitVec 8) (s : State) : Out :=
  fpConv s (.fcvtCef d a) d fun le => roundX le.rnd (ce16 (le.x a.toNat).toNat).exact

/-- FRSP (R198). -/
def execFrsp (d a : BitVec 8) (s : State) : Out :=
  fpConv s (.frsp d a) d fun le => roundX le.rnd (le.f a.toNat).exact

end Sys2Proof.Machine
end

