-- ==== Sys2Proof/Machine/Mem.lean ====
section
/-! DEFINITION. Island memory: regions (R19, R20), points of coherence, L2 (R256 to R261), L1 (R202, R203), notify
counters (R253, R291) and the island state block (R21, R23). Addresses are 2^44 × site + offset. -/
namespace Sys2Proof.Machine

/-- One byte of memory, which Host.Cell pairs with its address; reading a byte nothing has written gives 0
(log entries 5 and 22, DESIGN CHOICE). -/
def readByte (m : List Host.Cell) (a : Nat) : Byte := getD 0 a m
/-- Writes one byte, keeping the canonical form. -/
def writeByte (m : List Host.Cell) (a : Nat) (b : Byte) : List Host.Cell := setD 0 a b m
/-- The canonical form of memory: addresses strictly rising, no listed byte 0. -/
def Memory.wf (m : List Host.Cell) : Bool := canonical (0 : Byte) m

/-- Site and offset of an address. -/
def siteOf (a : Nat) : Nat := a / 2 ^ 44
def offOf (a : Nat) : Nat := a % 2 ^ 44
/-- Number of the 128-byte line of an address. -/
def lineOf (a : Nat) : Nat := a / 128

/-- Regions of the island offset space (Table 1.3). -/
inductive Region where
  | hbm | vault | counter | stateBlock | hole
  deriving DecidableEq, Repr

/-- HBM4E bytes present: HCAP (Table 1.4). -/
def Island.hcap (i : Island) : Nat := Config.dieBytes * popcount 64 i.hdie.toNat
/-- The region of an offset for an island that holds `cap` bytes of HBM4E. -/
def regionFor (cap off : Nat) : Region :=
  if off < cap then .hbm
  else if 0x80000000000 ≤ off ∧ off < 0x80020000000 then .vault
  else if 0xC0000000000 ≤ off ∧ off < 0xC0000004000 then .counter
  else if 0xE0000000000 ≤ off ∧ off < 0xE0000001000 then .stateBlock
  else .hole
/-- The region of an offset of an island as it stands (R19). -/
def State.region (s : State) (site off : Nat) : Region := regionFor (s.island site).hcap off
/-- The region of an offset by Table 1.3 alone (R20, for remote addresses). -/
def tableRegion (off : Nat) : Region := regionFor 0x4000000000 off

/-! ### L2 (R256 to R261) -/

/-- Slice, set and tag of an HBM4E offset (R256). -/
def l2Slice (o : Nat) : Nat := bits o 9 5 ^^^ bits o 14 5 ^^^ bits o 19 5 ^^^ bits o 24 5 ^^^ bits o 29 1
def l2Set (o : Nat) : Nat := bits o 14 12
def l2Tag (o : Nat) : Nat := bits o 26 18
/-- Key of way 0 of a set. -/
def l2Base (site slice set : Nat) : Nat := ((32 * site + slice) * 4096 + set) * 16
/-- Retention class of MODE.EP (R258): stream 0, low 1, normal 2, high 3. -/
def retOf (ep : Nat) : Nat := match ep with | 0 => 2 | 1 => 1 | 2 => 3 | _ => 0

/-- Forgets what HBM4E holds under the dirty bytes of a line: the line is written to HBM4E (R257). -/
def cleanLine (s : State) (line : Nat) : State :=
  { s with stale := s.stale.filter fun e => decide (lineOf e.1 ≠ line) }

/-- Address of line `k` of the superblock a way of (site, slice, set) with `tag` holds; the low set bits come from the
slice (R256). -/
def superblockLine (site set tag k o : Nat) : Nat :=
  lineOf (2 ^ 44 * site + (tag * 2 ^ 26 + set * 2 ^ 14 + bits o 9 5 * 2 ^ 9 + k * 128))

/-- Bits [13:9] of the offset of a superblock, from its slice, set and tag (R256). -/
def superblockLow (slice set tag : Nat) : Nat :=
  let o := tag * 2 ^ 26 + set * 2 ^ 14
  slice ^^^ bits o 14 5 ^^^ bits o 19 5 ^^^ bits o 24 5 ^^^ bits o 29 1

/-- Line number of line `k` of the superblock a way holds. -/
def wayLine (site slice set : Nat) (w : L2Way) (k : Nat) : Nat :=
  superblockLine site set w.tag.toNat k (superblockLow slice set w.tag.toNat * 2 ^ 9)

/-- The ways of a set, with their numbers. -/
def setWays (s : State) (base : Nat) : List (Nat × Option L2Way) :=
  (upFrom 0 16).map fun w => (w, find (base + w) s.l2)

/-- Whether a way is invalid: no line of it is valid. -/
def wayFree (w : Option L2Way) : Bool := match w with | none => true | some x => x.lv == 0

/-- The victim way of a fill by R258 among the ways the mask allows (R259). -/
def victimWay (s : State) (base : Nat) (mask : BitVec 16) : Option Nat :=
  let ok := (setWays s base).filter fun e => mask.getLsbD e.1
  match ok.find? fun e => wayFree e.2 with
  | some e => some e.1
  | none => (leastBy (fun e => match e.2 with | some w => w.ret.toNat * 2 ^ 64 + w.used | none => 0) ok).map (·.1)

/-- Writes the dirty lines of a way to HBM4E (R257). -/
def evictWay (s : State) (site slice set : Nat) (w : L2Way) : State :=
  (setBits 4 w.ld.toNat).foldl (fun t k => cleanLine t (wayLine site slice set w k)) s

/-- Way mask of a partition on an island (Table 11.4). -/
def Island.mask (i : Island) (part : Nat) : BitVec 16 := getD 0xFFFF part i.masks

/-- The L2 state after an access to one HBM4E line: a hit refreshes the way, a miss fills the line into its superblock or a way
of the partition's mask, a write makes the line dirty; `alloc` false or an empty mask serves the miss from HBM4E, line by
line, without allocating (R257 to R261). -/
def l2Touch (s : State) (a part ret : Nat) (write alloc : Bool) : State :=
  let site := siteOf a
  let o := offOf a
  if s.region site o ≠ .hbm then s
  else
    let slice := l2Slice o
    let set := l2Set o
    let base := l2Base site slice set
    let k := bits o 7 2
    let bitK : BitVec 4 := BitVec.ofNat 4 (2 ^ k)
    let lp : BitVec 4 := if (find (lineOf a) s.poison).isSome then bitK else 0
    let use := s.l2use
    let s := { s with l2use := use + 1 }
    match (setWays s base).find? fun e => match e.2 with
        | some w => w.lv != 0 && w.tag.toNat == l2Tag o | none => false with
    | some (n, some w) =>
      if !w.lv.getLsbD k && (!alloc || (s.island site).mask part = 0) then (if write then cleanLine s (lineOf a) else s)
      else
      let w := { w with ret := BitVec.ofNat 2 ret, used := use, lv := w.lv ||| bitK
                        ld := if write then w.ld ||| bitK else w.ld
                        lp := (w.lp &&& ~~~bitK) ||| lp }
      { s with l2 := put (base + n) w s.l2 }
    | _ =>
      let mask := (s.island site).mask part
      if !alloc || mask = 0 then (if write then cleanLine s (lineOf a) else s)
      else
        match victimWay s base mask with
        | none => s
        | some n =>
          let s := match find (base + n) s.l2 with | some w => evictWay s site slice set w | none => s
          { s with l2 := put (base + n) ⟨BitVec.ofNat 18 (l2Tag o), BitVec.ofNat 4 part, BitVec.ofNat 2 ret, bitK,
              if write then bitK else 0, lp, use⟩ s.l2 }

/-- The poison bits of the L2 follow the poison of the lines it holds (Table 11.3, R266). -/
def syncPoison (s : State) : State :=
  let bad := fun (e : Nat × L2Way) (k : Nat) =>
    (find (wayLine (e.1 / 16 / 4096 / 32) (e.1 / 16 / 4096 % 32) (e.1 / 16 % 4096) e.2 k) s.poison).isSome
  { s with l2 := s.l2.map fun e =>
      (e.1, { e.2 with lp := BitVec.ofNat 4 (maskOf ((setBits 4 e.2.lv.toNat).filter (bad e))) }) }

/-- Whether the L2 holds the line of an address valid. -/
def l2Holds (s : State) (a : Nat) : Bool :=
  let o := offOf a
  (setWays s (l2Base (siteOf a) (l2Slice o) (l2Set o))).any fun e => match e.2 with
    | some w => w.tag.toNat == l2Tag o && w.lv.getLsbD (bits o 7 2) | none => false

/-- Clears the valid and dirty bit of a line in the L2, and its count with them (R260). -/
def l2Drop (s : State) (a : Nat) : State :=
  let o := offOf a
  let base := l2Base (siteOf a) (l2Slice o) (l2Set o)
  let bitK : BitVec 4 := BitVec.ofNat 4 (2 ^ bits o 7 2)
  match (setWays s base).find? fun e => match e.2 with | some w => w.lv != 0 && w.tag.toNat == l2Tag o | none => false with
  | some (n, some w) =>
    { s with l2 := put (base + n) { w with lv := w.lv &&& ~~~bitK, ld := w.ld &&& ~~~bitK, lp := w.lp &&& ~~~bitK } s.l2 }
  | _ => s

/-- Marks a line of the L2 clean (R257). -/
def l2Clean (s : State) (a : Nat) : State :=
  let o := offOf a
  let base := l2Base (siteOf a) (l2Slice o) (l2Set o)
  let bitK : BitVec 4 := BitVec.ofNat 4 (2 ^ bits o 7 2)
  let s := cleanLine s (lineOf a)
  match (setWays s base).find? fun e => match e.2 with | some w => w.lv != 0 && w.tag.toNat == l2Tag o | none => false with
  | some (n, some w) => { s with l2 := put (base + n) { w with ld := w.ld &&& ~~~bitK } s.l2 }
  | _ => s

/-- OCC(p, slice) of an island: valid lines in ways the partition owns (R260). -/
def occupancy (s : State) (site part slice : Nat) : Nat :=
  sumNat ((s.l2.filter fun e => decide (e.1 / 65536 = 32 * site + slice) && decide (e.2.own.toNat = part)).map
    fun e => popcount 4 e.2.lv.toNat)

/-! ### The point of coherence -/

/-- Wakes the monitors armed on the line of an address (R213). -/
def wakeLine (s : State) (line : Nat) : State :=
  { s with splits := s.splits.map fun e => match e.2.wait with
      | .mwait l t c g false => if l = line then (e.1, { e.2 with wait := .mwait l t c g true }) else e
      | _ => e }

/-- Notes that byte `a` of a poisoned line was rewritten; the poison goes once all 128 bytes have been (R266). -/
def unpoison (p : SMap (List Nat)) (a : Nat) : SMap (List Nat) :=
  match find (lineOf a) p with
  | none => p
  | some l =>
    let l := if l.contains (a % 128) then l else a % 128 :: l
    if 128 ≤ l.length then del (lineOf a) p else put (lineOf a) l p

/-- Writes one byte at its point of coherence. In HBM4E the byte becomes dirty in the L2, which keeps HBM4E's own byte
apart until the line is cleaned. -/
def pocByte (s : State) (a : Nat) (b : Byte) : State :=
  let old := readByte s.mem a
  let s := { s with mem := writeByte s.mem a b, poison := unpoison s.poison a }
  if l2Holds s a then
    { s with stale := match find a s.stale with
        | some _ => s.stale
        | none => if old = b then s.stale else put a old s.stale }
  else s

/-- Distinct lines of a list of addresses. -/
def linesOf (as : List Nat) : List Nat := asSet (as.map lineOf)

/-- Reads bytes at their point of coherence. -/
def pocBytes (s : State) (as : List Nat) : List Byte := as.map (readByte s.mem)

/-- The earliest step whose values of memory may still be shown: by a record cache or a fetch buffer of a core with a team, or by a
copy engine for bytes that a slice has stored (R228, R318, R398). -/
def pastFrom (s : State) : Option Nat :=
  leastBy id (((s.teams.filter fun e => e.2.resident).map fun e =>
    let c := s.core (coreKey e.2.site e.2.core)
    Nat.min c.recSince c.fetchSince) ++ (s.slices.map fun e => e.2.unseen.map (·.2)).flatten)

/-- Keeps the values of the words that hold some bytes, which a write is about to change. -/
def notePast (s : State) (as : List Nat) : State :=
  match pastFrom s with
  | none => { s with past := [] }
  | some t =>
    let keep := fun (m : SMap (List (Nat × DWord))) (w : Nat) =>
      put w (((getD [] w m).filter fun e => decide (t ≤ e.1)) ++ [(s.tick, BitVec.ofNat 64 (leNat (pocBytes s (upFrom (8 * w) 8))))]) m
    { s with past := (asSet (as.map (· / 8))).foldl keep s.past }

/-- The values that the word of an address has held at its point of coherence since a step, the current one first. -/
def wordValues (s : State) (a since : Nat) : List DWord :=
  BitVec.ofNat 64 (leNat (pocBytes s (upFrom (a / 8 * 8) 8)))
    :: ((getD [] (a / 8) s.past).filter fun e => decide (since ≤ e.1)).map (·.2)

/-- Writes bytes at their point of coherence on behalf of a partition with a retention class. -/
def pocWrite (s : State) (part ret : Nat) (bs : List (Nat × Byte)) : State :=
  let s := notePast s (bs.map (·.1))
  let ls := linesOf (bs.map (·.1))
  let s := ls.foldl (fun t l => l2Touch t (l * 128) part ret true true) s
  let t := bs.foldl (fun t e => pocByte t e.1 e.2) s
  ls.foldl wakeLine (if s.poison.isEmpty then t else syncPoison t)

/-- Puts new contents into a range of island memory, `a` and `n` multiples of 128: the listed bytes, 0 elsewhere. What HBM4E held
below the L2's dirty bytes goes, and the poison of the range with it. -/
def overwrite (s : State) (a n : Nat) (bs : List (Nat × Byte)) : State :=
  let out := fun (x : Nat) => decide (x < a ∨ a + n ≤ x)
  let s := notePast s ((s.mem.filter fun e => !out e.1).map (·.1) ++ bs.map (·.1))
  syncPoison { s with mem := bs.foldl (fun m e => writeByte m e.1 e.2) (s.mem.filter fun e => out e.1)
                      stale := s.stale.filter fun e => out e.1
                      poison := s.poison.filter fun e => out (128 * e.1) }

/-- Discards the dirty bytes of a line of the L2: each reads from now on as the L2 held it or as HBM4E last had it, as
the free choice says (R261). -/
def l2Discard (s : State) (a : Nat) : State :=
  let lost := s.stale.filter fun e => decide (lineOf e.1 = lineOf a)
  let s := notePast s (lost.map (·.1))
  let s := { s with mem := lost.foldl (fun m e =>
      if Config.choose s.tick (12 * 2 ^ 64 + e.1) % 2 = 0 then m else writeByte m e.1 e.2) s.mem }
  l2Drop (cleanLine s (lineOf a)) a

/-- The L2 effect of reading bytes there. -/
def pocTouch (s : State) (part ret : Nat) (alloc : Bool) (as : List Nat) : State :=
  (linesOf as).foldl (fun t l => l2Touch t (l * 128) part ret false alloc) s
/-- Whether some byte lies on a poisoned line (R266). -/
def poisonedAt (s : State) (as : List Nat) : Option Nat := (linesOf as).find? fun l => (find l s.poison).isSome

/-- `n` consecutive addresses. -/
def span (a n : Nat) : List Nat := upFrom a n

/-! ### Notify counters and the island state block -/

/-- Number of the counter an offset names, with its key. -/
def ctrKey (a : Nat) : Nat := 4096 * siteOf a + (offOf a - 0xC0000000000) / 4
def State.ctr (s : State) (k : Nat) : Word := getD 0 k s.ctrs
def State.setCtr (s : State) (k : Nat) (v : Word) : State := { s with ctrs := setD 0 k v s.ctrs }

/-- Link direction out of a port of a site: ports 0 to 15 toward that site, 16 to 23 external. An unlisted link is as
fused. -/
def linkKey (site port : Nat) : Nat := 24 * site + port
def State.link (s : State) (k : Nat) : Link := getD {} k s.links
def State.setLink (s : State) (k : Nat) (l : Link) : State := { s with links := put k l s.links }
/-- Whether a link exists: between two populated sites, or an external port that the fuses show. -/
def linkExists (s : State) (site port : Nat) : Bool :=
  s.populated site && (if port < 16 then decide (port ≠ site) && s.populated port
    else decide (port < 24) && decide ((s.link (linkKey site port)).fused ≠ 0))
/-- Code of a link in LINK.PEER and LINK.XP (Table 1.4): 0 none, 1 or 2 lanes, 3 down. -/
def linkCode (s : State) (site port : Nat) : Nat :=
  if !linkExists s site port then 0
  else match (s.link (linkKey site port)).lanes with | 0 => 3 | n => Nat.min n 2

/-- An island state register by its offset in the block (Table 1.4); the rest of the page reads 0. -/
def stateReg (s : State) (site off : Nat) : Nat :=
  let i := s.island site
  match off with
  | 0x00 => s.fe.panel.toNat + 2 ^ 8 * site + 2 ^ 12 * (popcount 64 i.cmap0.toNat + popcount 64 i.cmap1.toNat)
  | 0x08 => s.pres.toNat + 2 ^ 16 * maskOf ((upFrom 0 16).filter fun t => s.live t)
  | 0x10 => i.cmap0.toNat
  | 0x18 => i.cmap1.toNat
  | 0x20 => i.hdie.toNat
  | 0x28 => i.hcap
  | 0x30 => sumNat ((upFrom 0 16).map fun t => linkCode s site t * 2 ^ (2 * t))
      + sumNat ((upFrom 0 8).map fun j => linkCode s site (16 + j) * 2 ^ (32 + 2 * j))
  | 0x38 => i.igen.toNat
  | _ => 0

/-! ### Core SRAM as scratchpad -/

/-- Which of `n` choices a choice point takes; one choice needs none. -/
def pick (s : State) (key n : Nat) : Nat := if n ≤ 1 then 0 else Config.choose s.tick key % n

/-- Whether what is written to a core's SRAM is recorded: a team stands on the core, or an operation of one goes on. -/
def sramNoted (s : State) (ck : Nat) : Bool :=
  (s.teams.any fun e => e.2.resident && coreKey e.2.site e.2.core == ck) || s.ops.any fun e => coreKey e.2.site e.2.core == ck

/-- Writes bytes of a core's SRAM, and records what they replace. -/
def sramWrite (s : State) (ck : Nat) (who : SramBy) (bs : List (Nat × Byte)) : State :=
  let c := s.core ck
  let old := fun (a : Nat) => (⟨s.tick, getD 0 a c.scratch, who⟩ : SramOld)
  s.setCore ck { c with
    scratch := bs.foldl (fun m e => setD 0 e.1 e.2 m) c.scratch
    sramPast := if sramNoted s ck then bs.foldl (fun m e => put e.1 (getD [] e.1 m ++ [old e.1]) m) c.sramPast else []
    badSram := c.badSram.filter fun a => !(bs.any fun e => e.1 == a) }

/-- Whether the latest write of a byte of core SRAM is a store of a slice made since a step. -/
def storedSince (s : State) (ck since a : Nat) : Bool :=
  match (getD [] a (s.core ck).sramPast).getLast? with
  | some e => decide (since ≤ e.step) && (match e.who with | .slice _ => true | .engine _ => false)
  | none => false

/-- An engine operation issued at step `since` writes elements, each whole. Of a byte that a slice has stored since then either value
stays, as the free choice says (R234, R251). -/
def engineWrite (s : State) (ck id since : Nat) (elems : List (Nat × List Byte)) : State :=
  let bs := (elems.map fun e => (span e.1 e.2.length).zip e.2).flatten
  sramWrite s ck (.engine id) (bs.filter fun e =>
    !(storedSince s ck since e.1 && Config.choose s.tick (29 * 2 ^ 64 + e.1) % 2 == 1))

/-- Whether some slices have observed the completion of an engine operation: its token is covered in those of them that issued it, or
these have passed a fence with the engine bit since, or each a BARW on its byte barrier, or each a BSYNC, an RGANG or an acquire
where the issuing slices have observed it (R115, R212, R241, R314, R319; log entry 76, DEDUCED). -/
def observed (s : State) (ck : Nat) (ks : List Nat) (id : Nat) : Bool :=
  if (find id s.ops).isSome then false
  else match find id (s.core ck).engDone with
    | none => true
    | some r =>
      let covered := fun (l : List (Nat × Nat)) => match r.tok with
        | some t => l.all fun e => decide (e.2 ≤ getD 0 t (s.slice e.1).coveredTo)
        | none => false
      let passed := fun (l : List Nat) => match r.bar with
        | some b => l.all fun k => decide (r.ended < getD 0 b (s.slice k).barSeen)
        | none => false
      let seen := fun (l : List (Nat × Nat)) => covered l || (l.all fun e => decide (r.ended < (s.slice e.1).engSeen)) || passed (l.map (·.1))
      let own := r.seqs.filter fun e => ks.contains e.1
      (!own.isEmpty && seen own) || passed ks || (seen r.seqs && ks.all fun k => decide (r.ended < (s.slice k).synced))

/-- Whether a write of a byte of core SRAM may still be unseen by a read that slices `ks` make through an engine from step `since`
on: it is made since then, or by an engine operation that they have not observed, or by a slice of another split with no BSYNC,
RGANG or acquire of theirs since (R209, R234, R241, R251, R319; log entry 76, DEDUCED). -/
def openWrite (s : State) (ck : Nat) (ks : List Nat) (since : Nat) (e : SramOld) : Bool :=
  decide (since ≤ e.step) || match e.who with
    | .slice k => !ks.contains k && !ks.all fun j => decide (e.step < (s.slice j).synced)
    | .engine id => !observed s ck ks id

/-- The values of a byte of core SRAM that such a read may give: the current one, and older ones back to the latest write that it is
sure to see. -/
def sramVals (s : State) (ck : Nat) (ks : List Nat) (since a : Nat) : List Byte :=
  let c := s.core ck
  getD 0 a c.scratch :: ((getD [] a c.sramPast).reverse.takeWhile (openWrite s ck ks since)).map SramOld.val
/-- A byte of a core's SRAM as an engine operation of slices `ks` reads it. -/
def sramByte (s : State) (ck : Nat) (ks : List Nat) (since a : Nat) : Byte :=
  let vs := sramVals s ck ks since a
  nth 0 vs (pick s (23 * 2 ^ 64 + a) vs.length)
/-- `n` bytes of it as a number. -/
def sramRead (s : State) (ck : Nat) (ks : List Nat) (since a n : Nat) : Nat := leNat ((upFrom a n).map (sramByte s ck ks since))

/-! ### L1 (R202, R203) -/

abbrev L1Line := SMap (Byte × Bool)

/-- Set of a line (R202). -/
def l1Set (line : Nat) : Nat := line % 64

/-- Writes back the dirty bytes of a line to their point of coherence, for a partition and with a retention class; the line
stays, clean. -/
def l1CleanLine (s : State) (ck part ret : Nat) (line : Nat) : State :=
  let c := s.core ck
  match find line c.l1 with
  | none => s
  | some l =>
    let dirty := l.filter fun e => e.2.2
    if dirty.isEmpty then s
    else
      let s := pocWrite s part ret (dirty.map fun e => (line * 128 + e.1, e.2.1))
      s.setCore ck { s.core ck with l1 := put line (l.map fun e => (e.1, (e.2.1, false))) (s.core ck).l1 }

/-- Removes a line without writing it back. -/
def l1DropLine (s : State) (ck line : Nat) : State :=
  s.setCore ck { s.core ck with l1 := del line (s.core ck).l1 }

/-- Lines of a core's L1. -/
def l1Lines (s : State) (ck : Nat) : List Nat := (s.core ck).l1.map (·.1)
/-- Cleans every line; cleans and invalidates every line (R314). -/
def l1CleanAll (s : State) (ck part ret : Nat) : State := (l1Lines s ck).foldl (fun t l => l1CleanLine t ck part ret l) s
def l1FlushAll (s : State) (ck part ret : Nat) : State :=
  (l1Lines s ck).foldl (fun t l => l1DropLine (l1CleanLine t ck part ret l) ck l) s

/-- Makes room in the set of a line that is about to be allocated: a free choice of victim is written back (R202). -/
def l1Room (s : State) (ck part ret line : Nat) : State :=
  let c := s.core ck
  let peers := (c.l1.map (·.1)).filter fun l => l1Set l == l1Set line && l != line
  if peers.length < c.l1w.toNat then s
  else
    match nth none (peers.map some) (Config.choose s.tick (1 * 2 ^ 64 + line) % peers.length) with
    | none => s
    | some v => l1DropLine (l1CleanLine s ck part ret v) ck v

/-- Whether an access allocates in L1: it has ways, and the eviction priority is not stream (R202). -/
def l1Alloc (s : State) (ck ep : Nat) : Bool := (s.core ck).l1w != 0 && ep != 3

/-- A load of bytes of one line through L1: the bytes, and the state after. A load with a byte that is not valid misses: it keeps
the dirty bytes, and takes every other one from the fetch, as do the clean bytes that the line held, so that no later load mixes
two moments of a write (R202, R306; log entry 60, DEDUCED); the free choice says whether the rest of the line is kept. -/
def l1LoadLine (s : State) (ck part ep line : Nat) (offs : List Nat) : List Byte × State :=
  let l : L1Line := (find line (s.core ck).l1).getD []
  let below := fun (o : Nat) => readByte s.mem (line * 128 + o)
  if offs.all fun o => (find o l).isSome then (offs.map fun o => match find o l with | some e => e.1 | none => below o, s)
  else
    let bytes := offs.map fun o => match find o l with | some (b, true) => b | _ => below o
    let held := (find line (s.core ck).l1).isSome
    let s := l2Touch s (line * 128) part (retOf ep) false true
    if !l1Alloc s ck ep && !held then (bytes, s)
    else
      let s := if held then s else l1Room s ck part (retOf ep) line
      let fill := if Config.choose s.tick (2 * 2 ^ 64 + line) % 2 = 0 then upFrom 0 128 else offs
      let l := (fill ++ l.map (·.1)).foldl (fun m o => match find o m with
        | some (_, true) => m | _ => put o (readByte s.mem (line * 128 + o), false) m) l
      (bytes, s.setCore ck { s.core ck with l1 := put line l (s.core ck).l1 })

/-- A store of bytes of one line through L1: dirty bytes, allocated without a fetch (R202). -/
def l1StoreLine (s : State) (ck part ep line : Nat) (bs : List (Nat × Byte)) : State :=
  let held := (find line (s.core ck).l1).isSome
  if !l1Alloc s ck ep && !held then pocWrite s part (retOf ep) (bs.map fun e => (line * 128 + e.1, e.2))
  else
    let s := if held then s else l1Room s ck part (retOf ep) line
    let l : L1Line := (find line (s.core ck).l1).getD []
    s.setCore ck { s.core ck with l1 := put line (bs.foldl (fun m e => put e.1 (e.2, true) m) l) (s.core ck).l1 }

/-- Addresses cut into runs of one line each, in order: line and offsets in it. -/
def lineRuns : List Nat → List (Nat × List Nat)
  | [] => []
  | a :: t =>
    match lineRuns t with
    | [] => [(lineOf a, [a % 128])]
    | (l, os) :: r => if l = lineOf a then (l, a % 128 :: os) :: r else (lineOf a, [a % 128]) :: (l, os) :: r

/-- Loads bytes at any addresses of one island along Table 11.1. -/
def loadBytes (s : State) (ck part ep : Nat) (as : List Nat) : List Byte × State :=
  (lineRuns as).foldl (fun (r : List Byte × State) run =>
    let x := l1LoadLine r.2 ck part ep run.1 run.2
    (r.1 ++ x.1, x.2)) ([], s)

/-- Stores bytes along Table 11.1. -/
def storeBytes (s : State) (ck part ep : Nat) (bs : List (Nat × Byte)) : State :=
  (linesOf (bs.map (·.1))).foldl (fun t line =>
    l1StoreLine t ck part ep line ((bs.filter fun e => lineOf e.1 == line).map fun e => (e.1 % 128, e.2))) s

/-- What a last-use load of a line that no L1 holds does to the L2 (R261). -/
def lastUseBelow (s : State) (part ret line : Nat) : State :=
  if l2Holds s (line * 128) then l2Discard s (line * 128) else l2Touch s (line * 128) part ret false false

/-- A last-use load (R261). In the issuing core's L1 with every byte valid: the L1 line is dropped. In L1 with bytes
missing: those and the clean ones come from L2, so that no two moments of a write mix (R306; log entry 60, DEDUCED), and both lines
are dropped. Held by L2 alone: the L2 line is dropped. Else: delivered without allocating. -/
def lastUse (s : State) (ck part ep : Nat) (as : List Nat) : List Byte × State :=
  (lineRuns as).foldl (fun (r : List Byte × State) run =>
    let s := r.2
    let line := run.1
    let offs := run.2
    let below := fun (o : Nat) => readByte s.mem (line * 128 + o)
    match find line (s.core ck).l1 with
    | some l =>
      let full := offs.all fun o => (find o l).isSome
      let bytes := offs.map fun o => match find o l with | some (b, d) => if full || d then b else below o | none => below o
      let s := if full then s else (if l2Holds s (line * 128) then l2Discard s (line * 128) else s)
      -- each discarded dirty byte reads from now on as the L1 held it, or as it is below
      let keep := l.filter fun e => e.2.2 && Config.choose s.tick (3 * 2 ^ 64 + line * 128 + e.1) % 2 == 0
      let s := notePast s (keep.map fun e => line * 128 + e.1)
      let s := { s with mem := keep.foldl (fun m e => writeByte m (line * 128 + e.1) e.2.1) s.mem }
      (r.1 ++ bytes, l1DropLine s ck line)
    | none => (r.1 ++ offs.map below, lastUseBelow s part (retOf ep) line)) ([], s)

end Sys2Proof.Machine
end

