-- ==== Sys2Proof/Machine/Xlate.lean ====
section
/-! DEFINITION. Translation: page-table walks, TLBs, the checks of R275 and parking (R269 to R277). -/
namespace Sys2Proof.Machine

/-- Page bytes of a leaf at a level (Table 12.3). -/
def pageBytes (level : Nat) : Nat := match level with | 1 => 2 ^ 30 | 2 => 2 ^ 21 | _ => 2 ^ 16
/-- Index of a virtual address at a level (Table 12.3). -/
def levelIndex (level va : Nat) : Nat :=
  match level with | 0 => bits va 39 9 | 1 => bits va 30 9 | 2 => bits va 21 9 | _ => bits va 16 5

/-- What a walk finds: a well-formed leaf, a miss, or a malformed entry, with the level. -/
inductive WalkRes where
  | leaf (level : Nat) (entry : Nat)
  | miss (level : Nat)
  | malformed (level : Nat)
  deriving DecidableEq, Repr

/-- Whether a valid entry is malformed at its level (R272). -/
def entryBad (panel site level e : Nat) : Bool :=
  bits e 56 8 != 0 || bits e 5 3 != 0
    || (if bitAt e 1 then level == 0 || bits e 8 48 * 256 % pageBytes level != 0
        else level == 3 || bits e 2 3 != 0 || bits e 48 8 != panel || bits e 44 4 != site
          || bits e 8 48 * 256 % (if level = 2 then 256 else 4096) != 0)

/-- Offset of a physical address on its island as a key of memory. -/
def paKey (pa : Nat) : Nat := pa % 2 ^ 48

/-- An 8-byte read of a page-table entry at the island's L2 or vaults (R274). -/
def readEntry (s : State) (pa : Nat) : Nat := leNat (pocBytes s (span (paKey pa) 8))

/-- The walk from a table at a level down (R274, R272). -/
def walkFrom (s : State) (site va : Nat) : (fuel level table : Nat) → WalkRes
  | 0, level, _ => .malformed level
  | fuel + 1, level, table =>
    let e := readEntry s (table + 8 * levelIndex level va)
    if !bitAt e 0 then .miss level
    else if entryBad s.fe.panel.toNat site level e then .malformed level
    else if bitAt e 1 then .leaf level e
    else walkFrom s site va fuel (level + 1) (bits e 8 48 * 256)

/-- The translation descriptor of a context on an island (R270). -/
def descriptor (s : State) (asid site : Nat) : Option DWord := (find asid s.ctxs).bind fun c => find site c.descs

/-- A walk of a context's replica on an island; without a descriptor every address misses at level 0. -/
def walk (s : State) (asid site va : Nat) : WalkRes :=
  match descriptor s asid site with
  | none => .miss 0
  | some d =>
    let root := bits d.toNat 12 44 * 4096
    if bits root 48 8 ≠ s.fe.panel.toNat ∨ bits root 44 4 ≠ site then .malformed 0 else walkFrom s site va 4 0 root

/-- The physical address a leaf gives (R275). -/
def leafPa (level e va : Nat) : Nat := bits e 8 48 * 256 + va % pageBytes level

/-- A TLB entry for a leaf. -/
def tlbOf (asid level va e : Nat) : Tlb := ⟨asid, level, va / pageBytes level, BitVec.ofNat 64 e⟩
/-- The leaf a TLB holds for an address (R274). -/
def tlbFind (asid va : Nat) (t : List Tlb) : Option Tlb :=
  t.find? fun e => e.asid == asid && e.vpn == va / pageBytes e.level
/-- Adds a leaf to a TLB of `cap` entries (R274). -/
def tlbAdd (cap : Nat) (e : Tlb) (t : List Tlb) : List Tlb := (e :: t.filter fun x => decide (x ≠ e)).take cap

/-- The first missing permission of a need: subcause 1, 2 or 3 (R275). -/
def permSub (need : Need) (e : Nat) : Option Nat :=
  let r := bitAt e 2
  let w := bitAt e 3
  let x := bitAt e 4
  match need with
  | .r => if r then none else some 1
  | .w => if w then none else some 2
  | .rw => if !r then some 1 else if !w then some 2 else none
  | .x => if x then none else some 3

/-- Outcome of one translation check. `miss hole` needs service: nothing maps the address, or its leaf lies in a hole.
-/
inductive XRes where
  | ok (pa : Nat)
  | miss (level : Nat) (hole : Bool)
  | unknown
  | fault (code sub : Nat)
  deriving DecidableEq, Repr

/-- Whether an access of class `cls` may reach a region: 0 an ordinary access, 1 a local one of MWAIT, an engine, RPUT
or RGET, 2 the remote range of RPUT and RGET, 3 the remote address of RATOM (R213, R224, R294, R297); 4, an affinity address, which may name any permission and any region but a hole (R364). -/
def classReaches (cls : Nat) (r : Region) : Bool :=
  match cls, r with
  | 0, _ | _, .hbm | _, .vault | _, .hole | 3, .counter => true
  | _, _ => false

/-- Judges a leaf for an access (R20, R275). Accesses of class 2 and 3 may name any island and are judged by Table 1.3
elsewhere; a region out of reach is subcause 6 (Table 13.7). -/
def judge (s : State) (site cls : Nat) (need : Need) (va level e : Nat) : XRes :=
  let pa := leafPa level e va
  let own := bits pa 48 8 == s.fe.panel.toNat && bits pa 44 4 == site
  let reg := if own then s.region site (bits pa 0 44) else tableRegion (bits pa 0 44)
  if cls = 4 then if reg = .hole then .miss level true else .ok pa
  else if decide (cls < 2) && !own then .fault 0x06 4
  else match permSub need e with
    | some n => .fault 0x06 n
    | none =>
      if reg = .hole then .miss level true else if classReaches cls reg then .ok pa else .fault 0x06 6

/-- What a check knows beyond the TLBs: context, island, core, earlier results of this instruction, and the class of the
access. -/
structure XEnv where
  asid : Nat
  site : Nat
  ck : Nat
  passed : List (Nat × Need × Nat)
  declined : List (Nat × Need × Nat × Nat)
  cls : Nat := 0

/-- One translation check at its first step: earlier results, core TLB, island TLB; else the walk is still to be made. An address of
2^48 or more has no mapping that a service could supply: cause 0x05 subcause 1 at once, an engine's element and scale addresses
included, which R224 says meet it after service (R271, R275; log entry 79, DEDUCED). -/
def xlateOne (s : State) (env : XEnv) (need : Need) (va : Nat) : XRes :=
  if 2 ^ 48 ≤ va then .fault 0x05 1
  else
    match env.passed.find? fun e => e.1 == va && e.2.1 == need with
    | some e => .ok e.2.2
    | none =>
      match env.declined.find? fun e => e.1 == va && e.2.1 == need with
      | some e => .fault e.2.2.1 e.2.2.2
      | none =>
        let hit := match tlbFind env.asid va (s.core env.ck).tlb with
          | some t => some t
          | none => tlbFind env.asid va (s.island env.site).tlb
        match hit with
        | some t => judge s env.site env.cls need va t.level t.leaf.toNat
        | none => .unknown

/-- One address piece to check: who makes the access (rank and lanes), address, bytes, need. -/
structure Chk where
  unit : Nat
  lanes : Nat
  va : Nat
  n : Nat
  need : Need
  cls : Nat := 0
  deriving DecidableEq, Repr

/-- Bytes from an address to the next place where its region can change: a page boundary, or within a page the end of the state
page and of the notify counters (Table 1.3). -/
def regionLeft (va : Nat) : Nat :=
  let o := va % 2 ^ 16
  (if o < 0x1000 then 0x1000 else if o < 0x4000 then 0x4000 else 2 ^ 16) - o

/-- Cuts a range into pieces that lie in one page and one region each; `fuel` bounds the pieces. -/
def cutPages : (fuel va n : Nat) → List (Nat × Nat)
  | 0, _, _ => []
  | fuel + 1, va, n =>
    let k := regionLeft va
    if n ≤ k then [(va, n)] else (va, k) :: cutPages fuel (va + k) (n - k)

/-- The checks of one access. -/
def chksOf (unit lanes va n : Nat) (need : Need) (cls : Nat := 0) : List Chk :=
  (cutPages (3 * (n / 2 ^ 16) + 6) va n).map fun p => ⟨unit, lanes, p.1, p.2, need, cls⟩

/-- Result of checking every access of an instruction (R276): every piece with its physical address, a park, or the
cause that ranks first with the lowest unit that meets it (R48, R275). -/
inductive XOut where
  | ok (pas : List (Chk × Nat))
  | park (misses : List Miss) (passed : List (Nat × Need × Nat))
  | fault (c : CauseRec)
  deriving DecidableEq, Repr

/-- Rank of a translation cause among those one instruction meets (R48, R275); subcauses 6 and 5 of Table 13.7 follow the other
subcauses of 0x06 (log entry 63, DEDUCED). -/
def xlateRank (code sub : Nat) : Nat :=
  if code = 0x06 then (match sub with | 4 => 0 | 1 => 1 | 2 => 2 | 3 => 3 | 6 => 4 | _ => 5) else 5 + sub

/-- The cause of one piece with its rank: address of the piece, lanes of its unit. -/
def chkCause (r : Chk × XRes) : Option (Nat × Nat × CauseRec) :=
  match r.2 with
  | .fault c n => some (xlateRank c n, r.1.unit, cause c n r.1.va r.1.lanes)
  | _ => none

/-- The cause that ranks first, with the lanes that meet it and the address of the lowest unit of them (R48, R275). -/
def firstCause (cs : List (Nat × Nat × CauseRec)) : Option CauseRec :=
  (leastBy (fun e => e.1) cs).bind fun f =>
    let same := cs.filter fun e => e.1 == f.1
    (leastBy (fun e => e.2.1) same).map fun e =>
      { e.2.2 with tlanes := maskOf ((same.map fun x => setBits 64 x.2.2.tlanes).flatten) }

/-- Checks every piece (R276); `also` is a cause of subcause 5 that the addresses meet together (Table 13.7). -/
def xlateAll (s : State) (env : XEnv) (cs : List Chk) (also : List (Chk × Nat) → Option CauseRec := fun _ => none) : XOut :=
  let rs := cs.map fun c => (c, xlateOne s { env with cls := c.cls } c.need c.va)
  let missing := rs.filterMap fun r => match r.2 with
    | .unknown => some (⟨r.1.va, r.1.need, .walk, r.1.cls⟩ : Miss)
    | .miss l h => some ⟨r.1.va, r.1.need, .missed l h, r.1.cls⟩
    | _ => none
  let pass := rs.filterMap fun r => match r.2 with | .ok pa => some (r.1, pa) | _ => none
  match missing with
  | _ :: _ => .park missing (pass.map fun p => (p.1.va, p.1.need, p.2))
  | [] =>
    match firstCause (rs.filterMap chkCause ++ ((also pass).map fun c => (xlateRank 0x06 5, 0, c)).toList) with
    | some c => .fault c
    | none => .ok pass

/-- The address a split fetches from. -/
def Split.va (sp : Split) : Nat := sp.pc.toNat + 2 ^ 48 * sp.pcHi.toNat

/-- The class that the split's accesses give an L2 line (R258). -/
def Iss.ret (cx : Iss) : Nat := retOf (modeEP cx.sp.mode)

/-- What a check of the issuing split knows. -/
def Iss.env (cx : Iss) : XEnv :=
  { asid := cx.tm.asid, site := cx.tm.site, ck := cx.ck, passed := cx.sp.passed, declined := cx.sp.declined }

/-- Parks a split (R276): it stays at its instruction, not ready, until the replay. -/
def parkSplit (s : State) (sid : Nat) (what : ParkFor) (ms : List Miss) (ps : List (Nat × Need × Nat)) : State :=
  s.modSplit sid fun p => { p with park := some ⟨what, ms, ps, s.tick⟩ }

/-- The token a word without an acceptance posts to: named by its fields, or by its control word (R293). -/
def wordToken (s : State) (cx : Iss) (i : Instr) : Option Nat :=
  match i with
  | .rput d _ _ | .rget d _ _ => some (bits (cx.g s d.toNat) 36 4)
  | i => tokenOf i

/-- The increment of a parked word stays counted in every slice until the word issues again (R110, R276). -/
def holdToken (s : State) (cx : Iss) (i : Instr) : State :=
  match wordToken s cx i with
  | none => s
  | some t => perSlice s cx fun _ sl => { sl with toks := sl.toks ++ [(⟨t, 0, false⟩ : TokE)] }

/-- Notes in the operations posted since number `first` the pages whose checks their lanes passed with (R281). -/
def notePages (first : Nat) (pas : List (Chk × Nat)) (s : State) : State :=
  let mine := fun (o : Op) => pas.filter fun p => o.slices.any fun k => bits p.1.lanes (4 * (k % 16)) 4 != 0
  { s with ops := s.ops.map fun e =>
      if first ≤ e.1 then (e.1, { e.2 with pages := asSet ((mine e.2).map fun p => p.1.va / 2 ^ 16) }) else e }

/-- Whether some byte of a virtual page of `n` bytes lies in a range. -/
def inRange (first last va n : Nat) : Bool := decide (va ≤ last) && decide (first < va + n)

/-- The virtual ranges whose checks an operation passed with: those of its word, or those an engine's acceptance kept. -/
def Op.passes (o : Op) : List (Nat × Nat) :=
  (o.pages.map fun p => (p * 2 ^ 16, 2 ^ 16)) ++ match o.body with
    | .tcopy t => t.pages.map fun p => (p.1, p.2.2)
    | _ => []

/-- Operations that a split posts from number `first` on, or has accepted, with checks that passed before an invalidation count for the
shootdowns that wait for the split (R281). -/
def noteShot (sid : Nat) (mine : Nat → Bool) (t : State) : State :=
  if t.fe.shoots.isEmpty then t
  else
    let more := fun (h : Shoot) => (t.ops.filter fun o => mine o.1 && o.2.passes.any fun p => inRange h.first h.last p.1 p.2).map (·.1)
    t.modFe fun f => { f with shoots := f.shoots.map fun e =>
      (e.1, if e.2.splits.contains sid then { e.2 with ops := e.2.ops ++ more e.2 } else e.2) }

/-- Runs `k` on the translated pieces of an instruction of the issuing split, or parks it, or raises the cause. -/
def withXlate (s : State) (cx : Iss) (i : Instr) (cs : List Chk) (k : List (Chk × Nat) → Except CauseRec State)
    (also : List (Chk × Nat) → Option CauseRec := fun _ => none) : Except CauseRec State :=
  match xlateAll s cx.env cs also with
  | .ok pas => (k pas).map (notePages s.nextOp pas)
  | .park ms ps => .ok (holdToken (parkSplit s cx.sid (.instr i) ms ps) cx i)
  | .fault c => .error c

/-! ### Walks (R274) -/

/-- Whether an address lies on the page that a walk of another found, or missed. -/
def WalkRes.covers (r : WalkRes) (va x : Nat) : Bool :=
  match r with
  | .leaf l _ => va / pageBytes l == x / pageBytes l
  | _ => va / 2 ^ 16 == x / 2 ^ 16

/-- How a miss stands after a walk of its page (R275). -/
def missAfter (s : State) (site : Nat) (r : WalkRes) (m : Miss) : MissSt :=
  match r with
  | .miss l => .missed l false
  | .malformed _ => .declined 0x05 3
  | .leaf l e =>
    match judge s site m.cls m.need m.va l e with
    | .ok pa => .passed pa
    | .miss l h => .missed l h
    | .fault c n => .declined c n
    | .unknown => .walk

/-- The entries that a walk reads, from a table at a level down. -/
def walkReads (s : State) (site va : Nat) : (fuel level table : Nat) → List Nat
  | 0, _, _ => []
  | fuel + 1, level, table =>
    let a := table + 8 * levelIndex level va
    let e := readEntry s a
    a :: (if !bitAt e 0 || entryBad s.fe.panel.toNat site level e || bitAt e 1 then []
      else walkReads s site va fuel (level + 1) (bits e 8 48 * 256))

/-- A walk reads the replica at the island's L2 (R257, R258, R274). -/
def touchWalk (s : State) (asid site va part ret : Nat) : State :=
  match descriptor s asid site with
  | none => s
  | some d =>
    pocTouch s part ret true (((walkReads s site va 4 0 (bits d.toNat 12 44 * 4096)).map fun a => span (paKey a) 8).flatten)

/-- Level at which a walk ends in a malformed entry. -/
def malformedLevel (s : State) (asid site va : Nat) : Nat :=
  match walk s asid site va with | .malformed l => l | _ => 0

/-- KIND of a need (Table 12.6). -/
def needKind (n : Need) : Nat := match n with | .r => 1 | .w => 2 | .rw => 3 | .x => 4

/-- The translation fault record (Table 12.6). -/
def faultRecord (va svc site core kind level origin asid : Nat) : List Byte :=
  leBytes 8 va ++ leBytes 2 svc ++ leBytes 1 site ++ leBytes 1 core ++ leBytes 1 kind ++ leBytes 1 level
    ++ leBytes 1 origin ++ leBytes 1 0 ++ leBytes 4 asid ++ leBytes 12 0

/-! ### Instruction fetch (R49, R398) -/

/-- The word that a fetch finds at a physical address: at its point of coherence in HBM4E and the vaults (log entry 35, DEDUCED). What
a fetch from a notify counter or the state page returns, no rule says: a free value (log entry 74, DESIGN CHOICE). -/
def codeWord (s : State) (pa : Nat) : Word :=
  match s.region (siteOf (paKey pa)) (offOf (paKey pa)) with
  | .hbm | .vault => w32 (leNat (pocBytes s (span (paKey pa) 4)))
  | _ => w32 (Config.choose s.tick (19 * 2 ^ 64 + paKey pa))

/-- The word at a physical address through the fetch path: as the buffer holds it, or a value the word has held since the buffer
was last emptied, as the free choice says; a word not in the buffer is filled from the point of coherence, through the L2 for a
partition and with a retention class (R257, R258, R398; log entry 64, DEDUCED); and the state after. -/
def fetchWord (s : State) (ck part ret pa : Nat) : Word × State :=
  let c := s.core ck
  let held := find (paKey pa) c.fetch
  let vs := (held.toList ++ codeWord s pa
    :: ((wordValues s (paKey pa) c.fetchSince).drop 1).map fun v => w32 (bits v.toNat (8 * (pa % 8)) 32)).eraseDups
  let w := nth 0 vs (pick s (4 * 2 ^ 64 + paKey pa) vs.length)
  let s := if held = some w then s else pocTouch s part ret true (span (paKey pa) 4)
  (w, s.setCore ck { s.core ck with fetch := put (paKey pa) w (s.core ck).fetch })

end Sys2Proof.Machine
end

