-- ==== Sys2Proof/Machine/Retire.lean ====
section
/-! DEFINITION. The retirement of slices, gangs, teams and grids (R65, R302, R367, R369), barriers that lane exits
close (R208), RGANG (R89), and counters (R291, R292, R352). -/
namespace Sys2Proof.Machine

/-! ### Notify counters named by designators -/

def nbase (w : DWord) : Nat := bits w.toNat 0 12
def ncount (w : DWord) : Nat := bits w.toNat 16 13

/-- Adds to a counter of this panel, modulo 2^32 (R292). -/
def addCounter (s : State) (site n v : Nat) : State :=
  let k := 4096 * site + n
  s.setCtr k (s.ctr k + w32 v)

/-- Whether a packet designator is valid for a context (R352): OWN 0, a live populated island of this panel or another
panel, and an index inside the notify window. -/
def designatorOk (s : State) (asid des : Nat) : Bool :=
  match find asid s.ctxs with
  | none => false
  | some c => bits des 24 40 == 0 && decide (bits des 0 12 < ncount c.window)
      && (bits des 16 8 != s.fe.panel.toNat || s.live (bits des 12 4))

/-- An increment packet the front end sends to another panel on behalf of `tag`, through the lowest live island, which
takes its answer (R352, R367; log entry 23, DESIGN CHOICE). -/
def feIncrement (s : State) (asid des v tag : Nat) : Pkt :=
  let c := find asid s.ctxs
  let nb := match c with | some c => nbase c.window | none => 0
  { op := tag, part := 0, parts := 1, kind := .add, srcPanel := s.fe.panel.toNat
    src := ((upFrom 0 16).find? fun k => s.live k).getD 0, dstPanel := bits des 16 8
    dst := bits des 12 4, hops := [], addr := 0xC0000000000 + 4 * (nb + bits des 0 12), len := 4
    data := leBytes 4 v, aop := 0, sgn := false, wide := false, lanes := [], fenced := false, notify := none
    pid := match c with | some c => c.pid | none => 0, poisoned := false }

/-- Increments the counter a packet designator names (R352, R367). -/
def incDesignator (s : State) (asid des v tag : Nat) : State :=
  if bits des 16 8 = s.fe.panel.toNat then
    match find asid s.ctxs with
    | none => s
    | some c => addCounter s (bits des 12 4) (nbase c.window + bits des 0 12) v
  else { s with extOut := s.extOut ++ [(255, 255, feIncrement s asid des v tag)] }

/-! ### The end of a launch (R351, R367) -/

/-- The lowest-numbered island that holds a descriptor for a context (R362). -/
def lowestReplica (s : State) (asid : Nat) : Option Nat :=
  (find asid s.ctxs).bind fun c => (c.descs.head?).map (·.1)

/-- The physical address in HBM4E or a vault that a context's lowest replica maps an address to, permissions aside; an address of
2^48 or more has no mapping (R271). -/
def feTranslate (s : State) (asid va : Nat) : Option Nat :=
  if 2 ^ 48 ≤ va then none
  else (lowestReplica s asid).bind fun site =>
    match walk s asid site va with
    | .leaf l e =>
      let pa := leafPa l e va
      if bits pa 48 8 = s.fe.panel.toNat ∧ bits pa 44 4 = site ∧
        (s.region site (bits pa 0 44) = .hbm ∨ s.region site (bits pa 0 44) = .vault) then some pa else none
    | _ => none

/-- Where STATUS of a launch header lies, at its byte 60, if in HBM4E or a vault: for a child where its LAUNCH found the header, else
where the context's lowest replica maps it (R362, R367, R368). Elsewhere it is written nowhere (log entry 81, DESIGN CHOICE). -/
def statusAt (s : State) (asid header : Nat) (hdrPa : Option Nat) : Option Nat :=
  match hdrPa with
  | some pa => match s.region (siteOf (paKey pa)) (offOf (paKey pa)) with | .hbm | .vault => some (pa + 60) | _ => none
  | none => feTranslate s asid (header + 60)

/-- Writes STATUS of a launch (R367); the walk of its address reads the replica at the L2 (R257, R274). -/
def writeStatus (s : State) (asid header : Nat) (hdrPa : Option Nat) (v : Nat) : State :=
  match statusAt s asid header hdrPa with
  | none => s
  | some pa =>
    let s := match hdrPa, lowestReplica s asid with
      | none, some site => touchWalk s asid site (header + 60) (partOf s asid) 2
      | _, _ => s
    pocWrite s (partOf s asid) 2 ((span (paKey pa) 4).zip (leBytes 4 v))

/-- A packet completes: it leaves the packets in flight (R350 to R352). -/
def completePacket (s : State) (pid : Nat) : State := s.modFe fun f => { f with pkts := del pid f.pkts }

/-- Tag of the increments of packet `pid`. -/
def sigTag (pid : Nat) : Nat := 2 ^ 32 + pid
/-- An increment of a SIGNAL on another panel has been answered; the packet completes with the last (R352). -/
def signalAnswered (s : State) (pid : Nat) : State :=
  match find pid s.fe.pkts with
  | none => s
  | some p => if p.left ≤ 1 then completePacket s pid else s.modFe fun f => { f with pkts := put pid { p with left := p.left - 1 } f.pkts }

/-- What follows the end of a child's launch at its parent (R369): the slice's count falls, or its team's once the
slice has retired. -/
def childDone (s : State) (parent : Nat × Nat) : State :=
  match find parent.2 s.slices with
  | some sl =>
    if sl.retired then s.modTeam parent.1 fun t => { t with children := t.children - 1 }
    else s.modSlice parent.2 fun x => { x with children := x.children - 1 }
  | none => s.modTeam parent.1 fun t => { t with children := t.children - 1 }

/-- What a child's grid did counts as work of its parent's grid: its teams and the cores they ran on (R351). -/
def passWork (s : State) (g : Grid) : State :=
  match g.parent.bind fun p => find p.1 s.teams with
  | some t => s.modFe fun f => { f with grids := upd t.grid (fun x =>
      { x with tids := x.tids ++ g.tids, cores := asSet (g.cores ++ x.cores) }) f.grids }
  | none => s

/-- A grid with no team left retires (R367): release on the cores its teams ran on, STATUS, NDES, then the packet
completes or the child counts as retired. -/
def retireGrid (s : State) (gid : Nat) : State :=
  match find gid s.fe.grids with
  | none => s
  | some g =>
    let s := g.cores.foldl (fun t ck => l1CleanAll t ck (partOf t g.asid) 2) s
    let s := writeStatus s g.asid g.header g.hdrPa 1
    let flags := leNat ((g.hdr.drop 56).take 2)
    let s := if bitAt flags 1 then incDesignator s g.asid (leNat ((g.hdr.drop 120).take 8)) 1 0 else s
    let s := passWork (s.modFe fun f => { f with grids := del gid f.grids }) g
    let s := match g.pkt with | some p => completePacket s p | none => s
    match g.parent with | some p => childDone s p | none => s

/-! ### Slices, gangs and teams (R65) -/

/-- Removes a team with all that is counted as its own. -/
def removeTeam (s : State) (tid : Nat) : State :=
  { s with teams := del tid s.teams
           slices := s.slices.filter fun e => decide (e.1 / 256 ≠ tid)
           splits := s.splits.filter fun e => decide (e.2.team ≠ tid) }

/-- Whether a team has retired: its gangs have, and so have all its children (R65, R369). -/
def teamDone (s : State) (tid : Nat) (t : Team) : Bool :=
  t.gangs.all (fun g => g.retired) && t.children == 0
    && (s.slices.filter fun e => decide (e.1 / 256 = tid)).all fun e => e.2.children == 0

/-- Whether a grid whose teams have all retired may end (R351, R367): under a fence-scope of island or above, every
operation of its teams, and of the teams of its children's grids, has been performed. -/
def gridDone (s : State) (g : Grid) : Bool :=
  let fsc := match g.pkt.bind fun p => find p s.fe.pkts with | some p => p.fsc | none => 0
  g.unretired == 0 && (decide (fsc < 2) || s.ops.all fun e => !g.tids.contains e.2.team)

/-- Retires a team that is done, and its grid with the last of them; `fuel` bounds the chain to ancestors (R369). -/
def retireTeam : (fuel : Nat) → State → Nat → State
  | 0, s, _ => s
  | fuel + 1, s, tid =>
    match find tid s.teams with
    | none => s
    | some t =>
      if !teamDone s tid t then s
      else
        let s := removeTeam s tid
        match find t.grid s.fe.grids with
        | none => s
        | some g =>
          let g := { g with unretired := g.unretired - 1 }
          let s := s.modFe fun f => { f with grids := put t.grid g f.grids }
          if gridDone s g then
            let s := retireGrid s t.grid
            match g.parent with | some p => retireTeam fuel s p.1 | none => s
          else s

/-- Ends the grids that only waited for operations of retired teams (R351). -/
def settleGrids (s : State) : State :=
  s.fe.grids.foldl (fun t e =>
    if gridDone t e.2 then
      let t := retireGrid t e.1
      match e.2.parent with | some p => retireTeam 16 t p.1 | none => t
    else t) s

/-- Retires slice `sk` when every lane has exited and every count is zero; then its gang and its team (R65). A remote
fault record still set is posted as a record of KIND 1 (R302). -/
def retireSlice (s : State) (sk : Nat) : State :=
  match find sk s.slices with
  | none => s
  | some sl =>
    let tid := sk / 256
    let gang := sk / 16 % 16
    match find tid s.teams with
    | none => s
    | some t =>
      if sl.retired || sl.anyLive || !sl.toks.isEmpty || !sl.stand.isEmpty then s
      else
        let s := match sl.rfault, find t.asid s.ctxs, rootQueue s t.grid with
          | some r, some c, some q =>
            postRecord q (errRecord 0x08 r.2 1 (2 * ofBool (r.1.getLsbD 63)) t.site t.core (gangId t gang) t.idx.toNat 0 0
              r.1.toNat (maskOf ((upFrom 0 4).map fun i => 4 * (sk % 16) + i)) c.pid.toNat) s
          | _, _, _ => s
        let s := s.setSlice sk { sl with retired := true, rfault := none, children := 0 }
        let s := s.modTeam tid fun x => { x with children := x.children + sl.children }
        let all := (s.slices.filter fun e => decide (e.1 / 16 = tid * 16 + gang)).all fun e => e.2.retired
        let s := if all then s.modTeam tid fun x =>
            { x with gangs := modNth x.gangs gang fun g => { g with retired := true } } else s
        retireTeam 16 s tid

/-! ### Barriers and RGANG -/

/-- Z(g): exited lanes of a gang (Table 8.4). -/
def exitedLanes (s : State) (tid gang : Nat) : Nat :=
  sumNat ((s.slices.filter fun e => decide (e.1 / 16 = tid * 16 + gang)).map fun e =>
    (e.2.lanes.filter fun l => l.e).length)

/-- Barrier `b` of a team: state by its name. -/
def Team.bar (t : Team) (b : Nat) : Barrier := nth {} t.bars b

/-- The end of a wait that merges or releases several splits: each goes on once the accesses the slices concerned made
before it have taken effect (R209, R317). -/
def endOrdered (s : State) (sids : List Nat) (keys : List Nat) : State :=
  let d := opsOf s keys OpBody.isAccess
  sids.foldl (fun t sid => if d.isEmpty then endWait t sid else t.modSplit sid fun p => { p with wait := .order d })
    (if d.isEmpty then noteSynced s keys else s)

/-- check_complete of R208: when the phase has all its lanes it closes, and every split waiting at it goes on. -/
def checkBarrier (s : State) (tid b : Nat) : State :=
  match find tid s.teams with
  | none => s
  | some t =>
    let x := t.bar b
    let z := sumNat ((setBits 16 x.gm.toNat).map fun g => exitedLanes s tid g)
    if x.arr ≠ 0 ∧ x.nx.toNat ≤ x.arr.toNat + z then
      let s := s.modTeam tid fun t => { t with bars := modNth t.bars b fun y => { y with arr := 0 } }
      let ws := s.splits.filter fun e => decide (e.2.team = tid) && decide (e.2.wait = .bsync b)
      endOrdered s (ws.map (·.1)) (ws.map fun e => e.2.keys).flatten
    else s

/-- Runs check_complete for every barrier of a team, as a lane's exit does (R208). -/
def checkBarriers (s : State) (tid : Nat) : State :=
  match find tid s.teams with
  | none => s
  | some t => (upFrom 0 t.bars.length).foldl (fun u b => checkBarrier u tid b) s

/-- Ends the RGANG of a gang when every slice with a live lane waits at one address (R89): one split of those slices,
with the MODE of the split that held the lowest, its PC behind the RGANG. Its handler registers too are those of that split (log
entry 78, DESIGN CHOICE). -/
def checkRgang (s : State) (tid gang : Nat) : State :=
  let g := gangSplits s tid gang
  match g with
  | [] => s
  | e :: _ =>
    if g.all fun x => decide (x.2.wait = .rgang) && decide (x.2.pc = e.2.pc) then
      match leastBy (fun x => x.2.slices.headD 0) g with
      | none => s
      | some low =>
        let all := sortBy id ((g.map fun x => x.2.slices).flatten)
        let s := { s with splits := s.splits.filter fun x => decide (x.2.team ≠ tid ∨ x.2.gang ≠ gang) }
        let sp := { low.2 with slices := all }
        endOrdered (s.setSplit low.1 sp) [low.1] sp.keys
    else s

/-- After lanes of a split have exited: slices whose lanes have all exited stop and retire, the split goes without them,
and barriers and RGANGs that only waited for them go on (R91, R208, R89). -/
def afterExit (s : State) (sid : Nat) (sp : Split) : State :=
  let stopped := sp.keys.filter fun k => !(s.slice k).anyLive
  let left := sp.slices.filter fun j => (s.slice (sliceKey sp.team sp.gang j)).anyLive
  let s := match find sid s.splits with
    | none => s
    | some x => if left.isEmpty then { s with splits := del sid s.splits } else s.setSplit sid { x with slices := left }
  let s := deliverPending s sp.team sp.gang
  let s := checkBarriers s sp.team
  let s := checkRgang s sp.team sp.gang
  stopped.foldl (fun t k => retireSlice (t.modSlice k Slice.settle) k) s

end Sys2Proof.Machine
end

