-- ==== Sys2Proof/Machine/Sync.lean ====
section
/-! DEFINITION. Waits: tokens (spec/04), barriers and MWAIT (spec/08), fences (spec/09, 13, 14), NWAIT, LAUNCH and LWAIT
(spec/13, 16), and the steps that end them. -/
namespace Sys2Proof.Machine

/-! ### Which operations a fence waits for (R314) -/

/-- Whether the release part of a fence at a scope has nothing left to wait for (R314). -/
def releaseReady (s : State) (keys : List Nat) (scope : Nat) : Bool :=
  (opsOf s keys OpBody.isWrite).isEmpty && (decide (scope < 3) || (opsOf s keys OpBody.isRemoteWrite).isEmpty)
/-- Whether the acquire part has nothing left to wait for (R314). -/
def acquireReady (s : State) (keys : List Nat) (eng : Bool) : Bool :=
  (opsOf s keys OpBody.isRead).isEmpty && (!eng || (opsOf s keys OpBody.isEngine).isEmpty)
/-- The cache effect of a release and of an acquire at a scope on a core (R314). -/
def releaseEffect (s : State) (ck part ret scope : Nat) : State := if scope < 2 then s else l1CleanAll s ck part ret
def acquireEffect (s : State) (ck part ret scope : Nat) : State :=
  if scope < 2 then s
  else
    let s := l1FlushAll s ck part ret
    s.setCore ck { s.core ck with fetch := [], fetchSince := s.tick + 1 }

/-- A release part has ended in some slices: what they write from now on comes after the reads still outstanding (R308, R311),
and with the engine bit an engine sees what they stored (R318). -/
def noteRelease (s : State) (keys : List Nat) (eng : Bool) : State :=
  keys.foldl (fun t k => t.modSlice k fun sl =>
    { sl with fenced := opsOf s [k] OpBody.isRead, unseen := if eng then [] else sl.unseen, engW := if eng then [] else sl.engW }) s
/-- An acquire part has ended in some slices: at island scope or above an engine sees what they have stored before (R318), and with
the engine bit they have observed the operations that the engines have completed (R314). -/
def noteAcquire (s : State) (keys : List Nat) (scope : Nat) (eng : Bool) : State :=
  (noteSynced s keys).mapSlices keys fun sl =>
    { sl with engSeen := if eng then s.tick else sl.engSeen
              unseen := if scope < 2 then sl.unseen else [], engW := if scope < 2 then sl.engW else [] }

/-- Effective scope of a fence (R314). -/
def fenceScope (scope : Nat) (eng : Bool) : Nat := if eng then Nat.max scope 2 else scope
/-- Whether an order has a release part, and an acquire part (Table 2.10). -/
def orderRel (o : Nat) : Bool := decide (2 ≤ o)
def orderAcq (o : Nat) : Bool := o == 1 || decide (3 ≤ o)

/-! ### The conditions and the effects of waits -/

/-- Byte barrier `b` of a team (Table 8.6). -/
def Team.bb (t : Team) (b : Nat) : ByteBar := nth {} t.bbs b

/-- Whether NWAIT's condition holds: (V − T) mod 2^32 < 2^31 (R299). -/
def counterPast (v : Word) (thr : Nat) : Bool := decide ((v - w32 thr).toNat < 2 ^ 31)

/-- Whether the wait of a split can end now. Waits that an event ends are not listed as ready here. -/
def waitReady (s : State) (sp : Split) (t : Team) : Wait → Bool
  | .token tok n => sp.keys.all fun k => decide ((s.slice k).count tok ≤ n)
  | .drain => sp.keys.all fun k => (s.slice k).toks.isEmpty
  | .restore h _ => sp.keys.all fun k => (s.slice k).toks.all fun e => e.tok / 8 != h
  | .barw b parity => (t.bb b).ph != parity
  | .lwait => sp.keys.all fun k => (s.slice k).children == 0
  | .nwait ctr thr => counterPast (s.ctr ctr) thr
  | .lrfence => (opsOf s sp.keys OpBody.isMemWrite).isEmpty
  | .rfence => (opsOf s sp.keys OpBody.isAtTarget).isEmpty
  | .fence scope o eng =>
    (!orderRel o || releaseReady s sp.keys (fenceScope scope eng)) && (!orderAcq o || acquireReady s sp.keys eng)
  | .order ops | .exact ops _ => ops.all fun o => (find o s.ops).isNone
  | .launch _ => releaseReady s sp.keys 3
  | _ => false

/-- Standing counts of the eight tokens from 8h, one byte each (R117). -/
def Slice.setStanding (sl : Slice) (h : Nat) (v : Nat) : Slice :=
  { sl with stand := (upFrom 0 8).foldl (fun m j => setD 0 (8 * h + j) (bits v (8 * j) 8) m) sl.stand }

/-- What the end of a wait does beside letting the split go on. The end of TKS.rs covers the operations of its eight tokens, for
which it waits as TKS.drain does (R115, R117; log entry 58, DEDUCED). -/
def waitEffect (s : State) (sp : Split) (t : Team) : Wait → State
  | .token tok n => sp.keys.foldl (fun u k => u.modSlice k fun sl => sl.coverToken tok n) s
  | .drain => sp.keys.foldl (fun u k => u.modSlice k fun sl => sl.coverAll (upFrom 0 16)) s
  | .restore h vals => vals.foldl (fun u e => u.modSlice e.1 fun sl =>
      (sl.coverAll (upFrom (8 * h) 8)).setStanding h e.2.toNat) s
  | .barw b _ => s.mapSlices sp.keys fun sl => { sl with barSeen := put b s.tick sl.barSeen }
  | .order _ => noteSynced s sp.keys
  | .lrfence =>
    let ck := coreKey t.site t.core
    let s := l1CleanAll s ck (partOf s t.asid) (retOf (modeEP sp.mode))
    s.setCore ck { s.core ck with recs := [], recSince := s.tick + 1 }
  | .fence scope o eng =>
    let ck := coreKey t.site t.core
    let sc := fenceScope scope eng
    let ret := retOf (modeEP sp.mode)
    let s := if orderRel o then noteRelease (releaseEffect s ck (partOf s t.asid) ret sc) sp.keys eng else s
    if orderAcq o then noteAcquire (acquireEffect s ck (partOf s t.asid) ret sc) sp.keys sc eng else s
  | .launch lid =>
    let s := noteRelease (releaseEffect s (coreKey t.site t.core) (partOf s t.asid) (retOf (modeEP sp.mode)) 3) sp.keys false
    s.modFe fun f => { f with launches := upd lid (fun l => { l with ready := true }) f.launches }
  | _ => s

/-- What a wait becomes once its own condition holds: NWAIT and LWAIT end as an acquire at panel scope (R299, R370). -/
def afterWait : Wait → Option Wait
  | .nwait .. | .lwait => some (.fence 3 1 false)
  | _ => none

/-- Ends the wait of a split whose condition holds. -/
def finishWait (s : State) (sid : Nat) (sp : Split) (t : Team) (w : Wait) : State := endWait (waitEffect s sp t w) sid

/-- The slices of a split whose remote fault record is set (R302). -/
def faulted (s : State) (sp : Split) : List Nat := sp.keys.filter fun k => (s.slice k).rfault.isSome

/-- The cause 0x08 that the record of the lowest such slice gives (R302) (log entry 19, DEDUCED). -/
def remoteFault (s : State) (sp : Split) : Option CauseRec :=
  if sp.handler then none
  else
    match faulted s sp with
    | [] => none
    | k :: t => match (s.slice k).rfault with
      | some r => some (cause 0x08 r.2 r.1.toNat (laneMask ((liveLanes s sp).filter fun le => (k :: t).contains le.sk)))
      | none => none

/-- Raises cause 0x08 and clears the records it reports (R302). -/
def raiseRemote (s : State) (sid : Nat) (sp : Split) (c : CauseRec) : State :=
  let t := raiseAt s sid c
  (faulted s sp).foldl (fun u k => u.modSlice k fun sl => { sl with rfault := none }) t

/-- Whether a wait is one at which cause 0x08 is raised (R302). -/
def takesRemote : Wait → Bool
  | .token .. | .drain | .restore .. | .rfence | .nwait .. => true
  | _ => false

/-- The cause at which a wait for exact results ends (R178). -/
def waitCause (sp : Split) : Option CauseRec :=
  match sp.wait with
  | .exact _ bad => if bad = 0 then none else some (cause 0x0D 1 0 bad)
  | _ => none

/-- Looks at the wait of one split: ends it when its condition holds, or raises its cause there (R178, R302). -/
def pollWait (s : State) (sid : Nat) : State :=
  match find sid s.splits with
  | none => s
  | some sp =>
    match find sp.team s.teams with
    | none => s
    | some t =>
      if !waitReady s sp t sp.wait then s
      else match waitCause sp with
      | some c => raiseAt s sid c
      | none =>
        match (if takesRemote sp.wait then remoteFault s sp else none) with
        | some c => raiseRemote s sid sp c
        | none =>
          match afterWait sp.wait with
          | some w => if waitReady s sp t w then finishWait s sid sp t w else s.modSplit sid fun p => { p with wait := w }
          | none => finishWait s sid sp t sp.wait

/-- The word of a wait: its condition holds at once and the split goes on, or the split waits (R66) (log entry 14, DEDUCED). -/
def waitWord (s : State) (cx : Iss) (w : Wait) : State :=
  if !waitReady s cx.sp cx.tm w then advanceWait s cx w
  else
    match afterWait w with
    | some v => if waitReady s cx.sp cx.tm v then waitEffect (advance s cx) cx.sp cx.tm v else advanceWait s cx v
    | none => waitEffect (advance s cx) cx.sp cx.tm w

/-- A wait at which cause 0x08 may be raised (R302). -/
def remoteWait (s : State) (i : Instr) (pre : Iss → Option CauseRec) (w : Iss → Wait) : Out :=
  match issuing s with
  | none => .fault .noIssuingSplit
  | some cx =>
    match remoteFault s cx.sp with
    | some c => .next (raiseRemote s cx.sid cx.sp c)
    | none => checked s i fun cx => match pre cx with
      | some c => .error c
      | none => .ok (waitWord s cx (w cx))

/-! ### Tokens (R114 to R117) -/

/-- WAIT (R114, R115). -/
def execWait (d n : BitVec 8) (s : State) : Out :=
  remoteWait s (.wait d n) (fun _ => none) fun _ => .token d.toNat n.toNat

/-- TKS.rd (R117): each slice reads its own counts. -/
def execTksRd (d : BitVec 8) (h : Bool) (s : State) : Out :=
  plain s (.tksRd d h) fun cx => advance (perSlice s cx fun _ sl =>
    sl.writeG cx.sp.handler 2 d.toNat
      (sumNat ((upFrom 0 8).map fun j => sl.count (8 * ofBool h + j) % 256 * 2 ^ (8 * j)))) cx

/-- TKS.drain (R117). -/
def execTksDrain (s : State) : Out := remoteWait s .tksDrain (fun _ => none) fun _ => .drain

/-- TKS.rs (R117): each slice takes its own g a, read at issue. -/
def execTksRs (a : BitVec 8) (h : Bool) (s : State) : Out :=
  remoteWait s (.tksRs a h) (fun _ => none) fun cx =>
    .restore (ofBool h) (cx.sp.keys.map fun k =>
      (k, BitVec.ofNat 64 (readG s.tick k (s.slice k) cx.sp.handler a.toNat)))

/-! ### Barriers (R207 to R212) -/

/-- Cause 0x13 of a barrier instruction: TVAL holds the barrier index (R201). -/
def barrierFault (s : State) (cx : Iss) (b : Nat) : CauseRec := cause 0x13 0 b (liveMask s cx.sp)

/-- Participating gangs of a BSYNC operand (Table 8.5). -/
def bsyncMask (t : Team) (v : Nat) : Nat := if bits v 16 16 = 0 then 2 ^ t.gangs.length - 1 else bits v 16 16
/-- Expected lanes of a BSYNC operand (Table 8.5). -/
def bsyncCount (t : Team) (v : Nat) : Nat :=
  if bits v 0 11 = 0 then sumNat ((setBits 16 (bsyncMask t v)).map fun g => (nth ⟨0, 0, 0, 0, false⟩ t.gangs g).width)
  else bits v 0 11
/-- Whether a BSYNC operand is rejected (R208). -/
def bsyncBad (t : Team) (v : Nat) : Bool :=
  bits v 32 32 != 0 || bits v 11 5 != 0 || decide (1024 < bits v 0 11) || bits v 16 16 / 2 ^ t.gangs.length != 0

/-- BSYNC (R208). -/
def execBsync (a : BitVec 8) (b : BitVec 6) (s : State) : Out :=
  checked s (.bsync a b) fun cx =>
    let v := cx.g s a.toNat
    if cx.tm.bars.length ≤ b.toNat ∨ bsyncBad cx.tm v then .error (barrierFault s cx b.toNat)
    else
      let live := (liveLanes s cx.sp).length
      let t := advanceWait s cx (.bsync b.toNat)
      let t := t.modTeam cx.sp.team fun x => { x with bars := modNth x.bars b.toNat fun y =>
        let y := if y.arr = 0 then { y with gm := BitVec.ofNat 16 (bsyncMask cx.tm v), nx := BitVec.ofNat 11 (bsyncCount cx.tm v) }
          else y
        { y with arr := y.arr + BitVec.ofNat 11 live } }
      .ok (checkBarrier t cx.sp.team b.toNat)

/-- completion_check of R211. -/
def ByteBar.settle (b : ByteBar) : ByteBar := if b.arm && b.rem == 0 then { b with ph := !b.ph, arm := false } else b

/-- Subtracts the bytes an engine operation wrote, modulo 2^32, and runs the check; the flag says that REM passed its
signed range (R211). -/
def credit (s : State) (tid b n : Nat) : State × Bool :=
  let past := match find tid s.teams with
    | some t => decide ((t.bb b).rem.toInt - n < -(2 ^ 31))
    | none => false
  (s.modTeam tid fun t => { t with bbs := modNth t.bbs b fun x => ({ x with rem := x.rem - w32 n }).settle }, past)

/-- A byte-barrier word with the operand checks of R211. -/
def byteBarrier (s : State) (i : Instr) (a : BitVec 8) (b : BitVec 5) (lim : Nat)
    (body : Iss → Nat → Except CauseRec State) : Out :=
  checked s i fun cx =>
    if cx.tm.bbs.length ≤ b.toNat ∨ lim ≤ cx.g s a.toNat then .error (barrierFault s cx b.toNat)
    else body cx (cx.g s a.toNat)

/-- Writes byte barrier `b` of the issuing team. -/
def setBb (s : State) (cx : Iss) (b : Nat) (f : ByteBar → ByteBar) : State :=
  s.modTeam cx.sp.team fun t => { t with bbs := modNth t.bbs b f }

/-- BARI (R211). -/
def execBari (a : BitVec 8) (b : BitVec 5) (s : State) : Out :=
  byteBarrier s (.bari a b) a b 2 fun cx v =>
    .ok (advance (setBb s cx b.toNat fun _ => ⟨false, v == 1, 0⟩) cx)

/-- BARA (R211). -/
def execBara (a : BitVec 8) (b : BitVec 5) (s : State) : Out :=
  byteBarrier s (.bara a b) a b (2 ^ 31) fun cx v =>
    if 2 ^ 31 ≤ (cx.tm.bb b.toNat).rem.toInt + v then .error (barrierFault s cx b.toNat)
    else .ok (advance (setBb s cx b.toNat fun x => ({ x with rem := x.rem + w32 v, arm := true }).settle) cx)

/-- BARW (R211, R212). -/
def execBarw (a : BitVec 8) (b : BitVec 5) (s : State) : Out :=
  byteBarrier s (.barw a b) a b 2 fun cx v => .ok (waitWord s cx (.barw b.toNat (v == 1)))

/-! ### MWAIT (R213) -/

/-- MWAIT (R213) (log entry 18, DEDUCED): the line leaves this core's L1 with no write-back, dirty bytes included, since R213 says
only that it is invalidated (log entry 18, DESIGN CHOICE). -/
def execMwait (d a : BitVec 8) (s : State) : Out :=
  checked s (.mwait d a) fun cx =>
    let va := cx.g s a.toNat
    let e := cx.g s d.toNat
    let live := liveMask s cx.sp
    if va % 4 ≠ 0 then .error (cause 0x04 0 va live)
    else
      withXlate s cx (.mwait d a) (chksOf 0 live va 4 .r 1) fun pas =>
        match pas with
        | [] => .ok s
        | (_, pa) :: _ =>
          let a := paKey pa
          if (poisonedAt s [a]).isSome then .error (cause 0x15 0 (pa / 128 * 128) live)
          else
            let s := pocTouch (l1DropLine s cx.ck (lineOf a)) (partOf s cx.tm.asid) cx.ret true (span a 4)
            let v := leNat (pocBytes s (span a 4))
            if v ≠ bits e 32 32 then .ok (advanceHeld s cx)
            else .ok (advanceWait s cx
              (.mwait (lineOf a) (bits e 0 32) (s.core cx.ck).cycles (BitVec.ofNat 64 va) false))

/-- MWAIT_WAKE (R213): a write to the monitored line has been performed. -/
def execMwaitWake (sid : Nat) (s : State) : Out :=
  match (find sid s.splits).map Split.wait with
  | some (.mwait _ _ _ _ true) => .next (endWait s sid)
  | _ => .fault (.notEnabled "MWAIT_WAKE")

/-- MONITOR_TIMEOUT (R213): TMO cycles have passed with no write (log entry 30, DEDUCED). -/
def execMonitorTimeout (sid : Nat) (s : State) : Out :=
  match find sid s.splits with
  | none => .fault (.notEnabled "MONITOR_TIMEOUT")
  | some sp =>
    match sp.wait, find sp.team s.teams with
    | .mwait _ tmo since ga false, some t =>
      if tmo ≠ 0 ∧ since + tmo ≤ s.cycleOf t.site t.core then
        .next (raiseAt s sid (cause 0x0E 0 ga.toNat (liveMask s sp)))
      else .fault (.notEnabled "MONITOR_TIMEOUT")
    | _, _ => .fault (.notEnabled "MONITOR_TIMEOUT")

/-! ### Fences (R229, R300, R314) -/

/-- FENCE (R313, R314). -/
def execFence (sc o : BitVec 3) (e : Bool) (s : State) : Out :=
  plain s (.fence sc o e) fun cx => waitWord s cx (.fence sc.toNat o.toNat e)

/-- LRFENCE (R229). -/
def execLrfence (s : State) : Out := plain s .lrfence fun cx => waitWord s cx .lrfence

/-- RFENCE (R300). -/
def execRfence (s : State) : Out := remoteWait s .rfence (fun _ => none) fun _ => .rfence

/-! ### Notify counters (R292, R299) -/

/-- A counter designator (Table 13.4). -/
def desReserved (v : Nat) : Bool := bits v 25 39 != 0 || (bitAt v 24 && bits v 12 12 != 0)
/-- Notify window of the issuing context. -/
def windowOfCtx (s : State) (asid : Nat) : DWord := match find asid s.ctxs with | some c => c.window | none => 0

/-- Whether a designator names the issuing island. -/
def desOwn (s : State) (site v : Nat) : Bool :=
  bitAt v 24 || (bits v 16 8 == s.fe.panel.toNat && bits v 12 4 == site)

/-- NWAIT (R299, Table 13.6). -/
def execNwait (d a : BitVec 8) (s : State) : Out :=
  remoteWait s (.nwait d a)
    (fun cx =>
      let des := cx.g s a.toNat
      let t := cx.g s d.toNat
      let live := liveMask s cx.sp
      if desReserved des then some (cause 0x12 24 des live)
      else if bits t 32 32 ≠ 0 then some (cause 0x12 24 t live)
      else if ncount (windowOfCtx s cx.asid) ≤ bits des 0 12 then some (cause 0x12 25 des live)
      else if !desOwn s cx.tm.site des then some (cause 0x12 26 des live)
      else none)
    fun cx => .nwait (4096 * cx.tm.site + nbase (windowOfCtx s cx.asid) + bits (cx.g s a.toNat) 0 12)
      (bits (cx.g s d.toNat) 0 32)

/-! ### LAUNCH and LWAIT (R368 to R370) -/

/-- LAUNCH (R328, R368, R369): the checks, the token and the child count at issue, then the wait for its release. A header in the state
page or in a notify counter raises no cause (log entry 81, DESIGN CHOICE). -/
def execLaunch (a : BitVec 8) (t : BitVec 4) (s : State) : Out :=
  checked s (.launch a t) fun cx =>
    let va := cx.g s a.toNat
    let live := liveMask s cx.sp
    if va % 128 ≠ 0 then .error (cause 0x04 0 va live)
    else
      withXlate s cx (.launch a t) (chksOf 0 live va 128 .r) fun pas =>
        let lid := s.fe.nextId
        let g := find cx.tm.grid s.fe.grids
        let l : Launch :=
          { asid := cx.tm.asid, pkt := none, parent := some (cx.sp.team, cx.low)
            src := some ⟨cx.tm.site, cx.tm.core, gangId cx.tm cx.sp.gang, cx.tm.idx.toNat, cx.sp.pc.toNat⟩
            op := some s.nextOp, ready := false, hdrPa := pas.head?.map fun p => p.2
            header := va, depth := (match g with | some g => g.depth | none => 0) + 1
            root := match g with | some g => g.root | none => 0 }
        let s := postSplit s cx (some t.toNat) [] (.launch lid)
        let s := s.modSlice cx.low fun sl => { sl with children := sl.children + 1 }
        let s := s.modFe fun f => { f with launches := put lid l f.launches, nextId := lid + 1 }
        .ok (settleSplit (waitWord s cx (.launch lid)) cx)

/-- LWAIT (R370). -/
def execLwait (s : State) : Out := plain s .lwait fun cx => waitWord s cx .lwait

end Sys2Proof.Machine
end

