-- ==== Sys2Proof/Machine/Access.lean ====
section
/-! DEFINITION. Loads, stores and atomics: from the checked units of an instruction to outstanding operations, and what
each performs (R110, R111, R206, R253, R261 to R263, R307, R314, R316). -/
namespace Sys2Proof.Machine

/-! ### Units of an instruction -/

/-- One access of an instruction: a lane, or a slice in the g forms. `n` ranks the units, `mask` names the lanes a
cause reports, `data` are the bytes of a store, `dst` the register units a load writes. -/
structure MUnit where
  n : Nat
  mask : Nat
  sk : Nat
  lane : Nat
  va : Nat
  bytes : Nat
  data : List Byte := []
  dst : List Nat := []
  conv : Conv := .extend false 4
  opV : Nat := 0
  opE : Nat := 0
  fl : Nat := 0
  whole : Bool := true

/-- Bytes of a size code (Table 2.10). -/
def sizeBytes (z : BitVec 3) : Nat := match z.toNat with | 0 | 1 => 1 | 2 | 3 => 2 | 4 => 4 | 5 => 8 | _ => 16
/-- Whether a size code sign-extends. -/
def sizeSigned (z : BitVec 3) : Bool := z.toNat == 1 || z.toNat == 3

/-- Cause `code` of units, with the address of the lowest (Table 15.1). -/
def unitCause (code : Nat) (us : List MUnit) : CauseRec :=
  cause code 0 ((us.head?.map MUnit.va).getD 0) (maskOf ((us.map fun u => setBits 64 u.mask).flatten))

/-- The physical addresses of the bytes of a unit. -/
def unitAddrs (pas : List (Chk × Nat)) (u : MUnit) : List Nat :=
  ((pas.filter fun p => p.1.unit == u.n).map fun p => span (paKey p.2) p.1.n).flatten

/-- Whether a unit may access a region: `ctr` and `blk` say whether the instruction's form may reach a counter and the
state block (R23, R253). -/
def regionOk (s : State) (ctr blk : Bool) (as : List Nat) : Bool :=
  as.all fun a => match s.region (siteOf a) (offOf a) with
    | .counter => ctr
    | .stateBlock => blk
    | _ => true

/-- The access of a unit at its addresses. -/
def MUnit.acc (u : MUnit) (as : List Nat) : Acc :=
  { sk := u.sk, lane := u.lane, addrs := as, data := u.data, dst := u.dst, conv := u.conv, opV := u.opV, opE := u.opE
    fl := u.fl, whole := u.whole }

/-! ### What comes before an operation (R307, R314, R316) -/

/-- Whether an operation touches addresses, in memory or in scratchpad; a CMO touches its lines, a remote atomic toward an
island of this panel its locations there. -/
def OpBody.touches (panel : Nat) (scr : Bool) (as : List Nat) : OpBody → Bool
  | .access _ sc accs .. => sc == scr && accs.any fun x => x.addrs.any fun a => as.contains a
  | .cmo _ _ lines _ => !scr && as.any fun a => lines.contains (lineOf a)
  | .remote r => !scr && r.kind == .atom && r.dstPanel == panel && r.accs.any fun x =>
      (span (2 ^ 44 * r.dst + x.addrs.headD 0) (if r.wide then 8 else 4)).any as.contains
  | .vpah _ reads _ => !scr && reads.any fun r => as.any fun a => decide (r.2.2 ≤ a) && decide (a < r.2.2 + 16)
  | _ => false

/-- Whether an access of a slice comes after an earlier operation of it that it touches: after every access, but not after a CMO
(R264, R307). -/
def OpBody.keepsOrder : OpBody → Bool
  | .access .. | .vpah .. | .remote _ => true
  | _ => false

/-- The earlier operations of slice `k` that an access at `as` comes after; `rel` gives the scope of its release part, before
which the slice's reads have their values too, since they happen before it (R311, R314, R316; log entry 61, DEDUCED). -/
def depsOf (s : State) (k : Nat) (scr : Bool) (as : List Nat) (rel : Option Nat) : List Nat :=
  opsOf s [k] fun b =>
    (b.keepsOrder && b.touches s.fe.panel.toNat scr as) || b.isAcquire
      || (match rel with
          | some sc => b.isWrite || b.isRead || (decide (3 ≤ sc) && b.isRemoteWrite)
          | none => false)

/-- Whether an operation no longer holds back those after it. -/
def depDone (s : State) (o : Nat) : Bool := (find o s.ops).isNone

/-! ### Posting (R110, R262) -/

/-- Posts the accesses of an instruction, one operation per slice. -/
def postAccess (s : State) (cx : Iss) (tok : Nat) (scr : Bool) (kind : AccKind) (accs : List Acc) (lu : Bool)
    (aop : BitVec 3) (sgn wide rel acq : Bool) (scope : Nat) : State :=
  postSlices s cx tok
    (fun k => depsOf s k scr (((accs.filter fun x => x.sk == k).map (·.addrs)).flatten)
      (if rel then some scope else none))
    fun k => .access kind scr (accs.filter fun x => x.sk == k) (modeEP cx.sp.mode) lu aop sgn wide rel acq scope

/-- The misaligned units of an instruction. -/
def misaligned (us : List MUnit) : List MUnit := us.filter fun u => decide (u.va % u.bytes ≠ 0)

/-- Checks the units of a memory instruction in the order of R48 and hands their accesses on. -/
def accessUnits (s : State) (cx : Iss) (i : Instr) (need : Need) (us : List MUnit) (ctr blk : Bool)
    (k : List Acc → Except CauseRec State) : Except CauseRec State :=
  withXlate s cx i ((us.map fun u => chksOf u.n u.mask u.va u.bytes need).flatten) fun pas =>
    match us.filter fun u => !regionOk s ctr blk (unitAddrs pas u) with
    | u :: t => .error (unitCause 0x04 (u :: t))
    | [] => k (us.map fun u => u.acc (unitAddrs pas u))

/-- A plain load or store of units aligned to their size (R262). -/
def plainAccess (s : State) (cx : Iss) (i : Instr) (tok : Nat) (kind : AccKind) (us : List MUnit) (lu ctr blk : Bool) :
    Except CauseRec State :=
  match misaligned us with
  | u :: t => .error (unitCause 0x04 (u :: t))
  | [] => accessUnits s cx i (if kind = .load then .r else .w) us ctr blk fun accs =>
      .ok (advanceHeld (postAccess s cx tok false kind accs lu 0 false false false false 0) cx)

/-! ### Performing an access -/

/-- A byte of a core's L1, if valid, with its dirty bit. -/
def l1Byte (s : State) (ck a : Nat) : Option (Byte × Bool) := (find (lineOf a) (s.core ck).l1).bind (find (a % 128))

/-- Removes the bytes of a location from a core's L1, the dirty ones first written back, all at once (R263). -/
def l1Purge (s : State) (ck part ret : Nat) (as : List Nat) : State :=
  let dirty := as.filterMap fun a => match l1Byte s ck a with | some (b, true) => some (a, b) | _ => none
  let s := if dirty.isEmpty then s else pocWrite s part ret dirty
  s.setCore ck { s.core ck with
    l1 := as.foldl (fun m a => match find (lineOf a) m with | some l => put (lineOf a) (del (a % 128) l) m | none => m) (s.core ck).l1 }

/-- The result of an atomic on `w` bits (R206, R263). -/
def atomNew (op : BitVec 3) (sgn : Bool) (w old v e : Nat) : Nat :=
  match op.toNat with
  | 0 => (old + v) % 2 ^ w
  | 1 => if elemVal sgn w old ≤ elemVal sgn w v then old else v
  | 2 => if elemVal sgn w v ≤ elemVal sgn w old then old else v
  | 3 => old &&& v
  | 4 => old ||| v
  | 5 => old ^^^ v
  | 6 => v
  | _ => if old = e then v else old

/-- The region all bytes of an access lie in, by its first byte. -/
def accRegion (s : State) (a : Acc) : Region :=
  match a.addrs with | x :: _ => s.region (siteOf x) (offOf x) | [] => .hbm

/-- What one access reads and writes: the bytes it returns, and the state. -/
def performAcc (s : State) (o : Op) (kind : AccKind) (scr : Bool) (ep : Nat) (lu : Bool) (aop : BitVec 3) (sgn wide : Bool)
    (a : Acc) : List Byte × State :=
  let ck := coreKey o.site o.core
  let w := if wide then 64 else 32
  if scr then
    let old := a.addrs.map fun x => getD 0 x (s.core ck).scratch
    let store := fun (bs : List Byte) => sramWrite s ck (.slice a.sk) (a.addrs.zip bs)
    match kind with
    | .load => (old, s)
    | .store => ([], store a.data)
    | .atom => (old, store (leBytes a.addrs.length (atomNew aop sgn w (leNat old) a.opV a.opE)))
  else
    match accRegion s a with
    | .counter =>
      let k := ctrKey (a.addrs.headD 0)
      let old := leBytes 4 (s.ctr k).toNat
      match kind with
      | .load => (old, s)
      | .store => ([], s.setCtr k (w32 (leNat a.data)))
      | .atom => (old, s.setCtr k (w32 (atomNew aop sgn 32 (leNat old) a.opV a.opE)))
    | .stateBlock =>
      let x := a.addrs.headD 0
      (if kind = .load then leBytes 8 (stateReg s (siteOf x) (offOf x % 4096)) else [], s)
    | r =>
      match kind with
      | .load => if lu && decide (r = .hbm) then lastUse s ck o.part ep a.addrs else loadBytes s ck o.part ep a.addrs
      | .store =>
        let s := s.modSlice a.sk fun sl => { sl with unseen := a.addrs.foldl (fun m x =>
          if (find x m).isSome then m else put x s.tick m) sl.unseen }
        ([], storeBytes s ck o.part ep (a.addrs.zip a.data))
      | .atom =>
        let s := l1Purge s ck o.part (retOf ep) a.addrs
        let old := pocBytes s a.addrs
        (old, pocWrite s o.part (retOf ep)
          (a.addrs.zip (leBytes a.addrs.length (atomNew aop sgn w (leNat old) a.opV a.opE))))

/-- The poisoned line an access would consume: bytes the core's L1 holds valid are not fetched (R266). -/
def accPoison (s : State) (o : Op) (kind : AccKind) (scr : Bool) (a : Acc) : Option Nat :=
  if scr || kind == .store then none
  else
    let l1 := (s.core (coreKey o.site o.core)).l1
    poisonedAt s (a.addrs.filter fun x => kind == .atom
      || (match find (lineOf x) l1 with | some l => (find (x % 128) l).isNone | none => true))

/-! ### Landing results (R110, R115, R116, R177) -/

/-- Ordinal and issue slot of an operation in a slice. -/
def Op.seq (o : Op) (sk : Nat) : Nat := getD 0 sk o.seqs
def Op.slot (o : Op) (sk : Nat) : Nat := getD 0 sk o.slots
/-- When the registers an operation writes are sure to be seen (R115). -/
def Op.ripe (o : Op) (sk : Nat) : Ripe := match o.tok with | some t => .cov t (o.seq sk) | none => .slot 0

/-- Lands register units of an operation. -/
def landAll (s : State) (o : Op) (ls : List Land) : State :=
  ls.foldl (fun t l => t.modSlice l.sk fun sl => sl.land t.tick l.sk (o.ripe l.sk) (o.slot l.sk) l.key l.val) s

/-- Whether the split that now holds a slice is in handler mode. -/
def inHandler (s : State) (sk : Nat) : Bool :=
  s.splits.any fun e => e.2.handler && e.2.keys.contains sk

/-- Lands the flags of an operation in a lane: outstanding until covered, thinned by a later PRSET, and ORed into TPREC
when a program-mode operation completes under a handler, where no PRSET of the handler thins them (R177). -/
def landFlags (s : State) (o : Op) (sk lane : Nat) (f : Word) : State :=
  if f = 0 then s
  else
    let h := !o.handler && inHandler s sk
    s.modSlice sk fun sl =>
      let late := fun (key : Nat) => decide (o.slot sk < getD 0 key sl.lastW)
      let thin := f &&& freeBits s.tick sk lane 64
      let prog := if late (keyPrset lane) then thin else f
      let now := if late (keyPrset lane) || late (keyPrsetH lane) then thin else f
      ({ sl with pendF := sl.pendF ++ [(⟨lane, now, o.ripe sk⟩ : PendF)]
                 lanes := if h then modNth sl.lanes lane fun l => { l with tprec := l.tprec ||| prog } else sl.lanes }).foldTo sl.slot

/-- The value of a packed element of P bits and E exponent bits in B bytes (R170). -/
def elemValue (p e v : Nat) : FVal :=
  let b := (e + p + 7) / 8
  decodeF e (p - 1) (v / 2 ^ (8 * b - e - p))

/-- The exact value of an element as LDP takes it: a NaN is quiet (R173). -/
def elemExact (p e v : Nat) : XVal :=
  match elemValue p e v with | .nan _ => .nan false | x => x.exact

/-- The register value and flags that loaded bytes give (R168, R173, R262). -/
def Conv.apply (c : Conv) (bs : List Byte) : FRes :=
  match c with
  | .extend sgn n => ⟨if sgn then wrap (8 * n) (signed (8 * bs.length) (leNat bs)) else leNat bs, 0⟩
  | .packed p e prec =>
    let cl := effClass prec
    roundX ⟨precP prec, classEb cl, classT cl, precRM prec, precSUB prec⟩ (elemExact p e (leNat bs))

/-- Lands what an access returned. -/
def landAcc (s : State) (o : Op) (a : Acc) (r : FRes) : State :=
  landFlags (landAll s o ((upFrom 0 a.dst.length).zip a.dst |>.map fun e => ⟨a.sk, e.2, half r.v e.1⟩)) o a.sk a.lane r.word

/-! ### Completion (R110, R111) -/

/-- An operation has completed in all its slices: it leaves the outstanding ones, its tokens retire in order, and a
slice or a team that waited only for it retires. -/
def finishOp (s : State) (id : Nat) (o : Op) : State :=
  let s := { s with ops := (del id s.ops).map fun e =>
    if e.2.after.contains id then (e.1, { e.2 with since := s.tick + 1 }) else e }
  let s := o.slices.foldl (fun t k => if o.tok.isSome then t.modSlice k fun sl => sl.complete id else t) s
  settleGrids (o.slices.foldl retireSlice s)

/-- Keeps of an operation that ends what tells who has observed its writes (R115, R212, R319). -/
def noteDone (s : State) (id : Nat) (o : Op) (bar : Option Nat) : State :=
  let ck := coreKey o.site o.core
  let c := s.core ck
  s.setCore ck { c with engDone := put id ⟨o.team, o.tok, o.seqs, bar, s.tick⟩ (c.engDone.filter fun e => (find e.2.team s.teams).isSome) }

/-- Notes that an operation writes past the L1 bytes which a slice of its split has stored unseen (R311). -/
def noteEngine (s : State) (id : Nat) (o : Op) (as : List Nat) : State :=
  o.slices.foldl (fun t k =>
    match as.filter fun a => (find a (s.slice k).unseen).isSome with
    | [] => t
    | mine => t.modSlice k fun sl => { sl with engW := sl.engW ++ mine.map fun a => ⟨a, s.tick, id⟩ }) s

/-- A cause that comes out of an operation after issue (R327): fatal, with the record of its issue, whether or not its team has
retired (R113). -/
def raiseOp (s : State) (o : Op) (c : CauseRec) : State :=
  let pid := match find o.asid s.ctxs with | some x => x.pid.toNat | none => 0
  endContext s o.asid (o.queue.map fun q =>
    (q, errRecord c.code.toNat c.sub 0 (ofBool o.handler) o.site o.core o.gid o.tidx 0 o.pc.toNat c.tval c.tlanes pid))

/-- Physical address of a line of this panel. -/
def linePa (s : State) (line : Nat) : Nat := s.fe.panel.toNat * 2 ^ 48 + line * 128

/-- Cause 0x15 of an operation that consumes a poisoned line (R266). -/
def poisonOp (s : State) (o : Op) (line lanes : Nat) : State := raiseOp s o (cause 0x15 0 (linePa s line) lanes)

/-- The lane of an access as a mask of lane numbers. -/
def accMask (a : Acc) : Nat := if a.lane < 4 then 2 ^ (4 * (a.sk % 16) + a.lane) else 15 * 2 ^ (4 * (a.sk % 16))

/-- Places of an access's bytes still to be performed. -/
def Acc.missing (a : Acc) : List Nat := (upFrom 0 a.addrs.length).filter fun i => (find i a.got).isNone
/-- The bytes an access has read, in order. -/
def Acc.bytes (a : Acc) : List Byte := (upFrom 0 a.addrs.length).map fun i => getD 0 i a.got
/-- One byte of an access. -/
def Acc.part (a : Acc) (i : Nat) : Acc := { a with addrs := (a.addrs.drop i).take 1, data := (a.data.drop i).take 1 }
/-- An access with the bytes `bs` performed at the places `is`. -/
def Acc.note (a : Acc) (is : List Nat) (bs : List Byte) : Acc :=
  { a with got := (is.zip (bs ++ List.replicate (is.length - bs.length) 0)).foldl (fun m e => put e.1 e.2 m) a.got }

/-- Performs an access whole, or of one that is not single-copy atomic a byte that the free choice picks (R174). -/
def performPart (s : State) (o : Op) (kind : AccKind) (scr : Bool) (ep : Nat) (lu : Bool) (aop : BitVec 3) (sgn wide : Bool)
    (key : Nat) (a : Acc) : Acc × State :=
  if a.whole then
    let p := performAcc s o kind scr ep lu aop sgn wide a
    (a.note (upFrom 0 a.addrs.length) p.1, p.2)
  else
    match nth none (a.missing.map some) (pick s key a.missing.length) with
    | none => (a, s)
    | some i =>
      let p := performAcc s o kind scr ep lu aop sgn wide (a.part i)
      (a.note [i] p.1, p.2)

/-- What follows an access whose bytes have all been performed: its registers and flags land, unless `hold` keeps them for a check
(R173). -/
def landDone (s : State) (o : Op) (kind : AccKind) (hold : Bool) (a : Acc) : State :=
  if hold then s
  else if kind = .store then landFlags s o a.sk a.lane (w32 (a.fl * 2 ^ 24))
  else landAcc s o a (a.conv.apply a.bytes)

/-- Performs some of the accesses of an operation in a free order, at least one byte, and answers the accesses left and, when
held, those done (R174, R206, R262, R263). -/
def performSome (id : Nat) (o : Op) (kind : AccKind) (scr : Bool) (ep : Nat) (lu : Bool) (aop : BitVec 3) (sgn wide hold : Bool) :
    (fuel : Nat) → State → List Acc → List Acc → State × List Acc × List Acc
  | 0, s, as, ds => (s, as, ds)
  | fuel + 1, s, as, ds =>
    let n := pick s (10 * 2 ^ 64 + 65536 * id + fuel) as.length
    match nth none (as.map some) n with
    | none => (s, as, ds)
    | some a =>
      let r := performPart s o kind scr ep lu aop sgn wide (21 * 2 ^ 64 + 65536 * id + fuel) a
      let done := r.1.missing.isEmpty
      let s := if done then landDone r.2 o kind hold r.1 else r.2
      let rest := if done then dropNth as n else as.set n r.1
      let ds := if done then ds ++ [r.1] else ds
      if rest.isEmpty || pick s (11 * 2 ^ 64 + 65536 * id + fuel) 2 == 1 then (s, rest, ds)
      else performSome id o kind scr ep lu aop sgn wide hold fuel s rest ds

/-- Bytes an operation has still to perform. -/
def bytesLeft (accs : List Acc) : Nat := sumNat (accs.map fun a => a.addrs.length + 1)

/-- The accesses of an operation that consume a poisoned line, with the line (R266). -/
def poisonedAccs (s : State) (o : Op) (kind : AccKind) (scr : Bool) (accs : List Acc) : List (Acc × Nat) :=
  accs.filterMap fun a => (accPoison s o kind scr a).map fun l => (a, l)

/-- Cause 0x15 of accesses that consume poisoned lines. -/
def poisonAccs (s : State) (o : Op) (a : Acc × Nat) (t : List (Acc × Nat)) : State :=
  poisonOp s o a.2 (maskOf (((a :: t).map fun e => setBits 64 (accMask e.1)).flatten))

/-- OPERATION_COMPLETE of an access: its release part, its accesses, and once all are performed and the reads before it have
their values its acquire part, after which it may stay outstanding for a while (R314, R316; log entry 13, DESIGN CHOICE). -/
def completeAccess (s : State) (id : Nat) (o : Op) (kind : AccKind) (scr : Bool) (accs : List Acc) (ep : Nat) (lu : Bool)
    (aop : BitVec 3) (sgn wide rel acq : Bool) (scope : Nat) : State :=
  match poisonedAccs s o kind scr accs with
  | a :: t => finishOp (poisonAccs s o a t) id o
  | [] =>
    let ck := coreKey o.site o.core
    let s := if rel && !scr then noteRelease (releaseEffect s ck o.part (retOf ep) scope) o.slices false else s
    let r := performSome id o kind scr ep lu aop sgn wide false (bytesLeft accs) s accs []
    let ended := r.2.1.isEmpty && o.reads.all (depDone s)
    if ended && acq then
      let s := noteAcquire (acquireEffect r.1 ck o.part (retOf ep) scope) o.slices scope false
      if pick s (30 * 2 ^ 64 + id) 2 = 0 then finishOp s id o
      else s.modOp id fun x => { x with body := .access kind scr [] ep lu aop sgn wide false false scope }
    else if ended then finishOp r.1 id o
    else r.1.modOp id fun x => { x with body := .access kind scr r.2.1 ep lu aop sgn wide rel acq scope }

end Sys2Proof.Machine
end

