-- ==== Sys2Proof/Machine/Loads.lean ====
section
/-! DEFINITION. Meanings of LDG, STG, LDF, STF, LDGG, STGG, ATOM, CMO and PREF (spec/11 sections 11.5 to 11.7, spec/06
section 6.6). -/
namespace Sys2Proof.Machine

/-- The `k` x slots of a lane from `n` as the little-endian bytes of a store. -/
def LaneEnv.storeData (le : LaneEnv) (n k bytes : Nat) : List Byte := leBytes bytes (le.xs n k)
/-- Register units of `k` x slots of a lane from `n`. -/
def LaneEnv.units (le : LaneEnv) (n k : Nat) : List Nat := (upFrom 0 k).map fun j => le.key (n + j)

/-- The unit of a lane at address `va`. -/
def LaneEnv.unit (le : LaneEnv) (va bytes : Nat) : MUnit :=
  { n := le.n, mask := 2 ^ le.n, sk := le.sk, lane := le.i, va := va, bytes := bytes }

/-- LDG (R262). -/
def execLdg (d a : BitVec 8) (t : BitVec 4) (z : BitVec 3) (l : Bool) (s : State) : Out :=
  checked s (.ldg d a t z l) fun cx =>
    let us := (guardedLanes s cx.sp).map fun le =>
      { le.unit (le.xs a.toNat 2) (sizeBytes z) with
        dst := le.units d.toNat (sizeSlots z), conv := .extend (sizeSigned z) (4 * sizeSlots z) }
    plainAccess s cx (.ldg d a t z l) t.toNat .load us l (z.toNat == 4) (z.toNat == 5)

/-- STG (R262). -/
def execStg (d a : BitVec 8) (t : BitVec 4) (z : BitVec 3) (s : State) : Out :=
  checked s (.stg d a t z) fun cx =>
    let us := (guardedLanes s cx.sp).map fun le =>
      { le.unit (le.xs a.toNat 2) (sizeBytes z) with data := le.storeData d.toNat (sizeSlots z) (sizeBytes z) }
    plainAccess s cx (.stg d a t z) t.toNat .store us false (z.toNat == 4) (z.toNat == 5)

/-- LDF (R168): one container of the lane's class. -/
def execLdf (d a : BitVec 8) (t : BitVec 4) (l : Bool) (s : State) : Out :=
  checked s (.ldf d a t l) fun cx =>
    let us := (guardedLanes s cx.sp).map fun le =>
      let k := classSlots le.cls
      { le.unit (le.xs a.toNat 2) (4 * k) with dst := le.units (k * d.toNat) k, conv := .extend false (4 * k) }
    plainAccess s cx (.ldf d a t l) t.toNat .load us l false false

/-- STF (R168). -/
def execStf (d a : BitVec 8) (t : BitVec 4) (s : State) : Out :=
  checked s (.stf d a t) fun cx =>
    let us := (guardedLanes s cx.sp).map fun le =>
      let k := classSlots le.cls
      { le.unit (le.xs a.toNat 2) (4 * k) with data := le.storeData (k * d.toNat) k (4 * k) }
    plainAccess s cx (.stf d a t) t.toNat .store us false false false

/-- The unit of a slice in a once-per-slice access at address `va`. -/
def sliceUnit (s : State) (cx : Iss) (j va bytes : Nat) : MUnit :=
  let les := laneEnvs s cx.sp j
  { n := j, mask := laneMask (les.filter fun le => le.lane.live), sk := sliceKey cx.sp.team cx.sp.gang j, lane := 4
    va := va, bytes := bytes }

/-- A g register of slice `j` of the split. -/
def sliceG (s : State) (cx : Iss) (j r : Nat) : Nat :=
  let sk := sliceKey cx.sp.team cx.sp.gang j
  readG s.tick sk (s.slice sk) cx.sp.handler r

/-- Register units of a g register as a destination; g0 has none. -/
def gUnits (handler : Bool) (r : Nat) : List Nat :=
  if r = 0 then [] else [keyG (gIndex handler r) 0, keyG (gIndex handler r) 1]

/-- LDGG (R262). -/
def execLdgg (d a : BitVec 8) (t : BitVec 4) (z : BitVec 3) (l : Bool) (s : State) : Out :=
  checked s (.ldgg d a t z l) fun cx =>
    let us := cx.sp.slices.map fun j =>
      { sliceUnit s cx j (sliceG s cx j a.toNat) (sizeBytes z) with
        dst := gUnits cx.sp.handler d.toNat, conv := .extend (sizeSigned z) 8 }
    plainAccess s cx (.ldgg d a t z l) t.toNat .load us l (z.toNat == 4) (z.toNat == 5)

/-- STGG (R262). -/
def execStgg (d a : BitVec 8) (t : BitVec 4) (z : BitVec 3) (s : State) : Out :=
  checked s (.stgg d a t z) fun cx =>
    let us := cx.sp.slices.map fun j =>
      { sliceUnit s cx j (sliceG s cx j a.toNat) (sizeBytes z) with data := leBytes (sizeBytes z) (sliceG s cx j d.toNat) }
    plainAccess s cx (.stgg d a t z) t.toNat .store us false (z.toNat == 4) (z.toNat == 5)

/-! ### Atomics (R206, R263, R316) -/

/-- A lane's atomic unit at address `va`: operands v and e and the destination (R206, R263). -/
def LaneEnv.atomUnit (le : LaneEnv) (d : BitVec 8) (o : BitVec 3) (w : Bool) (va : Nat) : MUnit :=
  let k := if w then 2 else 1
  let cas := o.toNat == 7
  { le.unit va (4 * k) with
    dst := le.units d.toNat k, conv := .extend false (4 * k)
    opV := le.xs (if cas then d.toNat + k else d.toNat) k
    opE := if cas then le.xs d.toNat k else 0 }

/-- ATOM (R263). -/
def execAtom (d a : BitVec 8) (t : BitVec 4) (o : BitVec 3) (sg w : Bool) (s : State) : Out :=
  checked s (.atom d a t o sg w) fun cx =>
    let us := (guardedLanes s cx.sp).map fun le => le.atomUnit d o w (le.xs a.toNat 2)
    let ord := modeORD cx.sp.mode
    match misaligned us with
    | u :: r => .error (unitCause 0x04 (u :: r))
    | [] => accessUnits s cx (.atom d a t o sg w) .rw us (!w) false fun accs =>
        .ok (advanceHeld (postAccess s cx t.toNat false .atom accs false o sg w (orderRel ord) (orderAcq ord)
          (modeSCP cx.sp.mode)) cx)

/-! ### CMO and PREF (R264, R265) -/

/-- Permission a CMO needs (R264, Table 12.5). -/
def cmoNeed (o : BitVec 3) : Need := match o.toNat with | 0 => .r | 1 => .w | _ => .rw

/-- The lines a CMO of one lane names: start and length widened to whole lines. -/
def cmoRange (va n : Nat) : Nat × Nat :=
  if n = 0 then (va, 0) else (va / 128 * 128, (va + n - 1) / 128 * 128 + 128 - va / 128 * 128)

/-- Lines of a translated piece that hold memory (R264). -/
def pieceLines (s : State) (p : Chk × Nat) : List Nat :=
  ((upFrom 0 ((p.1.n + 127) / 128)).map fun j => paKey p.2 + 128 * j).filterMap fun a =>
    match s.region (siteOf a) (offOf a) with
    | .hbm | .vault => some (lineOf a)
    | _ => none

/-- CMO (R264). -/
def execCmo (d a : BitVec 8) (t : BitVec 4) (l : Bool) (o : BitVec 3) (s : State) : Out :=
  checked s (.cmo d a t l o) fun cx =>
    let us := (guardedLanes s cx.sp).map fun le =>
      (le, cmoRange (le.xs a.toNat 2) (readG s.tick le.sk le.sl cx.sp.handler d.toNat % 2 ^ 32))
    withXlate s cx (.cmo d a t l o)
      ((us.filter fun u => u.2.2 ≠ 0).map fun u => chksOf u.1.n (2 ^ u.1.n) u.2.1 u.2.2 (cmoNeed o)).flatten fun pas =>
        let lines := fun (k : Nat) => asSet (((pas.filter fun p => sliceKey cx.sp.team cx.sp.gang (p.1.unit / 4) == k).map
          (pieceLines s)).flatten)
        .ok (advanceHeld (postSlices s cx t.toNat
          (fun k => opsOf s [k] fun b => b.isAcquire || (match b with
            | .access _ false accs .. => accs.any fun x => x.addrs.any fun y => (lines k).contains (lineOf y)
            | .vpah _ rs _ => rs.any fun r => (lines k).contains (lineOf r.2.2)
            | _ => false))
          fun k => .cmo o.toNat l (lines k) (modeEP cx.sp.mode)) cx)

/-- A CMO on one line (Table 11.9). -/
def cmoLine (s : State) (ck part ret op : Nat) (l2 : Bool) (line : Nat) : State :=
  let a := line * 128
  let hbm := decide (s.region (siteOf a) (offOf a) = .hbm)
  let s := if op = 1 then s else l1CleanLine s ck part ret line
  let s := if op = 0 then s else l1DropLine s ck line
  if l2 && hbm then
    match op with
    | 0 => l2Clean s a
    | 1 => if l2Holds s a then l2Discard s a else s
    | _ => l2Drop (l2Clean s a) a
  else s

/-- A CMO of a slice: every line, then its token (R264). -/
def completeCmo (s : State) (id : Nat) (o : Op) (op : Nat) (l2 : Bool) (lines : List Nat) (ep : Nat) : State :=
  finishOp (lines.foldl (fun t l => cmoLine t (coreKey o.site o.core) o.part (retOf ep) op l2 l) s) id o

/-- Where a PREF finds its line, or none when the hint is dropped (R265). -/
def prefAddr (s : State) (cx : Iss) (va : Nat) : Option Nat :=
  if 2 ^ 48 ≤ va then none
  else
    match walk s cx.tm.asid cx.tm.site va with
    | .leaf l e =>
      match judge s cx.tm.site 0 .r va l e with
      | .ok pa => some (paKey pa)
      | _ => none
    | _ => none

/-- One lane's PREF (R265). A poisoned line goes no further than the L2, where its mark stays with it (R266). -/
def prefLane (cx : Iss) (l : Bool) (s : State) (va : Nat) : State :=
  match prefAddr s cx va with
  | none => s
  | some a =>
    let ep := modeEP cx.sp.mode
    let part := partOf s cx.tm.asid
    match s.region (siteOf a) (offOf a) with
    | .hbm =>
      if l || ep == 3 || (find (lineOf a) s.poison).isSome then l2Touch s (lineOf a * 128) part (retOf ep) false true
      else (l1LoadLine s cx.ck part ep (lineOf a) (upFrom 0 128)).2
    | .vault => if l || ep == 3 || (find (lineOf a) s.poison).isSome then s else (l1LoadLine s cx.ck part ep (lineOf a) (upFrom 0 128)).2
    | _ => s

/-- PREF (R265): a hint that fetches the line of each active guarded lane, in rising lane order (log entry 7, DESIGN CHOICE). -/
def execPref (a : BitVec 8) (l : Bool) (s : State) : Out :=
  plain s (.pref a l) fun cx =>
    advance ((guardedLanes s cx.sp).foldl (fun t le => prefLane cx l t (le.xs a.toNat 2)) s) cx

end Sys2Proof.Machine
end

