-- ==== Sys2Proof/Machine/Packed.lean ====
section
/-! DEFINITION. Packed arrays: VPAH, LDP and STP (spec/06 section 6.7). -/
namespace Sys2Proof.Machine

/-! ### Descriptors (Table 6.9) -/

def hValid (h : BitVec 128) : Bool := h.getLsbD 63
def hBase (h : BitVec 128) : Nat := bits h.toNat 0 48
def hP (h : BitVec 128) : Nat := bits h.toNat 64 8
def hE (h : BitVec 128) : Nat := bits h.toNat 72 8
def hB (h : BitVec 128) : Nat := bits h.toNat 80 8
def hCount (h : BitVec 128) : Nat := bits h.toNat 96 32
/-- Descriptor `n` of the slice of a lane. -/
def LaneEnv.h (le : LaneEnv) (n : BitVec 3) : BitVec 128 := getD 0 n.toNat le.sl.hs

/-- The descriptor a valid header gives, or the first subcause of Table 6.10 that it meets. EBASE of a header at 2^48 - 16 wraps to 0
(log entry 78, DESIGN CHOICE). -/
def headerCheck (va v : Nat) : Except Nat (BitVec 128) :=
  let p := bits v 24 8
  let e := bits v 32 8
  let b := bits v 40 8
  if bits v 0 16 ≠ 0x5056 then .error 1
  else if bits v 16 8 ≠ 1 then .error 2
  else if p < 2 ∨ 113 < p then .error 3
  else if e ≠ 8 ∧ e ≠ 11 ∧ e ≠ 15 then .error 4
  else if b ≠ (e + p + 7) / 8 then .error 5
  else if bits v 48 16 ≠ 0 ∨ bits v 96 32 ≠ 0 then .error 6
  else .ok (BitVec.ofNat 128 ((va + 16) % 2 ^ 48 + 2 ^ 63 + p * 2 ^ 64 + e * 2 ^ 72 + b * 2 ^ 80 + bits v 64 32 * 2 ^ 96))

/-! ### VPAH (R172) -/

/-- VPAH: each slice's header address is checked, and the split waits for the headers. -/
def execVpah (d a : BitVec 8) (t : BitVec 4) (s : State) : Out :=
  checked s (.vpah d a t) fun cx =>
    let us := cx.sp.slices.map fun j => sliceUnit s cx j (sliceG s cx j a.toNat) 16
    match misaligned us with
    | u :: r => .error (unitCause 0x04 (u :: r))
    | [] => accessUnits s cx (.vpah d a t) .r us false false fun accs =>
        let id := s.nextOp
        let reads := (us.zip accs).map fun e => (e.1.sk, e.1.va, e.2.addrs.headD 0)
        let deps := (accs.map fun x => depsOf s x.sk false x.addrs none).flatten
        .ok (advanceWait (postSplit s cx (some t.toNat) deps (.vpah d.toNat reads (modeEP cx.sp.mode))) cx (.check id))

/-- The split that waits for the check of operation `id`. -/
def checkWaiter (s : State) (id : Nat) : Option (Nat × Split) := s.splits.find? fun e => decide (e.2.wait = .check id)

/-- The header load of a slice as an access. -/
def headerAcc (r : Nat × Nat × Nat) : Acc := { sk := r.1, lane := 4, addrs := span r.2.2 16 }

/-- OPERATION_COMPLETE of a VPAH: the descriptors, or cause 0x17, after which the operation retires on its token like one that has
started its work (log entry 62, DEDUCED); the subcause is that of the lowest-numbered slice that fails (log entry 78, DESIGN CHOICE). -/
def completeVpah (s : State) (id : Nat) (o : Op) (d : Nat) (reads : List (Nat × Nat × Nat)) (ep : Nat) : State :=
  let ck := coreKey o.site o.core
  match poisonedAccs s o .load false (reads.map headerAcc) with
  | a :: t => finishOp (poisonAccs s o a t) id o
  | [] =>
    let r := reads.foldl (fun (r : List (Nat × Nat × Except Nat (BitVec 128)) × State) x =>
      let b := loadBytes r.2 ck o.part ep (span x.2.2 16)
      (r.1 ++ [(x.1, x.2.1, headerCheck x.2.1 (leNat b.1))], b.2)) ([], s)
    let bad := r.1.filterMap fun e => match e.2.2 with | .error n => some (e.1, e.2.1, n) | .ok _ => none
    match checkWaiter s id, bad with
    | some w, (k, va, n) :: t =>
      let ks := ((k, va, n) :: t).map (·.1)
      raiseAt (finishOp r.2 id o) w.1 (cause 0x17 n va (laneMask ((liveLanes s w.2).filter fun le => ks.contains le.sk)))
    | w, _ =>
      let s := finishOp (r.1.foldl (fun t e => match e.2.2 with
        | .ok h => t.modSlice e.1 fun sl => { sl with hs := setD 0 d h sl.hs }
        | .error _ => t) r.2) id o
      match w with | some w => endWait s w.1 | none => s

/-! ### LDP and STP (R173, R174) -/

/-- Subcauses 8 and 7 of cause 0x17 (R173). -/
def packedFault (ls : List LaneEnv) (a : BitVec 8) (h : BitVec 3) : Option CauseRec :=
  match ls.filter fun le => !hValid (le.h h) with
  | l :: t => some (cause 0x17 8 0 (laneMask (l :: t)))
  | [] =>
    match ls.filter fun le => decide (hCount (le.h h) ≤ (le.x a.toNat).toNat) with
    | l :: t => some (cause 0x17 7 (l.x a.toNat).toNat (laneMask (l :: t)))
    | [] => none

/-- Subcause 2 of cause 0x0D (R164): TVAL holds P and E of the array of the lowest lane that fails (log entry 78, DESIGN CHOICE). -/
def exactFault (ls : List LaneEnv) (h : BitVec 3) : Option CauseRec :=
  match ls.filter fun le => decide (precP le.lane.prec < hP (le.h h) ∨ classEb le.cls < hE (le.h h)) with
  | l :: t => some (cause 0x0D 2 (hP (l.h h) + 256 * hE (l.h h)) (laneMask (l :: t)))
  | [] => none

/-- The unit of a lane's element; it is single-copy atomic when it has at most 8 bytes within one 64-byte granule (R174). -/
def LaneEnv.element (le : LaneEnv) (a : BitVec 8) (h : BitVec 3) : MUnit :=
  let va := hBase (le.h h) + (le.x a.toNat).toNat * hB (le.h h)
  { le.unit va (hB (le.h h)) with whole := decide (hB (le.h h) ≤ 8 ∧ va % 64 + hB (le.h h) ≤ 64) }

/-- LDP (R173): with XT = 1 in some lane, normal mode waits for the data and checks the rounding. -/
def execLdp (d a : BitVec 8) (t : BitVec 4) (x : Bool) (h : BitVec 3) (s : State) : Out :=
  checked s (.ldp d a t x h) fun cx =>
    let ls := guardedLanes s cx.sp
    match packedFault ls a h, (if x then exactFault ls h else none) with
    | some c, _ => .error c
    | none, some c => .error c
    | none, none =>
      let us := ls.map fun le =>
        let k := classSlots le.cls
        { le.element a h with dst := le.units (k * d.toNat) k, conv := .packed (hP (le.h h)) (hE (le.h h)) le.lane.prec }
      accessUnits s cx (.ldp d a t x h) .r us false false fun accs =>
        if !x && ls.any fun le => precXT le.lane.prec then
          let deps := (accs.map fun y => depsOf s y.sk false y.addrs none).flatten
          let id := s.nextOp
          .ok (advanceWait (postSplit s cx (some t.toNat) deps
            (.access .load false accs (modeEP cx.sp.mode) false 0 false false false false 0)) cx (.check id))
        else .ok (advanceHeld (postAccess s cx t.toNat false .load accs false 0 false false false false 0) cx)

/-- OPERATION_COMPLETE of an LDP whose split waits for its rounding (R173): its bytes are read in a free order, and once all are
there the results land, or the trap is taken. -/
def completeChecked (s : State) (id : Nat) (o : Op) (w : Nat × Split) (accs : List Acc) (ep : Nat) : State :=
  match poisonedAccs s o .load false (accs.filter fun a => !a.missing.isEmpty) with
  | a :: t => finishOp (poisonAccs s o a t) id o
  | [] =>
    let todo := accs.filter fun a => !a.missing.isEmpty
    let r := performSome id o .load false ep false 0 false false true (bytesLeft todo) s todo
      (accs.filter fun a => a.missing.isEmpty)
    if !r.2.1.isEmpty then
      r.1.modOp id fun x => { x with body := .access .load false (r.2.2 ++ r.2.1) ep false 0 false false false false 0 }
    else
      let rs := (accs.filterMap fun a => r.2.2.find? fun b => b.sk == a.sk && b.lane == a.lane).map fun a => (a, a.conv.apply a.bytes)
      let bad := rs.filter fun e => bitAt e.2.flags 0 && (match e.1.conv with | .packed _ _ v => precXT v | _ => false)
      match bad with
      | e :: t => raiseAt (finishOp r.1 id o) w.1 (cause 0x0D 1 0 (maskOf ((e :: t).map fun y => 4 * (y.1.sk % 16) + y.1.lane)))
      | [] => endWait (finishOp (rs.foldl (fun t e => landAcc t o e.1 e.2) r.1) id o) w.1

/-- A register value encoded as an element of P bits and E exponent bits (R173): the B bytes' integer and the flags. -/
def encodeElement (le : LaneEnv) (p e n : Nat) : FRes :=
  let r := roundX ⟨p, e, p - 1, precRM le.lane.prec, precSUB le.lane.prec⟩ (le.f n).exact
  ⟨r.v * 2 ^ (8 * ((e + p + 7) / 8) - e - p), r.flags⟩

/-- STP (R173): rounding at issue, bytes at completion (log entry 29, DEDUCED). -/
def execStp (d a : BitVec 8) (t : BitVec 4) (h : BitVec 3) (s : State) : Out :=
  checked s (.stp d a t h) fun cx =>
    let ls := guardedLanes s cx.sp
    match packedFault ls a h with
    | some c => .error c
    | none =>
      let rs := ls.map fun le => (le, encodeElement le (hP (le.h h)) (hE (le.h h)) d.toNat)
      match inexactLanes rs with
      | l :: r => .error (cause 0x0D 1 0 (laneMask (l :: r)))
      | [] =>
        let us := rs.map fun r => { r.1.element a h with data := leBytes (hB (r.1.h h)) r.2.v, fl := r.2.flags }
        accessUnits s cx (.stp d a t h) .w us false false fun accs =>
          .ok (advanceHeld (postAccess s cx t.toNat false .store accs false 0 false false false false 0) cx)

end Sys2Proof.Machine
end

