-- ==== Sys2Proof/Machine/Fabric.lean ====
section
/-! DEFINITION. The fabric: routes (R282 to R284), links, flits and credits (R285 to R288), the recovery of links and the
reset of an optical engine (R289). -/
namespace Sys2Proof.Machine

/-! ### Routes (R282 to R284, R303) -/

/-- Topology entry of a site toward a destination (Table 13.1). -/
def topoEntry (s : State) (site panel dst : Nat) : Nat := (getD 0 (16 * panel + dst) (s.island site).topo).toNat
/-- Hop codes of an entry, as many as NHOP says. -/
def entryHops (e : Nat) : List Nat := (upFrom 0 (bits e 60 3)).map fun h => bits e (5 * h) 5

/-- Whether every hop of a route names something that can exist: no reserved code, and no absent external port of the
island it leaves, as far as the route stays on this panel (R284, R303) (log entry 32, DEDUCED). -/
def hopsOk (s : State) : (site : Option Nat) → List Nat → Bool
  | _, [] => true
  | at_, h :: hs =>
    if 24 ≤ h then false
    else if h < 16 then hopsOk s (at_.map fun _ => h) hs
    else match at_ with
      | some x => linkExists s x h && hopsOk s none hs
      | none => hopsOk s none hs

/-- Whether an entry passes the checks of R284. -/
def entryOk (s : State) (site e : Nat) : Bool :=
  bitAt e 63 && bits e 60 3 != 0 && bits e 60 3 != 7 && bits e 30 30 == 0 && hopsOk s (some site) (entryHops e)

/-- Whether a destination is the issuing island itself: a loopback (R283). -/
def isLoop (s : State) (site panel dst : Nat) : Bool := panel == s.fe.panel.toNat && dst == site

/-- The route of a packet of a site, or none when the destination is unreachable (R20, R284). -/
def routeTo (s : State) (site panel dst : Nat) : Option (List Nat) :=
  if isLoop s site panel dst then some []
  else if panel = s.fe.panel.toNat ∧ !s.populated dst then none
  else
    let e := topoEntry s site panel dst
    if entryOk s site e then some (entryHops e) else none

/-! ### Packets (R286) -/

/-- Virtual channel of a packet (Table 13.2): 0 request, 1 response, 2 control. -/
def pktChan (p : Pkt) : Nat :=
  match p.kind with
  | .put => 0
  | .get => if p.len ≤ 64 then 2 else 0
  | .putAck => 1
  | .getData => if p.len ≤ 64 then 2 else 1
  | _ => 2

/-- Flits of a packet: a header flit and its data flits (R286; log entries 24 and 71, DESIGN CHOICE for the operands of atomics and
for credit audits). -/
def pktFlits (p : Pkt) : Nat := 1 + (p.data.length + 16 * p.lanes.length + 63) / 64

/-- Whether a packet asks for something, and is not an answer. -/
def pktAsks (p : Pkt) : Bool :=
  match p.kind with | .put | .get | .atom | .add => true | _ => false

/-- Whether a packet is a credit audit. -/
def pktAudits (p : Pkt) : Bool := match p.kind with | .audit _ => true | _ => false

/-- A packet starts at a site with its route. -/
def sendPkt (s : State) (site : Nat) (p : Pkt) : State :=
  { s with pkts := put s.nextPkt ⟨p, site, p.hops, none, none⟩ s.pkts, nextPkt := s.nextPkt + 1 }

/-! ### Channels and credits (R287, R288) -/

/-- A channel of a link direction by its number. -/
def Link.chan (l : Link) (vc : Nat) : VChan := match vc with | 0 => l.request | 1 => l.response | _ => l.control
/-- A link direction with a channel replaced. -/
def Link.setChan (l : Link) (vc : Nat) (c : VChan) : Link :=
  match vc with | 0 => { l with request := c } | 1 => { l with response := c } | _ => { l with control := c }

/-- Credits a sender holds: B − (SENT − FREED′) (R288). -/
def VChan.credits (c : VChan) (vc : Nat) : Int := (Config.vcBuffer vc : Int) - ((c.sent : Int) - c.freedView)

/-- Site and port of a link direction. -/
def linkSite (lk : Nat) : Nat := lk / 24
def linkPort (lk : Nat) : Nat := lk % 24

/-- Whether a sender holds a flit on a channel with zero credits (R288). -/
def VChan.stuck (c : VChan) (vc : Nat) : Bool := !c.queue.isEmpty && decide (c.credits vc ≤ 0)

/-- Writes a channel; one that is not stuck has been held for no time (R288). -/
def State.setChan (s : State) (lk vc : Nat) (c : VChan) : State :=
  s.setLink lk ((s.link lk).setChan vc { c with stall := if c.stuck vc then c.stall else 0 })

/-- A cycle passes on every link: stuck channels count it (R288). -/
def tickLinks (s : State) : State :=
  let tick := fun (vc : Nat) (c : VChan) => { c with stall := if c.stuck vc then c.stall + 1 else 0 }
  { s with links := s.links.map fun (e : Nat × Link) =>
      (e.1, { e.2 with request := tick 0 e.2.request, response := tick 1 e.2.response, control := tick 2 e.2.control }) }

/-- The packet of a channel's head. -/
def headPkt (s : State) (c : VChan) : Option (Nat × PktSt) :=
  match c.queue with
  | [] => none
  | k :: _ => (find k s.pkts).map fun p => (k, p)

/-- Frees the receive buffer a packet occupies and returns the credits (R288). -/
def freeBuf (s : State) (p : PktSt) : State :=
  match p.buf with
  | none => s
  | some (lk, vc) =>
    let c := (s.link lk).chan vc
    s.setChan lk vc { c with freed := c.freed + pktFlits p.pkt, freedView := c.freedView + pktFlits p.pkt }

/-- Removes a packet from the fabric. -/
def dropPkt (s : State) (pk : Nat) (p : PktSt) : State := freeBuf { s with pkts := del pk s.pkts } p

/-- Whether an earlier packet of the same flow stands at the same site with the same way to go (R283). -/
def behind (s : State) (pk : Nat) (p : PktSt) : Bool :=
  s.pkts.any fun e => decide (e.1 < pk) && e.2.site == p.site && e.2.onLink.isNone && e.2.hops == p.hops
    && pktChan e.2.pkt == pktChan p.pkt && e.2.pkt.src == p.pkt.src && e.2.pkt.srcPanel == p.pkt.srcPanel
    && e.2.pkt.dst == p.pkt.dst && e.2.pkt.dstPanel == p.pkt.dstPanel

/-- Whether the queue of an output takes a packet: that of control holds 64 flits (R287). -/
def queueTakes (s : State) (lk vc flits : Nat) : Bool :=
  let ks := ((s.link lk).chan vc).queue
  vc != 2 || decide (sumNat (ks.map fun k => match find k s.pkts with | some q => pktFlits q.pkt | none => 0) + flits ≤ 64)

/-- A packet joins the queue of a link direction. -/
def enqueue (s : State) (lk vc pk flits : Nat) : State :=
  let c := (s.link lk).chan vc
  s.setChan lk vc { c with queue := c.queue ++ [pk], left := if c.queue.isEmpty then flits else c.left }

/-- PACKET_FORWARD (R283): one hop code is consumed and the packet joins the queue of that output (R287). -/
def execPacketForward (pk : Nat) (s : State) : Out :=
  match find pk s.pkts with
  | none => .fault (.notEnabled "PACKET_FORWARD")
  | some p =>
    match p.hops, p.onLink with
    | h :: hs, none =>
      let lk := linkKey p.site h
      let vc := pktChan p.pkt
      if behind s pk p || !linkExists s p.site h || !queueTakes s lk vc (pktFlits p.pkt) then
        .fault (.notEnabled "PACKET_FORWARD")
      else
        let s := freeBuf s p
        let s := { s with pkts := put pk { p with hops := hs, onLink := some (h, vc), buf := none } s.pkts }
        .next (enqueue s lk vc pk (pktFlits p.pkt))
    | _, _ => .fault (.notEnabled "PACKET_FORWARD")

/-- Whether control must have the next flit slot (R287). -/
def controlDue (l : Link) : Bool :=
  decide (7 ≤ l.slots) && !l.control.queue.isEmpty && decide (0 < l.control.credits 2)

/-- The last flit of a packet has arrived: it stands at the next site, has left the panel, or is discarded for its
poisoned tail (R286, R290, R303). -/
def pktArrived (s : State) (lk vc pk : Nat) (p : PktSt) : State :=
  let port := linkPort lk
  let s := if port < 16 then { s with pkts := put pk { p with site := port, onLink := none, buf := some (lk, vc) } s.pkts }
    else { s with pkts := del pk s.pkts, extOut := s.extOut ++ [(linkSite lk, port, { p.pkt with hops := p.hops })] }
  match find pk s.pkts with
  | some q => if q.pkt.poisoned then dropPkt s pk q else s
  | none =>
    -- another panel's receiver frees its buffer on its own
    let c := (s.link lk).chan vc
    s.setChan lk vc { c with freed := c.freed + pktFlits p.pkt, freedView := c.freedView + pktFlits p.pkt }

/-- The sender numbers the next new flit of a channel and sends it; none without a flit or a credit, where control must have the
slot (R287), or where 12-bit numbers leave no room. -/
def newFlit (s : State) (l : Link) (vc : Nat) : Option (Flit × Link) :=
  let c := l.chan vc
  match headPkt s c with
  | none => none
  | some (pk, _) =>
    if 2 < vc ∨ c.credits vc ≤ 0 ∨ (controlDue l = true ∧ vc ≠ 2) ∨ 4095 ≤ l.window.length then none
    else
      let last := decide (c.left ≤ 1)
      let rest := c.queue.drop 1
      let left := if last then (match headPkt s { c with queue := rest } with | some q => pktFlits q.2.pkt | none => 0) else c.left - 1
      let c := { c with sent := c.sent + 1, left := left, queue := if last then rest else c.queue }
      let c := { c with stall := if c.stuck vc then c.stall else 0 }
      some (⟨vc, pk, last⟩, { l.setChan vc c with seq := l.seq + 1, window := l.window ++ [⟨vc, pk, last⟩], slots := if vc = 2 then 0 else l.slots + 1 })

/-- The sender goes back to the number that the receiver reported (R285). -/
def Link.goBack (l : Link) : Link :=
  match l.report with
  | some r => { l with next := (r - (l.seq - BitVec.ofNat 12 l.window.length)).toNat, report := none }
  | none => l

/-- The flit of a channel that comes over a link next: the next of those being resent, or a new one. When the sender hears of a
report is free, but it hears of it at the latest when it has nothing new to send (log entry 69, DESIGN CHOICE). -/
def arriving (s : State) (lk vc : Nat) : Option (Flit × Link) :=
  let l := s.link lk
  let heard := (l.window.length ≤ l.next ∧ (newFlit s l vc).isNone = true) ∨ pick s (17 * 2 ^ 64 + lk) 2 = 0
  let l := if l.report.isSome = true ∧ heard then l.goBack else l
  match nth none (l.window.map some) l.next with
  | some f => if f.vc = vc then some (f, l) else none
  | none => newFlit s l vc

/-- FLIT_RECEIVE (R285, R287, R288): a flit of a channel arrives over a link. One with a bad CRC, out of sequence or without a free
buffer is discarded, and the receiver reports the number it expects. -/
def execFlitReceive (lk vc : Nat) (good : Bool) (s : State) : Out :=
  match arriving s lk vc with
  | none => .fault (.notEnabled "FLIT_RECEIVE")
  | some (f, l) =>
    if !linkExists s (linkSite lk) (linkPort lk) || l.lanes == 0 || decide (Config.linkTries ≤ l.tries) then
      .fault (.notEnabled "FLIT_RECEIVE")
    else
      let n := l.seq - BitVec.ofNat 12 l.window.length + BitVec.ofNat 12 l.next
      let c := l.chan vc
      if !good || n != l.expect || decide (Config.vcBuffer vc ≤ c.got - c.freed) then
        .next (s.setLink lk { l with
          next := l.next + 1, report := some l.expect, tries := if n = l.expect then l.tries + 1 else l.tries })
      else
        let l := { l.setChan vc { c with got := c.got + 1 } with
          window := l.window.drop 1, expect := l.expect + 1, report := none, tries := 0, accepted := l.accepted + 1 }
        let s := s.setLink lk l
        if !f.last then .next s
        else match find f.pk s.pkts with
          | some p => .next (pktArrived s lk vc f.pk p)
          | none => .next s

/-! ### Credit audits (R288) -/

/-- The opposite direction of an in-panel link. -/
def linkBack (lk : Nat) : Nat := linkKey (linkPort lk) (linkSite lk)

/-- The packet of a credit audit (log entry 71, DESIGN CHOICE: its FREED values stand in the header flit). -/
def auditPkt (l : Link) : Pkt :=
  { op := 0, part := 0, parts := 1, srcPanel := 0, src := 0, dstPanel := 0, dst := 0, hops := [], addr := 0, len := 0, data := []
    aop := 0, sgn := false, wide := false, lanes := [], fenced := false, notify := none, pid := 0, poisoned := false
    kind := .audit [BitVec.ofNat 32 l.request.freed, BitVec.ofNat 32 l.response.freed, BitVec.ofNat 32 l.control.freed] }

/-- CREDIT_AUDIT_SEND: after 4,096 accepted flits, or on request, the receiver sends its FREED counts on the control channel of the
opposite direction (R286); another panel's receiver sends them over its own link. -/
def execCreditAuditSend (lk : Nat) (s : State) : Out :=
  let l := s.link lk
  let due := { l with accepted := if l.accepted < 4096 then l.accepted else l.accepted - 4096, auditAsked := false }
  if l.lanes = 0 ∨ (l.accepted < 4096 ∧ l.auditAsked = false) then .fault (.notEnabled "CREDIT_AUDIT_SEND")
  else if 16 ≤ linkPort lk then
    .next (s.setLink lk { due with audits := l.audits ++ [(l.request.freed, l.response.freed, l.control.freed)] })
  else if !queueTakes s (linkBack lk) 2 1 then .fault (.notEnabled "CREDIT_AUDIT_SEND")
  else
    let p : PktSt := ⟨auditPkt l, linkPort lk, [], some (linkSite lk, 2), none⟩
    let s := { s.setLink lk due with pkts := put s.nextPkt p s.pkts, nextPkt := s.nextPkt + 1 }
    .next (enqueue s (linkBack lk) 2 (s.nextPkt - 1) 1)

/-- CREDIT_AUDIT_REQUEST: a sender that has held a flit for 4,096 flit times with no credit asks for an audit. -/
def execCreditAuditRequest (lk vc : Nat) (s : State) : Out :=
  let l := s.link lk
  let c := l.chan vc
  if c.stuck vc = true ∧ l.lanes ≠ 0 ∧ 4096 * (3 - l.lanes) ≤ c.stall ∧ !l.auditAsked ∧ vc ≤ 2 then
    .next (s.setLink lk { l with auditAsked := true })
  else .fault (.notEnabled "CREDIT_AUDIT_REQUEST")

/-- A channel after an audit of `a`: FREED′ is the audited count and the credits returned since, modulo 2^32. -/
def VChan.audited (c : VChan) (a : Nat) : VChan :=
  let since : Nat := (c.freed + 2 ^ 32 - a % 2 ^ 32) % 2 ^ 32
  { c with freedView := ((c.freed : Int) - (since : Int)) + (since : Int) }

/-- The sender of a link direction takes an audit: FREED′ := FREED for each channel. -/
def takeAudit (s : State) (lk : Nat) (a : List Nat) : State :=
  (upFrom 0 3).foldl (fun t vc => t.setChan lk vc (((t.link lk).chan vc).audited (nth 0 a vc))) s

/-- The audit packet that has arrived for a link direction. -/
def arrivedAudit (s : State) (lk : Nat) : Option (Nat × PktSt × List (BitVec 32)) :=
  (s.pkts.find? fun e => e.2.onLink.isNone && e.2.buf == some (linkBack lk, 2)
    && (match e.2.pkt.kind with | .audit _ => true | _ => false)).map fun e =>
      (e.1, e.2, match e.2.pkt.kind with | .audit f => f | _ => [])

/-- CREDIT_AUDIT_RECEIVE: the sender sets FREED′ := FREED. -/
def execCreditAuditReceive (lk : Nat) (s : State) : Out :=
  if 16 ≤ linkPort lk then
    let l := s.link lk
    match l.audits with
    | [] => .fault (.notEnabled "CREDIT_AUDIT_RECEIVE")
    | a :: as => .next (takeAudit (s.setLink lk { l with audits := as }) lk [a.1, a.2.1, a.2.2])
  else
    match arrivedAudit s lk with
    | some (k, p, f) => .next (takeAudit (dropPkt s k p) lk (f.map BitVec.toNat))
    | none => .fault (.notEnabled "CREDIT_AUDIT_RECEIVE")

/-- CREDIT_SOFT_ERROR: the sender's view of a channel gains or loses credits. -/
def execCreditSoftError (lk vc : Nat) (delta : Int) (s : State) : Out :=
  if 2 < vc ∨ 384 ≤ lk then .fault (.notEnabled "CREDIT_SOFT_ERROR")
  else
    let c := (s.link lk).chan vc
    .next (s.setChan lk vc { c with freedView := c.freedView + delta })

/-! ### Link changes and recovery (R24, R285, R288) -/

/-- IGEN increments once after a change of an island's state registers (Table 1.4). -/
def bumpGen (s : State) (site : Nat) : State :=
  let i := s.island site
  s.setIsland site { i with igen := i.igen + 1 }

/-- Contexts resident on an island (R288, R379): the resident ones with a resident team there (log entry 72, DEDUCED). -/
def residentOn (s : State) (site : Nat) : List Nat :=
  (s.ctxs.filter fun e => e.2.resident && s.teams.any fun t => t.2.asid == e.1 && t.2.site == site && t.2.resident).map (·.1)

/-- Whether bit `n` of a context's mode word chooses host-assisted mode (Table 17.5). -/
def modeBit (s : State) (asid n : Nat) : Bool := match find asid s.ctxs with | some c => c.modeWord.getLsbD n | none => false

/-- Whether a route that leaves `site` takes port `b` of island `a`, as far as it stays on this panel. -/
def usesHop (a b : Nat) : (site : Option Nat) → List Nat → Bool
  | _, [] => false
  | none, _ => false
  | some x, h :: hs => (x == a && h == b) || usesHop a b (if h < 16 then some h else none) hs

/-- Whether a link is there and up. -/
def linkUp (s : State) (site port : Nat) : Bool := linkExists s site port && (s.link (linkKey site port)).lanes != 0

/-- The port by which one hop takes island `v` to a destination: its direct link, or toward another panel the external port of its
own one-hop entry (log entry 70, DEDUCED). -/
def oneHop (s : State) (v panel dst : Nat) : Option Nat :=
  if panel = s.fe.panel.toNat then (if linkUp s v dst then some dst else none)
  else
    let e := topoEntry s v panel dst
    match entryHops e with
    | [h] => if entryOk s v e && decide (16 ≤ h) && linkUp s v h then some h else none
    | _ => none

/-- Entry with a two-hop route. -/
def twoHops (v h : Nat) : DWord := BitVec.ofNat 64 (2 ^ 63 + 2 * 2 ^ 60 + v + 32 * h)

/-- A two-hop route to a destination through a live site whose links are up: one of them, as the free choice says (R288). -/
def detour (s : State) (site panel dst : Nat) : Option DWord :=
  let here := panel == s.fe.panel.toNat
  let vs := ((upFrom 0 16).filter fun v => v != site && !(here && v == dst) && s.live v && linkUp s site v).filterMap fun v =>
    (oneHop s v panel dst).map fun h => twoHops v h
  nth none (vs.map some) (pick s (8 * 2 ^ 64 + 2 ^ 16 * site + 16 * panel + dst) vs.length)

/-- Firmware rewrites every entry of an island whose route takes port `b` of island `a` (R288). -/
def rewriteEntries (s : State) (a b site : Nat) : State :=
  (s.island site).topo.foldl (fun t (e : Nat × DWord) =>
    if entryOk t site e.2.toNat && usesHop a b (some site) (entryHops e.2.toNat) then
      match detour t site (e.1 / 16) (e.1 % 16) with
      | some v => t.setIsland site { t.island site with topo := setD 0 e.1 v (t.island site).topo }
      | none => t
    else t) s

/-- What a change of a link to `lanes` brings besides: events, and for a link that goes down its recovery (R288). -/
def linkChanged (s : State) (site port lanes : Nat) : State :=
  let ends := if port < 16 then [site, port] else [site]
  let ctxs := asSet ((ends.map (residentOn s)).flatten)
  let assisted := ctxs.any fun a => modeBit s a 0
  let rewrite := decide (lanes = 0) && !assisted
  let s := if rewrite then (upFrom 0 16).foldl (fun t x =>
    let t := rewriteEntries t site port x
    if port < 16 then rewriteEntries t port site x else t) s else s
  let ev := fun (asid : Nat) => plainEvent s 4 0 site asid (leBytes 1 port ++ leBytes 1 lanes ++ leBytes 1 (ofBool rewrite))
  let s := postPanel (ev 0) s
  if assisted && decide (lanes = 0) then ctxs.foldl (fun t a => postCtx a (ev a) t) s else s

/-- Sets the lanes of a link in both directions; LINK of its ends changes and IGEN counts it. -/
def setLanes (s : State) (site port lanes : Nat) : State :=
  let set := fun (t : State) (a b : Nat) =>
    bumpGen (t.setLink (linkKey a b) { t.link (linkKey a b) with lanes := lanes, tries := 0 }) a
  let s := set s site port
  let s := if port < 16 then set s port site else s
  linkChanged s site port lanes

/-- LINK_RETRAIN (R285): after 32 consecutive replays of one flit, the last without success, a link ends at two lanes, at one, or down. -/
def execLinkRetrain (lk lanes : Nat) (s : State) : Out :=
  let l := s.link lk
  if !linkExists s (linkSite lk) (linkPort lk) || decide (l.tries < Config.linkTries) || decide (l.fused < lanes) then
    .fault (.notEnabled "LINK_RETRAIN")
  else if l.lanes = lanes then .next (s.setLink lk { l with tries := 0 })
  else .next (setLanes s (linkSite lk) (linkPort lk) lanes)

/-- LINK_RETRAIN_UP (R285): a link that is down comes back with one or two lanes. -/
def execLinkRetrainUp (lk lanes : Nat) (s : State) : Out :=
  let l := s.link lk
  if !linkExists s (linkSite lk) (linkPort lk) || l.lanes != 0 || lanes == 0 || decide (l.fused < lanes) then
    .fault (.notEnabled "LINK_RETRAIN_UP")
  else .next (setLanes s (linkSite lk) (linkPort lk) lanes)

/-- A reset of an optical engine die: its links go down and its topology table reads 0 (R282, R289). -/
def resetOptical (s : State) (site : Nat) : State :=
  let s := s.setIsland site { s.island site with topo := [] }
  (upFrom 0 24).foldl (fun t port =>
    if linkExists t site port && (t.link (linkKey site port)).lanes != 0 then setLanes t site port 0 else t) s

/-- OPTICAL_ENGINE_RESET (R289). -/
def execOpticalEngineReset (site : Nat) (s : State) : Out :=
  if s.populated site then .next (resetOptical s site) else .fault (.notEnabled "OPTICAL_ENGINE_RESET")

end Sys2Proof.Machine
end

