-- ==== Sys2Proof/Machine/Remote.lean ====
section
/-! DEFINITION. Remote operations: RPUT, RGET, RATOM and NADD (R293 to R298), their packets at the target and at the
source, and how they fail (R290, R301, R302). -/
namespace Sys2Proof.Machine

/-! ### The end of a remote operation (R301, R302) -/

/-- Code of a remote operation in Table 13.9. -/
def remoteCode (k : PktKind) : Nat := match k with | .put => 1 | .get => 2 | .atom => 3 | _ => 4

/-- TVAL of a failed operation (Table 13.9), MORE aside. -/
def remoteTval (r : Remote) : Nat :=
  remoteCode r.kind * 2 ^ 60 + r.tokField * 2 ^ 56 + r.dst * 2 ^ 52 + r.rva % 2 ^ 48

/-- A failure sets the remote fault record of the issuing slice; a later one sets MORE (R302). -/
def noteFailure (s : State) (sk : Nat) (r : Remote) (sub : Nat) : State :=
  match find sk s.slices with
  | none => s
  | some sl =>
    if sl.retired then s
    else s.setSlice sk { sl with rfault := some (match sl.rfault with
      | some (v, n) => (v ||| BitVec.ofNat 64 (2 ^ 63), n)
      | none => (BitVec.ofNat 64 (remoteTval r), sub)) }

/-- What an operation has on its way to the target does no notify any more (R301; log entry 65, DEDUCED). -/
def withdrawNotify (s : State) (id : Nat) : State :=
  { s with pkts := s.pkts.map fun e =>
      if e.2.pkt.op = id ∧ e.2.pkt.srcPanel = s.fe.panel.toNat then
        (e.1, { e.2 with pkt := { e.2.pkt with notify := none, poisoned := e.2.pkt.poisoned || e.2.pkt.kind == .add } })
      else e }

/-- A failed operation retires with its record and performs no notify (R301). -/
def failRemote (s : State) (id : Nat) (o : Op) (r : Remote) (sub : Nat) : State :=
  let s := withdrawNotify s id
  finishOp (match o.slices with | k :: _ => noteFailure s k r sub | [] => s) id o

/-- An operation whose answers have all come ends, once the reads that an acquire part waits for have their values; after that part it
may stay outstanding for a while (R314, R316). -/
def endRemote (s : State) (id : Nat) (o : Op) (r : Remote) : State :=
  let s := if r.kind = .get then noteDone s id o none else s
  if !o.reads.all (depDone s) then s
  else if r.acq then
    let s := noteAcquire (acquireEffect s (coreKey o.site o.core) o.part 2 r.scope) o.slices r.scope false
    if pick s (30 * 2 ^ 64 + id) 2 = 0 then finishOp s id o
    else s.modOp id fun x => { x with body := .remote { r with acq := false } }
  else finishOp s id o

/-! ### Sending (R294, R296 to R298) -/

/-- The packets' shares of a remote range: offset at the target, offset in the range, bytes (R286). -/
def remoteParts (r : Remote) : List (Nat × Nat × Nat) :=
  let cut := fun (a n : Nat) =>
    let first := a / 4096
    let last := (a + n - 1) / 4096
    (upFrom first (last + 1 - first)).map fun k =>
      let lo := Nat.max a (4096 * k)
      (lo, Nat.min (a + n) (4096 * k + 4096) - lo)
  let ps := if r.len = 0 then [((r.rem.head?.map (·.1)).getD 0, 0)] else (r.rem.map fun p => cut p.1 p.2).flatten
  (ps.foldl (fun (acc : List (Nat × Nat × Nat) × Nat) p => (acc.1 ++ [(p.1, acc.2, p.2)], acc.2 + p.2)) ([], 0)).1

/-- `n` bytes of the local pieces from an offset on: physical addresses. -/
def localAddrs (r : Remote) (off n : Nat) : List Nat :=
  ((r.loc.foldl (fun (acc : List Nat × Nat) p =>
    let lo := Nat.max off acc.2
    let hi := Nat.min (off + n) (acc.2 + p.2)
    (acc.1 ++ span (p.1 + (lo - acc.2)) (hi - lo), acc.2 + p.2)) ([], 0)).1)

/-- A packet of an operation. -/
def remotePkt (s : State) (id : Nat) (o : Op) (r : Remote) (part parts addr len : Nat) (data : List Byte)
    (lanes : List (Nat × Nat × Nat × Nat)) : Pkt :=
  { op := id, part := part, parts := parts, kind := r.kind, srcPanel := s.fe.panel.toNat, src := o.site
    dstPanel := r.dstPanel, dst := r.dst, hops := r.route, addr := addr, len := len, data := data
    aop := r.aop, sgn := r.sgn, wide := r.wide, lanes := lanes, fenced := r.fenced, notify := r.notify
    pid := match find o.asid s.ctxs with | some c => c.pid | none => 0, poisoned := false }

/-- Sends the packets of an operation and notes which are to be answered. -/
def sendAll (s : State) (id : Nat) (o : Op) (r : Remote) (ps : List Pkt) : State :=
  let s := ps.foldl (fun t p => sendPkt t o.site p) s
  s.modOp id fun x => { x with body := .remote { r with sent := true, partsLeft := ps.map (·.part), unread := ps.map (·.part) } }

/-- Cleans the dirty L1 lines of a core that hold bytes of local pieces (R294). -/
def cleanPieces (s : State) (ck part : Nat) (loc : List (Nat × Nat)) : State :=
  ((l1Lines s ck).filter fun l => loc.any fun p => decide (p.1 < 128 * l + 128) && decide (128 * l < p.1 + p.2)).foldl
    (fun t l => l1CleanLine t ck part 2 l) s

/-- Starts an operation once what it comes after has been performed. -/
def sendRemote (s : State) (id : Nat) (o : Op) (r : Remote) : State :=
  let ck := coreKey o.site o.core
  match r.kind with
  | .put =>
    let s := cleanPieces s ck o.part r.loc
    let as := localAddrs r 0 r.len
    match poisonedAt s as with
    | some l => finishOp (poisonOp s o l o.lanes) id o
    | none =>
      let data := pocBytes s as
      let s := pocTouch s o.part 2 true as
      let ps := remoteParts r
      sendAll s id o r ((ps.zip (upFrom 0 ps.length)).map fun e =>
        remotePkt s id o r e.2 ps.length e.1.1 e.1.2.2 ((data.drop e.1.2.1).take e.1.2.2) [])
  | .get =>
    let ps := remoteParts r
    sendAll s id o r ((ps.zip (upFrom 0 ps.length)).map fun e => remotePkt s id o r e.2 ps.length e.1.1 e.1.2.2 [] [])
  | .atom =>
    let s := match r.relScope with | some sc => noteRelease (releaseEffect s ck o.part 2 sc) o.slices false | none => s
    if r.accs.isEmpty then endRemote (sendAll s id o r []) id o r
    else sendAll s id o r [remotePkt s id o r 0 1 0 0 []
      (r.accs.map fun a => (a.lane, a.addrs.headD 0, a.opV, a.opE))]
  | _ =>
    let s := noteRelease (l1CleanAll s ck o.part 2) o.slices false
    sendAll s id o r [remotePkt s id o r 0 1 ((r.rem.head?.map (·.1)).getD 0) 4 (leBytes 4 r.val.toNat) []]

/-- Starts every remote operation that nothing holds back any more, and ends those whose answers have all come (log entry 27,
DEDUCED). -/
def kickRemotes (s : State) : State :=
  s.ops.foldl (fun t e =>
    match find e.1 t.ops with
    | some o => match o.body with
      | .remote r =>
        if !r.sent then (if o.after.all (depDone t) then sendRemote t e.1 o r else t)
        else if r.partsLeft.isEmpty then endRemote t e.1 o r
        else t
      | _ => t
    | none => t) s

/-- Posts a remote operation of some slices; one toward an island that is not live is not sent and retires as failed (R290), an
atomic with no lane, which sends nothing, aside. -/
def postRemote (s : State) (cx : Iss) (tok : Option Nat) (keys after : List Nat) (r : Remote) : State :=
  let id := s.nextOp
  let b : OpBody := .remote r
  let o := { mkOp s cx tok [] b with
    slices := keys, record := b.record keys, after := after ++ fencedOps s keys b, reads := acquireReads s keys b }
  let s := addOp s o
  if !isLoop s cx.tm.site r.dstPanel r.dst && r.dstPanel == s.fe.panel.toNat && !s.live r.dst
      && !(r.kind == .atom && r.accs.isEmpty) then failRemote s id o r 1
  else if o.after.all (depDone s) then sendRemote s id o r
  else s

/-! ### Issue -/

/-- Panel and island of a physical address. -/
def paPanel (pa : Nat) : Nat := bits pa 48 8
def paIsland (pa : Nat) : Nat := bits pa 44 4

/-- The first translated piece that lies on another island than the first (R293, Table 13.7). -/
def otherIsland (ps : List (Chk × Nat)) : Option (Chk × Nat) :=
  match ps with
  | [] => none
  | p :: t => t.find? fun q => bits q.2 44 12 != bits p.2 44 12

/-- Subcause 5 of the remote range of RPUT and RGET: the first page on another island than the first (Table 13.7). -/
def farRange (live : Nat) (ps : List (Chk × Nat)) : Option CauseRec :=
  (otherIsland (ps.filter fun p => p.1.unit == 1)).map fun q => cause 0x06 5 q.1.va live
/-- Subcause 5 of the lanes of an RATOM: those whose translation passed meet it together (Table 13.7, R48, R275). -/
def farLanes (us : List MUnit) (ps : List (Chk × Nat)) : Option CauseRec :=
  (otherIsland ps).map fun _ => { unitCause 0x06 (us.filter fun u => ps.any fun p => p.1.unit == u.n) with sub := 5 }

/-- Write operations of some slices toward an island: RPUT, RATOM and NADD (R296). -/
def remoteWrites (s : State) (keys : List Nat) (panel dst : Nat) : List Nat :=
  opsOf s keys fun b => match b with
    | .remote r => r.kind != .get && r.dstPanel == panel && r.dst == dst
    | _ => false

/-- Whether an operation touches bytes of local pieces. -/
def OpBody.overlaps (loc : List (Nat × Nat)) (writes : Bool) : OpBody → Bool
  | .access k false accs .. => (!writes || k != .load) && accs.any fun x => x.addrs.any fun a =>
      loc.any fun p => decide (p.1 ≤ a) && decide (a < p.1 + p.2)
  | .vpah _ rs _ => !writes && rs.any fun r => loc.any fun p => decide (p.1 < r.2.2 + 16) && decide (r.2.2 < p.1 + p.2)
  | _ => false

/-- The operand checks of RPUT and RGET (R293, Table 13.6). -/
def remoteCtlFault (s : State) (cx : Iss) (put : Bool) (v : Nat) : Option CauseRec :=
  let live := liveMask s cx.sp
  if bits v 60 2 ≠ 0 ∨ bits v 40 8 ≠ 0 ∨ bits v 25 11 ≠ 0 ∨ 2 ^ 24 < bits v 0 25 ∨ (!put ∧ bits v 62 2 ≠ 0) then
    some (cause 0x12 24 v live)
  else if put ∧ bitAt v 62 ∧ ncount (windowOfCtx s cx.asid) ≤ bits v 48 12 then some (cause 0x12 25 v live)
  else none

/-- RPUT and RGET (R293, R294). -/
def remoteWord (s : State) (i : Instr) (put : Bool) (d a b : BitVec 8) : Out :=
  checked s i fun cx =>
    let v := cx.g s d.toNat
    let live := liveMask s cx.sp
    let len := bits v 0 25
    let rva := cx.g s b.toNat
    match remoteCtlFault s cx put v with
    | some c => .error c
    | none =>
      let loc := if len = 0 then [] else chksOf 0 live (cx.g s a.toNat) len (if put then .r else .w) 1
      let rem := chksOf 1 live rva (if len = 0 then 1 else len) (if put then .w else .r) 2
      withXlate s cx i (loc ++ rem) (also := farRange live) fun pas =>
        let rs := pas.filter fun p => p.1.unit == 1
        match rs with
        | [] => .ok s
        | q :: _ =>
          match routeTo s cx.tm.site (paPanel q.2) (paIsland q.2) with
          | none => .error (cause 0x07 0 q.2 live)
          | some route =>
            let pieces := (pas.filter fun p => p.1.unit == 0).map fun p => (paKey p.2, p.1.n)
            let fen := put && bitAt v 63
            let deps := opsOf s [cx.low] (fun x => x.overlaps pieces put || x.isAcquire)
              ++ if fen then remoteWrites s [cx.low] (paPanel q.2) (paIsland q.2) else []
            let t := postRemote s cx (some (bits v 36 4)) cx.sp.keys deps
              { kind := if put then .put else .get, tokField := bits v 36 4, dstPanel := paPanel q.2, dst := paIsland q.2
                rem := rs.map fun p => (bits p.2 0 44, p.1.n), rva := rva, len := len, loc := pieces, fenced := fen
                notify := if put && bitAt v 62 then some (nbase (windowOfCtx s cx.asid) + bits v 48 12) else none
                route := route, since := (s.core cx.ck).cycles }
            .ok (advanceHeld t cx)

/-- RPUT (R294). -/
def execRput (d a b : BitVec 8) (s : State) : Out := remoteWord s (.rput d a b) true d a b
/-- RGET (R294). -/
def execRget (d a b : BitVec 8) (s : State) : Out := remoteWord s (.rget d a b) false d a b

/-- Units whose address lies in a notify counter. -/
def onCounter (pas : List (Chk × Nat)) (u : MUnit) : Bool :=
  pas.any fun p => p.1.unit == u.n && tableRegion (bits p.2 0 44) == .counter

/-- RATOM (R297): one operation per slice. -/
def execRatom (d a : BitVec 8) (t : BitVec 4) (op : BitVec 3) (sg w : Bool) (s : State) : Out :=
  checked s (.ratom d a t op sg w) fun cx =>
    let us := (guardedLanes s cx.sp).map fun le => le.atomUnit d op w (le.xs a.toNat 2)
    let mode := cx.sp.mode
    match misaligned us with
    | u :: r => .error (unitCause 0x04 (u :: r))
    | [] =>
      withXlate s cx (.ratom d a t op sg w) ((us.map fun u => chksOf u.n u.mask u.va u.bytes .rw 3).flatten) (also := farLanes us)
        fun pas =>
          match (if w then us.filter (onCounter pas) else []) with
          | u :: r => .error (unitCause 0x04 (u :: r))
          | [] =>
            let pa := match pas with | p :: _ => p.2 | [] => s.fe.panel.toNat * 2 ^ 48 + cx.tm.site * 2 ^ 44
            match routeTo s cx.tm.site (paPanel pa) (paIsland pa) with
            | none => .error { unitCause 0x07 us with tval := pa }
            | some route =>
              let rel := orderRel (modeORD mode)
              let scope := if rel then some (modeSCP mode) else none
              .ok (advanceHeld (cx.sp.keys.foldl (fun u k =>
                let mine := us.filter fun x => x.sk == k
                postRemote u cx (some t.toNat) [k]
                  (depsOf u k false ((mine.map fun x => (unitAddrs pas x)).flatten) scope)
                  { kind := .atom, tokField := t.toNat, dstPanel := paPanel pa, dst := paIsland pa
                    rva := (mine.head?.map MUnit.va).getD 0, aop := op, sgn := sg, wide := w
                    accs := mine.map fun x => x.acc ((pas.filter fun p => p.1.unit == x.n).map fun p => bits p.2 0 44)
                    route := route, relScope := scope, acq := orderAcq (modeORD mode), scope := modeSCP mode
                    since := (s.core cx.ck).cycles }) s) cx)

/-- NADD (R298). -/
def execNadd (d a : BitVec 8) (s : State) : Out :=
  checked s (.nadd d a) fun cx =>
    let des := cx.g s a.toNat
    let v := cx.g s d.toNat
    let live := liveMask s cx.sp
    let win := windowOfCtx s cx.asid
    let own := desOwn s cx.tm.site des
    let panel := if own then s.fe.panel.toNat else bits des 16 8
    let dst := if own then cx.tm.site else bits des 12 4
    let off := 0xC0000000000 + 4 * (nbase win + bits des 0 12)
    if desReserved des then .error (cause 0x12 24 des live)
    else if bits v 32 32 ≠ 0 then .error (cause 0x12 24 v live)
    else if ncount win ≤ bits des 0 12 then .error (cause 0x12 25 des live)
    else
      match routeTo s cx.tm.site panel dst with
      | none => .error (cause 0x07 0 (panel * 2 ^ 48 + dst * 2 ^ 44 + off) live)
      | some route =>
        let deps := opsOf s cx.sp.keys fun b => b.isWrite || b.isRead || b.isAcquire
          || (match b with | .remote r => r.kind == .put || r.kind == .atom | _ => false)
        .ok (advanceHeld (postRemote s cx none cx.sp.keys deps
          { kind := .add, tokField := 0, dstPanel := panel, dst := dst, rem := [(off, 4)], rva := bits des 0 24
            val := w32 v, route := route, since := (s.core cx.ck).cycles }) cx)

/-! ### At the target (R283, R290, R294 to R298, R301) -/

/-- The answer of a site to a packet. It takes the site's own route to the source; without one it is lost (R283). -/
def answer (s : State) (site : Nat) (p : Pkt) (k : PktKind) (data : List Byte) (lanes : List (Nat × Nat × Nat × Nat)) : State :=
  match routeTo s site p.srcPanel p.src with
  | none => s
  | some route => sendPkt s site { p with
      kind := k, srcPanel := s.fe.panel.toNat, src := site, dstPanel := p.srcPanel, dst := p.src, hops := route
      data := data, lanes := lanes, notify := none, poisoned := false }

/-- Whether a put's or a get's bytes, or an atomic's locations, are present at the target (R20, Table 13.8). -/
def presentAt (s : State) (site : Nat) (counter : Bool) (as : List Nat) : Bool :=
  as.all fun a => match s.region site a with
    | .hbm | .vault => true
    | .counter => counter
    | _ => false

/-- Counts a packet of a put as performed; answers whether it was the last, all before it having been performed. -/
def countPut (s : State) (site : Nat) (p : Pkt) : Bool × State :=
  let same := fun (x : PutProg) => x.site == site && x.srcPanel == p.srcPanel && x.src == p.src && x.op == p.op
  let done := (match s.puts.find? same with | some x => x.done | none => 0) + 1
  let others := s.puts.filter fun x => !same x
  if p.part + 1 = p.parts then (done == p.parts, { s with puts := others })
  else (false, { s with puts := others ++ [⟨site, p.srcPanel, p.src, p.op, done⟩] })

/-- Performs the lanes of a remote atomic one at a time in a free order: the old values, and the state (R297). -/
def atomLanes (site : Nat) (p : Pkt) : (fuel : Nat) → State → List (Nat × Nat × Nat × Nat) →
    List (Nat × Nat × Nat × Nat) × State
  | 0, s, _ => ([], s)
  | fuel + 1, s, ls =>
    let n := pick s (9 * 2 ^ 64 + 64 * p.op + fuel) ls.length
    match nth none (ls.map some) n with
    | none => ([], s)
    | some (lane, off, v, e) =>
      let w := if p.wide then 64 else 32
      let a := 2 ^ 44 * site + off
      let r :=
        if s.region site off = .counter then
          let old := (s.ctr (ctrKey a)).toNat
          (old, s.setCtr (ctrKey a) (w32 (atomNew p.aop p.sgn 32 old v e)))
        else
          let as := span a (w / 8)
          let old := leNat (pocBytes s as)
          (old, pocWrite s (bits p.pid.toNat 0 4) 2 (as.zip (leBytes (w / 8) (atomNew p.aop p.sgn w old v e))))
      let t := atomLanes site p fuel r.2 (dropNth ls n)
      ((lane, off, r.1, 0) :: t.1, t.2)

/-- A get's packet has been read at its target (R300). -/
def noteRead (s : State) (p : Pkt) : State :=
  if p.srcPanel ≠ s.fe.panel.toNat then s
  else s.modOp p.op fun o => match o.body with
    | .remote r => { o with body := .remote { r with unread := r.unread.filter (· != p.part) } }
    | _ => o

/-- A request packet performed at a site, and its answer (R294 to R298). -/
def serveRequest (s : State) (site : Nat) (p : Pkt) : State :=
  let part := bits p.pid.toNat 0 4
  let base := 2 ^ 44 * site
  if p.poisoned then s
  else if p.dstPanel ≠ s.fe.panel.toNat ∨ p.dst ≠ site then answer s site p (.fail 4) [] []
  else if (s.island site).underReset then answer s site p (.fail 1) [] []
  else
    match p.kind with
    | .put =>
      if !presentAt s site false (span p.addr p.len) then answer s site p (.fail 2) [] []
      else
        let s := if p.len = 0 then s else pocWrite s part 2 ((span (base + p.addr) p.len).zip p.data)
        let c := countPut s site p
        let s := match p.notify with | some n => if c.1 then addCounter c.2 site n 1 else c.2 | none => c.2
        answer s site p .putAck [] []
    | .get =>
      let as := span (base + p.addr) p.len
      if !presentAt s site false (span p.addr p.len) then answer s site p (.fail 2) [] []
      else
        match poisonedAt s as with
        | some l => answer s site p (.poison (linePa s l)) [] []
        | none => answer (noteRead (pocTouch s part 2 true as) p) site p .getData (pocBytes s as) []
    | .atom =>
      let n := if p.wide then 8 else 4
      if !presentAt s site true (p.lanes.map fun l => l.2.1) then answer s site p (.fail 2) [] []
      else
        match poisonedAt s ((p.lanes.map fun l => span (base + l.2.1) n).flatten) with
        | some l => answer s site p (.poison (linePa s l)) [] []
        | none =>
          let r := atomLanes site p p.lanes.length s p.lanes
          answer r.2 site p .atomReply [] r.1
    | .add => answer (addCounter s site ((p.addr - 0xC0000000000) / 4) (leNat p.data)) site p .addAck [] []
    | _ => s

/-! ### At the source (R294, R297, R301) -/

/-- One packet of an operation has been answered. -/
def partAnswered (s : State) (id : Nat) (o : Op) (r : Remote) (part : Nat) (sub : Option Nat) : State :=
  let r := { r with partsLeft := r.partsLeft.filter (· != part), unread := r.unread.filter (· != part)
                    failed := match r.failed with | some n => some n | none => sub }
  let o' := { o with body := .remote r }
  let s := { s with ops := put id o' s.ops }
  if r.partsLeft.isEmpty then
    match r.failed with | some n => failRemote s id o' r n | none => endRemote s id o' r
  else s

/-- The bytes of an answered get are written at the issuing island's L2 and vaults (R294). -/
def landGet (s : State) (o : Op) (r : Remote) (p : Pkt) : State :=
  match nth none ((remoteParts r).map some) p.part with
  | some e =>
    let as := localAddrs r e.2.1 e.2.2
    noteEngine (pocWrite s o.part 2 (as.zip p.data)) p.op o as
  | none => s

/-- The old values of a remote atomic land in their registers (R297). -/
def landAtom (s : State) (o : Op) (r : Remote) (p : Pkt) : State :=
  r.accs.foldl (fun t a =>
    match p.lanes.find? fun l => l.1 == a.lane with
    | some l => landAcc t o a ⟨l.2.2.1, 0⟩
    | none => t) s

/-- An answer taken at a site (R283, R290, R301). -/
def takeAnswer (s : State) (site : Nat) (p : Pkt) : State :=
  if p.poisoned || p.dstPanel != s.fe.panel.toNat || p.dst != site || (s.island site).underReset then s
  else if 2 ^ 32 ≤ p.op then signalAnswered s (p.op - 2 ^ 32)
  else
    match find p.op s.ops with
    | none => s
    | some o =>
      match o.body with
      | .remote r =>
        if o.site ≠ site ∨ !r.partsLeft.contains p.part then s
        else
          match p.kind with
          | .fail n => partAnswered s p.op o r p.part (some n)
          | .poison pa => finishOp (raiseOp s o (cause 0x15 0 pa o.lanes)) p.op o
          | .getData => partAnswered (landGet s o r p) p.op o r p.part none
          | .atomReply => partAnswered (landAtom s o r p) p.op o r p.part none
          | _ => partAnswered s p.op o r p.part none
      | _ => s

/-- A packet of another panel enters at an external port of a site: one with a poisoned tail is discarded, another goes on its
way or is taken there (R290, R303). -/
def enterPkt (s : State) (site : Nat) (p : Pkt) (take : State → Nat → Pkt → State) : State :=
  if p.poisoned then s else if p.hops.isEmpty then take s site p else sendPkt s site p

/-- The packet a reference names, when it stands at the end of its route behind no other of its flow. -/
def arrived (s : State) (pk : Nat) (asks : Bool) : Option PktSt :=
  match find pk s.pkts with
  | some p => if p.hops.isEmpty && p.onLink.isNone && pktAsks p.pkt == asks && !pktAudits p.pkt && !behind s pk p then some p else none
  | none => none

/-- REMOTE_REQUEST_ARRIVE (R294). -/
def execRemoteRequestArrive (r : PktRef) (s : State) : Out :=
  match r with
  | .here pk =>
    match arrived s pk true with
    | some p => .next (kickRemotes (serveRequest (dropPkt s pk p) p.site p.pkt))
    | none => .fault (.notEnabled "REMOTE_REQUEST_ARRIVE")
  | .ext site p =>
    if s.populated site && pktAsks p then .next (enterPkt s site p serveRequest)
    else .fault (.notEnabled "REMOTE_REQUEST_ARRIVE")

/-- REMOTE_RESPONSE_ARRIVE (R301). -/
def execRemoteResponseArrive (r : PktRef) (s : State) : Out :=
  match r with
  | .here pk =>
    match arrived s pk false with
    | some p => .next (kickRemotes (takeAnswer (dropPkt s pk p) p.site p.pkt))
    | none => .fault (.notEnabled "REMOTE_RESPONSE_ARRIVE")
  | .ext site p =>
    if s.populated site && !pktAsks p && !pktAudits p then .next (kickRemotes (enterPkt s site p takeAnswer))
    else .fault (.notEnabled "REMOTE_RESPONSE_ARRIVE")

/-- REMOTE_TIMEOUT (R301, subcause 3): no answer within 2^24 cycles of issue. -/
def execRemoteTimeout (id : Nat) (s : State) : Out :=
  match find id s.ops with
  | none => .fault (.notEnabled "REMOTE_TIMEOUT")
  | some o =>
    match o.body with
    | .remote r =>
      if r.since + Config.remoteTimeout ≤ s.cycleOf o.site o.core ∧ !(r.sent && r.partsLeft.isEmpty) then .next (kickRemotes (failRemote s id o r 3))
      else .fault (.notEnabled "REMOTE_TIMEOUT")
    | _ => .fault (.notEnabled "REMOTE_TIMEOUT")

end Sys2Proof.Machine
end

