-- ==== Sys2Proof/Machine/Complete.lean ====
section
/-! DEFINITION. OPERATION_COMPLETE (R110, R111): the completion of an operation that posted a token. -/
namespace Sys2Proof.Machine

/-- Whether a LAUNCH's header has been copied, or its launch has ended (R368). -/
def launchCopied (s : State) (lid : Nat) : Bool :=
  match find lid s.fe.launches with | some l => l.hdr.isSome | none => true

/-- What the completion of an operation does, when it is one that this step completes. -/
def completeOp (s : State) (id : Nat) (o : Op) : Option State :=
  match o.body with
  | .result lands flags =>
    let s := landAll s o lands
    some (finishOp (flags.foldl (fun t f => landFlags t o f.1 f.2.1 f.2.2) s) id o)
  | .access k scr accs ep lu aop sgn wide rel acq scope =>
    if accs.isEmpty && !o.reads.all (depDone s) then none
    else match checkWaiter s id with
    | some w => some (completeChecked s id o w accs ep)
    | none => some (completeAccess s id o k scr accs ep lu aop sgn wide rel acq scope)
  | .cmo op l2 lines ep => some (completeCmo s id o op l2 lines ep)
  | .vpah d reads ep => some (completeVpah s id o d reads ep)
  | .launch lid => if launchCopied s lid then some (finishOp s id o) else none
  | _ => none

/-- OPERATION_COMPLETE (R110): once the operations it comes after have taken effect. -/
def execOperationComplete (id : Nat) (s : State) : Out :=
  match find id s.ops with
  | none => .fault (.notEnabled "OPERATION_COMPLETE")
  | some o =>
    if !o.after.all (depDone s) then .fault (.notEnabled "OPERATION_COMPLETE")
    else
      match completeOp s id o with
      | some t => .next (kickRemotes t)
      | none => .fault (.notEnabled "OPERATION_COMPLETE")

end Sys2Proof.Machine
end

