-- ==== Sys2Proof/Machine/Place.lean ====
section
/-! DEFINITION. Kernel descriptors (R361), the resources of a core (R63, R125, R200, R207, R236), and the placement of teams
(R61 to R64, R365). -/
namespace Sys2Proof.Machine

/-! ### Kernel descriptors (Table 16.6) -/

/-- The number in `n` bytes at offset `o` of a record. -/
def fieldAt (l : List Byte) (o n : Nat) : Nat := leNat ((l.drop o).take n)

/-- One role of a kernel descriptor. -/
structure Role where
  entry : Nat
  gangs : Nat
  width : Nat
  size : Nat
  deriving DecidableEq, Repr

/-- Role `r`, and the roles a descriptor declares. -/
def roleAt (k : List Byte) (r : Nat) : Role :=
  ⟨fieldAt k (32 + 16 * r) 8, fieldAt k (40 + 16 * r) 1, fieldAt k (41 + 16 * r) 1, fieldAt k (42 + 16 * r) 2⟩
def rolesOf (k : List Byte) : List Role := (upFrom 0 (fieldAt k 4 1)).map (roleAt k)
/-- Tile mask of role `r`. -/
def tileMask (k : List Byte) (r : Nat) : Nat := fieldAt k (12 + r) 1

/-- Limits of one role (Table 16.6, R62). -/
def roleOk (r : Role) : Bool :=
  r.entry % 4 == 0 && decide (1 ≤ r.gangs) && decide (r.gangs ≤ 16) && [8, 16, 32, 64].contains r.width
    && decide (32 ≤ r.size) && decide (r.size ≤ 256) && r.size % 32 == 0

/-- Whether a kernel descriptor passes Table 16.6 and R62. -/
def kernelOk (k : List Byte) : Bool :=
  let n := fieldAt k 4 1
  let rs := rolesOf k
  let masks := (upFrom 0 4).map (tileMask k)
  let lanes := sumNat (rs.map fun r => r.gangs * r.width)
  fieldAt k 0 4 == 1 && decide (1 ≤ n) && decide (n ≤ 4) && fieldAt k 5 3 == 0
    && fieldAt k 8 4 % 1024 == 0 && decide (fieldAt k 8 4 ≤ 262144)
    && sumNat masks == masks.foldl (· ||| ·) 0 && (masks.drop n).all (· == 0)
    && decide (fieldAt k 16 1 ≤ 64) && decide (fieldAt k 17 1 ≤ 32)
    && fieldAt k 18 2 == lanes && decide (lanes ≤ 1024) && decide (sumNat (rs.map Role.gangs) ≤ 16)
    && modeValid (w32 (fieldAt k 20 4)) && precValid (w32 (fieldAt k 24 4)) && fieldAt k 28 4 == 0
    && rs.all roleOk
    && (upFrom 0 4).all (fun r => fieldAt k (44 + 16 * r) 4 == 0)
    && (k.drop (32 + 16 * n)).all (· == 0)

/-- Gangs of a team in role order (R62), each with its role's entry address. -/
def gangsOf (k : List Byte) : List (Gang × Nat) :=
  (((upFrom 0 (fieldAt k 4 1)).zip (rolesOf k)).map fun r =>
    List.replicate r.2.gangs ((⟨r.2.width, r.1, r.2.size, 0, false⟩ : Gang), r.2.entry)).flatten

/-- Allotted tile names, rising, with the role that owns each (R236). -/
def tileNames (k : List Byte) : List (Nat × Nat) :=
  ((upFrom 0 8).map fun t => ((upFrom 0 4).filter fun r => bitAt (tileMask k r) t).map fun r => (t, r)).flatten

/-! ### Free resources of a core (R63) -/

/-- Teams resident on a core. -/
def teamsOn (s : State) (ck : Nat) : List (Nat × Team) :=
  s.teams.filter fun e => decide (coreKey e.2.site e.2.core = ck) && e.2.resident

/-- Windows held on a core: position, origin, size. -/
def windowsOn (s : State) (ts : List (Nat × Team)) : List (Nat × Nat × Nat) :=
  (s.slices.filter fun e => !e.2.retired && ts.any fun t => t.1 == e.1 / 256).map fun e => (e.2.pos, e.2.origin, e.2.size)

/-- What a team asks of a core: of each gang the slices to place and their window size, then scratchpad bytes, tile names,
barrier slots and byte barriers. -/
structure Demand where
  gangs : List (Nat × Nat)
  scratch : Nat
  tiles : List (Nat × Nat)
  bars : Nat
  bbs : Nat
  deriving DecidableEq, Repr

/-- What a team is given: gang-table entries, position and origin of each slice by gang, scratchpad base, tiles, barriers. -/
structure Fit where
  entries : List Nat
  spots : List (List (Nat × Nat))
  base : Nat
  tiles : List (Nat × Nat × Nat)
  bars : List Nat
  bbs : List Nat
  deriving DecidableEq, Repr

/-- The lowest window origin of a position at which `n` free slots stand (R125). -/
def originFor (held : List (Nat × Nat × Nat)) (q n : Nat) : Option Nat :=
  ((upFrom 0 64).map fun k => 32 * k).find? fun o => decide (o + n ≤ Config.slotsPerLane) &&
    held.all fun w => w.1 != q || decide (o + n ≤ w.2.1) || decide (w.2.1 + w.2.2 ≤ o)

/-- Positions for a gang of `k` slices with windows of `n` slots: the first that can hold one (R63). -/
def spotsFor (held : List (Nat × Nat × Nat)) (k n : Nat) : Option (List (Nat × Nat)) :=
  let l := ((upFrom 0 Config.positions).filterMap fun q => (originFor held q n).map fun o => (q, o)).take k
  if l.length = k then some l else none

/-- Positions for every gang, in gang order. -/
def spotsAll : List (Nat × Nat) → List (Nat × Nat × Nat) → Option (List (List (Nat × Nat)))
  | [], _ => some []
  | (k, n) :: t, held =>
    match spotsFor held k n with
    | none => none
    | some l => (spotsAll t (held ++ l.map fun p => (p.1, p.2, n))).map fun r => l :: r

/-- The lowest range of `n` free units below `top` (R200); `held` lists base and units. -/
def unitsFor (held : List (Nat × Nat)) (top n : Nat) : Option Nat :=
  if n = 0 then some 0
  else (upFrom 0 (top + 1 - n)).find? fun b => held.all fun r => decide (b + n ≤ r.1) || decide (r.1 + r.2 ≤ b)

/-- The `n` lowest of `total` numbers that are not in use. -/
def lowestFree (used : List Nat) (total n : Nat) : Option (List Nat) :=
  let l := ((upFrom 0 total).filter fun k => !used.contains k).take n
  if l.length = n then some l else none

/-- Whether the team fits a core that holds `ts`, and what it is given (R63): of the free gang-table entries the lowest, in the order
of its gangs (log entry 75, DESIGN CHOICE). -/
def fitOn (s : State) (ck : Nat) (ts : List (Nat × Team)) (d : Demand) : Option Fit := do
  let live := (d.gangs.filter fun g => g.1 ≠ 0).length
  let taken := (ts.map fun t => (t.2.gangs.filter fun g => !g.retired).map Gang.entry).flatten
  let entries ← lowestFree taken 64 live
  let spots ← spotsAll d.gangs (windowsOn s ts)
  let units := ts.map fun t => (t.2.scratchBase / 1024, t.2.scratch / 1024)
  let base ← unitsFor (units.filter fun u => u.2 ≠ 0) (8 * (32 - (s.core ck).l1w.toNat)) (d.scratch / 1024)
  let tiles ← lowestFree (ts.map fun t => t.2.tiles.map fun x => x.2.2).flatten 8 d.tiles.length
  let bars ← lowestFree (ts.map fun t => t.2.barPhys).flatten 64 d.bars
  let bbs ← lowestFree (ts.map fun t => t.2.bbPhys).flatten 32 d.bbs
  return ⟨entries, spots, 1024 * base, (d.tiles.zip tiles).map fun x => (x.1.1, x.1.2, x.2), bars, bbs⟩

/-- Whether core `c` of an island is present (R21). -/
def corePresent (s : State) (site c : Nat) : Bool :=
  let i := s.island site
  if c < 64 then i.cmap0.getLsbD c else i.cmap1.getLsbD (c - 64)

/-- The first core, from the island's pointer on, that fits (R64). -/
def pickCore (s : State) (site : Nat) (d : Demand) : Option (Nat × Fit) :=
  let p := (s.island site).nextCore
  ((upFrom 0 128).map fun k => (p + k) % 128).findSome? fun c =>
    if corePresent s site c then (fitOn s (coreKey site c) (teamsOn s (coreKey site c)) d).map fun f => (c, f) else none

/-- Whether some present core of an island could hold a team with every resource free (subcause 7 of Table 16.7). -/
def couldHold (s : State) (site : Nat) (d : Demand) : Bool :=
  (upFrom 0 128).any fun c => corePresent s site c && (fitOn s (coreKey site c) [] d).isSome

/-- What a kernel's team asks for. -/
def kernelDemand (k : List Byte) : Demand :=
  ⟨(gangsOf k).map fun g => (g.1.width / 4, g.1.size), fieldAt k 8 4, tileNames k, fieldAt k 16 1, fieldAt k 17 1⟩

/-! ### A core ready to receive a team -/

/-- Writes 0 to the scratchpad range and the tiles given to a team, soft errors in them with them (R200, R236, R242). -/
def clearFit (s : State) (ck : Nat) (f : Fit) (bytes : Nat) : State :=
  let c := s.core ck
  let out := fun (a : Nat) => decide (a < f.base ∨ f.base + bytes ≤ a)
  let tile := fun (a : Nat) => !f.tiles.any fun x => x.2.2 == a / 4096
  s.setCore ck { c with scratch := c.scratch.filter fun e => out e.1
                        tiles := c.tiles.filter fun e => tile e.1
                        sramPast := c.sramPast.filter fun e => out e.1
                        badSram := c.badSram.filter out
                        badTiles := c.badTiles.filter tile }

/-- What the core does before the first instruction of a team that starts or resumes on it: the acquire part of an
island-scope fence, with the fetch buffer emptied (R342, R365, R398). -/
def welcome (s : State) (ck part : Nat) : State := acquireEffect s ck part 2 2

/-- Empties the record cache of a core (R228). -/
def dropRecords (s : State) (ck : Nat) : State := s.setCore ck { s.core ck with recs := [], recSince := s.tick + 1 }

/-! ### Placement (R64, R365) -/

/-- Values of g1 to g9 at a team's start (R365), as register units. -/
def startRegs (g : Grid) : SMap Word :=
  let vals := (upFrom 1 7).map (fun r => (r, fieldAt g.hdr (64 + 8 * (r - 1)) 8)) ++ [(8, g.header), (9, fieldAt g.hdr 0 8)]
  vals.foldl (fun m v => setD 0 (keyG v.1 1) (half v.2 1) (setD 0 (keyG v.1 0) (half v.2 0) m)) []

/-- A lane at a team's start (R61, R74, R365). -/
def startLane (prec : Word) (n : Nat) : Lane := { lid := w32 n, prec := prec }

/-- The slices of gang `g` at a team's start. -/
def startSlices (g : Grid) (tid gang size : Nat) (spots : List (Nat × Nat)) (m : SMap Slice) : SMap Slice :=
  let prec := w32 (fieldAt g.kdesc 24 4)
  ((upFrom 0 spots.length).zip spots).foldl (fun m e => put (sliceKey tid gang e.1)
    { pos := e.2.1, origin := e.2.2, size := size, regs := startRegs g
      lanes := fourLanes.map fun i => startLane prec (4 * e.1 + i) } m) m

/-- Puts gang after gang of a new team on its core: its slices, and one split of them all at the role's entry (R70). -/
def startGangs (g : Grid) (tid : Nat) : List (Nat × (Gang × Nat) × List (Nat × Nat)) → State → State
  | [], s => s
  | (k, x, spots) :: t, s =>
    let sp : Split := { team := tid, gang := k, slices := upFrom 0 spots.length, pc := BitVec.ofNat 48 x.2
                        pcHi := BitVec.ofNat 16 (bits x.2 48 16), mode := w32 (fieldAt g.kdesc 20 4) }
    startGangs g tid t { s with slices := startSlices g tid k x.1.size spots s.slices
                                splits := put s.nextSplit sp s.splits, nextSplit := s.nextSplit + 1 }

/-- Gang records with the table entries given to the gangs that hold one. -/
def withEntries : List Gang → List Nat → List Gang
  | [], _ => []
  | g :: t, es => if g.retired then g :: withEntries t es else { g with entry := es.headD 0 } :: withEntries t es.tail

/-- X and Y of a header in force (Table 16.5). -/
def extX (h : List Byte) : Nat := fieldAt h 16 4 + 1
def extY (h : List Byte) : Nat := fieldAt h 20 2 + 1
def extZ (h : List Byte) : Nat := fieldAt h 22 2 + 1
/-- X × Y × Z. -/
def teamCount (h : List Byte) : Nat := extX h * extY h * extZ h

/-- Starts team `idx` of a grid on core `c` of an island (R61, R63, R365). -/
def startTeam (s : State) (gid : Nat) (g : Grid) (site c idx : Nat) (f : Fit) : State :=
  let ck := coreKey site c
  let tid := s.nextTeam
  let gs := gangsOf g.kdesc
  let d := kernelDemand g.kdesc
  let first := !(teamsOn s ck).any fun t => t.2.asid == g.asid
  let s := clearFit s ck f d.scratch
  let s := welcome s ck (partOf s g.asid)
  let s := if first then dropRecords s ck else s
  let tm : Team :=
    { asid := g.asid, grid := gid, idx := w32 idx, x := w32 (idx % extX g.hdr)
      y := BitVec.ofNat 16 (idx / extX g.hdr % extY g.hdr), z := BitVec.ofNat 16 (idx / extX g.hdr / extY g.hdr)
      site := site, core := c, gangs := withEntries (gs.map (·.1)) f.entries
      scratchBase := f.base, scratch := d.scratch, tiles := f.tiles, barPhys := f.bars, bbPhys := f.bbs
      bars := List.replicate d.bars {}, bbs := List.replicate d.bbs {} }
  let s := { s with teams := put tid tm s.teams, nextTeam := tid + 1 }
  startGangs g tid ((upFrom 0 gs.length).zip (gs.zip f.spots)) s

/-- A context becomes resident (R359); one that was halted while it was saved resumes halted (R338). -/
def makeResident (s : State) (asid : Nat) : State :=
  s.modCtx asid fun c =>
    if c.resident then c
    else { c with resident := true, since := s.fe.fcyc, halted := c.halted || c.haltPending, haltPending := false }

/-- Whether a context is resident, or may become so because none is; and it is not ending (log entry 36, DESIGN CHOICE). -/
def serving (s : State) (asid : Nat) : Bool :=
  match find asid s.ctxs with
  | some c => (c.resident || !s.ctxs.any fun e => e.2.resident) && !c.ending
  | none => false

/-- Whether teams of a context may be placed: it serves and is not being pre-empted. -/
def mayPlace (s : State) (asid : Nat) : Bool :=
  serving s asid && match find asid s.ctxs with | some c => decide (c.pre = .none) | none => false

/-- TEAM_PLACEMENT (R64): the first team of a launch that waits on an island goes to the first core it fits. -/
def execTeamPlacement (site grid : Nat) (s : State) : Out :=
  match find grid s.fe.grids with
  | none => .fault (.notEnabled "TEAM_PLACEMENT")
  | some g =>
    match g.toPlace.find? fun e => e.1 == site with
    | some (_, idx :: rest) =>
      if !mayPlace s g.asid || (s.island site).underReset then .fault (.notEnabled "TEAM_PLACEMENT")
      else
        match pickCore s site (kernelDemand g.kdesc) with
        | none => .fault (.notEnabled "TEAM_PLACEMENT")
        | some (c, f) =>
          let tid := s.nextTeam
          let s := startTeam (makeResident s g.asid) grid g site c idx f
          let s := s.setIsland site { s.island site with nextCore := (c + 1) % 128 }
          let ck := coreKey site c
          let left := (g.toPlace.map fun e => if e.1 = site then (site, rest) else e).filter fun e => e.2 ≠ []
          let cores := if g.cores.contains ck then g.cores else g.cores ++ [ck]
          .next (s.modFe fun x => { x with
            grids := upd grid (fun g => { g with toPlace := left, cores := cores, tids := g.tids ++ [tid] }) x.grids })
    | _ => .fault (.notEnabled "TEAM_PLACEMENT")

end Sys2Proof.Machine
end

