-- ==== Sys2Proof/Machine/Translate.lean ====
section
/-! DEFINITION. Walks, the servicing of misses and replay (R274 to R278), instruction fetch (R49, R398), and the commands
that maintain the replicas (R279 to R281). -/
namespace Sys2Proof.Machine

/-! ### Commands (R372) -/

/-- Positions of the commands in progress: an update, invalidates, ends of contexts. -/
def openCommands (s : State) : List Nat :=
  asSet (s.fe.updPos.toList ++ (s.fe.shoots.map fun e => e.2.pos) ++ (s.ctxs.map fun e => e.2.endCmds).flatten)

/-- The trailer of the command ring's next slot (Table 16.2). -/
def cmdTrailer (s : State) : Nat := leNat ((upFrom (s.fe.cpos % 64 * 256 + 252) 4).map fun a => getD 0 a s.fe.cring)

/-- Whether the next command is of type `ty`: it is published, with the lap counted over 64 slots, and no other command is still
executing (R348, R372). -/
def commandNext (s : State) (ty : Nat) : Bool :=
  (openCommands s).isEmpty && bits (cmdTrailer s) 24 8 == 0x80 + s.fe.cpos / 64 % 128 && bits (cmdTrailer s) 0 8 == ty

/-- Ends the command at the current position of the command ring with a value and a status. -/
def endCommand (s : State) (value status : Nat) : State :=
  s.modFe fun f => { f with
    cres := setD 0 (f.cpos % 64) (BitVec.ofNat 64 (2 ^ 63 + value % 2 ^ 32 * 2 ^ 16 + status)) f.cres
    cpos := f.cpos + 1 }

/-- Runs the next command, of type `ty`: with `k`, or malformed where OCL, FSC or a reserved bit of its trailer is not 0. -/
def asCommand (ty : Nat) (name : String) (s : State) (k : Out) : Out :=
  if !commandNext s ty then .fault (.notEnabled name)
  else if bits (cmdTrailer s) 8 16 ≠ 0 then .next (endCommand s 0 1)
  else k

/-- A command's outcome: its state and value, or the status that refuses it, which changes nothing. -/
def answerCommand (s : State) (r : Except Nat (State × Nat)) : Out :=
  match r with
  | .ok p => .next (endCommand p.1 p.2 0)
  | .error n => .next (endCommand s 0 n)

/-- A command that ends at once. -/
def command (ty : Nat) (name : String) (s : State) (r : Except Nat (State × Nat)) : Out := asCommand ty name s (answerCommand s r)

/-- A command that goes on: the ring advances, and its result word is written when it ends. -/
def beginCommand (s : State) : State := s.modFe fun f => { f with cpos := f.cpos + 1 }

/-- Writes the result word of the command at a position (R372). -/
def finishCommand (s : State) (pos value status : Nat) : State :=
  s.modFe fun f => { f with
    cres := setD 0 (pos % 64) (BitVec.ofNat 64 (2 ^ 63 + value % 2 ^ 32 * 2 ^ 16 + status)) f.cres }

/-! ### Whose misses -/

/-- What a walk needs to know of its requester: context, island, core (0xFF where none issued the access) and misses. -/
structure Walker where
  asid : Nat
  site : Nat
  core : Nat
  misses : List Miss

/-- The parked split or launch a step names. -/
def walkerOf (s : State) : Who → Option Walker
  | .split sid =>
    match find sid s.splits with
    | none => none
    | some sp =>
      match sp.park, find sp.team s.teams with
      | some p, some t => some ⟨t.asid, t.site, t.core, p.misses⟩
      | _, _ => none
  | .launch lid =>
    match find lid s.fe.launches with
    | none => none
    | some l =>
      match lowestReplica s l.asid with
      | some site => if l.misses.isEmpty then none else some ⟨l.asid, site, 0xFF, l.misses⟩
      | none => none

/-- Replaces the misses of a requester. -/
def setMisses (s : State) (who : Who) (ms : List Miss) : State :=
  match who with
  | .split sid => s.modSplit sid fun p => { p with park := p.park.map fun k => { k with misses := ms } }
  | .launch lid => s.modFe fun f => { f with launches := upd lid (fun l => { l with misses := ms }) f.launches }

/-- Sets how the misses that `f` picks stand, in every requester, by its context and the island of its walks. -/
def moveMisses (s : State) (f : Nat → Nat → Miss → Option MissSt) : State :=
  let g := fun (asid site : Nat) (m : Miss) => match f asid site m with | some st => { m with st := st } | none => m
  let inSplit := fun (e : Nat × Split) => match find e.2.team s.teams with
    | some t => (e.1, { e.2 with park := e.2.park.map fun k => { k with misses := k.misses.map (g t.asid t.site) } })
    | none => e
  let inLaunch := fun (e : Nat × Launch) =>
    (e.1, { e.2 with misses := e.2.misses.map (g e.2.asid ((lowestReplica s e.2.asid).getD 16)) })
  { s with splits := s.splits.map inSplit, fe := { s.fe with launches := s.fe.launches.map inLaunch } }

/-- Sets how one miss of a requester stands. -/
def moveMiss (s : State) (who : Who) (w : Walker) (m : Miss) (st : MissSt) : State :=
  setMisses s who (w.misses.map fun x => if x = m then { x with st := st } else x)

/-! ### Walks (R274) -/

/-- The event of a translation fault (R278, R386). -/
def faultEvent (s : State) (w : Walker) (svc flags origin : Nat) (m : Miss) (kind level : Nat) : List Byte :=
  let core := if 2 ≤ m.cls then 0xFF else w.core
  eventRecord 1 flags svc w.site s.fe.panel.toNat w.asid (faultRecord m.va svc w.site core kind level origin w.asid)

/-- FMODE of a context on an island (R270). -/
def fmode (s : State) (asid site : Nat) : Nat := match descriptor s asid site with | some d => bits d.toNat 8 1 | none => 0

/-- Puts the leaf of a walk into the island's TLB and into those of the cores whose splits waited for its page (R274). -/
def fillTlbs (s : State) (asid site va : Nat) (r : WalkRes) : State :=
  match r with
  | .leaf l e =>
    let t := tlbOf asid l va e
    let s := s.setIsland site { s.island site with tlb := tlbAdd Config.islandTlb t (s.island site).tlb }
    let waits := fun (e : Nat × Split) => match e.2.park, find e.2.team s.teams with
      | some k, some tm => if tm.asid = asid ∧ tm.site = site ∧ k.misses.any (fun m => decide (m.st = .walk) && r.covers va m.va)
          then some (coreKey site tm.core) else none
      | _, _ => none
    (asSet (s.splits.filterMap waits)).foldl
      (fun u ck => u.setCore ck { u.core ck with tlb := tlbAdd Config.coreTlb t (u.core ck).tlb }) s
  | _ => s

/-- The class that the accesses made for a requester give an L2 line: its split's, or normal (R258; log entry 64, DEDUCED). -/
def whoRet (s : State) : Who → Nat
  | .split sid => match find sid s.splits with | some p => retOf (modeEP p.mode) | none => 2
  | .launch _ => 2

/-- PAGE_WALK (R274): the first page still to walk is walked, for every access that waits for it; a malformed entry posts its
record (R275). -/
def execPageWalk (who : Who) (s : State) : Out :=
  match walkerOf s who with
  | none => .fault (.notEnabled "PAGE_WALK")
  | some w =>
    match w.misses.find? fun m => decide (m.st = .walk) with
    | none => .fault (.notEnabled "PAGE_WALK")
    | some m =>
      let r := walk s w.asid w.site m.va
      let t := touchWalk s w.asid w.site m.va (partOf s w.asid) (whoRet s who)
      let t := match who with | .split _ => fillTlbs t w.asid w.site m.va r | .launch _ => t
      let t := moveMisses t fun asid site x =>
        if asid = w.asid ∧ site = w.site ∧ x.st = .walk ∧ r.covers m.va x.va = true then some (missAfter s w.site r x) else none
      .next (match r with
        | .malformed l => if l < 4 then postCtx w.asid (faultEvent s w 0 0 (fmode s w.asid w.site) m 5 l) t else t
        | _ => t)

/-! ### Frames and leaves (R278) -/

/-- Takes `n` bytes, aligned to `n`, from ranges of addresses and bytes. -/
def takeFrame (n : Nat) : List (Nat × Nat) → Option (Nat × List (Nat × Nat))
  | [] => none
  | (a, k) :: t =>
    let lo := roundUp a n
    if lo + n ≤ a + k then
      some (lo, ([(a, lo - a), (lo + n, a + k - (lo + n))] ++ t).filter fun r => r.2 ≠ 0)
    else (takeFrame n t).map fun r => (r.1, (a, k) :: r.2)

/-- Takes a frame from the frame pool of an island (log entry 34, DEDUCED). -/
def takePool (s : State) (site n : Nat) : Option (Nat × State) :=
  (takeFrame n (getD [] site s.fe.frames)).map fun r =>
    (r.1, s.modFe fun f => { f with frames := put site r.2 f.frames })

/-- Zeroes a range of island memory, `a` and `n` multiples of 128. -/
def zeroRange (s : State) (a n : Nat) : State := overwrite s a n []

/-- Writes a page-table entry of a replica for a partition, single-copy atomically (R259, R279). -/
def writeEntry (s : State) (part site off : Nat) (v : Nat) : State :=
  pocWrite s part 2 ((span (2 ^ 44 * site + off) 8).zip (leBytes 8 v))

/-- The contents of a new table under an entry: none valid, or under a leaf `e` the leaves of the level below that map its page piece
by piece as `e` did. -/
def tableBytes (l e n : Nat) : List Byte :=
  if bitAt e 0 then ((upFrom 0 (n / 8)).map fun k => leBytes 8 (e + k * pageBytes (l + 1))).flatten else []

/-- Makes the table entries of a replica lead to a leaf at a level; tables that are missing come from the island's pool. A leaf of a
larger page that stands in the way, since it leads into a hole, is divided into leaves of the level below (log entry 82, DESIGN
CHOICE). None when the pool lacks a frame. -/
def installFrom (part site va level leaf : Nat) : (fuel l table : Nat) → State → Option State
  | 0, _, _, s => some s
  | fuel + 1, l, table, s =>
    let at_ := table + 8 * levelIndex l va
    if l = level then some (writeEntry s part site at_ leaf)
    else
      let e := readEntry s (2 ^ 44 * site + at_)
      if bitAt e 0 && !bitAt e 1 then installFrom part site va level leaf fuel (l + 1) (bits e 8 36 * 256) s
      else
        let n := if l = 2 then 256 else 4096
        match takePool s site n with
        | none => none
        | some (f, s) =>
          let a := 2 ^ 44 * site + f
          let s := overwrite s a n ((span a n).zip (tableBytes l e n))
          let s := writeEntry s part site at_ (s.fe.panel.toNat * 2 ^ 48 + site * 2 ^ 44 + f + 1)
          installFrom part site va level leaf fuel (l + 1) f s

/-- Whether a TLB entry maps some byte of a range of a context. -/
def tlbHits (asid first last : Nat) (e : Tlb) : Bool :=
  e.asid == asid && decide (e.vpn * pageBytes e.level ≤ last) && decide (first < (e.vpn + 1) * pageBytes e.level)

/-- Removes the matching entries of an island's TLBs (R281). -/
def dropTlbs (s : State) (site asid first last : Nat) : State :=
  let keep := fun (l : List Tlb) => l.filter fun e => !tlbHits asid first last e
  let s := s.setIsland site { s.island site with tlb := keep (s.island site).tlb }
  { s with cores := s.cores.map fun e => if e.1 / 128 = site then (e.1, { e.2 with tlb := keep e.2.tlb }) else e }

/-- Installs a leaf in every replica of a context (R278); no TLB keeps a leaf that it replaces. -/
def installLeaf (s : State) (asid va level leaf : Nat) : Option State :=
  match find asid s.ctxs with
  | none => none
  | some c => c.descs.foldl (fun (r : Option State) d =>
      r.bind fun t => (installFrom (partOf s asid) d.1 va level leaf 4 0 (bits d.2.toNat 12 32 * 4096) t).map fun u =>
        dropTlbs u d.1 asid va va) (some s)

/-- The leaf of a frame for a fill range (Table 12.4). -/
def fillLeaf (s : State) (site off : Nat) (f : FillRange) : Nat :=
  s.fe.panel.toNat * 2 ^ 48 + site * 2 ^ 44 + off + f.perm.toNat * 4 + 3

/-! ### Servicing (R278) -/

/-- Host-assisted servicing: a service under a fresh number, and its event (R278, R387). -/
def hostService (s : State) (who : Who) (w : Walker) (m : Miss) (level : Nat) (hole : Bool) (flags origin : Nat) : State :=
  let n := freeSvc s
  let ev := faultEvent s w n flags origin m (needKind m.need) level
  let s := postCtx w.asid ev (openSvc (.fault w.asid w.site m.va) (some w.asid) ev s)
  moveMiss s who w m (.service n hole)

/-- The notice that a pool is exhausted, ETYPE 7 (R386): pool 1 frame, 2 save, 3 map-out; the last concerns no context. -/
def poolExhausted (s : State) (site : Nat) (asid : Option Nat) (pool : Nat) : State :=
  let ev := plainEvent s 7 0 site (asid.getD 0) (leBytes 1 pool)
  let s := postPanel ev s
  match asid with | some a => postCtx a ev s | none => s

/-- Whether a miss lies in the page a service is about: a page of the context for a fill, which installs its leaf in every
replica; a page of the island's replica for a service by the host (R278). -/
def samePage (asid site va : Nat) (k : SvcKind) : Bool :=
  match k with
  | .fault a t v => a == asid && t == site && v / 2 ^ 16 == va / 2 ^ 16
  | .fillRead a _ v _ f .. => a == asid && v / pageBytes f.level == va / pageBytes f.level
  | _ => false

/-- A service has ended: the misses that it served, with those of its page that have not yet joined it, go on as `f` of whether
they are holes says (R278). -/
def endService (s : State) (svc : Nat) (k : SvcKind) (f : Bool → MissSt) : State :=
  moveMisses s fun asid site m => match m.st with
    | .service n h => if n = svc then some (f h) else none
    | .missed _ h => if samePage asid site m.va k then some (f h) else none
    | _ => none

/-- Hardware-mode servicing: the fill range's frame, zeroed or read from its host buffer, or the fault declined, or
passed on when the pool lacks a frame. An address that has become mapped meanwhile is walked again. -/
def fillService (s : State) (who : Who) (w : Walker) (m : Miss) (level : Nat) (hole : Bool) : State :=
  let fills := match find w.asid s.ctxs with | some c => c.fills | none => []
  match missAfter s w.site (walk s w.asid w.site m.va) m with
  | .missed _ _ =>
    match fills.find? fun f => decide (f.first ≤ m.va) && decide (m.va < f.first + f.bytes) with
    | none => moveMiss s who w m (.declined 0x05 (if hole then 2 else 1))
    | some f =>
      let n := pageBytes f.level
      let passOn := hostService (poolExhausted s w.site (some w.asid) 1) who w m level hole 1 2
      match takePool s w.site n with
      | none => passOn
      | some (off, t) =>
        let fill := SvcKind.fillRead w.asid w.site m.va [(off, n)] f (if 2 ≤ m.cls then 0xFF else w.core)
          (needKind m.need) level
        match f.copy with
        | none =>
          match installLeaf (zeroRange t (2 ^ 44 * w.site + off) n) w.asid m.va f.level (fillLeaf t w.site off f) with
          | none => passOn
          | some t => endService t 0 fill fun _ => .walk
        | some (base, key, conn) =>
          let svc := freeSvc t
          let t := openSvc fill (some w.asid) [] t
          let t := { t with rdmaOut := t.rdmaOut ++ [.read conn.toNat (base.toNat + (m.va / n * n - f.first)) key n svc] }
          moveMiss t who w m (.service svc hole)
  | _ => moveMiss s who w m .walk

/-- FAULT_SERVICE (R278): the first miss still to be serviced joins the service of its page or starts one. -/
def execFaultService (who : Who) (s : State) : Out :=
  match walkerOf s who with
  | none => .fault (.notEnabled "FAULT_SERVICE")
  | some w =>
    match w.misses.findSome? fun m => match m.st with | .missed l h => some (m, l, h) | _ => none with
    | none => .fault (.notEnabled "FAULT_SERVICE")
    | some (m, l, h) =>
      match s.fe.svcs.find? fun e => samePage w.asid w.site m.va e.2.kind with
      | some e => .next (moveMiss s who w m (.service e.1 h))
      | none =>
        if svcsFull s then .fault (.notEnabled "FAULT_SERVICE")
        else if fmode s w.asid w.site = 1 then .next (hostService s who w m l h 0 1) else .next (fillService s who w m l h)

/-- The host's data fill the frame of a copy fill, the leaf is installed, and the accesses are replayed (R278). -/
def fillData (svc : Nat) (data : List (BitVec 8)) (s : State) : Out :=
  match find svc s.fe.svcs with
  | none => .fault (.notEnabled "FILL_READ_RESPONSE")
  | some v =>
    match v.kind with
    | .fillRead asid site va [(off, n)] f core kind level =>
      if data.length ≠ n then .fault (.notEnabled "FILL_READ_RESPONSE")
      else
        let a := 2 ^ 44 * site + off
        let s := s.modFe fun x => { x with svcs := del svc x.svcs }
        let s := overwrite s a n ((span a n).zip data)
        match installLeaf s asid va f.level (fillLeaf s site off f) with
        | some t => .next (endService t svc v.kind fun _ => .walk)
        | none =>
          -- the pool lacks a frame for a table: the fault passes to host-assisted servicing
          let s := poolExhausted s site (some asid) 1
          let n := freeSvc s
          let ev := faultEvent s ⟨asid, site, core, []⟩ n 1 2 ⟨va, .r, .walk, 0⟩ kind level
          let s := postCtx asid ev (openSvc (.fault asid site va) (some asid) ev s)
          .next (moveMisses s fun _ _ m => match m.st with
            | .service k h => if k = svc then some (.service n h) else none | _ => none)
    | _ => .fault (.notEnabled "FILL_READ_RESPONSE")

/-! ### Replay (R276) -/

/-- Whether a miss is settled: passed or declined. -/
def MissSt.settled : MissSt → Bool
  | .passed _ | .declined _ _ => true
  | _ => false

/-- Whether a split is about to replay an instruction that has issued. -/
def Split.reissues (p : Split) : Bool := p.held.isSome

/-- Whether a split is about to replay its instruction or its fetch, with results of checks (R276, R277). -/
def Split.replays (p : Split) : Bool := p.reissues || !p.passed.isEmpty || !p.declined.isEmpty

/-- A split whose park has ended: it holds the results of its checks, earlier parks of the word included, and the instruction that
it parked at (R276). -/
def Split.unpark (p : Split) (k : Park) (pass : List (Nat × Need × Nat)) (decl : List (Nat × Need × Nat × Nat)) : Split :=
  { p with park := none, passed := p.passed ++ k.passed ++ pass, declined := p.declined ++ decl
           held := match k.what with | .instr i => some ⟨i, k.step⟩ | _ => p.held }

/-- TRANSLATION_REPLAY (R276): once every missing page is settled the split checks again the lanes that had not passed:
its instruction issues again, with its operands as they were read and with what passed and what was declined; an acceptance or a
fetch goes on, for which the split's wait has ended (R107), and a launch reads on. -/
def execTranslationReplay (who : Who) (s : State) : Out :=
  match walkerOf s who with
  | none => .fault (.notEnabled "TRANSLATION_REPLAY")
  | some w =>
    if !w.misses.all fun m => m.st.settled then .fault (.notEnabled "TRANSLATION_REPLAY")
    else
      let pass := w.misses.filterMap fun m => match m.st with | .passed pa => some (m.va, m.need, pa) | _ => none
      let decl := w.misses.filterMap fun m => match m.st with | .declined c n => some (m.va, m.need, c, n) | _ => none
      match who with
      | .split sid =>
        let keys := match find sid s.splits with | some p => p.keys | none => []
        match (find sid s.splits).bind Split.park with
        | none => .next s
        | some k =>
          let t := if (match k.what with | .instr _ => true | _ => false) then s else s.mapSlices keys Slice.settle
          .next (t.modSplit sid fun p => p.unpark k pass decl)
      | .launch lid => .next (s.modFe fun f => { f with launches := upd lid (fun l =>
          { l with misses := [], passed := l.passed ++ pass, declined := decl.map fun d => (d.1, d.2.2.2) }) f.launches })

/-! ### Instruction fetch (R49, R398) -/

/-- The word a split would issue, when its translation passes and the fetch buffer holds it. -/
def fetched (s : State) (t : Team) (sp : Split) : Option Nat :=
  match xlateOne s { asid := t.asid, site := t.site, ck := coreKey t.site t.core, passed := sp.passed
                     declined := sp.declined } .x sp.va with
  | .ok pa => if (find (paKey pa) (s.core (coreKey t.site t.core)).fetch).isSome then some pa else none
  | _ => none

/-- INSTRUCTION_FETCH (R398): the word at the split's PC enters the fetch buffer, or the split parks (R277), or the
translation's cause is raised at it (R49). -/
def execInstructionFetch (ck sid : Nat) (s : State) : Out :=
  match find sid s.splits with
  | none => .fault (.notEnabled "INSTRUCTION_FETCH")
  | some sp =>
    match find sp.team s.teams with
    | none => .fault (.notEnabled "INSTRUCTION_FETCH")
    | some t =>
      if coreKey t.site t.core ≠ ck ∨ sp.park.isSome then .fault (.notEnabled "INSTRUCTION_FETCH")
      else
        let cs : List Chk := [⟨0, liveMask s sp, sp.va, 4, .x, 0⟩]
        match xlateAll s { asid := t.asid, site := t.site, ck := ck, passed := sp.passed, declined := sp.declined } cs with
        | .ok ((_, pa) :: _) => .next (fetchWord s ck (partOf s t.asid) (retOf (modeEP sp.mode)) pa).2
        | .ok [] => .next s
        | .park ms ps => .next (parkSplit s sid .fetch ms ps)
        | .fault c => .next (raiseAt s sid c)

/-! ### Commands over the replicas (Table 12.7) -/

/-- XL_DESC (R270, R279). -/
def execXlDesc (asid site : Nat) (desc : BitVec 64) (s : State) : Out :=
  command 0x20 "XL_DESC" s <|
    if bits desc.toNat 56 8 ≠ 0 ∨ bits desc.toNat 9 3 ≠ 0 ∨ bits desc.toNat 0 8 ≠ asid ∨ !s.populated site then .error 1
    else if (find asid s.ctxs).isNone then .error 2
    else .ok (s.modCtx asid fun c => { c with descs := put site desc c.descs }, 0)

/-- XL_WRITE (R279, R280): each entry is written at its offset in each named replica's island. -/
def execXlWrite (sites : List Nat) (entries : List (Nat × BitVec 64)) (s : State) : Out :=
  command 0x21 "XL_WRITE" s <|
    if sites.any (fun t => !s.populated t) || sites.any (fun t => entries.any fun e =>
        e.1 % 8 != 0 || !(match s.region t e.1 with | .hbm | .vault => true | _ => false)) then .error 1
    else .ok (sites.foldl (fun u t => entries.foldl (fun u e => writeEntry u 0 t e.1 e.2.toNat) u) s, 0)

/-- What a split has passed and not yet used, the misses of a park that a walk has settled included. -/
def Split.holds (p : Split) : List (Nat × Need × Nat) :=
  p.passed ++ match p.park with
    | some k => k.passed ++ k.misses.filterMap fun m => match m.st with | .passed pa => some (m.va, m.need, pa) | _ => none
    | none => []

/-- Whether a split still holds a check that passed with an address of a range (R281; log entry 33, DEDUCED). -/
def holdsRange (s : State) (first last sid : Nat) : Bool :=
  match find sid s.splits with | some p => p.holds.any fun e => inRange first last e.1 1 | none => false

/-- The shootdown of a range of a context on an island: the operations and splits of it whose checks passed with an entry of the
range (R281). -/
def shootOf (s : State) (site asid first last pos : Nat) : Shoot :=
  { site := site, asid := asid, first := first, last := last, pos := pos
    ops := (s.ops.filter fun e => e.2.asid == asid && e.2.site == site && e.2.passes.any fun p => inRange first last p.1 p.2).map (·.1)
    splits := (s.splits.filter fun e => holdsRange s first last e.1 && (match find e.2.team s.teams with
      | some t => t.asid == asid && t.site == site | none => false)).map (·.1) }

/-- XL_INVAL (R281): starts a shootdown on each named island; the command ends with the last acknowledgement. -/
def execXlInval (asid first last : Nat) (sites : List Nat) (s : State) : Out :=
  asCommand 0x22 "XL_INVAL" s <|
  if sites.isEmpty || sites.any (fun t => !s.populated t) || decide (last < first) then answerCommand s (.error 1)
  else
    let pos := s.fe.cpos
    let s := sites.foldl (fun t site =>
      let t := dropTlbs t site asid first last
      t.modFe fun f => { f with shoots := put f.nextId (shootOf t site asid first last pos) f.shoots, nextId := f.nextId + 1 }) s
    .next (beginCommand s)

/-- SHOOTDOWN_ACK (R281). -/
def execShootdownAck (sd : Nat) (s : State) : Out :=
  match find sd s.fe.shoots with
  | none => .fault (.notEnabled "SHOOTDOWN_ACK")
  | some h =>
    if h.ops.any (fun o => (find o s.ops).isSome) || h.splits.any (holdsRange s h.first h.last) then .fault (.notEnabled "SHOOTDOWN_ACK")
    else
      let s := s.modFe fun f => { f with shoots := del sd f.shoots }
      if s.fe.shoots.any fun e => e.2.pos == h.pos then .next s
      else .next (finishCommand s h.pos 0 0)

/-- XL_RESOLVE (R278, R387): retry walks again, deny declines. -/
def execXlResolve (svc : Nat) (retry : Bool) (s : State) : Out :=
  command 0x23 "XL_RESOLVE" s <|
    match find svc s.fe.svcs with
    | some ⟨.fault a t v, _, _, _⟩ =>
      let s := s.modFe fun f => { f with svcs := del svc f.svcs }
      .ok (endService s svc (.fault a t v) fun h => if retry then .walk else .declined 0x05 (if h then 2 else 1), 0)
    | _ => .error 2

/-- XL_FILL (R278): a fill range of whole pages of its level. -/
def execXlFill (asid : Nat) (f : FillRange) (s : State) : Out :=
  command 0x24 "XL_FILL" s <|
    if f.level = 0 ∨ 3 < f.level ∨ f.bytes = 0 ∨ f.first % pageBytes f.level ≠ 0 ∨ f.bytes % pageBytes f.level ≠ 0
        ∨ 2 ^ 48 < f.first + f.bytes then .error 1
    else if (find asid s.ctxs).isNone then .error 2
    else .ok (s.modCtx asid fun c => { c with fills := c.fills ++ [f] }, 0)

/-- POOL (R268, R278, R339, R372): kind 1 adds frames, 2 save areas, 3 map-out frames, of ranges of island offsets. -/
def execPool (kind site : Nat) (ranges : List (Nat × Nat)) (s : State) : Out :=
  let add := fun (m : SMap (List (Nat × Nat))) => put site (getD [] site m ++ ranges) m
  command 0x25 "POOL" s <|
    if !s.populated site || ranges.any (fun r => r.1 % 4096 != 0 || r.2 % 4096 != 0
        || decide ((s.island site).hcap < r.1 + r.2)) then .error 1
    else match kind with
      | 1 => .ok (s.modFe fun f => { f with frames := add f.frames }, 0)
      | 2 => .ok (s.modFe fun f => { f with saves := add f.saves }, 0)
      | 3 => .ok (s.modFe fun f => { f with spares := add f.spares }, 0)
      | _ => .error 1

end Sys2Proof.Machine
end

