-- ==== Sys2Proof/Machine/Launch.lean ====
section
/-! DEFINITION. Launch processors: the header, the prologue, the checks of Table 16.7 and the home islands (R362 to R366). -/
namespace Sys2Proof.Machine

/-! ### Reads of a launch processor (R362) -/

/-- What the translation of one address gives a launch: an address, a miss to wait for, or no access. -/
inductive FeX where
  | ok (pa : Nat)
  | park (m : Miss)
  | bad
  deriving DecidableEq, Repr

/-- Translation through the context's lowest replica; one that has passed stands (R276), and an address whose service was declined
gives no access. -/
def feXlate (s : State) (l : Launch) (need : Need) (cls va : Nat) : FeX :=
  if 2 ^ 48 ≤ va ∨ l.declined.any (fun d => d.1 == va) then .bad
  else match l.passed.find? fun p => p.1 == va && decide (p.2.1 = need) with
  | some p => .ok p.2.2
  | none =>
    match lowestReplica s l.asid with
    | none => .bad
    | some site =>
      match walk s l.asid site va with
      | .leaf lv e => match judge s site cls need va lv e with
        | .ok pa => .ok pa
        | .miss _ _ => .park ⟨va, need, .walk, cls⟩
        | _ => .bad
      | _ => .park ⟨va, need, .walk, cls⟩

/-- The walk of an address that translates, and has not passed before, reads the replica at the L2 (R257, R274). -/
def feTouch (s : State) (l : Launch) (need : Need) (cls va : Nat) : State :=
  match feXlate s l need cls va, lowestReplica s l.asid with
  | .ok _, some site =>
    if l.passed.any fun p => p.1 == va && decide (p.2.1 = need) then s else touchWalk s l.asid site va (partOf s l.asid) 2
  | _, _ => s

/-- Bytes a launch processor reads at a point of coherence, within one page. An address in the state page or in a notify counter gives
no access (log entry 81, DESIGN CHOICE). -/
def feRead (s : State) (l : Launch) (va n : Nat) : Except (Option Miss) (List Byte × State) :=
  match feXlate s l .r 1 va with
  | .ok pa =>
    let as := span (paKey pa) n
    .ok (pocBytes s as, pocTouch (feTouch s l .r 1 va) (partOf s l.asid) 2 true as)
  | .park m => .error (some m)
  | .bad => .error none

/-! ### The prologue (R363) -/

/-- How a prologue goes on after an instruction, or ends, or parks with the checks of that instruction that have passed. -/
inductive ProRes where
  | go (p : Pro) (s : State)
  | exit (sl : Slice) (s : State)
  | park (m : Miss) (passed : List (Nat × Need × Nat)) (p : Pro) (s : State)
  | bad (s : State)

/-- Key of the free reads of instruction `n` of a prologue. -/
def proKey (n : Nat) : Nat := 2 ^ 40 + n
/-- A g register as instruction `n` reads it. -/
def Pro.g (s : State) (p : Pro) (r : BitVec 8) : Nat := readG s.tick (proKey p.n) p.sl false r.toNat
/-- The next instruction after `slots` issue slots. -/
def Pro.goOn (p : Pro) (s : State) (sl : Slice) (slots pc : Nat) : ProRes := .go ⟨sl.pass slots, pc % 2 ^ 48, p.n + 1⟩ s
/-- A fixed-latency g result (R103). -/
def Pro.set (p : Pro) (s : State) (d : BitVec 8) (v : Nat) : ProRes := p.goOn s (p.sl.writeG false 2 d.toNat v) 1 (p.pc + 4)
/-- A result that a token covers (R115, R116). -/
def Pro.post (p : Pro) (s : State) (tok : Nat) (d : BitVec 8) (v : Nat) : ProRes :=
  let q := getD 0 tok p.sl.posted + 1
  let w := fun (k : Nat) => (⟨keyG d.toNat k, half v k, allOnes, p.sl.slot, .cov tok q⟩ : PendW)
  let sl := { p.sl with posted := put tok q p.sl.posted
                        pend := if d.toNat = 0 then p.sl.pend else p.sl.pend ++ [w 0, w 1] }
  p.goOn s sl 1 (p.pc + 4)
/-- A format A word in its g form under MODE 0. -/
def Pro.alu (p : Pro) (s : State) (d a b : BitVec 8) (f : Nat → Nat → Nat → Nat) : ProRes :=
  p.set s d (f (p.g s a) (p.g s b) (p.g s d))

/-- LDGG of a prologue: aligned, readable, not poisoned, and of a form its region allows (R23, R253, R363); of last use, it drops the L2
line (R261). -/
def Pro.load (p : Pro) (s : State) (l : Launch) (d a : BitVec 8) (t : BitVec 4) (z : BitVec 3) (lu : Bool) : ProRes :=
  let va := p.g s a
  let n := sizeBytes z
  if va % n ≠ 0 then .bad s
  else
    match feXlate s l .r 0 va with
    | .park m => .park m [] p s
    | .bad => .bad s
    | .ok pa =>
      let k := paKey pa
      let s := feTouch s l .r 0 va
      let done := fun (s : State) (bs : List Byte) =>
        p.post s t.toNat d (if sizeSigned z then wrap 64 (signed (8 * n) (leNat bs)) else leNat bs)
      match s.region (siteOf k) (offOf k) with
      | .counter => if z.toNat = 4 then done s (leBytes 4 (s.ctr (ctrKey k)).toNat) else .bad s
      | .stateBlock => if z.toNat = 5 then done s (leBytes 8 (stateReg s (siteOf k) (offOf k % 4096))) else .bad s
      | _ =>
        let as := span k n
        if (poisonedAt s as).isSome then .bad s
        else if lu && decide (s.region (siteOf k) (offOf k) = .hbm) then
          done (lastUseBelow s (partOf s l.asid) 2 (lineOf k)) (pocBytes s as)
        else done (pocTouch s (partOf s l.asid) 2 true as) (pocBytes s as)

/-- One instruction of a prologue (R363); every other instruction ends it in a fault. -/
def Pro.step (p : Pro) (s : State) (l : Launch) (i : Instr) : ProRes :=
  match i with
  | .add d a b true => p.alu s d a b (opAdd true 64 false)
  | .sub d a b true => p.alu s d a b (opSub true 64 false)
  | .mul d a b true => p.alu s d a b (opMul true 64 false)
  | .mulh d a b true => p.alu s d a b (opMulh true 64 false)
  | .mad d a b true => p.alu s d a b (opMad true 64 false)
  | .min d a b true => p.alu s d a b (opMin true 64 false)
  | .max d a b true => p.alu s d a b (opMax true 64 false)
  | .and d a b true => p.alu s d a b (opAnd true 64)
  | .or d a b true => p.alu s d a b (opOr true 64)
  | .xor d a b true => p.alu s d a b (opXor true 64)
  | .andn d a b true => p.alu s d a b (opAndn true 64)
  | .shl d a b true => p.alu s d a b (opShl true 64 false)
  | .shr d a b true => p.alu s d a b (opShr true 64 false)
  | .rot d a b true => p.alu s d a b (opRot true 64 false)
  | .absd d a b true => p.alu s d a b (opAbsd true 64 false)
  | .div d a b true => p.post s 8 d (opDiv true 64 false (p.g s a) (p.g s b) 0)
  | .rem d a b true => p.post s 8 d (opRem true 64 false (p.g s a) (p.g s b) 0)
  | .bfx d a b true => p.alu s d a b (opBfx true 64)
  | .bfi d a b true => p.alu s d a b (opBfi true 64)
  | .clz d a true => p.set s d (opClz true 64 false (p.g s a))
  | .ctz d a true => p.set s d (opCtz true 64 false (p.g s a))
  | .popc d a true => p.set s d (opPopc true 64 false (p.g s a))
  | .brev d a true => p.set s d (opBrev true 64 false (p.g s a))
  | .not d a true => p.set s d (2 ^ 64 - 1 - p.g s a)
  | .neg d a true => p.set s d (opNeg true 64 false (p.g s a))
  | .abs d a true => p.set s d (opAbs true 64 false (p.g s a))
  | .sex8 d a true => p.set s d (wrap 64 (signed 8 (p.g s a)))
  | .sex16 d a true => p.set s d (wrap 64 (signed 16 (p.g s a)))
  | .gaddi d a k => p.set s d (wrap 64 ((p.g s a : Int) + k.toInt))
  | .ldhg d k =>
    let sl := (p.sl.writeG false 2 d.toNat (wrap 64 k.toInt)).pass 1
    .go ⟨{ sl with chain := some d.toNat }, (p.pc + 4) % 2 ^ 48, p.n + 1⟩ s
  | .ldlg d k =>
    let old := if d.toNat ≠ 0 && p.sl.chain == some d.toNat then
        (readFinal p.sl (keyG d.toNat 0)).toNat + 2 ^ 32 * (readFinal p.sl (keyG d.toNat 1)).toNat
      else p.g s d
    let sl := (p.sl.writeG false 2 d.toNat ((old * 2 ^ 17 + k.toNat) % 2 ^ 64)).pass 1
    .go ⟨{ sl with chain := some d.toNat }, (p.pc + 4) % 2 ^ 48, p.n + 1⟩ s
  | .ldgg d a t z lu => p.load s l d a t z lu
  | .br o => p.goOn s p.sl 1 (wrap 48 ((p.pc : Int) + 4 * o.toInt))
  | .brg g z o => p.goOn s p.sl 1 (if (p.g s g == 0) == z then wrap 48 ((p.pc : Int) + 4 * o.toInt) else p.pc + 4)
  | .dly n => p.goOn s p.sl (n.toNat + 1) (p.pc + 4)
  | .wait t n => p.goOn s (p.sl.coverToken t.toNat n.toNat) 1 (p.pc + 4)
  | .exit => .exit p.sl s
  | _ => .bad s

/-- Fetch with X permission within the 4,096 words from PROLOGUE, and execution (R363). -/
def Pro.issue (p : Pro) (s : State) (l : Launch) (base : Nat) : ProRes :=
  if p.pc < base ∨ base + 16380 < p.pc then .bad s
  else
    match feXlate s l .x 0 p.pc with
    | .park m => .park m [] p s
    | .bad => .bad s
    | .ok pa =>
      match decode (codeWord s pa) with
      | .ok i =>
        match p.step (pocTouch (feTouch s l .x 0 p.pc) (partOf s l.asid) 2 true (span (paKey pa) 4)) l i with
        | .park m _ p s => .park m [(p.pc, .x, pa)] p s
        | r => r
      | .error _ => .bad s

/-- Runs a prologue for at most `fuel` instructions more; one beyond is a fault. What has passed counts for the instruction that
parked (R276). -/
def runPro (l : Launch) (base : Nat) : (fuel : Nat) → Pro → State → ProRes
  | 0, _, s => .bad s
  | fuel + 1, p, s =>
    match p.issue s l base with
    | .go p s => runPro { l with passed := [], declined := [] } base fuel p s
    | r => r

/-- The slice a prologue starts with (R363). -/
def proStart (l : Launch) (h : List Byte) : Slice :=
  let vals := [(1, l.header), (2, match l.src with | some x => x.idx | none => 0), (3, l.depth)]
    ++ (upFrom 0 16).map fun k => (16 + k, fieldAt h (8 * k) 8)
  { regs := vals.foldl (fun m v => setD 0 (keyG v.1 1) (half v.2 1) (setD 0 (keyG v.1 0) (half v.2 0) m)) [] }

/-- A g register at the end of a prologue. -/
def proEnd (sl : Slice) (r : Nat) : Nat := (readFinal sl (keyG r 0)).toNat + 2 ^ 32 * (readFinal sl (keyG r 1)).toNat

/-! ### The end of a launch without a grid (R366, R367) -/

/-- Ends a launch with a STATUS: its packet completes, or its parent's child is counted as retired. -/
def endLaunch (s : State) (lid : Nat) (l : Launch) (status : Nat) : State :=
  let s := writeStatus s l.asid l.header l.hdrPa status
  let s := s.modFe fun f => { f with launches := del lid f.launches }
  let s := match l.pkt with | some p => completePacket s p | none => s
  match l.parent with
  | some p => retireTeam 16 (childDone s p) p.1
  | none => s

/-- A launch fault: the record of KIND 2, ERR of the queue of a host packet, and the end of the launch (R366). -/
def launchFault (s : State) (lid : Nat) (l : Launch) (sub : Nat) : State :=
  let pid := match find l.asid s.ctxs with | some c => c.pid.toNat | none => 0
  let rec_ := match l.src with
    | some x => errRecord 0x16 sub 2 0 x.site x.core x.gang x.idx 0 x.pc l.header 0 pid
    | none => errRecord 0x16 sub 2 0 0 0 0 0 0 0 l.header 0 pid
  let s := postRecord l.root rec_ s
  let s := match l.pkt.bind fun p => find p s.fe.pkts with
    | some p => s.setQueue p.q { s.queue p.q with err := true }
    | none => s
  endLaunch s lid l (0x100 + sub)

/-- Parks a launch on misses (R362); `ps` has passed beside what had before. -/
def parkLaunch (s : State) (lid : Nat) (l : Launch) (ms : List Miss) (ps : List (Nat × Need × Nat)) : State :=
  s.modFe fun f => { f with launches := put lid { l with misses := ms, passed := l.passed ++ ps } f.launches }

/-! ### Checks and home islands (Table 16.7, R364) -/

/-- FLAGS of a header (Table 16.5). -/
def hdrAff (h : List Byte) : Bool := bitAt (fieldAt h 56 2) 0
def hdrNtf (h : List Byte) : Bool := bitAt (fieldAt h 56 2) 1

/-- Whether a header in force passes subcause 4. -/
def headerOk (s : State) (asid : Nat) (h : List Byte) : Bool :=
  let ndes := fieldAt h 120 8
  bits (fieldAt h 56 2) 2 14 == 0 && fieldAt h 58 2 == 0 && decide (teamCount h ≤ 2 ^ 32)
    && (if hdrNtf h then designatorOk s asid ndes else ndes == 0)

/-- The affinity address of team `t` (R364). -/
def affinity (h : List Byte) (t : Nat) : Nat :=
  let x := t % extX h
  let y := t / extX h % extY h
  let z := t / extX h / extY h
  (fieldAt h 24 8 + x * fieldAt h 32 8 + y * fieldAt h 40 8 + z * fieldAt h 48 8) % 2 ^ 64

/-- Live islands that hold a descriptor for a context, rising. -/
def homeIslands (s : State) (asid : Nat) : List Nat :=
  match find asid s.ctxs with | some c => (c.descs.map (·.1)).filter fun k => s.live k | none => []

/-- The home island an affinity translation gives, if it may be one. -/
def homeOf (s : State) (asid pa : Nat) : Option Nat :=
  let k := bits pa 44 4
  if bits pa 48 8 = s.fe.panel.toNat ∧ (homeIslands s asid).contains k then some k else none

/-- Home islands of every team in index order: misses to wait for with what has passed, none for subcause 6, or the islands (R364). -/
def homes (s : State) (l : Launch) (h : List Byte) : Except (List Miss × List (Nat × Need × Nat)) (Option (List Nat)) :=
  let ts := upFrom 0 (teamCount h)
  if hdrAff h then
    let xs := ts.map fun t => feXlate s l .r 4 (affinity h t)
    match xs.filterMap fun x => match x with | .park m => some m | _ => none with
    | [] => .ok (xs.mapM fun x => match x with | .ok pa => homeOf s l.asid pa | _ => none)
    | ms => .error (ms.eraseDups, (ts.zip xs).filterMap fun x => match x.2 with
      | .ok pa => some (affinity h x.1, .r, pa) | _ => none)
  else
    match homeIslands s l.asid with
    | [] => .ok none
    | is => .ok (some (ts.map fun t => nth 0 is (t % is.length)))

/-- The teams of each island, rising by island and by index. -/
def bySite (hs : List Nat) : List (Nat × List Nat) :=
  let ts := (upFrom 0 hs.length).zip hs
  (asSet hs).map fun k => (k, (ts.filter fun t => t.2 == k).map (·.1))

/-- A launch with the checks of one read behind it. -/
def Launch.clear (l : Launch) : Launch := { l with passed := [], declined := [] }

/-- Step 4 of R362: the home islands, then the grid, which frees the launch processor. -/
def assignHomes (s : State) (lid : Nat) (l : Launch) (h k : List Byte) : State :=
  let s := if hdrAff h then (upFrom 0 (teamCount h)).foldl (fun u t => feTouch u l .r 4 (affinity h t)) s else s
  match homes s l h with
  | .error ms => parkLaunch s lid { l with kdesc := some k } ms.1 ms.2
  | .ok none => launchFault s lid l 6
  | .ok (some hs) =>
    if !(asSet hs).all (fun site => couldHold s site (kernelDemand k)) then launchFault s lid l 7
    else
      let g : Grid :=
        { asid := l.asid, launch := lid, header := l.header, hdr := h, kdesc := k, depth := l.depth, root := l.root
          teams := hs.length, unretired := hs.length, toPlace := bySite hs, parent := l.parent, pkt := l.pkt, hdrPa := l.hdrPa }
      s.modFe fun f => { f with launches := del lid f.launches, grids := put f.nextId g f.grids, nextId := f.nextId + 1 }

/-- Step 3 of R362 for the kernel descriptor, with a header in force that has passed. -/
def checkKernel (s : State) (lid : Nat) (l : Launch) (h : List Byte) : State :=
  if fieldAt h 0 8 % 128 ≠ 0 then launchFault s lid l 5
  else
    match feRead s l (fieldAt h 0 8) 128 with
    | .error (some m) => parkLaunch s lid { l with force := some h } [m] []
    | .error none => launchFault s lid l 5
    | .ok (k, s) => if !kernelOk k then launchFault s lid l 5 else assignHomes s lid l.clear h k

/-- Steps 3 and 4 of R362 with the header in force: the checks, then the grid (log entry 31, DEDUCED). -/
def finishLaunch (s : State) (lid : Nat) (l : Launch) (h : List Byte) : State :=
  if !headerOk s l.asid h then launchFault s lid l 4 else checkKernel s lid { l.clear with force := some h } h

/-- Step 2 of R362: the prologue, from its start or from where it parked, and its verdict (R363). -/
def prologue (s : State) (lid : Nat) (l : Launch) (h : List Byte) : State :=
  let base := fieldAt h 8 8
  let p := l.pro.getD ⟨proStart l h, base, 0⟩
  if base = 0 then finishLaunch s lid l h
  else if base % 4 ≠ 0 then launchFault s lid l 3
  else
    match runPro l base (65536 - p.n) p s with
    | .go _ s | .bad s => launchFault s lid l 3
    | .park m ps p s => parkLaunch s lid { (if l.pro.map (·.n) = some p.n then l else l.clear) with pro := some p } [m] ps
    | .exit sl s =>
      match proEnd sl 63 % 4 with
      | 0 => finishLaunch s lid { l with pro := none } ((upFrom 0 16).map fun k => leBytes 8 (proEnd sl (16 + k))).flatten
      | 1 => endLaunch s lid l 2
      | 2 =>
        let l := { l.clear with running := false, pro := none, due := some (s.fe.fcyc + proEnd sl 62 % 2 ^ 32) }
        s.modFe fun f => { f with launches := put lid l f.launches }
      | _ => launchFault s lid l 3

/-- Step 1 of R362: the header is copied. That of a LAUNCH instruction lies where the instruction found it, so that no fault of
this read is left (R368, Table 16.7); in the state page or in a notify counter its bytes read 0 (log entry 81, DESIGN CHOICE). -/
def readHeader (s : State) (lid : Nat) (l : Launch) : State :=
  let done := fun (h : List Byte) (s : State) =>
    let l := { l.clear with hdr := some h }
    prologue (parkLaunch s lid l [] []) lid l h
  match l.hdrPa with
  | some pa =>
    let as := span (paKey pa) 128
    done (pocBytes s as) (pocTouch s (partOf s l.asid) 2 true as)
  | none =>
    if l.header % 128 ≠ 0 then launchFault s lid l 2
    else
      match feRead s l l.header 128 with
      | .error (some m) => parkLaunch s lid l [m] []
      | .error none => launchFault s lid l 2
      | .ok (h, s) => done h s

/-- LAUNCH_RUN (R362): a launch processor reads the header, runs the prologue, checks, and assigns home islands. A launch
that was parked goes on with what it was checking (R276). -/
def execLaunchRun (lid : Nat) (s : State) : Out :=
  match find lid s.fe.launches with
  | none => .fault (.notEnabled "LAUNCH_RUN")
  | some l =>
    if !l.running || !l.misses.isEmpty then .fault (.notEnabled "LAUNCH_RUN")
    else if 10 < l.depth then .next (launchFault s lid l 1)
    else .next (match l.force, l.kdesc, l.hdr with
      | some h, some k, _ => assignHomes s lid l h k
      | some h, none, _ => checkKernel s lid l h
      | none, _, some h => prologue s lid l h
      | none, _, none => readHeader s lid l)

/-- PROLOGUE_REPEAT (R363): the delay has passed and the launch waits to be dispatched again (R355), when a
packet's header is read anew. -/
def execPrologueRepeat (lid : Nat) (s : State) : Out :=
  match find lid s.fe.launches with
  | none => .fault (.notEnabled "PROLOGUE_REPEAT")
  | some l =>
    match l.due with
    | none => .fault (.notEnabled "PROLOGUE_REPEAT")
    | some t =>
      if s.fe.fcyc < t then .fault (.notEnabled "PROLOGUE_REPEAT")
      else .next (s.modFe fun f => { f with launches := put lid { l with due := none, hdr := if l.pkt.isSome then none else l.hdr } f.launches })

end Sys2Proof.Machine
end

