-- ==== Sys2Proof/Machine/Queues.lean ====
section
/-! DEFINITION. The register window (R344, R371), queues and slots (R345 to R349), connections and held records (R353), and
the commands over queues and groups (R346, R354). -/
namespace Sys2Proof.Machine

/-! ### Slots (R345, R347) -/

/-- Byte of a published slot at a position with this lap (R345). -/
def validByte (pos : Nat) : Byte := BitVec.ofNat 8 (0x80 + pos / 16 % 128)
/-- The 256 bytes of the slot of a position. -/
def slotBytes (s : State) (q pos : Nat) : List Byte :=
  (span (q * 0x1000 + pos % 16 * 0x100) 256).map fun a => getD 0 a s.fe.qsram
/-- Whether the packet at HEAD is published (R345). -/
def published (s : State) (q : Nat) : Bool :=
  let h := (s.queue q).head.toNat
  getD 0 (q * 0x1000 + h % 16 * 0x100 + 255) s.fe.qsram == validByte h

/-- Trailer fields (Table 16.2). -/
def slotType (b : List Byte) : Nat := fieldAt b 252 1
def slotOcl (b : List Byte) : Nat := bits (fieldAt b 253 1) 0 4
def slotFsc (b : List Byte) : Nat := bits (fieldAt b 253 1) 4 4
/-- Designator, value and last word of entry `i` of a WAITN or SIGNAL (Table 16.3). -/
def entryDes (b : List Byte) (i : Nat) : Nat := fieldAt b (8 + 16 * i) 8
def entryVal (b : List Byte) (i : Nat) : Nat := fieldAt b (16 + 16 * i) 4
/-- The entries of a WAITN or SIGNAL. -/
def entriesOf (b : List Byte) : List (Nat × Nat) := (upFrom 0 (fieldAt b 0 1)).map fun i => (entryDes b i, entryVal b i)

/-- Whether a payload holds only what Table 16.3 allows. -/
def payloadOk (b : List Byte) : Bool :=
  let zeroFrom := fun (k : Nat) => ((b.take 252).drop k).all (· == 0)
  match slotType b with
  | 1 | 4 => zeroFrom 8
  | 2 | 3 =>
    let n := fieldAt b 0 1
    decide (1 ≤ n) && decide (n ≤ 8) && fieldAt b 1 7 == 0
      && (upFrom 0 n).all (fun i => fieldAt b (20 + 16 * i) 4 == 0) && zeroFrom (8 + 16 * n)
  | _ => zeroFrom 0

/-- The subcode of a malformed packet (R349). -/
def packetFault (s : State) (asid : Nat) (b : List Byte) : Option Nat :=
  if 4 < slotType b then some 1
  else if 3 < slotOcl b then some 2
  else if 4 < slotFsc b then some 3
  else if fieldAt b 254 1 ≠ 0 ∨ !payloadOk b then some 4
  else if (slotType b = 2 ∨ slotType b = 3) ∧ !(entriesOf b).all (fun e => designatorOk s asid e.1) then some 5
  else none

/-- HEAD of a queue advances by one. -/
def advanceHead (s : State) (q : Nat) : State :=
  let u := s.queue q
  s.setQueue q { u with head := u.head + 1, copy := none }

/-- A malformed packet is consumed: ERR is set, and a record of KIND 3 is posted (R349). -/
def rejectPacket (s : State) (q sub : Nat) : State :=
  let pos := (s.queue q).head.toNat
  let s := advanceHead s q
  let s := s.setQueue q { s.queue q with err := true }
  postRecord q (errRecord 0 sub 3 0 0 0 0 0 0 q pos 0 0) s

/-- The copy of the head packet is checked, once: a malformed one is consumed at once, a well-formed one stands at the head until it
is dispatched (R349, R354). -/
def judgePacket (s : State) (q : Nat) (b : List Byte) : State :=
  let u := s.queue q
  match packetFault s u.asid.toNat b with
  | some n => rejectPacket s q n
  | none => s.setQueue q { u with copy := some b }

/-- The front end examines the head slot of a queue and copies a packet published there (R348) (log entry 39, DEDUCED). -/
def examine (s : State) (q : Nat) : State :=
  let u := s.queue q
  if u.en && !u.err && u.copy.isNone && published s q then judgePacket s q (slotBytes s q u.head.toNat) else s

/-- The host writes another byte of the slot that HEAD has not passed: the copy has the old value or the new one (R348). -/
def lateByte (s : State) (a : Nat) (b : Byte) : State :=
  let q := a / 0x1000
  let u := s.queue q
  match u.copy with
  | some c =>
    if u.en && !u.err && a / 0x100 % 16 == u.head.toNat % 16 && a % 256 != 255 && pick s (20 * 2 ^ 64 + a) 2 == 1 && nth 0 c (a % 256) != b then
      judgePacket (s.setQueue q { u with copy := none }) q (setNth c (a % 256) b)
    else s
  | none => s

/-! ### RDMA from the host (R344, R371) -/

/-- Whether a byte of the window can be written: queue SRAM and the command ring (Table 17.1). -/
def inQsram (a : Nat) : Bool := decide (a < 0x2000000)
def inRing (a : Nat) : Bool := decide (0x2000000 ≤ a) && decide (a < 0x2004000)

/-- Writes one byte of the window. -/
def windowWrite (s : State) (a : Nat) (b : Byte) : State :=
  if inQsram a then s.modFe fun f => { f with qsram := setD 0 a b f.qsram }
  else if inRing a then s.modFe fun f => { f with cring := setD 0 (a - 0x2000000) b f.cring }
  else s

/-- The 32 status bytes (Table 17.3). -/
def statusBytes (s : State) : List Byte :=
  let f := s.fe
  leBytes 8 (ofBool f.act + 2 * ofBool f.upd + 2 ^ 32 * f.stv.toNat) ++ leBytes 8 f.laurel.version.toNat
    ++ leBytes 8 f.myrtle.version.toNat ++ leBytes 8 f.fcyc

/-- Reads one byte of the window (Table 17.1). -/
def windowRead (s : State) (a : Nat) : Byte :=
  if inQsram a then getD 0 a s.fe.qsram
  else if inRing a then getD 0 (a - 0x2000000) s.fe.cring
  else if 0x2010000 ≤ a ∧ a < 0x2010200 then
    nth 0 (leBytes 8 (getD 0 ((a - 0x2010000) / 8) s.fe.cres).toNat) (a % 8)
  else if 0x2020000 ≤ a ∧ a < 0x2020020 then nth 0 (statusBytes s) (a - 0x2020000)
  else 0

/-- HOST_RDMA_WRITE (R344, R348): the bytes in ascending address order; each byte 255 of a slot has its queue examined. A
command's slot is looked at where the command runs (R372). -/
def execHostRdmaWrite (conn off : Nat) (data : List (BitVec 8)) (s : State) : Out :=
  if s.connected conn then
    .next (((span off data.length).zip data).foldl (fun t e =>
      let t := windowWrite t e.1 e.2
      if !inQsram e.1 then t
      else if e.1 % 256 = 255 then examine t (e.1 / 0x1000)
      else lateByte t e.1 e.2) s)
  else .fault (.notEnabled "HOST_RDMA_WRITE")

/-- RDMA_READ (R344, R371). -/
def execRdmaRead (conn off len : Nat) (s : State) : Out :=
  if s.connected conn then
    .next { s with rdmaOut := s.rdmaOut ++ [.reply conn ((span off len).map (windowRead s))] }
  else .fault (.notEnabled "RDMA_READ")

/-- RDMA_REFUSED (R344): SEND, atomics and unreliable transports get a NAK and change nothing. -/
def execRdmaRefused (conn : Nat) (s : State) : Out := .next { s with rdmaOut := s.rdmaOut ++ [.nak conn] }

/-! ### Connections (R344, R353) -/

/-- A queue writes what it holds; MARKERs whose record waited for that complete with it (R352, R353). -/
def flushQueue (s : State) (q : Nat) : State :=
  let s := flushRecords q s
  if (s.queue q).held.isEmpty then
    s.modFe fun f => { f with pkts := f.pkts.filter fun e => !(e.2.q == q && decide (e.2.st = .finishing)) }
  else s

/-- CONNECTION_ESTABLISH (R344, R353). -/
def execConnectionEstablish (conn : Nat) (s : State) : Out :=
  if decide (1024 ≤ conn) || s.connected conn then .fault (.notEnabled "CONNECTION_ESTABLISH")
  else
    let s := s.modFe fun f => { f with conns := asSet (conn :: f.conns) }
    .next ((s.fe.queues.filter fun e => e.2.conn.toNat == conn).foldl (fun t e => flushQueue t e.1) s)

/-- CONNECTION_LOSS (R353). -/
def execConnectionLoss (conn : Nat) (s : State) : Out :=
  if s.connected conn then .next (s.modFe fun f => { f with conns := f.conns.filter (· != conn) })
  else .fault (.notEnabled "CONNECTION_LOSS")

/-! ### Commands over queues and groups -/

/-- Q_STATE (R346, R353): the fields of Table 16.1; an enabled queue is examined. -/
def execQState (q : Nat) (a : QArgs) (s : State) : Out :=
  let u := s.queue q
  let fixed := decide (a.pri = u.pri) && decide (a.grp = u.grp) && decide (a.asid = u.asid) && a.has == u.has
  if decide (8192 ≤ q) || a.rbase.toNat % 64 != 0 || decide (a.rlog.toNat < 4) || decide (16 < a.rlog.toNat) then
    command 0x30 "Q_STATE" s (.error 1)
  else if u.en && a.en && !fixed then command 0x30 "Q_STATE" s (.error 2)
  else
    let v : Queue := { u with en := a.en, err := u.err && !a.clearErr, has := a.has, pri := a.pri, grp := a.grp, asid := a.asid
                              rel := a.rel, rbase := a.rbase, rcnt := a.rcnt, rkey := a.rkey, conn := a.conn, rlog := a.rlog
                              seq := if a.en && !u.en then 0 else u.seq
                              held := u.held.drop (u.held.length - 2 ^ a.rlog.toNat)
                              copy := if a.en && u.en then u.copy else none }
    let t := s.setQueue q v
    let t := if (a.en && !u.en) || (u.err && a.clearErr) then examine t q else t
    command 0x30 "Q_STATE" s (.ok (flushQueue t q, 0))

/-- G_STATE (R354). -/
def execGState (g : Nat) (weight : BitVec 8) (s : State) : Out :=
  command 0x31 "G_STATE" s <| if 256 ≤ g then .error 1 else .ok (s.setGroup g { s.group g with weight := weight }, 0)

/-- The command types of Table 17.2. -/
def commandTypes : List Nat :=
  [0x10, 0x11, 0x12, 0x13, 0x20, 0x21, 0x22, 0x23, 0x24, 0x25, 0x26, 0x27, 0x30, 0x31, 0x40, 0x41, 0x50, 0x60, 0x70, 0x71, 0x80, 0x90, 0x91]

/-- RESERVED_COMMAND (R372, Table 17.2): status 1. -/
def execReservedCommand (type : BitVec 8) (s : State) : Out :=
  if commandTypes.contains type.toNat then .fault (.notEnabled "RESERVED_COMMAND")
  else command type.toNat "RESERVED_COMMAND" s (.error 1)

end Sys2Proof.Machine
end

