-- ==== Sys2Proof/Machine/Sched.lean ====
section
/-! DEFINITION. The panel command processor (R350, R351, R354 to R359, R369) and the packets (R352, R353). -/
namespace Sys2Proof.Machine

/-! ### What is ready (R350, R351, R354) -/

/-- Whether a launch waits to be dispatched: no processor has it, its header may be read, no repeat delay runs. -/
def Launch.waits (l : Launch) : Bool := l.ready && !l.running && l.due.isNone

/-- Whether the head packet is eligible under its class and fence-scope (R350, R351). -/
def eligible (s : State) (q : Nat) (b : List Byte) : Bool :=
  let mine := s.fe.pkts.filter fun e => e.2.q == q
  if 2 ≤ slotFsc b then mine.isEmpty else mine.all fun e => e.2.ocl != slotOcl b

/-- Whether a launch is a child of a grid of queue `q` that waits to be dispatched: it ignores classes and the state of its
queue (R369). -/
def childReady (s : State) (q : Nat) (l : Launch) : Bool :=
  l.waits && l.pkt.isNone && l.root == q && serving s l.asid

/-- The packet of queue `q` that a launch waits to run again (R363). -/
def againOf (s : State) (q : Nat) (l : Launch) : Option Nat :=
  if l.waits then l.pkt.bind fun p => (find p s.fe.pkts).bind fun x => if x.q = q then some p else none else none

/-- Whether a queue is served at all (R350). -/
def queueServed (s : State) (q : Nat) : Bool := (s.queue q).en && !(s.queue q).err && serving s (s.queue q).asid.toNat

/-- Whether the head packet of a queue is eligible, and released where the queue needs it (R350, R351, R358). -/
def headReady (s : State) (q : Nat) : Bool :=
  !((s.queue q).has && (s.queue q).head == (s.queue q).rel) && (s.queue q).copy.any fun b => eligible s q b

/-- The candidate of a queue, when it is ready: a child first, then a packet that runs again, then the head (R369). -/
def candidate (s : State) (q : Nat) : Option Cand :=
  match s.fe.launches.find? fun e => childReady s q e.2 with
  | some e => some (.child e.1)
  | none =>
    if !queueServed s q then none
    else match s.fe.launches.findSome? fun e => (againOf s q e.2).map fun p => (e.1, p) with
      | some r => some (.again r.1 r.2)
      | none => if headReady s q then some .head else none

/-- Whether what a decision chose can still be dispatched. -/
def Cand.stands (s : State) (q : Nat) : Cand → Bool
  | .child lid => (find lid s.fe.launches).any fun l => childReady s q l
  | .again lid p => queueServed s q && (find lid s.fe.launches).any fun l => againOf s q l == some p
  | .head => queueServed s q && headReady s q

/-- Cost of a launch whose header stands at an address (R354). -/
def launchCost (s : State) (asid va : Nat) : Nat :=
  if va % 128 ≠ 0 then 1
  else
    match feRead s { asid := asid, pkt := none, parent := none, header := va, depth := 0, root := 0 } va 128 with
    | .ok r => Nat.min 1025 (1 + teamCount r.1 / 2 ^ 22)
    | .error _ => 1

/-- The packet at the head of a queue. -/
def headPacket (s : State) (q : Nat) : List Byte := (s.queue q).copy.getD []
/-- Whether a candidate is a launch, and its cost. -/
def candLaunch (s : State) (q : Nat) : Cand → Bool
  | .head => slotType (headPacket s q) == 1
  | _ => true
def candCost (s : State) (q : Nat) (c : Cand) : Nat :=
  let of := fun (lid : Nat) => match find lid s.fe.launches with | some l => launchCost s l.asid l.header | none => 1
  match c with
  | .child lid | .again lid _ => of lid
  | .head =>
    if candLaunch s q .head then
      launchCost s (s.queue q).asid.toNat (fieldAt (headPacket s q) 0 8)
    else 1

/-- The ready queues of a level with their group and candidate, rising; a group of weight 0 is never served. -/
def readyAt (s : State) (level : Nat) : List (Nat × Nat × Cand) :=
  s.fe.queues.filterMap fun e =>
    if e.2.pri.toNat = level ∧ (s.group e.2.grp.toNat).weight ≠ 0 then
      (candidate s e.1).map fun c => (e.1, e.2.grp.toNat, c)
    else none

/-! ### One decision (R355) -/

/-- Writes the turn of a level. -/
def setTurn (s : State) (level g : Nat) (b : Bool) : State :=
  s.modFe fun f => { f with turns := setNth f.turns level g, begun := setNth f.begun level b }
/-- Ends the turn of group `g` in a level. -/
def endTurn (s : State) (level g : Nat) : State := setTurn s level ((g + 1) % 256) false

/-- Index of a queue among those of its group, rising (Table 16.4); a queue that is not listed has the group of reset. -/
def groupIndex (s : State) (g q : Nat) : Nat :=
  let below := s.fe.queues.filter fun e => decide (e.1 < q)
  let mine := (below.filter fun e => e.2.grp.toNat == g).length
  if g = 0 then q - below.length + mine else mine
/-- QP of a group, with the bits that go on from it. -/
def Group.index (x : Group) : Nat := x.qp.toNat + 256 * x.qpHi.toNat
def Group.served (x : Group) (n : Nat) : Group := { x with qp := BitVec.ofNat 8 n, qpHi := BitVec.ofNat 5 (n / 256) }
/-- The ready queue of a group that comes next after the one last served, wrapping. -/
def nextAfter (s : State) (g : Nat) (l : List (Nat × Nat × Cand)) : Option (Nat × Nat × Cand) :=
  match l.find? fun e => decide ((s.group g).index < groupIndex s g e.1) with | some e => some e | none => l.head?

/-- Launch processors not in use: none is promised to a dispatched LAUNCH packet either. -/
def freeProcessors (s : State) : Nat :=
  Config.launchProcessors - ((s.fe.launches.filter fun e => e.2.running).length
    + (s.fe.pkts.filter fun e => e.2.ty == 1 && decide (e.2.st = .ready)).length)

/-- Decisions of a level until one chooses: with the deficits and the turn as they stand then (R355). -/
def decisions (level : Nat) : (fuel : Nat) → State → Option (State × Choice)
  | 0, _ => none
  | fuel + 1, s =>
    let rs := readyAt s level
    let gs := asSet (rs.map fun e => e.2.1)
    let p := nth 0 s.fe.turns level
    let on := nth false s.fe.begun level
    if on && !gs.contains p then
      decisions level fuel (endTurn (s.setGroup p { s.group p with dc := 0 }) level p)
    else
      match (if on then some p else match gs.find? fun g => decide (p ≤ g) with | some g => some g | none => gs.head?) with
      | none => none
      | some g =>
        let x := s.group g
        let s := if on then s else
          setTurn (s.setGroup g { x with dc := x.dc + BitVec.ofNat 16 (64 * x.weight.toNat) }) level g true
        match nextAfter s g (rs.filter fun e => e.2.1 == g) with
        | none => none
        | some (q, _, c) =>
          let cost := candCost s q c
          if cost ≤ (s.group g).dc.toNat then some (s, ⟨level, g, q, c, cost⟩)
          else decisions level fuel (endTurn s level g)

/-- Level of the next dispatch: the lowest due one with a backlogged group, else the lowest with one (R355, R356). -/
def nextLevel (s : State) : Option Nat :=
  let ls := (upFrom 0 4).filter fun l => !(readyAt s l).isEmpty
  match ls.find? fun l => nth false s.fe.dueLevels l with | some l => some l | none => ls.head?

/-- Counts a dispatch at a level (R356); `back` are the levels that had a backlogged group. -/
def countAges (s : State) (level : Nat) (back : List Nat) : State :=
  let age := fun (l a : Nat) => if l = level then 0 else if l ≠ 0 ∧ back.contains l then a + 1 else a
  s.modFe fun f => { f with
    ages := ((upFrom 0 4).zip f.ages).map fun e => age e.1 e.2
    dueLevels := ((upFrom 0 4).zip f.dueLevels).map fun e => e.2 && e.1 != level }

/-- Dispatches a candidate, whose context is then resident: a launch gets its processor; of a head packet the copy goes on and
HEAD advances (R348). -/
def dispatchCand (s : State) (q : Nat) : Cand → State
  | .child lid | .again lid _ =>
    let s := match find lid s.fe.launches with | some l => makeResident s l.asid | none => s
    s.modFe fun f => { f with launches := upd lid (fun l => { l with running := true }) f.launches }
  | .head =>
    let u := s.queue q
    let b := headPacket s q
    let p : FPkt := { q := q, pos := u.head.toNat, ty := slotType b, ocl := slotOcl b, fsc := slotFsc b
                      asid := u.asid.toNat, payload := b, st := .ready }
    let s := (makeResident s p.asid).modFe fun f => { f with pkts := put f.nextId p f.pkts, nextId := f.nextId + 1 }
    examine (advanceHead s q) q

/-- The dispatch that a decision calls for (R355, R356). -/
def takeChoice (s : State) (c : Choice) : State :=
  let back := (upFrom 0 4).filter fun l => !(readyAt s l).isEmpty
  let x := s.group c.group
  let s := s.setGroup c.group ({ x with dc := x.dc - BitVec.ofNat 16 c.cost }.served (groupIndex s c.group c.queue))
  let t := countAges (dispatchCand s c.queue c.cand) c.level back
  if (readyAt t c.level).any fun e => e.2.1 == c.group then t
  else endTurn (t.setGroup c.group { t.group c.group with dc := 0 }) c.level c.group

/-- The decision that waits, while what it chose can be dispatched, whatever else its queue has ready by now; else a new
one. -/
def choose (s : State) : Option (State × Choice) :=
  match s.fe.chosen with
  | some c => if c.cand.stands s c.queue then some (s, c) else (nextLevel s).bind fun l => decisions l 16384 s
  | none => (nextLevel s).bind fun l => decisions l 16384 s

/-- PACKET_DISPATCH (R355): turns end until a packet is chosen, which is dispatched; a launch waits for a free processor, and
nothing passes it. -/
def execPacketDispatch (s : State) : Out :=
  if (upFrom 1 3).any fun l => decide (64 ≤ nth 0 s.fe.ages l) && !nth false s.fe.dueLevels l then
    .fault (.notEnabled "PACKET_DISPATCH")
  else
    match choose s with
    | none => .fault (.notEnabled "PACKET_DISPATCH")
    | some (t, c) =>
      if candLaunch t c.queue c.cand && freeProcessors t == 0 then
        if s.fe.chosen = some c then .fault (.notEnabled "PACKET_DISPATCH")
        else .next (t.modFe fun f => { f with chosen := some c })
      else .next (takeChoice (t.modFe fun f => { f with chosen := none }) c)

/-- LEVEL_DUE (R356). -/
def execLevelDue (level : Nat) (s : State) : Out :=
  if decide (1 ≤ level) && decide (level ≤ 3) && decide (64 ≤ nth 0 s.fe.ages level) && !nth false s.fe.dueLevels level then
    .next (s.modFe fun f => { f with dueLevels := setNth f.dueLevels level true })
  else .fault (.notEnabled "LEVEL_DUE")

/-! ### Packets (R352, R353) -/

/-- Runs `k` on a dispatched packet of a type that stands in a state. -/
def packetStep (s : State) (pid ty : Nat) (st : PSt) (name : String) (k : FPkt → Option State) : Out :=
  match find pid s.fe.pkts with
  | none => .fault (.notEnabled name)
  | some p =>
    if p.ty ≠ ty ∨ p.st ≠ st then .fault (.notEnabled name)
    else match k p with | some t => .next t | none => .fault (.notEnabled name)

/-- Writes how a packet stands. -/
def setPacket (s : State) (pid : Nat) (p : FPkt) : State := s.modFe fun f => { f with pkts := put pid p f.pkts }

/-- NOP_PACKET (Table 16.3). -/
def execNopPacket (pid : Nat) (s : State) : Out :=
  packetStep s pid 0 .ready "NOP_PACKET" fun _ => some (completePacket s pid)

/-- LAUNCH_PACKET (Table 16.3): its launch starts on the processor promised at dispatch, at depth 1 (R369). -/
def execLaunchPacket (pid : Nat) (s : State) : Out :=
  packetStep s pid 1 .ready "LAUNCH_PACKET" fun p =>
    let l : Launch := { asid := p.asid, pkt := some pid, parent := none, header := fieldAt p.payload 0 8, depth := 1
                        root := p.q, running := true }
    let s := setPacket s pid { p with st := .running }
    some (s.modFe fun f => { f with launches := put f.nextId l f.launches, nextId := f.nextId + 1 })

/-- WAITN (Table 16.3). -/
def execWaitn (pid : Nat) (s : State) : Out :=
  packetStep s pid 2 .ready "WAITN" fun p => some (setPacket s pid { p with st := .waiting })

/-- Value of the counter a packet designator names; that of a counter on another panel is free. -/
def designated (s : State) (asid des : Nat) : Word :=
  if bits des 16 8 = s.fe.panel.toNat then
    s.ctr (4096 * bits des 12 4 + nbase (windowOfCtx s asid) + bits des 0 12)
  else w32 (Config.choose s.tick (13 * 2 ^ 64 + des))

/-- WAITN_COMPLETE (Table 16.3): every entry satisfied at one moment. -/
def execWaitnComplete (pid : Nat) (s : State) : Out :=
  packetStep s pid 2 .waiting "WAITN_COMPLETE" fun p =>
    if (entriesOf p.payload).all fun e => counterPast (designated s p.asid e.1) e.2 then some (completePacket s pid) else none

/-- SIGNAL (Table 16.3): its increments; those of other panels are answered later. -/
def execSignal (pid : Nat) (s : State) : Out :=
  packetStep s pid 3 .ready "SIGNAL" fun p =>
    let es := entriesOf p.payload
    let away := (es.filter fun e => bits e.1 16 8 != s.fe.panel.toNat).length
    let t := es.foldl (fun t e => incDesignator t p.asid e.1 e.2 (sigTag pid)) s
    some (if away = 0 then completePacket t pid else setPacket t pid { p with st := .waiting, left := away })

/-- The KIND 4 record of a MARKER (R353). -/
def markerRecord (s : State) (p : FPkt) : List Byte :=
  leBytes 2 0 ++ leBytes 1 4 ++ leBytes 5 0 ++ p.payload.take 8 ++ leBytes 8 s.fe.fcyc ++ leBytes 2 p.q ++ leBytes 38 0

/-- MARKER (R353): complete once its record has been written. -/
def execMarker (pid : Nat) (s : State) : Out :=
  packetStep s pid 4 .ready "MARKER" fun p =>
    let t := postRecord p.q (markerRecord s p) s
    some (if (t.queue p.q).held.isEmpty then completePacket t pid else setPacket t pid { p with st := .finishing })

end Sys2Proof.Machine
end

