-- ==== Sys2Proof/Machine/Contexts.lean ====
section
/-! DEFINITION. Contexts and their end (R269, R325, R359, R372), events again (R385, R387), and the commands over partitions,
topology and the panel number (R28, R259, R260, R282). -/
namespace Sys2Proof.Machine

/-! ### Creation (R269, R291, R379, R385) -/

/-- Whether an event ring descriptor is well formed (Table 17.9). -/
def ringOk (r : EvRing) : Bool :=
  r.base == 0 || (r.base.toNat % 64 == 0 && decide (4 ≤ r.log.toNat) && decide (r.log.toNat ≤ 16))

/-- Whether the arguments of CTX.NEW are well formed (Tables 12.1, 13.3, 17.5, 17.9). -/
def ctxArgsOk (a : CtxArgs) : Bool :=
  let w := a.window.toNat
  bits a.pid.toNat 16 16 == 0 && bits a.pid.toNat 4 4 == 0 && bits w 29 35 == 0 && bits w 12 4 == 0
    && decide (bits w 0 12 + bits w 16 13 ≤ 4096) && bits a.modeWord.toNat 3 29 == 0 && ringOk a.ring

/-- Everything of a context but its operations, gone: teams, grids, launches, packets, services; its queues are disabled
(R325, R359, R387). -/
def removeCtx (s : State) (asid : Nat) : State :=
  let mine := fun (tid : Nat) => match find tid s.teams with | some t => t.asid == asid | none => false
  let s := { s with
    slices := s.slices.filter fun e => !mine (e.1 / 256)
    splits := s.splits.filter fun e => !mine e.2.team
    teams := s.teams.filter fun e => e.2.asid != asid
    ops := s.ops.filter fun e => e.2.asid != asid
    ctxs := del asid s.ctxs }
  s.modFe fun f => { f with
    queues := f.queues.map fun e => if e.2.asid.toNat = asid then (e.1, { e.2 with en := false }) else e
    pkts := f.pkts.filter fun e => e.2.asid != asid
    launches := f.launches.filter fun e => e.2.asid != asid
    grids := f.grids.filter fun e => e.2.asid != asid
    svcs := f.svcs.filter fun e => e.2.asid != some asid }

/-- CTX_NEW (R372): a resident context's ASID is refused; one that is not resident gives way to the new context. -/
def execCtxNew (a : CtxArgs) (s : State) : Out :=
  let asid := bits a.pid.toNat 8 8
  command 0x10 "CTX_NEW" s <|
    if !ctxArgsOk a then .error 1
    else if (match find asid s.ctxs with | some c => c.resident || c.ending | none => false) then .error 2
    else
      let c : Ctx := { pid := a.pid, window := a.window, modeWord := a.modeWord, ring := a.ring, since := s.fe.fcyc }
      let s := removeCtx s asid
      .ok ({ s with ctxs := put asid c s.ctxs }, 0)

/-! ### The end of a context (R325) -/

/-- Operations an ending context need not wait for: a launch whose header has not been copied, and an engine operation that
a parked split has not had accepted. -/
def abandoned (s : State) (id : Nat) (o : Op) : Bool :=
  (match o.body with | .launch _ => true | _ => false)
    || s.splits.any fun e => e.2.park.isSome && (e.2.wait == .accept id || e.2.wait == .check id)

/-- Whether the operations of a context have drained. -/
def drained (s : State) (asid : Nat) : Bool := s.ops.all fun e => e.2.asid != asid || abandoned s e.1 e.2

/-- LATER of an error record (Table 15.2); only a record of KIND 0 counts (log entry 40, DEDUCED). -/
def withLater (r : List Byte) (n : Nat) : List Byte :=
  if nth 0 r 2 = 0 then r.take 12 ++ leBytes 4 n ++ r.drop 16 else r

/-- Frees an ending context and posts its record (R325). -/
def reapCtx (s : State) (asid : Nat) (c : Ctx) : State :=
  let s := removeCtx s asid
  let s := match c.endRec with | some r => postRecord r.1 (withLater r.2 c.later) s | none => s
  c.endCmds.foldl (fun t p => finishCommand t p 0 0) s

/-- CTX_END (R325, R372): an ending context whose operations have drained is freed; otherwise the command ends the context
and is done when it has been freed. -/
def execCtxEnd (asid : Nat) (s : State) : Out :=
  match find asid s.ctxs with
  | none => command 0x11 "CTX_END" s (.error 2)
  | some c =>
    if c.ending && drained s asid then .next (reapCtx s asid c)
    else asCommand 0x11 "CTX_END" s <|
      let pos := s.fe.cpos
      .next (beginCommand (s.modCtx asid fun x => { x with ending := true, endCmds := x.endCmds ++ [pos] }))

/-- CTX_SLICE (R359). -/
def execCtxSlice (cycles : Nat) (s : State) : Out := command 0x12 "CTX_SLICE" s (.ok (s.modFe fun f => { f with slice := cycles }, 0))

/-! ### Event rings (R385, R387) -/

/-- EVT_PANEL (R385): events of a new ring count from 0. -/
def execEvtPanel (r : EvRing) (s : State) : Out :=
  command 0x13 "EVT_PANEL" s <| if !ringOk r then .error 1 else .ok (s.modFe fun f => { f with ring := r, events := 0 }, 0)

/-- An event with its ASID field set (Table 17.10). -/
def withAsid (ev : List Byte) (asid : Nat) : List Byte := ev.take 8 ++ leBytes 4 asid ++ ev.drop 12

/-- EVENT_REPOST (R387): 2^31 front-end cycles without a reply. -/
def execEventRepost (svc : Nat) (s : State) : Out :=
  match find svc s.fe.svcs with
  | none => .fault (.notEnabled "EVENT_REPOST")
  | some v =>
    if v.event.isEmpty || decide (s.fe.fcyc < v.posted + 2 ^ 31) then .fault (.notEnabled "EVENT_REPOST")
    else
      let s := s.modFe fun f => { f with svcs := put svc { v with posted := f.fcyc } f.svcs }
      match v.kind, v.asid with
      | .mapout site _, _ =>
        let s := postPanel v.event s
        .next ((s.ctxs.filter fun e => (find site e.2.descs).isSome).foldl (fun t e => postCtx e.1 (withAsid v.event e.1) t) s)
      | _, some a => .next (postCtx a v.event s)
      | _, none => .next s

/-! ### Partitions, topology, panel number -/

/-- L2_MASK (R259). -/
def execL2Mask (site part : Nat) (mask : BitVec 16) (s : State) : Out :=
  command 0x40 "L2_MASK" s <|
    if !s.populated site || decide (16 ≤ part) then .error 1
    else .ok (s.setIsland site { s.island site with masks := setD 0xFFFF part mask (s.island site).masks }, 0)

/-- L2_OCC (R260). -/
def execL2Occ (site part slice : Nat) (s : State) : Out :=
  command 0x41 "L2_OCC" s <|
    if !s.populated site || decide (16 ≤ part) || decide (32 ≤ slice) then .error 1
    else .ok (s, occupancy s site part slice)

/-- TOPO (R282). Any value may be written: R284 checks an entry where an operation uses it (log entry 48, DEDUCED). -/
def execTopo (site entry : Nat) (v : BitVec 64) (s : State) : Out :=
  command 0x50 "TOPO" s <|
    if !s.populated site || decide (4096 ≤ entry) then .error 1
    else .ok (s.setIsland site { s.island site with topo := setD 0 entry v (s.island site).topo }, 0)

/-- PANEL_NUM (R28): ISID.PANEL changes in every island, which IGEN counts (Table 1.4). -/
def execPanelNum (n : BitVec 8) (s : State) : Out :=
  command 0x60 "PANEL_NUM" s <|
    if s.ctxs.any fun e => e.2.resident then .error 2
    else if n = s.fe.panel then .ok (s, 0)
    else
      let s := s.modFe fun f => { f with panel := n }
      .ok ((setBits 16 s.pres.toNat).foldl bumpGen s, 0)

end Sys2Proof.Machine
end

