-- ==== Sys2Proof/Machine/Engine.lean ====
section
/-! DEFINITION. What the copy engine and the matrix engine share: the control word (R45), acceptance, its faults and its
parking (R231, R239, R277), and the end of an operation (R211, R233, R242). -/
namespace Sys2Proof.Machine

/-! ### Engine control word (Table 2.13) -/

def ctlSpoff (v : Nat) : Nat := bits v 32 18
def ctlBen (v : Nat) : Bool := bitAt v 10
def ctlBidx (v : Nat) : Nat := bits v 5 5
def ctlPost (v : Nat) : Bool := bitAt v 4
def ctlTok (v : Nat) : Nat := bits v 0 4
/-- Token an engine operation posts to, if any. -/
def ctlToken (v : Nat) : Option Nat := if ctlPost v then some (ctlTok v) else none

/-! ### Acceptance -/

/-- Issues an engine operation: it is posted, and the split waits for its acceptance (R231, R239). -/
def engineWord (s : State) (cx : Iss) (tok : Option Nat) (after : List Nat) (body : OpBody) : State :=
  let id := s.nextOp
  advanceWait (postSplit s cx tok after body) cx (.accept id)

/-- The split that waits for the acceptance of an operation, when it is not parked. -/
def acceptWaiter (s : State) (id : Nat) : Option (Nat × Split) :=
  s.splits.find? fun e => decide (e.2.wait = .accept id) && e.2.park.isNone

/-- Withdraws an operation that was not accepted: its tokens count as never posted (R110). -/
def withdrawOp (s : State) (id : Nat) (o : Op) : State :=
  let s := { s with ops := del id s.ops }
  match o.tok with
  | none => s
  | some t => o.slices.foldl (fun u k => u.modSlice k fun sl =>
      { sl with toks := retireToks [] (sl.toks.filter fun e => decide (e.op ≠ id))
                posted := put t (getD 0 t sl.posted - 1) sl.posted }) s

/-- What an acceptance ends in: accepted with the operation's new body, parked with what it has read so far, or a cause. -/
inductive Accept where
  | ok (s : State) (body : OpBody)
  | park (s : State) (body : OpBody) (misses : List Miss) (passed : List (Nat × Need × Nat))
  | fault (c : CauseRec)

/-- What checks of an operation's acceptance know. -/
def acceptEnv (o : Op) (sp : Split) : XEnv :=
  { asid := o.asid, site := o.site, ck := coreKey o.site o.core, passed := sp.passed, declined := sp.declined }

/-- Ends an acceptance: the split goes on, parks, or takes the cause with the operation withdrawn. A token hazard of the word comes
after every cause of the acceptance (R119). -/
def endAccept (s : State) (id : Nat) (o : Op) (sid : Nat) : Accept → State
  | .ok t body =>
    match (find sid t.splits).bind Split.hazard with
    | some c => raiseAt (withdrawOp t id o) sid c
    | none => endWait (noteShot sid (· == id) (t.modOp id fun x => { x with body := body })) sid
  | .park t body ms ps => parkSplit (t.modOp id fun x => { x with body := body }) sid (.engine id) ms ps
  | .fault c => raiseAt (withdrawOp s id o) sid c

/-- Runs `k` on translated pieces within an acceptance; a park keeps `body`. -/
def acceptXlate (s : State) (o : Op) (sp : Split) (body : OpBody) (cs : List Chk) (k : List (Chk × Nat) → Accept) : Accept :=
  match xlateAll s (acceptEnv o sp) cs with
  | .ok pas => k pas
  | .park ms ps => .park s body ms ps
  | .fault c => .fault c

/-! ### The team's scratchpad as the engines reach it -/

/-- A scratchpad range check (R201): the lowest byte at or beyond the size. -/
def scratchOver (t : Team) (off n : Nat) : Option Nat :=
  if t.scratch < off + n then some (Nat.max off t.scratch) else none

/-- `n` bytes at a team offset as a number, as an operation reads them (R234, R241). -/
def scratchRead (s : State) (o : Op) (t : Team) (off n : Nat) : Nat :=
  sramRead s (coreKey o.site o.core) o.slices o.since (t.scratchBase + off) n

/-- A free number of the members of a list in a free order: those taken, and the rest. -/
def takeSome {α : Type} (s : State) (key : Nat) (l : List α) : List α × List α :=
  let k := pick s key l.length
  let n := pick s (key + 1) (l.length + 1)
  ((l.drop k ++ l.take k).take n, (l.drop k ++ l.take k).drop n)

/-! ### The end of an operation -/

/-- The end of an engine operation: the credit of its byte barrier, its token, and subcause 10 when REM passed its range
(R211, R233, R242). -/
def engineDone (s : State) (id : Nat) (o : Op) (ctl bytes : Nat) : State :=
  let s := noteDone s id o (if ctlBen ctl then some (ctlBidx ctl) else none)
  let r := if ctlBen ctl then credit s o.team (ctlBidx ctl) bytes else (s, false)
  let s := if r.2 then raiseOp r.1 o (cause 0x12 10 ctl o.lanes) else r.1
  finishOp s id o

end Sys2Proof.Machine
end

