-- ==== Sys2Proof/Machine/Formats.lean ====
section
/-! DEFINITION. Storage formats of the copy engine and their conversions (spec/09 sections 9.1 to 9.4). -/
namespace Sys2Proof.Machine

/-! ### binary8 (R215) -/

/-- A binary8 variant of precision `p`. -/
structure B8 where
  p : Nat
  uns : Bool
  fin : Bool
  deriving DecidableEq, Repr

/-- A storage format (R215, R216). -/
inductive SFmt where
  | b8 (f : B8)
  | bf16 | fp16 | fp32 | int8 | int4
  deriving DecidableEq, Repr

/-- Table 9.6; none for a reserved code. -/
def fmtOf (c : Nat) : Option SFmt :=
  let p := c % 16
  let b8 := fun (u f : Bool) => if 1 ≤ p ∧ p ≤ 7 then some (SFmt.b8 ⟨p, u, f⟩) else none
  match c / 16 with
  | 0 => match c with | 1 => some .bf16 | 2 => some .fp16 | 3 => some .fp32 | 4 => some .int8 | 5 => some .int4 | _ => none
  | 1 => b8 false false
  | 3 => b8 false true
  | 5 => b8 true false
  | 7 => b8 true true
  | _ => none

/-- Element bytes, int4 counted as one (Table 9.6). -/
def SFmt.bytes : SFmt → Nat
  | .bf16 | .fp16 => 2
  | .fp32 => 4
  | _ => 1
/-- Whether a format takes scales (R217). -/
def SFmt.scales : SFmt → Bool
  | .b8 _ | .int8 | .int4 => true
  | _ => false

/-- Bias of a binary8 variant (Table 9.1). -/
def B8.bias (f : B8) : Int := ((2 ^ (if f.uns then 8 - f.p else 7 - f.p) : Nat) : Int)
/-- Code of the largest finite magnitude (R215). -/
def B8.maxCode (f : B8) : Nat :=
  match f.uns, f.fin with | false, false => 0x7E | false, true => 0x7F | true, false => 0xFD | true, true => 0xFE

/-- The value of the magnitude code `v`, neither zero, NaN nor infinity (decode_b8). -/
def B8.magnitude (f : B8) (v : Nat) : Nat × Int :=
  let t := v % 2 ^ (f.p - 1)
  let x := v / 2 ^ (f.p - 1)
  let q : Int := 1 - f.bias - f.p + 1
  if x = 0 then (t, q) else (2 ^ (f.p - 1) + t, q + ((x : Int) - 1))

/-- The value of a binary8 code (Table 9.1). -/
def B8.decode (f : B8) (v : Nat) : FVal :=
  if v = 0 then .fin false 0 0
  else if v = (if f.uns then 0xFF else 0x80) then .nan false
  else if f.uns then
    if !f.fin && v == 0xFE then .inf false else .fin false (f.magnitude v).1 (f.magnitude v).2
  else if !f.fin && v % 128 == 0x7F then .inf (bitAt v 7)
  else .fin (bitAt v 7) (f.magnitude (v % 128)).1 (f.magnitude (v % 128)).2

/-- The value of one stored element (R216). -/
def SFmt.decode (f : SFmt) (v : Nat) : FVal :=
  let int := fun (w : Nat) => let n := signed w v; FVal.fin (decide (n < 0)) n.natAbs 0
  match f with
  | .b8 g => g.decode v
  | .bf16 => decodeF 8 7 v
  | .fp16 => decodeF 5 10 v
  | .fp32 => decodeF 8 23 v
  | .int8 => int 8
  | .int4 => int 4

/-! ### Toward scratchpad (R218) -/

/-- Table 9.2 for an element inside the tensor, with its scale byte if any. -/
def expandCE16 (sat : Bool) (x : FVal) (scale : Option Nat) : Nat :=
  if scale = some 0xFF then 0x7FC0
  else match x with
    | .nan _ => 0x7FC0
    | .inf n => encInf 8 7 n
    | .fin n m e =>
      let e := match scale with | some v => e + (v : Int) - 127 | none => e
      let r := roundX ⟨8, 8, 7, 0, true⟩ (.num n m 1 e)
      if sat && bitAt r.flags 2 then 0x7F7F + ofBool n * 2 ^ 15 else r.v

/-! ### Toward memory (R219, R220) -/

/-- Whether a rounding mode rounds toward zero for a sign. -/
def towardZero (rnd : Nat) (neg : Bool) : Bool := rnd == 1 || (rnd == 2 && neg) || (rnd == 3 && !neg)

/-- A nonzero magnitude m × 2^e rounded to a code of a binary8 variant, unbounded above. -/
def B8.code (f : B8) (rnd : Nat) (neg : Bool) (m : Nat) (e : Int) : Nat :=
  let qs : Int := 1 - f.bias - f.p + 1
  let qu : Int := leadExp m 1 e - f.p + 1
  let q := if qu < qs then qs else qu
  let u := quanta m 1 e q
  let k := if roundsUp rnd neg u.1 u.2.1 u.2.2 then u.1 + 1 else u.1
  -- k × 2^q as exponent field and trailing field; a carry moves up by one exponent
  if k < 2 ^ (f.p - 1) then k else (q - qs).toNat * 2 ^ (f.p - 1) + k

/-- Overflow of a binary8 target (R220). -/
def B8.overflow (f : B8) (sat : Bool) (rnd : Nat) (neg : Bool) : Nat :=
  let s := if neg then 128 else 0
  if sat || towardZero rnd neg then s + f.maxCode
  else if f.fin then (if f.uns then 0xFF else 0x80)
  else if f.uns then 0xFE else s + 0x7F

/-- A value stored in a floating-point target of exponent width `eb` and `t` trailing bits (Table 9.4, R220). -/
def storeFloat (eb t : Nat) (sat : Bool) (rnd : Nat) (x : FVal) : Nat :=
  let big := fun (n : Bool) => encFin eb t n (2 ^ (t + 1) - 1) (emaxOf eb - t)
  match x with
  | .nan _ => encNan eb t
  | .inf n => if sat || towardZero rnd n then big n else encInf eb t n
  | .fin n m e =>
    let r := roundX ⟨t + 1, eb, t, rnd, true⟩ (.num n m 1 e)
    if sat && bitAt r.flags 2 then big n else r.v

/-- A value stored in an integer target of `w` bits (Table 9.4). -/
def storeInt (w rnd : Nat) : FVal → Nat
  | .nan _ => 0
  | .inf n => if n then 2 ^ (w - 1) else 2 ^ (w - 1) - 1
  | .fin n m e =>
    let r := (toInteger rnd n m e).1
    wrap w (clampInt (if n then -(r : Int) else r) (-((2 ^ (w - 1) : Nat) : Int)) ((2 ^ (w - 1) : Nat) - 1))

/-- Table 9.4: a source value with its block's scale byte as a storage element. -/
def SFmt.store (f : SFmt) (sat : Bool) (rnd : Nat) (x : FVal) (scale : Option Nat) : Nat :=
  let x := if scale = some 0xFF then FVal.nan false else match x, scale with
    | .fin n m e, some v => .fin n m (e - ((v : Int) - 127))
    | y, _ => y
  match f with
  | .b8 g =>
    match x with
    | .nan _ => if g.uns then 0xFF else 0x80
    | .inf n => if g.uns && n then 0xFF else g.overflow sat rnd n
    | .fin n m e =>
      if m = 0 then 0
      else if g.uns && n then 0xFF
      else
        let c := g.code rnd n m e
        if c = 0 then 0 else if g.maxCode < c then g.overflow sat rnd n else c + (if n then 128 else 0)
  | .bf16 => storeFloat 8 7 sat rnd x
  | .fp16 => storeFloat 5 10 sat rnd x
  | .fp32 => storeFloat 8 23 sat rnd x
  | .int8 => storeInt 8 rnd x
  | .int4 => storeInt 4 rnd x

/-! ### Computed scales (R221) -/

/-- Largest finite magnitude of a scaled target. -/
def SFmt.maxMag : SFmt → Nat × Int
  | .b8 g => g.magnitude g.maxCode
  | .int8 => (127, 0)
  | _ => (7, 0)

/-- The smallest v from `v` on with x ≤ M × 2^(v − 127), at most 254. -/
def smallestScale (x m : FVal) : (fuel v : Nat) → Nat
  | 0, _ => 254
  | fuel + 1, v =>
    let lim := match m with | .fin n k e => FVal.fin n k (e + (v : Int) - 127) | y => y
    if ltF lim x then smallestScale x m fuel (v + 1) else v

/-- The computed scale byte of a block's sources (R221). -/
def blockScale (f : SFmt) (xs : List FVal) : Nat :=
  if xs.any FVal.isNan then 0xFF
  else
    let mag := fun (x : FVal) => match x with | .fin _ m e => FVal.fin false m e | _ => .fin false 0 0
    let big := xs.foldl (fun a x => if ltF a (mag x) then mag x else a) (.fin false 0 0)
    if big.isZero then 0 else smallestScale big (.fin false f.maxMag.1 f.maxMag.2) 254 0

end Sys2Proof.Machine
end

