-- ==== Sys2Proof/Machine/CopyEngine.lean ====
section
/-! DEFINITION. TCOPY and the copy engine (spec/09 sections 9.5 to 9.8). -/
namespace Sys2Proof.Machine

/-! ### Layout records (R222, R223) -/

/-- Byte field of a record's bytes. -/
def recField (b : List Byte) (at_ n : Nat) : Nat := leNat ((b.drop at_).take n)

/-- A record parsed, with all seven dimensions (Table 9.5). -/
def parseRec (b : List Byte) : LRec :=
  let dims := fun (off n : Nat) => (upFrom 0 7).map fun d => recField b (off + 12 * d) n
  { fmt := recField b 0 1, sfmt := recField b 1 1, blk := recField b 2 1, rank := recField b 3 1, oob := recField b 4 1
    sat := recField b 5 1, rnd := recField b 6 1, tgt := recField b 7 1, base := recField b 8 8, sbase := recField b 16 8
    sizes := dims 24 4, strides := dims 28 6, boxes := dims 34 2 }

/-- The record with its dimension lists cut to RANK entries. -/
def LRec.cut (r : LRec) : LRec :=
  { r with sizes := r.sizes.take r.rank, strides := r.strides.take r.rank, boxes := r.boxes.take r.rank }

/-- Format of a valid record. -/
def LRec.format (r : LRec) : SFmt := (fmtOf r.fmt).getD .bf16
/-- Block length (R224). -/
def LRec.block (r : LRec) : Nat := if r.blk = 1 then 16 else 32
/-- Scratchpad element bytes of an operation (R227). -/
def elemScratch (store : Bool) (ctl : Nat) : Nat := if store && bitAt ctl 50 then 4 else 2

/-- Subcauses 3 to 8 of Table 9.9, in its order. -/
def recFault (r : LRec) (tail : Nat) (store : Bool) (ctl : Nat) (origin0 : Int) : Option Nat :=
  let f := r.format
  let es := elemScratch store ctl
  let dims := (r.sizes.zip (r.strides.zip r.boxes)).zip (upFrom 0 7)
  let s0 := r.strides.headD 0
  if (fmtOf r.fmt).isNone || decide (1 < r.sfmt) || decide (2 < r.blk) || (r.blk == 0) != (r.sfmt == 0)
      || (r.sfmt == 0 && r.sbase != 0) || (r.sfmt == 1 && !f.scales) then some 3
  else if r.rank = 0 ∨ 7 < r.rank then some 4
  else if dims.any fun e => if e.2 < r.rank then e.1.1 == 0 || e.1.2.2 == 0
      else e.1.1 != 0 || e.1.2.1 != 0 || e.1.2.2 != 0 then some 4
  else if r.base % f.bytes != 0 || s0 % f.bytes != 0 || (s0 != 0 && (f == .int4 || r.sfmt == 1)) then some 5
  else if decide (1 < r.oob) || decide (1 < r.sat) || decide (3 < r.rnd) || decide (2 < r.tgt) || tail != 0 then some 6
  else if r.tgt < 2 then
    let want := if r.tgt = 0 then [32, 64] else [64, 32]
    if r.rank < 2 ∨ r.boxes.take 2 ≠ want ∨ ((r.boxes.take r.rank).drop 2).any (· != 1) ∨ ctlSpoff ctl % 64 ≠ 0 ∨ es ≠ 2
    then some 7
    else if store && bitAt ctl 51 && (origin0 % r.block != 0 || r.boxes.headD 0 % r.block != 0) then some 8 else none
  else if ctlSpoff ctl % es ≠ 0 then some 7
  else if store && bitAt ctl 51 && (origin0 % r.block != 0 || r.boxes.headD 0 % r.block != 0) then some 8
  else none

/-! ### Addresses (R224, R225, R227) -/

/-- Box position number `n` as coordinates within the box. -/
def boxPos : List Nat → Nat → List Nat
  | [], _ => []
  | b :: t, n => n % b :: boxPos t (n / b)
/-- Elements of the box. -/
def boxCount (r : LRec) : Nat := r.boxes.foldl (· * ·) 1

/-- Tensor coordinates of a box position; none outside the tensor (R225). -/
def tensorPos (r : LRec) (origin : List Int) (n : Nat) : Option (List Nat) :=
  let is := (origin.zip (boxPos r.boxes n)).map fun e => e.1 + (e.2 : Int)
  if (is.zip r.sizes).any fun e => decide (e.1 < 0 ∨ (e.2 : Int) ≤ e.1) then none else some (is.map Int.toNat)

/-- elem_addr of R224. -/
def elemAddr (r : LRec) (i : List Nat) : Nat :=
  let i0 := i.headD 0
  let s0 := r.strides.headD 0
  let off0 := if s0 ≠ 0 then i0 * s0 else if r.format = .int4 then i0 / 2 else i0 * r.format.bytes
  (r.base + off0 + sumNat ((i.drop 1).zip (r.strides.drop 1) |>.map fun e => e.1 * e.2)) % 2 ^ 64

/-- Row-major number of coordinates in extents, innermost first. -/
def denseIndex : List Nat → List Nat → Nat
  | i :: is, n :: ns => i + n * denseIndex is ns
  | _, _ => 0

/-- scale_addr of R224. -/
def scaleAddr (r : LRec) (i : List Nat) : Nat :=
  let nb := (r.sizes.headD 0 + r.block - 1) / r.block
  r.sbase + i.headD 0 / r.block + nb * denseIndex (i.drop 1) (r.sizes.drop 1)

/-- place(j) of R227. -/
def place (r : LRec) (es n : Nat) : Nat :=
  let j := boxPos r.boxes n
  match r.tgt with
  | 0 => 64 * nth 0 j 1 + 2 * nth 0 j 0
  | 1 => 128 * nth 0 j 1 + 2 * nth 0 j 0
  | _ => es * n

/-! ### Acceptance (R231) -/

/-- Origin of a direct coordinate operand (Table 9.8). -/
def directOrigin (v : Nat) : List Int := [signed 24 v, signed 24 (v / 2 ^ 24), signed 15 (v / 2 ^ 48), 0, 0, 0, 0]

/-- A record as the record path gives it: each word has some value it held since the record cache was last invalidated; a record the
cache does not hold is read at the L2 and takes one of its 16 entries (R228, R257). -/
def readRecord (s : State) (o : Op) (ep a : Nat) : List Byte × State :=
  let ck := coreKey o.site o.core
  let c := s.core ck
  let b := ((upFrom 0 16).map fun k =>
    let w := a + 8 * k
    let vs := wordValues s w c.recSince
    leBytes 8 (nth 0 vs (pick s (6 * 2 ^ 64 + w) vs.length)).toNat).flatten
  if c.recs.contains a then (b, s)
  else
    let kept := if c.recs.length < Config.recordEntries then c.recs
      else dropNth c.recs (pick s (24 * 2 ^ 64 + a) c.recs.length)
    (b, (pocTouch s o.part (retOf ep) true (span a 128)).setCore ck { c with recs := kept ++ [a] })

/-- First of the addresses that touch each piece of a page that lies in one region. -/
def firstOfPages (as : List (Nat × Nat)) : List (Nat × Nat) :=
  (as.foldl (fun (r : SMap Unit × List (Nat × Nat)) a =>
    match find (a.1 + regionLeft a.1) r.1 with
    | some _ => r
    | none => (put (a.1 + regionLeft a.1) () r.1, r.2 ++ [a])) ([], [])).2

/-- The byte ranges of memory an accepted operation touches, cut at pages: in-bounds elements and their scales. -/
def touchedRanges (r : LRec) (origin : List Int) : List (Nat × Nat) :=
  ((upFrom 0 (boxCount r)).map fun n => match tensorPos r origin n with
    | none => []
    | some i => cutPages 2 (elemAddr r i) r.format.bytes ++ (if r.sfmt = 1 then [(scaleAddr r i, 1)] else [])).flatten

/-- A cause of an acceptance with the lanes live at issue. -/
def acceptCause (o : Op) (code sub tval : Nat) : Accept := .fault (cause code sub tval o.lanes)

/-- Stages 4 to 6 of R231, with the record read (log entry 26, DEDUCED). -/
def acceptRecord (s : State) (o : Op) (sp : Split) (t : Team) (x : TCopy) (origin : List Int) (b : List Byte) : Accept :=
  let ctl := x.ctl.toNat
  let r := parseRec b
  if x.store && bitAt ctl 51 && r.sfmt == 0 then acceptCause o 0x12 1 ctl
  else
    match recFault r (recField b 108 20) x.store ctl (origin.headD 0) with
    | some n => acceptCause o 0x12 n x.recAddr.toNat
    | none =>
      let r := r.cut
      let origin := origin.take r.rank
      match scratchOver t (ctlSpoff ctl) (boxCount r * elemScratch x.store ctl) with
      | some off => acceptCause o 0x13 0 off
      | none =>
        if ctlBen ctl && decide (t.bbs.length ≤ ctlBidx ctl) then acceptCause o 0x13 0 (ctlBidx ctl)
        else
          let need := if x.store then Need.w else .r
          acceptXlate s o sp (.tcopy x)
            ((firstOfPages (touchedRanges r origin)).map fun a => ⟨0, o.lanes, a.1, a.2, need, 1⟩) fun pas =>
            .ok s (.tcopy { x with
              accepted := true, lrec := some r, origin := origin, scr := t.scratchBase, left := upFrom 0 (boxCount r)
              pages := pas.map fun p => (p.1.va / 2 ^ 16 * 2 ^ 16, paKey p.2 - p.1.va % 2 ^ 16, 2 ^ 16) })

/-- Stage 3 of R231: the record's page, then the record, which is read once (R228, R276). -/
def acceptOrigin (s : State) (o : Op) (sp : Split) (t : Team) (x : TCopy) (origin : List Int) : Accept :=
  let x := { x with coords := some origin }
  match x.recBytes with
  | some b => acceptRecord s o sp t x origin b
  | none =>
    acceptXlate s o sp (.tcopy x) (chksOf 0 o.lanes x.recAddr.toNat 128 .r 1) fun pas =>
      let a := match pas with | p :: _ => paKey p.2 | [] => 0
      match poisonedAt s (span a 128) with
      | some l => acceptCause o 0x15 0 (linePa s l)
      | none =>
        let b := readRecord s o x.ep a
        acceptRecord b.2 o sp t { x with recBytes := some b.1 } origin b.1

/-- Stages 1 and 2 of R231, which a replay of a later stage does not repeat (R276). -/
def acceptTcopy (s : State) (o : Op) (sp : Split) (t : Team) (x : TCopy) : Accept :=
  let ctl := x.ctl.toNat
  let gb := x.coord.toNat
  match x.coords with
  | some origin => acceptOrigin s o sp t x origin
  | none =>
    if bits ctl 52 12 ≠ 0 ∨ bits ctl 11 21 ≠ 0 ∨ (!x.store && bits ctl 50 2 != 0) then acceptCause o 0x12 1 ctl
    else if x.recAddr.toNat % 128 ≠ 0 then acceptCause o 0x12 2 x.recAddr.toNat
    else if !bitAt gb 63 then acceptOrigin s o sp t x (directOrigin gb)
    else
      let coff := bits gb 0 18
      if bits gb 18 45 ≠ 0 ∨ coff % 4 ≠ 0 then acceptCause o 0x12 9 gb
      else
        match scratchOver t coff 32 with
        | some off => acceptCause o 0x13 0 off
        | none =>
          let w := fun (k : Nat) => scratchRead s o t (coff + 4 * k) 4
          if w 7 ≠ 0 then acceptCause o 0x12 9 gb
          else acceptOrigin s o sp t x ((upFrom 0 7).map fun k => signed 32 (w k))

/-! ### Moving elements (R232) -/

/-- Physical address a translated page gives for a virtual one. -/
def pageOf (x : TCopy) (va : Nat) : Nat :=
  match x.pages.find? fun p => p.1 == va / 2 ^ 16 * 2 ^ 16 with
  | some p => p.2.1 + va % 2 ^ 16
  | none => 0

/-- The addresses of the element at tensor coordinates. -/
def elemBytes (x : TCopy) (r : LRec) (i : List Nat) : List Nat :=
  (span (elemAddr r i) r.format.bytes).map (pageOf x)

/-- The step since which the values of a byte may still be what an engine operation of a slice reads: that of the slice's first store
to it which no release has shown to the engine, or the step after the latest engine write over it whose completion the slice has
observed (R311, R318); none when there is no such store. -/
def unseenSince (s : State) (ck k a : Nat) : Option Nat :=
  (find a (s.slice k).unseen).map fun t =>
    ((s.slice k).engW.filter fun e => e.addr == a && observed s ck [k] e.op).foldl (fun m e => Nat.max m (e.step + 1)) t

/-- The bytes of one memory element as the engine reads them: at their point of coherence; where a slice of the issuing split has
stored into it since its latest release that covers the engine, all as at one moment since that store (R311, R318). -/
def engineBytes (s : State) (o : Op) (as : List Nat) : List Byte :=
  let ck := coreKey o.site o.core
  match leastBy id (o.slices.map fun k => as.filterMap (unseenSince s ck k)).flatten with
  | none => pocBytes s as
  | some since =>
    let vs := wordValues s (as.headD 0) since
    let v := (nth 0 vs (pick s (25 * 2 ^ 64 + as.headD 0 / 8) vs.length)).toNat
    as.map fun a => BitVec.ofNat 8 (bits v (8 * (a % 8)) 8)

/-- The code that bytes of an element give: for int4 the nibble of its index. -/
def elemCode (r : LRec) (i : List Nat) (bs : List Byte) : Nat :=
  let v := leNat bs
  if r.format = .int4 then bits v (4 * (i.headD 0 % 2)) 4 else v

/-- A source element of a store: the bits kept from the reading of its block, or read now (R221, R234). -/
def sourceBits (s : State) (o : Op) (x : TCopy) (r : LRec) (n : Nat) : Nat :=
  let es := elemScratch x.store x.ctl.toNat
  match find n x.srcs with
  | some v => v
  | none => sramRead s (coreKey o.site o.core) o.slices o.since (x.scr + ctlSpoff x.ctl.toNat + place r es n) es
/-- The value of a source element: CE16, or FP32 where its 4 bytes say so (R219). -/
def sourceValue (store : Bool) (ctl v : Nat) : FVal := if elemScratch store ctl = 4 then decodeF 8 23 v else decodeF 8 7 v

/-- In-bounds box positions whose scale stands at a virtual address. -/
def blockOf (r : LRec) (origin : List Int) (sa : Nat) : List Nat :=
  (upFrom 0 (boxCount r)).filter fun n => match tensorPos r origin n with | some i => scaleAddr r i == sa | none => false

/-- Moves one element toward scratchpad: its two bytes are ready to be written (R218, R225). -/
def moveIn (s : State) (o : Op) (x : TCopy) (r : LRec) (n : Nat) : State × TCopy × Option Nat :=
  let ret := retOf x.ep
  let off := x.scr + ctlSpoff x.ctl.toNat + place r 2 n
  let ready := fun (v : Nat) => { x with outs := x.outs ++ [(off, leBytes 2 v)] }
  match tensorPos r x.origin n with
  | none => (s, ready (if r.oob = 1 then 0x7FC0 else 0), none)
  | some i =>
    let as := elemBytes x r i
    let sas := if r.sfmt = 1 then [pageOf x (scaleAddr r i)] else []
    match poisonedAt s (as ++ sas) with
    | some l => (s, x, some l)
    | none =>
      let scale := if r.sfmt = 1 then some (leNat (engineBytes s o sas)) else none
      (pocTouch (pocTouch s o.part ret true as) o.part ret true sas,
        ready (expandCE16 (r.sat == 1) (r.format.decode (elemCode r i (engineBytes s o as))) scale), none)

/-- The scale of an element to be stored, with the operation that holds it if it is computed, and the poisoned line that reading it
met: a computed one is taken from all source elements of its block, which are read then (R221, R232). -/
def storeScale (s : State) (o : Op) (x : TCopy) (r : LRec) (i : List Nat) : State × TCopy × Option Nat × Option Nat :=
  let va := scaleAddr r i
  if r.sfmt = 0 then (s, x, none, none)
  else if bitAt x.ctl.toNat 51 then
    match x.scales.find? fun e => e.1 == va with
    | some e => (s, x, some e.2.toNat, none)
    | none =>
      let src := (blockOf r x.origin va).map fun k => (k, sourceBits s o x r k)
      let v := blockScale r.format (src.map fun e => sourceValue x.store x.ctl.toNat e.2)
      (s, { x with scales := x.scales ++ [(va, BitVec.ofNat 8 v)], srcs := src.foldl (fun m e => put e.1 e.2 m) x.srcs }, some v, none)
  else
    let sa := pageOf x va
    match poisonedAt s [sa] with
    | some l => (s, x, none, some l)
    | none => (pocTouch s o.part (retOf x.ep) true [sa], x, some (leNat (engineBytes s o [sa])), none)

/-- Whether the byte of the int4 element at a box position holds a second one of the box and the tensor: else its other nibble is read
and kept (R232). -/
def wholeByte (r : LRec) (origin : List Int) (n : Nat) : Bool :=
  let j0 := n % r.boxes.headD 1
  match tensorPos r origin n with
  | some i =>
    if i.headD 0 % 2 = 0 then decide (j0 + 1 < r.boxes.headD 1) && decide (i.headD 0 + 1 < r.sizes.headD 0)
    else decide (0 < j0)
  | none => false

/-- Moves one element toward memory (R219, R232); where the other nibble of an int4 byte is read, a poisoned line does not let it
pass (R266). -/
def moveOut (s : State) (id : Nat) (o : Op) (x : TCopy) (r : LRec) (n : Nat) : State × TCopy × Option Nat :=
  match tensorPos r x.origin n with
  | none => (s, x, none)
  | some i =>
    let as := elemBytes x r i
    let int4 := decide (r.format = .int4)
    let sc := storeScale s o x r i
    match sc.2.2.2, (if int4 && !wholeByte r x.origin n then poisonedAt s as else none) with
    | some l, _ | none, some l => (sc.1, sc.2.1, some l)
    | none, none =>
      let v := r.format.store (r.sat == 1) r.rnd (sourceValue x.store x.ctl.toNat (sourceBits sc.1 o sc.2.1 r n)) sc.2.2.1
      let v := if int4 then setField (leNat (pocBytes s as)) (4 * (i.headD 0 % 2)) 4 v else v
      (noteEngine (pocWrite sc.1 o.part (retOf x.ep) (as.zip (leBytes r.format.bytes v))) id o as, sc.2.1, none)

/-- Moves one element; answers a poisoned line if it met one. -/
def moveElem (s : State) (id : Nat) (o : Op) (x : TCopy) (r : LRec) (n : Nat) : State × TCopy × Option Nat :=
  if x.store then moveOut s id o x r n else moveIn s o x r n

/-- Moves up to `n` of the elements left, from the front; a poisoned line ends the context (R234). -/
def moveElems (id : Nat) (o : Op) (r : LRec) : (n : Nat) → State → TCopy → State × TCopy
  | 0, s, x => (s, x)
  | n + 1, s, x =>
    match x.left with
    | [] => (s, x)
    | k :: ks =>
      let m := moveElem s id o { x with left := ks } r k
      match m.2.2 with
      | some l => (poisonOp m.1 o l o.lanes, { m.2.1 with left := [] })
      | none => moveElems id o r n m.1 m.2.1

/-- Lets an accepted TCOPY move a free number of its elements in a free order, and write some of the scratchpad elements that are ready
(R232, R234). -/
def tcopyProgress (s : State) (id : Nat) : State :=
  match find id s.ops with
  | none => s
  | some o =>
    match o.body with
    | .tcopy x =>
      match x.lrec with
      | some r =>
        if !o.after.all (depDone s) then s
        else
          let w := takeSome s (26 * 2 ^ 64 + 2 * id) x.outs
          let e := takeSome s (7 * 2 ^ 64 + 2 * id) x.left
          let s := if w.1.isEmpty then s else engineWrite s (coreKey o.site o.core) id o.since w.1
          let m := moveElems id o r e.1.length s { x with outs := w.2, left := e.1 ++ e.2 }
          m.1.modOp id fun y => { y with body := .tcopy m.2 }
      | none => s
    | _ => s

/-! ### The steps -/

/-- TCOPY at issue (R230): the operands, the token, and the wait for acceptance. -/
def tcopyWord (s : State) (i : Instr) (store : Bool) (d a b : BitVec 8) : Out :=
  plain s i fun cx =>
    let ctl := cx.g s d.toNat
    let after := if store then opsOf s cx.sp.keys fun x => match x with | .access _ scr .. => scr | _ => false else []
    engineWord s cx (ctlToken ctl) after (.tcopy
      { store := store, ctl := BitVec.ofNat 64 ctl, recAddr := BitVec.ofNat 64 (cx.g s a.toNat)
        coord := BitVec.ofNat 64 (cx.g s b.toNat), ep := modeEP cx.sp.mode })

/-- TCOPY.ld (R230). -/
def execTcopyLd (d a b : BitVec 8) (s : State) : Out := tcopyWord s (.tcopyLd d a b) false d a b
/-- TCOPY.st (R230). -/
def execTcopySt (d a b : BitVec 8) (s : State) : Out := tcopyWord s (.tcopySt d a b) true d a b

/-- TCOPY operations of a core: those accepted, and those still to accept. -/
def tcopies (s : State) (ck : Nat) (accepted : Bool) : List Nat :=
  (s.ops.filter fun e => coreKey e.2.site e.2.core == ck && (match e.2.body with
    | .tcopy x => x.accepted == accepted | _ => false)).map (·.1)

/-- TCOPY_ACCEPT (R231): in issue order, when the queue has a free entry. -/
def execTcopyAccept (id : Nat) (s : State) : Out :=
  match find id s.ops with
  | none => .fault (.notEnabled "TCOPY_ACCEPT")
  | some o =>
    match o.body, acceptWaiter s id, find o.team s.teams with
    | .tcopy x, some w, some t =>
      let ck := coreKey o.site o.core
      if x.accepted || (tcopies s ck false).any (fun j => decide (j < id))
          || decide (Config.copyQueue ≤ (tcopies s ck true).length) then .fault (.notEnabled "TCOPY_ACCEPT")
      else .next (endAccept s id o w.1 (acceptTcopy s o w.2 t x))
    | _, _, _ => .fault (.notEnabled "TCOPY_ACCEPT")

/-- TCOPY_COMPLETE (R232, R233): the elements and bytes left, the computed scales, then the credit and the token. One that posts no
token may outlive its team, and goes on at the physical place it was accepted for (R113; log entry 67, DEDUCED). -/
def execTcopyComplete (id : Nat) (s : State) : Out :=
  match find id s.ops with
  | none => .fault (.notEnabled "TCOPY_COMPLETE")
  | some o =>
    match o.body with
    | .tcopy x =>
      match x.lrec with
      | some r =>
        if !o.after.all (depDone s) then .fault (.notEnabled "TCOPY_COMPLETE")
        else
          let m := moveElems id o r x.left.length s x
          let s := engineWrite m.1 (coreKey o.site o.core) id o.since m.2.outs
          let scales := m.2.scales.map fun e => (pageOf x e.1, e.2)
          let s := noteEngine (pocWrite s o.part (retOf x.ep) scales) id o (scales.map (·.1))
          .next (engineDone s id o x.ctl.toNat (boxCount r * elemScratch x.store x.ctl.toNat))
      | none => .fault (.notEnabled "TCOPY_COMPLETE")
    | _ => .fault (.notEnabled "TCOPY_COMPLETE")

end Sys2Proof.Machine
end

