-- ==== Sys2Proof/Machine/Preempt.lean ====
section
/-! DEFINITION. Pre-emption, the save area and resume (R338 to R343, R101, R123, R359, R387). -/
namespace Sys2Proof.Machine

/-! ### Requests (R338, R343, R359) -/

/-- Islands on which a context has resident teams, each with its cycle count. -/
def ctxIslands (s : State) (asid : Nat) : List (Nat × Nat) :=
  (asSet ((s.teams.filter fun e => e.2.asid == asid && e.2.resident).map fun e => e.2.site)).map fun k =>
    (k, (s.island k).cycle)

/-- The end of a pre-emption: once no team is left to save the context is no longer resident, and the one it made way for
is (R359). -/
def endPreempt (s : State) (asid : Nat) : State :=
  if s.teams.any fun e => e.2.asid == asid && e.2.resident then s
  else
    let next := (find asid s.ctxs).bind fun c => c.next
    let s := s.modCtx asid fun c => { c with resident := false, pre := .none, next := none }
    match next with | some n => makeResident s n | none => s

/-- Starts the pre-emption of a context (R338, step 1). -/
def startPreempt (s : State) (asid : Nat) : State :=
  endPreempt (s.modCtx asid fun c => { c with pre := .stopping (ctxIslands s asid), preQueued := false }) asid

/-- A pre-emption is asked for; during a debugger halt it waits for the resume (R124, R343). -/
def askPreempt (s : State) (asid : Nat) (next : Option Nat) : State :=
  let s := s.modCtx asid fun c => { c with next := next }
  if (match find asid s.ctxs with | some c => c.halted | none => false) then
    s.modCtx asid fun c => { c with preQueued := true }
  else startPreempt s asid

/-- Whether a context may be asked to make way. -/
def preemptible (c : Ctx) : Bool := c.resident && !c.ending && decide (c.pre = .none) && !c.preQueued

/-- PREEMPT_REQUEST (R338): system software asks. -/
def execPreemptRequest (asid : Nat) (s : State) : Out :=
  match find asid s.ctxs with
  | some c => if preemptible c then .next (askPreempt s asid none) else .fault (.notEnabled "PREEMPT_REQUEST")
  | none => .fault (.notEnabled "PREEMPT_REQUEST")

/-- The context that waits for residency with a published packet, if any (R359). -/
def waiting (s : State) (asid : Nat) : Option Nat :=
  (s.ctxs.find? fun e => e.1 != asid && !e.2.resident && !e.2.ending
    && s.fe.queues.any fun q => q.2.asid.toNat == e.1 && q.2.en && published s q.1).map (·.1)

/-- TIME_SLICE_EXPIRY (R359, R343). -/
def execTimeSliceExpiry (asid : Nat) (s : State) : Out :=
  match find asid s.ctxs with
  | none => .fault (.notEnabled "TIME_SLICE_EXPIRY")
  | some c =>
    match waiting s asid with
    | none => .fault (.notEnabled "TIME_SLICE_EXPIRY")
    | some n =>
      if preemptible c && s.fe.slice != 0 && decide (c.since + s.fe.slice ≤ s.fe.fcyc) then .next (askPreempt s asid (some n))
      else .fault (.notEnabled "TIME_SLICE_EXPIRY")

/-- Splits of a context's resident teams, with the team. -/
def ctxSplits (s : State) (asid : Nat) : List (Nat × Split × Team) :=
  s.splits.filterMap fun e => match find e.2.team s.teams with
    | some t => if t.asid = asid ∧ t.resident then some (e.1, e.2, t) else none
    | none => none

/-- HANDLER_TIME_LIMIT (R338, step 2): 65,536 cycles of its island have passed for every handler still running. -/
def execHandlerTimeLimit (asid : Nat) (s : State) : Out :=
  match find asid s.ctxs with
  | none => .fault (.notEnabled "HANDLER_TIME_LIMIT")
  | some c =>
    match c.pre with
    | .stopping since =>
      let hs := (ctxSplits s asid).filter fun e => e.2.1.handler
      if !hs.isEmpty && hs.all fun e => decide (getD 0 e.2.2.site since + Config.handlerLimit ≤ (s.island e.2.2.site).cycle) then
        .next (s.modCtx asid fun x => { x with pre := .limit })
      else .fault (.notEnabled "HANDLER_TIME_LIMIT")
    | _ => .fault (.notEnabled "HANDLER_TIME_LIMIT")

/-! ### The save area (R340) -/

/-- Waits a split keeps across a pre-emption (R341). -/
def Wait.kept : Wait → Bool
  | .token .. | .drain | .restore .. | .rgang | .bsync _ | .barw .. | .nwait .. | .lwait => true
  | _ => false

/-- Slices of a team's gangs that have not retired, in gang order. -/
def savedSlices (s : State) (tid : Nat) (t : Team) : List (Nat × Slice) :=
  (s.slices.filter fun e => decide (e.1 / 256 = tid)).filter fun e =>
    !(nth ⟨8, 0, 32, 0, true⟩ t.gangs (e.1 / 16 % 16)).retired

/-- Bytes of the slice block of a slice with window size `n` (Table 15.8). -/
def blockBytes (n : Nat) : Nat := 1024 + 16 * n
/-- Offsets of the parts of a save area: scratchpad, tiles, barrier slots, byte barriers, end. -/
def saveScratch (blocks : List Nat) : Nat := roundUp (33024 + sumNat (blocks.map blockBytes)) 1024
def saveEnd (blocks : List Nat) (t : Team) : Nat :=
  saveScratch blocks + t.scratch + 16384 * t.tiles.length + 8 * t.bars.length + 8 * t.bbs.length

/-- KDESC of a team's grid. -/
def teamKdesc (s : State) (t : Team) : Nat := match find t.grid s.fe.grids with | some g => fieldAt g.hdr 0 8 | none => 0

/-- The header (Table 15.6). -/
def saveHeader (s : State) (t : Team) (nsplit : Nat) : List Byte :=
  let gang := fun (g : Gang) => g.width + 2 ^ 8 * g.role + 2 ^ 10 * g.size + 2 ^ 19 * ofBool g.retired
  let gs := t.gangs.map fun g => leBytes 8 (gang g)
  leBytes 4 1 ++ leBytes 4 t.idx.toNat ++ leBytes 8 (t.x.toNat + 2 ^ 32 * t.y.toNat + 2 ^ 48 * t.z.toNat)
    ++ leBytes 8 (teamKdesc s t) ++ leBytes 4 t.scratch ++ leBytes 1 (maskOf (t.tiles.map (·.1))) ++ leBytes 1 t.bars.length
    ++ leBytes 1 t.bbs.length ++ leBytes 1 t.gangs.length ++ leBytes 2 nsplit ++ leBytes 30 0
    ++ (gs.flatten ++ leBytes 128 0).take 128 ++ leBytes 64 0

/-- A split-table entry (Table 15.7). -/
def saveSplit (sp : Split) : List Byte :=
  let p := sp.pending.getD { code := 0 }
  leBytes 8 sp.va ++ leBytes 4 sp.mode.toNat
    ++ leBytes 4 (ofBool sp.handler + 2 * ofBool sp.wait.kept + 4 * ofBool sp.pending.isSome)
    ++ leBytes 4 sp.tcause.toNat ++ leBytes 4 sp.tsave.toNat ++ leBytes 8 sp.tpc.toNat ++ leBytes 8 sp.tval.toNat
    ++ leBytes 8 sp.tlanes.toNat ++ leBytes 4 p.tcause.toNat ++ leBytes 4 0 ++ leBytes 8 p.tval ++ leBytes 8 p.tlanes
    ++ leBytes 56 0

/-- A lane of a slice block (Table 15.8). -/
def saveLane (sl : Slice) (i : Nat) : List Byte :=
  let l := sl.lane i
  let preds := maskOf (0 :: (upFrom 1 63).filter fun r => (getD 0 (keyP r i) sl.regs).getLsbD 0)
  leBytes 4 l.nest ++ leBytes 4 l.lid.toNat ++ leBytes 4 l.prec.toNat ++ leBytes 4 l.tprec.toNat ++ leBytes 8 preds ++ leBytes 8 0

/-- A slice block (Table 15.8). -/
def saveSlice (sk idx : Nat) (sl : Slice) : List Byte :=
  let g := fun (r : Nat) => leBytes 4 (getD 0 (keyG r 0) sl.regs).toNat ++ leBytes 4 (getD 0 (keyG r 1) sl.regs).toNat
  leBytes 8 (idx + 2 ^ 8 * (sk % 16) + 2 ^ 12 * (sk / 16 % 16) + 2 ^ 16 * ofBool sl.retired)
    ++ leBytes 4 (sl.size + 2 ^ 16 * sl.wb) ++ leBytes 4 sl.cycleh.toNat
    ++ leBytes 8 (match sl.cpc with | some p => 2 ^ 63 + p.toNat | none => 0)
    ++ ((upFrom 0 16).map fun t => leBytes 1 (sl.standing t)).flatten
    ++ leBytes 8 (match sl.rfault with | some r => r.1.toNat | none => 0) ++ leBytes 8 (ofBool sl.rfault.isSome) ++ leBytes 8 0
    ++ ((upFrom 0 66).map g).flatten
    ++ ((upFrom 0 8).map fun k => leBytes 16 (getD 0 k sl.hs).toNat).flatten
    ++ (fourLanes.map (saveLane sl)).flatten ++ leBytes 176 0
    ++ ((upFrom 0 (4 * sl.size)).map fun k => leBytes 4 (getD 0 (keyX (k / 4) (k % 4)) sl.regs).toNat).flatten

/-- An accumulator tile, a barrier slot (Table 8.4) and a byte barrier (Table 8.6). -/
def saveTile (c : Core) (phys : Nat) : List Byte :=
  ((upFrom 0 4096).map fun k => leBytes 4 (getD 0 (4096 * phys + k) c.tiles).toNat).flatten
def saveBar (b : Barrier) : List Byte := leBytes 8 (b.arr.toNat + 2 ^ 17 * b.nx.toNat + 2 ^ 28 * b.gm.toNat)
def saveBb (b : ByteBar) : List Byte := leBytes 8 (b.rem.toNat + 2 ^ 32 * ofBool b.ph + 2 ^ 33 * ofBool b.arm)

/-- The splits of a team in the order of its split table: those with a pending cause first, as their instructions issued,
then by lowest slice (R335, R340). -/
def splitTable (s : State) (tid : Nat) : List (Nat × Split) :=
  sortBy (fun e => (if e.2.pending.isSome then e.2.pendAt else 2 ^ 64) * 4096 + 16 * e.2.gang + e.2.slices.headD 0)
    (s.splits.filter fun e => decide (e.2.team = tid))

/-- The whole save area of a team (R340). A slice of no split, whose lanes have all exited while a count stands, has index 255
(log entry 59, DESIGN CHOICE). -/
def saveArea (s : State) (tid : Nat) (t : Team) : List Byte :=
  let sps := splitTable s tid
  let sls := savedSlices s tid t
  let idx := fun (sk : Nat) => ((upFrom 0 sps.length).zip sps).findSome? fun e => if e.2.2.keys.contains sk then some e.1 else none
  let front := saveHeader s t sps.length ++ ((sps.map fun e => saveSplit e.2).flatten ++ leBytes 32768 0).take 32768
    ++ (sls.map fun e => saveSlice e.1 ((idx e.1).getD 255) e.2).flatten
  let c := s.core (coreKey t.site t.core)
  (front ++ leBytes (saveScratch (sls.map fun e => e.2.size) - front.length) 0)
    ++ (span t.scratchBase t.scratch).map (fun a => getD 0 a c.scratch)
    ++ (t.tiles.map fun x => saveTile c x.2.2).flatten ++ (t.bars.map saveBar).flatten ++ (t.bbs.map saveBb).flatten

/-- Writes bytes to HBM4E itself; no cache holds them dirty (R338, step 5). -/
def hbmWrite (s : State) (a : Nat) (bs : List Byte) : State :=
  let out := fun (x : Nat) => decide (x < a ∨ a + bs.length ≤ x)
  let cells := ((span a bs.length).zip bs).filter fun e => e.2 != 0
  let lines := linesOf [a] ++ upFrom (lineOf a + 1) (lineOf (a + bs.length - 1) - lineOf a)
  let s := notePast s ((s.mem.filter fun e => !out e.1).map (·.1) ++ cells.map (·.1))
  let s := syncPoison { s with mem := cells.foldl (fun m e => writeByte m e.1 e.2) (s.mem.filter fun e => out e.1)
                               stale := s.stale.filter fun e => out e.1
                               poison := s.poison.filter fun e => out (128 * e.1) || out (128 * e.1 + 127) }
  lines.foldl (fun t l => wakeLine (l2Clean t (128 * l)) l) s

/-! ### Placement of the save area (R339) -/

/-- Takes the first range of at least `n` bytes. -/
def takeArea (n : Nat) : List (Nat × Nat) → Option (Nat × List (Nat × Nat))
  | [] => none
  | (a, k) :: t =>
    if n ≤ k then some (a, if k = n then t else (a + n, k - n) :: t)
    else (takeArea n t).map fun r => (r.1, (a, k) :: r.2)

/-- Asks system software for a place (R339, R387): ETYPE 5. -/
def requestSave (s : State) (tid : Nat) (t : Team) (n flags : Nat) : State :=
  let svc := freeSvc s
  let ev := eventRecord 5 flags svc t.site s.fe.panel.toNat t.asid (leBytes 4 t.idx.toNat ++ leBytes 4 0 ++ leBytes 8 n)
  let s := postCtx t.asid ev (openSvc (.save t.asid tid n) (some t.asid) ev s)
  s.modTeam tid fun x => { x with saveSvc := some svc }

/-- Gives a team its save area from the pool, or asks for one. -/
def placeSave (s : State) (tid : Nat) (t : Team) (n : Nat) : State :=
  if modeBit s t.asid 2 then requestSave s tid t n 0
  else
    match takeArea (roundUp n 4096) (getD [] t.site s.fe.saves) with
    | some (a, rest) =>
      (s.modFe fun f => { f with saves := put t.site rest f.saves }).modTeam tid fun x =>
        { x with saveAt := some a, savePooled := true }
    | none => requestSave (poolExhausted s t.site (some t.asid) 2) tid t n 1

/-! ### Saving (R338) -/

/-- Whether the drain of a context is complete (R338, steps 1 to 3): no handler still runs within its time, no operation is
outstanding, and every split has stopped at an instruction or at a wait that is kept. -/
def saveReady (s : State) (asid : Nat) (c : Ctx) : Bool :=
  let sps := ctxSplits s asid
  !c.ending && decide (c.pre ≠ .none) && (decide (c.pre = .limit) || sps.all fun e => !e.2.1.handler || c.haltAt.any fun h => h.1 == e.1)
    && s.ops.all (fun e => e.2.asid != asid)
    && sps.all fun e => e.2.1.park.isNone && !e.2.1.replays
        && (e.2.1.wait == .none || e.2.1.wait.kept || match e.2.1.wait with | .mwait .. => true | _ => false)

/-- A team's registers as its save records them: every outstanding result in place (R107, R123). -/
def settleTeam (s : State) (tid : Nat) : State :=
  { s with slices := s.slices.map fun e =>
      if e.1 / 256 = tid then (e.1, (e.2.coverAll (upFrom 0 16)).settle) else e }

/-- What is kept of a split beside its entry (R302, R335, R336, R341). -/
def Split.saved (p : Split) (sid : Nat) : SavedSplit :=
  { sid := sid, wait := if p.wait.kept then p.wait else .none, joinTo := p.joinTo, issuedAt := p.issuedAt, pendAt := p.pendAt
    afterRft := p.afterRft, stepMark := p.stepMark }

/-- Writes a team's save area and frees what it holds on its core (R338, steps 4 and 5). -/
def saveTeam (s : State) (tid : Nat) (t : Team) (a : Nat) : State :=
  let s := settleTeam s tid
  let s := l1CleanAll s (coreKey t.site t.core) (partOf s t.asid) 2
  let s := hbmWrite s (2 ^ 44 * t.site + a) (saveArea s tid t)
  let sids := (splitTable s tid).map fun e => e.2.saved e.1
  let s := { s with splits := s.splits.filter fun e => decide (e.2.team ≠ tid) }
  endPreempt (s.modTeam tid fun x => { x with resident := false, savedSids := sids }) t.asid

/-- PREEMPT_SAVE (R338, R339): once the context has drained, a team gets its save area, and is then saved in it. -/
def execPreemptSave (tid : Nat) (s : State) : Out :=
  match find tid s.teams with
  | none => .fault (.notEnabled "PREEMPT_SAVE")
  | some t =>
    match find t.asid s.ctxs with
    | none => .fault (.notEnabled "PREEMPT_SAVE")
    | some c =>
      if !t.resident || !saveReady s t.asid c then .fault (.notEnabled "PREEMPT_SAVE")
      else
        match t.saveAt, t.saveSvc with
        | some a, _ => .next (saveTeam s tid t a)
        | none, none => if svcsFull s then .fault (.notEnabled "PREEMPT_SAVE") else .next (placeSave s tid t (saveEnd ((savedSlices s tid t).map fun e => e.2.size) t))
        | none, some _ => .fault (.notEnabled "PREEMPT_SAVE")

/-- SAVE_PLACE (R387): a multiple of 4,096 in HBM4E of the team's island; any other address leaves the request pending. -/
def execSavePlace (svc addr : Nat) (s : State) : Out :=
  command 0x26 "SAVE_PLACE" s <|
    match find svc s.fe.svcs with
    | some ⟨.save _ tid n, _, _, _⟩ =>
      match find tid s.teams with
      | none => .error 2
      | some t =>
        if addr % 4096 = 0 ∧ bits addr 48 8 = s.fe.panel.toNat ∧ bits addr 44 4 = t.site ∧ addr < 2 ^ 56
            ∧ bits addr 0 44 + n ≤ (s.island t.site).hcap then
          let s := s.modFe fun f => { f with svcs := del svc f.svcs }
          .ok (s.modTeam tid fun x => { x with saveAt := some (bits addr 0 44), saveSvc := none }, 0)
        else .error 2
    | _ => .error 2

/-! ### Resume (R342) -/

/-- What a saved team asks of a core: windows for the slices that have not retired. -/
def resumeDemand (s : State) (tid : Nat) (t : Team) : Demand :=
  let live := fun (g : Nat) => (s.slices.filter fun e => decide (e.1 / 16 = 16 * tid + g) && !e.2.retired).length
  ⟨((upFrom 0 t.gangs.length).zip t.gangs).map fun g => (if g.2.retired then 0 else live g.1, g.2.size), t.scratch
    , t.tiles.map fun x => (x.1, x.2.1), t.bars.length, t.bbs.length⟩

/-- A lane from its 32 bytes. -/
def loadLane (b : List Byte) : Lane :=
  let n := fieldAt b 0 4
  { c := BitVec.ofNat 8 n, e := bitAt n 8, d := bitAt n 9, lid := w32 (fieldAt b 4 4), prec := w32 (fieldAt b 8 4)
    tprec := w32 (fieldAt b 12 4) }

/-- Register units from a slice block. -/
def loadRegs (b : List Byte) (size : Nat) : SMap Word :=
  let add := fun (m : SMap Word) (k v : Nat) => setD 0 k (w32 v) m
  let m := (upFrom 0 (4 * size)).foldl (fun m k => add m (keyX (k / 4) (k % 4)) (fieldAt b (1024 + 4 * k) 4)) []
  let m := (upFrom 2 130).foldl (fun m k => add m (keyG (k / 2) (k % 2)) (fieldAt b (64 + 4 * k) 4)) m
  fourLanes.foldl (fun m i => (upFrom 1 63).foldl (fun m r =>
    add m (keyP r i) (ofBool (bitAt (fieldAt b (720 + 32 * i + 16) 8) r))) m) m

/-- A slice restored from its block, at its new place. Counts hold the standing counts, and all else is covered (R123). -/
def loadSlice (old : Slice) (b : List Byte) (pos origin : Nat) : Slice :=
  let cpc := fieldAt b 16 8
  { old with
    pos := pos, origin := origin, wb := bits (fieldAt b 8 4) 16 9, size := bits (fieldAt b 8 4) 0 9
    cycleh := w32 (fieldAt b 12 4)
    cpc := if bitAt cpc 63 then some (BitVec.ofNat 48 cpc) else none
    stand := (upFrom 0 16).foldl (fun m t => setD 0 t (fieldAt b (24 + t) 1) m) []
    rfault := if bitAt (fieldAt b 48 1) 0 then some (BitVec.ofNat 64 (fieldAt b 40 8), match old.rfault with | some r => r.2 | none => 0)
      else none
    regs := loadRegs b (bits (fieldAt b 8 4) 0 9)
    hs := (upFrom 0 8).foldl (fun m k => setD 0 k (BitVec.ofNat 128 (fieldAt b (592 + 16 * k) 16)) m) []
    lanes := fourLanes.map fun i => loadLane (b.drop (720 + 32 * i))
    toks := [], posted := [], coveredTo := [], pend := [], pendF := [], lastW := [], tokW := [], readAt := [], chain := none
    slot := 0 }

/-- A split restored from its entry. -/
def loadSplit (b : List Byte) (tid gang : Nat) (slices : List Nat) (w : SavedSplit) : Split :=
  let f := fieldAt b 12 4
  let pc := fieldAt b 48 4
  { team := tid, gang := gang, slices := slices, pc := BitVec.ofNat 48 (fieldAt b 0 8), pcHi := BitVec.ofNat 16 (fieldAt b 6 2), mode := w32 (fieldAt b 8 4)
    handler := bitAt f 0, tcause := w32 (fieldAt b 16 4), tsave := w32 (fieldAt b 20 4), tpc := BitVec.ofNat 64 (fieldAt b 24 8)
    tval := BitVec.ofNat 64 (fieldAt b 32 8), tlanes := BitVec.ofNat 64 (fieldAt b 40 8), wait := if bitAt f 1 then w.wait else .none
    pending := if bitAt f 2 then some { code := BitVec.ofNat 8 pc, sub := bits pc 8 8, tval := fieldAt b 56 8, tlanes := fieldAt b 64 8
                                        pc := BitVec.ofNat 48 (fieldAt b 0 8) }
      else none
    joinTo := w.joinTo, issuedAt := w.issuedAt, pendAt := w.pendAt, afterRft := w.afterRft, stepMark := w.stepMark }

/-- A barrier slot and a byte barrier from their 8 bytes. -/
def loadBar (v : Nat) : Barrier := ⟨BitVec.ofNat 16 (bits v 28 16), BitVec.ofNat 11 (bits v 17 11), BitVec.ofNat 11 (bits v 0 11)⟩
def loadBb (v : Nat) : ByteBar := ⟨bitAt v 33, bitAt v 32, w32 v⟩

/-- Slice blocks cut from the bytes behind the split table, by slice. -/
def cutBlocks : List (Nat × Slice) → List Byte → List (Nat × Slice × List Byte)
  | [], _ => []
  | (k, sl) :: t, b => (k, sl, b) :: cutBlocks t (b.drop (blockBytes sl.size))

/-- Places of the slices that have not retired, by slice key. -/
def newSpots (s : State) (tid : Nat) (spots : List (List (Nat × Nat))) : List (Nat × Nat × Nat) :=
  (((upFrom 0 spots.length).zip spots).map fun g =>
    (((s.slices.filter fun e => decide (e.1 / 16 = 16 * tid + g.1) && !e.2.retired).map (·.1)).zip g.2)).flatten

/-- Restores a saved team on core `c` of its island (R342) (log entry 41, DEDUCED). -/
def restoreTeam (s : State) (tid : Nat) (t : Team) (a c : Nat) (f : Fit) : State :=
  let ck := coreKey t.site c
  let sls := savedSlices s tid t
  let sizes := sls.map fun e => e.2.size
  let b := pocBytes s (span (2 ^ 44 * t.site + a) (saveEnd sizes t))
  let spots := newSpots s tid f.spots
  let blocks := cutBlocks sls (b.drop 33024)
  let s := dropRecords (welcome (clearFit s ck f t.scratch) ck (partOf s t.asid)) ck
  let s := blocks.foldl (fun u e =>
    let p := (spots.find? fun x => x.1 == e.1).map (·.2)
    u.setSlice e.1 (loadSlice e.2.1 e.2.2 (p.getD (0, 0)).1 (p.getD (0, 0)).2)) s
  let member := fun (k : Nat) => blocks.filter fun e => !bitAt (fieldAt e.2.2 0 8) 16 && bits (fieldAt e.2.2 0 8) 0 8 == k
  let s := ((upFrom 0 t.savedSids.length).zip t.savedSids).foldl (fun u e =>
    match member e.1 with
    | [] => u
    | x :: xs => u.setSplit e.2.sid (loadSplit (b.drop (256 + 128 * e.1)) tid (x.1 / 16 % 16) ((x :: xs).map fun y => y.1 % 16)
        e.2)) s
  let off := saveScratch sizes
  let tb := b.drop (off + t.scratch)
  let bb := tb.drop (16384 * t.tiles.length)
  let co := s.core ck
  -- the instructions that the team issues here come later than those it has issued elsewhere on the island (R335)
  let s := s.setCore ck { co with
    cycles := Nat.max co.cycles (s.island t.site).cycle
    engDone := co.engDone.filter fun e => decide (e.2.team ≠ tid)
    scratch := ((span f.base t.scratch).zip (b.drop off)).foldl (fun m e => setD 0 e.1 e.2 m) co.scratch
    tiles := ((upFrom 0 f.tiles.length).zip f.tiles).foldl (fun m x => (upFrom 0 4096).foldl (fun m k =>
      setD 0 (4096 * x.2.2.2 + k) (w32 (fieldAt tb (16384 * x.1 + 4 * k) 4)) m) m) co.tiles }
  let s := if t.savePooled then
      s.modFe fun fe => { fe with saves := put t.site (getD [] t.site fe.saves ++ [(a, roundUp (saveEnd sizes t) 4096)]) fe.saves }
    else s
  let s := s.modTeam tid fun x => { x with
    core := c, resident := true, gangs := withEntries x.gangs f.entries, scratchBase := f.base, tiles := f.tiles
    barPhys := f.bars, bbPhys := f.bbs, saveAt := none, savePooled := false, savedSids := []
    bars := (upFrom 0 t.bars.length).map fun k => loadBar (fieldAt bb (8 * k) 8)
    bbs := (upFrom 0 t.bbs.length).map fun k => loadBb (fieldAt bb (8 * (t.bars.length + k)) 8) }
  let s := s.modFe fun fe => { fe with grids := upd t.grid (fun g => { g with cores := asSet (ck :: g.cores) }) fe.grids }
  (upFrom 0 t.gangs.length).foldl (fun u g => deliverPending u tid g) s

/-- Cores of an island that a saved team fits, with what it would get. -/
def resumeCores (s : State) (tid : Nat) (t : Team) : List (Nat × Fit) :=
  (upFrom 0 128).filterMap fun c =>
    if corePresent s t.site c then
      (fitOn s (coreKey t.site c) (teamsOn s (coreKey t.site c)) (resumeDemand s tid t)).map fun f => (c, f)
    else none

/-- TEAM_RESUME (R342): on any core of its island that it fits. -/
def execTeamResume (tid : Nat) (s : State) : Out :=
  match find tid s.teams with
  | none => .fault (.notEnabled "TEAM_RESUME")
  | some t =>
    match t.saveAt with
    | none => .fault (.notEnabled "TEAM_RESUME")
    | some a =>
      if t.resident || !mayPlace s t.asid || (s.island t.site).underReset then .fault (.notEnabled "TEAM_RESUME")
      else
        let cs := resumeCores s tid t
        match nth none (cs.map some) (pick s (14 * 2 ^ 64 + tid) cs.length) with
        | none => .fault (.notEnabled "TEAM_RESUME")
        | some (c, f) => .next (restoreTeam (makeResident s t.asid) tid t a c f)

end Sys2Proof.Machine
end

