-- ==== Sys2Proof/Machine/Debug.lean ====
section
/-! DEFINITION. The debugger (R118, R124, R336, R337, R343). -/
namespace Sys2Proof.Machine

/-! ### Registers of a halted context (R337) -/

/-- A slice of a resident team of a context, with its fixed-latency results in place: its split's stop ends first (R107). -/
def dbgSlice (s : State) (asid sk : Nat) : Option Slice :=
  match find (sk / 256) s.teams, find sk s.slices with
  | some t, some sl => if t.asid = asid ∧ t.resident ∧ !sl.retired then some sl.settle else none
  | _, _ => none

/-- A split of a resident team of a context. -/
def dbgSplit (s : State) (asid sid : Nat) : Option Split :=
  match find sid s.splits with
  | some sp => match find sp.team s.teams with
    | some t => if t.asid = asid ∧ t.resident then some sp else none
    | none => none
  | none => none

/-- The handler registers by index (Table 15.3) as the debugger writes them, with the bits their layout lets through. -/
def Split.setTrap (p : Split) (idx v : Nat) : Split :=
  match idx with
  | 0x21 => { p with tcause := w32 (v &&& 0xFFFF) }
  | 0x22 => { p with tpc := BitVec.ofNat 64 (v &&& 0x0000FFFFFFFFFFFC) }
  | 0x23 => { p with tval := BitVec.ofNat 64 v }
  | 0x24 => { p with tlanes := BitVec.ofNat 64 v }
  | 0x25 => { p with tsave := w32 v }
  | _ => p

def Split.getTrap (p : Split) (idx : Nat) : Nat :=
  match idx with
  | 0x21 => p.tcause.toNat | 0x22 => p.tpc.toNat | 0x23 => p.tval.toNat | 0x24 => p.tlanes.toNat | 0x25 => p.tsave.toNat
  | _ => 0

/-- Where a tile element of a resident team of a context lies: core and key. -/
def dbgTile (s : State) (asid tid name row col : Nat) : Option (Nat × Nat) :=
  match find tid s.teams with
  | none => none
  | some t =>
    if t.asid = asid ∧ t.resident ∧ row < 64 ∧ col < 64 then
      (t.tiles.find? fun x => x.1 == name).map fun x => (coreKey t.site t.core, 4096 * x.2.2 + 64 * row + col)
    else none

/-- The record of the cause that stopped a split (Table 15.2). -/
def haltRecord (s : State) (asid sid : Nat) : Option (List Byte) :=
  match find asid s.ctxs, find sid s.splits with
  | some c, some sp => (c.haltAt.find? fun h => h.1 == sid).bind fun h =>
      (find sp.team s.teams).map fun t => causeRecord s sp t h.2 sp.handler
  | _, _ => none

/-- The issue that stands for a slice of a team when a state register of slice or wider scope is read. -/
def dbgIss (s : State) (sk : Nat) : Option Iss :=
  (find (sk / 256) s.teams).map fun t => ⟨0, { team := sk / 256, gang := sk / 16 % 16, slices := [sk % 16], pc := 0, mode := 0 }, t⟩

/-- The state registers that no instruction writes and no other name of `DbgReg` covers (Table 2.14): those of placement, CYCLE,
DBG and PID. -/
def dbgState : List Nat := [0x01, 0x02, 0x03, 0x08, 0x09, 0x0A, 0x12, 0x30, 0x40]

/-- The value of a register, when the context has it. -/
def dbgRead (s : State) (asid : Nat) : DbgReg → Option Nat
  | .x sk lane slot => (dbgSlice s asid sk).bind fun sl =>
      if lane < 4 ∧ slot < sl.size - sl.wb then some (readUnit s.tick sk sl (keyX (sl.wb + slot) lane)).toNat else none
  | .g sk r => (dbgSlice s asid sk).bind fun sl => if r < 66 then some (readG s.tick sk sl false r) else none
  | .p sk lane r => (dbgSlice s asid sk).bind fun sl =>
      if lane < 4 ∧ r < 64 then some (ofBool (readP s.tick sk sl r lane)) else none
  | .prec sk lane => (dbgSlice s asid sk).bind fun sl => if lane < 4 then some (sl.lane lane).prec.toNat else none
  | .mode sid => (dbgSplit s asid sid).map fun sp => sp.mode.toNat
  | .pc sid => (dbgSplit s asid sid).map fun sp => sp.va
  | .count sk tok => (dbgSlice s asid sk).bind fun sl => if tok < 16 then some (sl.count tok) else none
  | .tprec sk lane => (dbgSlice s asid sk).bind fun sl => if lane < 4 then some (sl.lane lane).tprec.toNat else none
  | .nest sk lane => (dbgSlice s asid sk).bind fun sl => if lane < 4 then some (sl.lane lane).nest else none
  | .lid sk lane => (dbgSlice s asid sk).bind fun sl => if lane < 4 then some (sl.lane lane).lid.toNat else none
  | .cycleh sk => (dbgSlice s asid sk).map fun sl => sl.cycleh.toNat
  | .state sk idx => (dbgSlice s asid sk).bind fun sl =>
      if dbgState.contains idx then (dbgIss s sk).map fun cx => readSliceState s cx sl idx else none
  | .h sk n hi => (dbgSlice s asid sk).bind fun sl =>
      if n < 8 then some (bits (getD 0 n sl.hs).toNat (64 * ofBool hi) 64) else none
  | .cpc sk => (dbgSlice s asid sk).map fun sl => match sl.cpc with | some p => 2 ^ 63 + p.toNat | none => 0
  | .window sk => (dbgSlice s asid sk).map fun sl => 2 ^ 16 * sl.wb + sl.size
  | .trap sid idx => if 0x21 ≤ idx ∧ idx ≤ 0x25 then (dbgSplit s asid sid).map fun sp => sp.getTrap idx else none
  | .tvec => (find asid s.ctxs).map fun c => c.tvec.toNat
  | .tile tid name row col => (dbgTile s asid tid name row col).map fun e => (getD 0 e.2 (s.core e.1).tiles).toNat
  | .record sid n => (haltRecord s asid sid).bind fun r => if n < 8 then some (leNat ((r.drop (8 * n)).take 8)) else none

/-- A slice with register units written, whatever was outstanding for them. -/
def Slice.poke (sl : Slice) (ws : List (Nat × Word)) : Slice :=
  ws.foldl (fun x w => { x with regs := setD 0 w.1 w.2 x.regs, pend := x.pend.filter fun p => p.key != w.1 }) sl

/-- Writes slice `sk` of a context when `ok`, else refuses the command. -/
def pokeSlice (s : State) (asid sk : Nat) (ok : Slice → Bool) (f : Slice → Slice) : Except Nat (State × Nat) :=
  match dbgSlice s asid sk with
  | some sl => if ok sl then .ok (s.setSlice sk (f sl), 0) else .error 2
  | none => .error 2

/-- Writes split `sid` of a context, or refuses the command. -/
def pokeSplit (s : State) (asid sid : Nat) (f : Split → Split) : Except Nat (State × Nat) :=
  match dbgSplit s asid sid with
  | some sp => .ok (s.setSplit sid (f sp), 0)
  | none => .error 2

/-- Whether a split's PC can be set: no check of its instruction is in progress. -/
def Split.movable (p : Split) : Bool :=
  p.park.isNone && (p.wait == .none || p.wait.kept || match p.wait with | .mwait .. => true | _ => false)

/-- Writes a register of a halted context. g0 and p0 discard the write; a MODE, PREC, PC, NEST, LID, CPC or WINDOW value or a count
that no program could give is malformed, as is a write of a cause's record or of a register that states where the slice is; of a
count the standing part takes the write, which may let an exited slice retire (R65, R113; log entry 44, DEDUCED). -/
def dbgWrite (s : State) (asid : Nat) (v : Nat) : DbgReg → Except Nat (State × Nat)
  | .x sk lane slot => pokeSlice s asid sk (fun sl => decide (lane < 4) && decide (slot < sl.size - sl.wb)) fun sl =>
      sl.poke [(keyX (sl.wb + slot) lane, half v 0)]
  | .g sk r => pokeSlice s asid sk (fun _ => decide (r < 66)) fun sl =>
      if r = 0 then sl else sl.poke [(keyG r 0, half v 0), (keyG r 1, half v 1)]
  | .p sk lane r => pokeSlice s asid sk (fun _ => decide (lane < 4) && decide (r < 64)) fun sl =>
      if r = 0 then sl else sl.poke [(keyP r lane, w32 (v % 2))]
  | .prec sk lane =>
    if !precValid (w32 v) then .error 1
    else pokeSlice s asid sk (fun _ => decide (lane < 4)) fun sl =>
      { sl with lanes := modNth sl.lanes lane fun l => { l with prec := w32 v }, pendF := sl.pendF.filter fun p => p.lane != lane }
  | .mode sid => if !modeValid (w32 v) then .error 1 else pokeSplit s asid sid fun p => { p with mode := w32 v }
  | .pc sid =>
    if v % 4 ≠ 0 ∨ 2 ^ 48 ≤ v then .error 1
    else if (match find sid s.splits with | some p => p.movable | none => false) then pokeSplit s asid sid fun p =>
      { p with pc := BitVec.ofNat 48 v, pcHi := 0, passed := [], declined := [], hazard := none, held := none, wait := .none }
    else .error 2
  | .count sk tok =>
    if 256 ≤ v then .error 1
    else (pokeSlice s asid sk (fun sl => decide (tok < 16) && decide (sl.outstanding tok ≤ v)) fun sl =>
      { sl with stand := setD 0 tok (v - sl.outstanding tok) sl.stand }).map fun r => (settleGrids (retireSlice r.1 sk), r.2)
  | .record _ _ | .state _ _ => .error 1
  | .lid sk lane =>
    if 64 ≤ v then .error 1
    else pokeSlice s asid sk (fun _ => decide (lane < 4)) fun sl => { sl with lanes := modNth sl.lanes lane fun l => { l with lid := w32 v } }
  | .cycleh sk => pokeSlice s asid sk (fun _ => true) fun sl => { sl with cycleh := w32 v }
  | .tprec sk lane => pokeSlice s asid sk (fun _ => decide (lane < 4)) fun sl =>
      { sl with lanes := modNth sl.lanes lane fun l => { l with tprec := w32 v } }
  | .nest sk lane =>
    if 1024 ≤ v then .error 1
    else pokeSlice s asid sk (fun sl => decide (lane < 4) && (sl.lane lane).e == bitAt v 8) fun sl =>
      { sl with lanes := modNth sl.lanes lane fun l => { l with c := BitVec.ofNat 8 v, d := bitAt v 9 } }
  | .h sk n hi => pokeSlice s asid sk (fun _ => decide (n < 8)) fun sl =>
      { sl with hs := setD 0 n (BitVec.ofNat 128 (setField (getD 0 n sl.hs).toNat (64 * ofBool hi) 64 (v % 2 ^ 64))) sl.hs }
  | .cpc sk =>
    if bits v 48 15 ≠ 0 ∨ v % 4 ≠ 0 then .error 1
    else pokeSlice s asid sk (fun _ => true) fun sl => { sl with cpc := if bitAt v 63 then some (BitVec.ofNat 48 v) else none }
  | .window sk =>
    if 2 ^ 25 ≤ v then .error 1
    else pokeSlice s asid sk (fun sl => v % 2 ^ 16 == sl.size && decide (v / 2 ^ 16 < sl.size) && v / 2 ^ 16 % 8 == 0) fun sl =>
      { sl with wb := v / 2 ^ 16 }
  | .trap sid idx => if 0x21 ≤ idx ∧ idx ≤ 0x25 then pokeSplit s asid sid fun p => p.setTrap idx v else .error 2
  | .tvec => .ok (s.modCtx asid fun c => { c with tvec := BitVec.ofNat 64 (v &&& 0x0000FFFFFFFFFFFC) }, 0)
  | .tile tid name row col => match dbgTile s asid tid name row col with
    | some e => .ok (s.setCore e.1 { s.core e.1 with tiles := setD 0 e.2 (w32 v) (s.core e.1).tiles }, 0)
    | none => .error 2

/-! ### DBG.SET (Table 15.5, Table 17.2) -/

/-- DBG_SET (R336, R337): writes DBG, or reads or writes a register of a halted context; a read answers the low or the high
word of the value. -/
def execDbgSet (asid : Nat) (o : DbgOp) (s : State) : Out :=
  command 0x80 "DBG_SET" s <|
    match find asid s.ctxs with
    | none => .error 2
    | some c =>
      match o with
      | .setDbg v =>
        if bits v.toNat 3 29 ≠ 0 then .error 1
        else .ok (s.modCtx asid fun x => { x with dbg := if v.getLsbD 0 then v else 0 }, 0)
      | .read r hi =>
        if !c.halted then .error 2
        else match dbgRead s asid r with
          | some v => .ok (s, (half v (ofBool hi)).toNat)
          | none => .error 2
      | .write r v => if !c.halted then .error 2 else dbgWrite s asid v.toNat r

/-! ### Halt and resume (R124, R337, R338, R343) -/

/-- DEBUGGER_HALT_REQUEST (R124): an attached debugger stops the context; during a pre-emption the halt takes effect when
the context resumes (R338). -/
def execDebuggerHaltRequest (asid : Nat) (s : State) : Out :=
  match find asid s.ctxs with
  | none => .fault (.notEnabled "DEBUGGER_HALT_REQUEST")
  | some c =>
    if !c.dbg.getLsbD 0 || c.ending then .fault (.notEnabled "DEBUGGER_HALT_REQUEST")
    else .next (s.modCtx asid fun x => if x.pre = .none then { x with halted := true } else { x with haltPending := true })

/-- Every split that a debugger cause stopped continues at the next instruction (R337). -/
def skipHalted (s : State) (c : Ctx) : State :=
  c.haltAt.foldl (fun t h => t.modSplit h.1 fun p => { p with pc := addPc p.pc 4, passed := [], declined := [], hazard := none, held := none }) s

/-- DEBUGGER_RESUME (R337): the stopped splits execute their instruction again or go on behind it; earlier results are in
place (R107). A pre-emption that waited for the resume starts (R124, R343). -/
def execDebuggerResume (asid : Nat) (m : ResumeMode) (s : State) : Out :=
  match find asid s.ctxs with
  | none => .fault (.notEnabled "DEBUGGER_RESUME")
  | some c =>
    if !c.halted then .fault (.notEnabled "DEBUGGER_RESUME")
    else
      let s := match m with | .again => s | .next => skipHalted s c
      let s := s.modCtx asid fun x => { x with halted := false, haltAt := [] }
      let mine := fun (tid : Nat) => match find tid s.teams with | some t => t.asid == asid && t.resident | none => false
      let s := { s with slices := s.slices.map fun e => if mine (e.1 / 256) then (e.1, e.2.settle) else e }
      .next (if c.preQueued then startPreempt s asid else s)

end Sys2Proof.Machine
end

