-- ==== Sys2Proof/Machine/Crypto.lean ====
section
/-! DEFINITION. SHAKE256 and pure Ed448 with an empty context string, which R376 names by reference to RFC 8032 (log entry 11,
PRESUMED: as FIPS 202 and RFC 8032 define them). -/
namespace Sys2Proof.Machine

/-! ### SHAKE256 (FIPS 202) -/

/-- Lane `x` of row `y` of the Keccak state, at x + 5y. -/
def kLane (a : List (BitVec 64)) (x y : Nat) : BitVec 64 := nth 0 a (x % 5 + 5 * (y % 5))

/-- The rotation of each lane in step ρ. -/
def kRho : List Nat :=
  [0, 1, 62, 28, 27, 36, 44, 6, 55, 20, 3, 10, 43, 25, 39, 41, 45, 15, 21, 8, 18, 2, 61, 56, 14]

/-- The round constants of step ι. -/
def kConsts : List (BitVec 64) :=
  [0x0000000000000001, 0x0000000000008082, 0x800000000000808A, 0x8000000080008000, 0x000000000000808B, 0x0000000080000001,
   0x8000000080008081, 0x8000000000008009, 0x000000000000008A, 0x0000000000000088, 0x0000000080008009, 0x000000008000000A]
  ++ [0x000000008000808B, 0x800000000000008B, 0x8000000000008089, 0x8000000000008003, 0x8000000000008002, 0x8000000000000080,
   0x000000000000800A, 0x800000008000000A, 0x8000000080008081, 0x8000000000008080, 0x0000000080000001, 0x8000000080008008]

/-- A state from a function of column and row. -/
def kState (f : Nat → Nat → BitVec 64) : List (BitVec 64) := (upFrom 0 25).map fun i => f (i % 5) (i / 5)

/-- One round of Keccak-f[1600]: θ, ρ with π, χ, ι. -/
def kRound (a : List (BitVec 64)) (rc : BitVec 64) : List (BitVec 64) :=
  let c := (upFrom 0 5).map fun x => (upFrom 0 5).foldl (fun v y => v ^^^ kLane a x y) 0
  let d := (upFrom 0 5).map fun x => nth 0 c ((x + 4) % 5) ^^^ (nth 0 c ((x + 1) % 5)).rotateLeft 1
  let t := kState fun x y => kLane a x y ^^^ nth 0 d x
  let b := kState fun x y => (kLane t (x + 3 * y) x).rotateLeft (nth 0 kRho ((x + 3 * y) % 5 + 5 * x))
  let e := kState fun x y => kLane b x y ^^^ (~~~ kLane b (x + 1) y &&& kLane b (x + 2) y)
  (e.take 1).map (· ^^^ rc) ++ e.drop 1

/-- Keccak-f[1600]. -/
def keccakF (a : List (BitVec 64)) : List (BitVec 64) := kConsts.foldl kRound a

/-- Bytes of a block of SHAKE256: its rate. -/
def shakeRate : Nat := 136

/-- Absorbs a padded message, block by block. -/
def absorb : (fuel : Nat) → List (BitVec 8) → List (BitVec 64) → List (BitVec 64)
  | 0, _, a => a
  | fuel + 1, m, a =>
    let block := m.take shakeRate
    let x := (upFrom 0 25).map fun i => nth 0 a i ^^^ BitVec.ofNat 64 (leNat ((block.drop (8 * i)).take 8))
    absorb fuel (m.drop shakeRate) (keccakF x)

/-- Squeezes blocks of output. -/
def squeeze : (fuel : Nat) → List (BitVec 64) → List (BitVec 8)
  | 0, _ => []
  | fuel + 1, a => ((a.map fun v => leBytes 8 v.toNat).flatten).take shakeRate ++ squeeze fuel (keccakF a)

/-- SHAKE256 with `n` bytes of output. -/
def shake256 (n : Nat) (m : List (BitVec 8)) : List (BitVec 8) :=
  let k := shakeRate - 1 - m.length % shakeRate
  let tail := if k = 0 then leBytes 1 0x9F else leBytes 1 0x1F ++ leBytes (k - 1) 0 ++ leBytes 1 0x80
  (squeeze (n / shakeRate + 1) (absorb (m.length / shakeRate + 1) (m ++ tail) (kState fun _ _ => 0))).take n

/-! ### Ed448 (RFC 8032) -/

/-- The field's prime, the curve's constant −d, and the order of the base point. -/
def edP : Nat := 2 ^ 448 - 2 ^ 224 - 1
def edNegD : Nat := 39081
def edL : Nat := 2 ^ 446 - 13818066809895115352007386748515426880336692474882178609894547503885

/-- A power in the field, by the bits of the exponent below `n`. -/
def edPow (a e n : Nat) : Nat :=
  ((upFrom 0 n).foldl (fun (s : Nat × Nat) i => (if bitAt e i then s.1 * s.2 % edP else s.1, s.2 * s.2 % edP)) (1, a % edP)).1

/-- A difference in the field, of values below the prime. -/
def edSub (a b : Nat) : Nat := (a + edP - b) % edP

/-- A point in projective coordinates. -/
structure EdPt where
  x : Nat
  y : Nat
  z : Nat
  deriving DecidableEq, Repr

/-- The neutral point and the base point. -/
def edZero : EdPt := ⟨0, 1, 1⟩
def edBase : EdPt :=
  ⟨224580040295924300187604334099896036246789641632564134246125461686950415467406032909029192869357953282578032075146446173674602635247710
  , 298819210078481492676017930443930673437544040154080242095928241372331506189835876003536878655418784733982303233503462500531545062832660
  , 1⟩

/-- The sum of two points. -/
def edAdd (p q : EdPt) : EdPt :=
  let a := p.z * q.z % edP
  let b := a * a % edP
  let c := p.x * q.x % edP
  let d := p.y * q.y % edP
  let e := (edP - edNegD * (c * d % edP) % edP) % edP
  let f := edSub b e
  let g := (b + e) % edP
  let h := (p.x + p.y) * (q.x + q.y) % edP
  ⟨a * (f * edSub (edSub h c) d % edP) % edP, a * (g * edSub d c % edP) % edP, f * g % edP⟩

/-- A multiple of a point, by the bits of `k` below `n`. -/
def edMul (k n : Nat) (p : EdPt) : EdPt :=
  ((upFrom 0 n).foldl (fun (s : EdPt × EdPt) i => (if bitAt k i then edAdd s.1 s.2 else s.1, edAdd s.2 s.2)) (edZero, p)).1

/-- Whether two points are one. -/
def edSame (p q : EdPt) : Bool := p.x * q.z % edP == q.x * p.z % edP && p.y * q.z % edP == q.y * p.z % edP

/-- The 57 bytes of a point: y, and the lowest bit of x in the top bit. -/
def edEncode (p : EdPt) : List (BitVec 8) :=
  let i := edPow p.z (edP - 2) 448
  leBytes 57 (p.y * i % edP + p.x * i % edP % 2 * 2 ^ 455)

/-- The point that 57 bytes name, or none. -/
def edDecode (b : List (BitVec 8)) : Option EdPt :=
  let v := leNat b
  let y := v % 2 ^ 455
  let sign := v / 2 ^ 455
  if b.length ≠ 57 ∨ edP ≤ y then none
  else
    let u := edSub (y * y % edP) 1
    let w := edSub (edP - edNegD * (y * y % edP) % edP) 1
    let u3w := u * u % edP * u % edP * w % edP
    let x := u3w * edPow (u3w * (u * u % edP * (w * w % edP) % edP) % edP) ((edP - 3) / 4) 446 % edP
    if w * (x * x % edP) % edP ≠ u ∨ (x = 0 ∧ sign = 1) then none
    else some ⟨if x % 2 = sign then x else edP - x, y, 1⟩

/-- The prefix of pure Ed448 with an empty context string. -/
def edDom : List (BitVec 8) := [0x53, 0x69, 0x67, 0x45, 0x64, 0x34, 0x34, 0x38, 0, 0]

/-- A hash of Ed448 as a number. -/
def edHash (m : List (BitVec 8)) : Nat := leNat (shake256 114 (edDom ++ m))

/-- The secret scalar and the prefix of a 57-byte private key. -/
def edSecret (seed : List (BitVec 8)) : Nat × List (BitVec 8) :=
  let h := shake256 114 seed
  let s := leNat (h.take 56)
  (s % 2 ^ 447 / 4 * 4 + 2 ^ 447, h.drop 57)

/-- The public key of a private key. -/
def ed448Public (seed : List (BitVec 8)) : List (BitVec 8) := edEncode (edMul (edSecret seed).1 448 edBase)

/-- The signature of a message by a private key. -/
def ed448Sign (seed m : List (BitVec 8)) : List (BitVec 8) :=
  let s := edSecret seed
  let r := edHash (s.2 ++ m) % edL
  let rb := edEncode (edMul r 446 edBase)
  let k := edHash (rb ++ ed448Public seed ++ m)
  rb ++ leBytes 57 ((r + k * s.1) % edL)

/-- Whether a signature of a message verifies under a public key. -/
def ed448Verify (key m sig : List (BitVec 8)) : Bool :=
  let s := leNat (sig.drop 57)
  match edDecode key, edDecode (sig.take 57) with
  | some a, some r =>
    sig.length == 114 && decide (s < edL)
      && edSame (edMul (4 * s) 448 edBase) (edAdd (edMul 4 3 r) (edMul (4 * (edHash (sig.take 57 ++ key ++ m) % edL)) 448 a))
  | _, _ => false

end Sys2Proof.Machine
end

