-- ==== Sys2Proof/Machine/Firmware.lean ====
section
/-! DEFINITION. The two firmware complexes, images and attestation (R373 to R378). -/
namespace Sys2Proof.Machine

/-! ### Images (R376, R377) -/

/-- Whether an image has the form of Table 17.7. -/
def imageOk (b : List Byte) : Bool :=
  let blen := fieldAt b 16 8
  decide (256 ≤ b.length) && fieldAt b 0 4 == 1 && blen % 64 == 0 && decide (blen ≤ 2 ^ 26)
    && ((b.drop 81).take 7).all (· == 0) && ((b.drop 202).take 54).all (· == 0) && b.length == 256 + blen

/-- Whether an image is signed by the fused key (R376). -/
def imageSigned (b : List Byte) : Bool :=
  let key := (b.drop 24).take 57
  decide (shake256 64 key = leBytes 64 Config.fusedDigest.toNat)
    && ed448Verify key (shake256 64 ((b.drop 256).take (fieldAt b 16 8))) ((b.drop 88).take 114)

/-- The lowest state-table version an image imports and the one it writes (Table 17.7). -/
def imageStvMin (b : List Byte) : Nat := fieldAt b 4 2
def imageStvOut (b : List Byte) : Nat := fieldAt b 6 2

/-- Replaces the image of the standby complex. -/
def setStandby (f : FrontEnd) (i : Image) : FrontEnd := if f.act then { f with laurel := i } else { f with myrtle := i }
/-- The image of the standby complex. -/
def standby (f : FrontEnd) : Image := if f.act then f.laurel else f.myrtle

/-! ### Updates (R375) -/

/-- FW_UPDATE (R375, step 1): the standby reads the image that the command names in host memory, by an RDMA READ; the command goes
on (log entry 43, DEDUCED). -/
def execFwUpdate (a : FwArgs) (s : State) : Out :=
  asCommand 0x70 "FW_UPDATE" s <|
    if 1024 ≤ a.conn then answerCommand s (.error 1)
    else
      let s := { s with rdmaOut := s.rdmaOut ++ [.read a.conn a.addr.toNat a.key a.len 0] }
      .next ((beginCommand s).modFe fun f => { f with updPos := some s.fe.cpos, updLen := some a.len })

/-- The update ends with a status before anything else changes. -/
def dropUpdate (s : State) (pos status : Nat) : State :=
  finishCommand (s.modFe fun f => { f with updPos := none, updLen := none }) pos 0 status

/-- The image has come (R375, steps 1 to 3): form, signature and version range; then the standby runs it and the command waits for
the takeover. -/
def takeImage (s : State) (pos : Nat) (image : List Byte) : State :=
  if !imageOk image then dropUpdate s pos 1
  else if !imageSigned image then dropUpdate s pos 3
  else if s.fe.stv.toNat < imageStvMin image ∨ imageStvOut image < s.fe.stv.toNat then dropUpdate s pos 2
  else s.modFe fun f => { setStandby f ⟨image, BitVec.ofNat 64 (fieldAt image 8 8)⟩ with upd := true, updLen := none }

/-- FILL_READ_RESPONSE (R278, R344): the host answers an RDMA READ: of a copy fill, or of the firmware image, which no service
number names. -/
def execFillReadResponse (svc : Nat) (data : List (BitVec 8)) (s : State) : Out :=
  match svc, s.fe.updLen, s.fe.updPos with
  | 0, some n, some pos =>
    if data.length = n then .next (takeImage s pos data) else .fault (.notEnabled "FILL_READ_RESPONSE")
  | svc, _, _ => fillData svc data s

/-- Whether the front end is at a quiescent packet boundary (R375, step 4): no decision waits, no prologue is under way, nothing is
serviced, and no pre-emption is in progress. -/
def quiescent (s : State) : Bool :=
  s.fe.chosen.isNone && (s.fe.launches.all fun e => e.2.pro.isNone)
    && (s.fe.svcs.all fun e => match e.2.kind with | .fillRead .. => false | _ => true)
    && (s.islands.all fun e => e.2.mapouts.all fun m => m.step == 2 && m.host)
    && s.fe.shoots.isEmpty
    && s.ctxs.all fun e => e.2.endCmds.isEmpty && decide (e.2.pre = .none)

/-- The event of a takeover (R386, ETYPE 6). -/
def takeoverEvent (s : State) (watchdog : Bool) : List Byte :=
  plainEvent s 6 0 255 0 (leBytes 1 (ofBool s.fe.act) ++ leBytes 1 (ofBool watchdog) ++ leBytes 6 0 ++ leBytes 8 s.fe.stv.toNat)

/-- FIRMWARE_TAKEOVER (R375, step 4): the standby takes over and the command ends. -/
def execFirmwareTakeover (s : State) : Out :=
  match s.fe.updPos with
  | none => .fault (.notEnabled "FIRMWARE_TAKEOVER")
  | some pos =>
    if !s.fe.upd || !quiescent s then .fault (.notEnabled "FIRMWARE_TAKEOVER")
    else
      let out := imageStvOut (standby s.fe).bytes
      let s := s.modFe fun f => { f with act := !f.act, upd := false, updPos := none, stv := BitVec.ofNat 16 out }
      .next (finishCommand (postPanel (takeoverEvent s false) s) pos 0 0)

/-- FIRMWARE_WATCHDOG (R375): the active complex stopped responding; the standby takes over, and every command in progress
ends with status 2. -/
def execFirmwareWatchdog (s : State) : Out :=
  let s := (openCommands s).foldl (fun t p => finishCommand t p 0 2) s
  let s := { s with ctxs := s.ctxs.map fun (e : Nat × Ctx) => (e.1, { e.2 with endCmds := [] }) }
  let s := s.modFe fun f => { f with act := !f.act, upd := false, updPos := none, updLen := none, shoots := [] }
  .next (postPanel (takeoverEvent s true) s)

/-! ### Attestation (R378) -/

/-- The private half of the identity key (R376). -/
def identitySeed : List Byte := leBytes 57 Config.identitySeed.toNat

/-- LINK of a site as fused (Table 17.8). -/
def fusedLink (s : State) (site : Nat) : Nat :=
  let code := fun (port : Nat) => if linkExists s site port then Nat.min (s.link (linkKey site port)).fused 2 else 0
  sumNat ((upFrom 0 16).map fun t => code t * 2 ^ (2 * t)) + sumNat ((upFrom 0 8).map fun j => code (16 + j) * 2 ^ (32 + 2 * j))

/-- The fuse block (Table 17.8). -/
def fuseBlock (s : State) : List Byte :=
  leBytes 2 s.pres.toNat ++ leBytes 6 0 ++ ((upFrom 0 16).map fun k =>
    if s.populated k then
      let i := s.island k
      leBytes 8 i.cmap0.toNat ++ leBytes 8 i.cmap1.toNat ++ leBytes 8 i.hdieFused.toNat ++ leBytes 8 (fusedLink s k)
    else leBytes 32 0).flatten

/-- Bytes 0 to 301 of the report (Table 17.4). -/
def reportBody (s : State) (nonce : List Byte) : List Byte :=
  leBytes 4 1 ++ leBytes 4 s.fe.stv.toNat ++ nonce ++ shake256 64 s.fe.laurel.bytes ++ shake256 64 s.fe.myrtle.bytes
    ++ shake256 64 (fuseBlock s) ++ ed448Public identitySeed ++ leBytes 13 0

/-- FW_ATTEST (R378). -/
def execFwAttest (nonce : List (BitVec 8)) (conn : Nat) (addr : BitVec 64) (key : BitVec 32) (s : State) : Out :=
  command 0x71 "FW_ATTEST" s <|
    if nonce.length ≠ 32 ∨ 1024 ≤ conn then .error 1
    else
      let b := reportBody s nonce
      .ok ({ s with rdmaOut := s.rdmaOut ++ [.write conn addr.toNat key (b ++ ed448Sign identitySeed b)] }, 0)

end Sys2Proof.Machine
end

