-- ==== Sys2Proof/Machine/Flow.lean ====
section
/-! DEFINITION. Meanings of the control instructions 0x30 to 0x45 and LPB (spec/03 sections 3.5 to 3.11, spec/05 section
5.2, spec/15 section 15.4). -/
namespace Sys2Proof.Machine

/-! ### Shared moulds -/

/-- A target `n` words from the branch. -/
def target (cx : Iss) (n : Int) : BitVec 48 := addPc cx.sp.pc (4 * n)
/-- The word after the branch. -/
def nextPc (cx : Iss) : BitVec 48 := addPc cx.sp.pc 4

/-- A branch decided per slice: each slice is rewritten and chooses its next PC; the split divides (R70, R77). -/
def perSliceBranch (s : State) (cx : Iss) (f : List LaneEnv → Slice → Slice × BitVec 48) : State :=
  let rs := cx.sp.slices.map fun j =>
    (j, f (laneEnvs s cx.sp j) (s.slice (sliceKey cx.sp.team cx.sp.gang j)))
  branch (rs.foldl (fun t r => t.setSlice (sliceKey cx.sp.team cx.sp.gang r.1) r.2.1) s) cx
    (rs.map fun r => (r.1, r.2.2))

/-- One level deeper for a live inactive lane (R80, R83, R87). -/
def Lane.deeper (l : Lane) : Lane := if l.live && l.c != 0 then { l with c := l.c + 1 } else l
/-- One level up for a live inactive lane (R82, R84, R88). -/
def Lane.shallower (l : Lane) : Lane := if l.live && l.c != 0 then { l with c := l.c - 1 } else l

/-- The condition of a structured branch in a lane (R77). -/
def LaneEnv.cond (le : LaneEnv) (p : BitVec 6) (n : Bool) : Bool := xor (le.p p.toNat) n
/-- The condition by lane place. -/
def condAt (les : List LaneEnv) (p : BitVec 6) (n : Bool) (i : Nat) : Bool :=
  les.any fun le => le.i == i && le.cond p n

/-- Nesting overflow: the live lanes of the slices `inc` picks that would count past 255 (R85). It is raised before a token
hazard of the same word (log entry 57, DEDUCED). -/
def nestCheck (s : State) (cx : Iss) (inc : Slice → Bool) : Option CauseRec :=
  match (liveLanes s cx.sp).filter fun le => inc le.sl && le.lane.c == 255 with
  | [] => none
  | l :: t => some (cause 0x09 0 0 (laneMask (l :: t)))

/-- A body after a check. -/
def guardedBy (c : Option CauseRec) (r : State) : Except CauseRec State :=
  match c with | some c => .error c | none => .ok r

/-! ### Plain branches (R78, R79) -/

/-- BR (R78). -/
def execBr (o : BitVec 25) (s : State) : Out := plain s (.br o) fun cx => goTo s cx (target cx o.toInt) 1 1

/-- BRG (R79). -/
def execBrg (g : BitVec 8) (z : Bool) (o : BitVec 16) (s : State) : Out :=
  plain s (.brg g z o) fun cx => perSliceBranch s cx fun les sl =>
    let v := match les with | le :: _ => readG s.tick le.sk sl cx.sp.handler g.toNat | [] => 0
    (sl, if (v == 0) == z then target cx o.toInt else nextPc cx)

/-! ### Structured branches (R80 to R85) -/

/-- BRF (R80, R85). -/
def execBrf (p : BitVec 6) (n : Bool) (o : BitVec 18) (s : State) : Out :=
  checked s (.brf p n o) fun cx => guardedBy (nestCheck s cx fun _ => true) <|
    perSliceBranch s cx fun les sl =>
      let sl := sl.mapLanes fun i l =>
        if l.active then (if condAt les p n i then { l with c := 1 } else l) else l.deeper
      (sl, if sl.anyActive then nextPc cx else target cx o.toInt)

/-- BRE (R81). -/
def execBre (o : BitVec 25) (s : State) : Out :=
  plain s (.bre o) fun cx => perSliceBranch s cx fun _ sl =>
    let sl := sl.mapLanes fun _ l =>
      if !l.live then l else if l.c = 0 then { l with c := 1 } else if l.c = 1 then { l with c := 0 } else l
    (sl, if sl.anyActive then nextPc cx else target cx o.toInt)

/-- JOIN (R82). -/
def execJoin (s : State) : Out :=
  plain s .join fun cx => perSliceBranch s cx fun _ sl => (sl.mapLanes fun _ l => l.shallower, nextPc cx)

/-- LPB (R83, R85). -/
def execLpb (o : BitVec 25) (s : State) : Out :=
  checked s (.lpb o) fun cx => guardedBy (nestCheck s cx Slice.anyActive) <|
    perSliceBranch s cx fun _ sl =>
      if sl.anyActive then (sl.mapLanes fun _ l => l.deeper, nextPc cx) else (sl, target cx o.toInt)

/-- BRB (R84). -/
def execBrb (p : BitVec 6) (n : Bool) (o : BitVec 18) (s : State) : Out :=
  plain s (.brb p n o) fun cx => perSliceBranch s cx fun les sl =>
    let sl := sl.mapLanes fun i l => if l.active && !condAt les p n i then { l with c := 1 } else l
    if sl.anyActive then (sl, target cx o.toInt) else (sl.mapLanes fun _ l => l.shallower, nextPc cx)

/-! ### Multiway branches (R47, R87, R88) -/

/-- Reads the word at `va` through the fetch path, from the translated pieces of the table. -/
def tableWord (s : State) (cx : Iss) (pas : List (Chk × Nat)) (va : Nat) : Word × State :=
  match pas.find? fun e => decide (e.1.va ≤ va) && decide (va < e.1.va + e.1.n) with
  | some e => fetchWord s cx.ck (partOf s cx.tm.asid) cx.ret (e.2 + (va - e.1.va))
  | none => (0, s)

/-- Target that table word `w` gives for the BRX at `pc` (R47). -/
def tableTarget (pc : BitVec 48) (w : Word) : BitVec 48 := addPc pc (4 * (w.setWidth 25).toInt)

/-- What one slice does at a BRX or JOINX: the table word of its target in the table of the BRX at `pc`, and the slice
after it. -/
structure Multi where
  j : Nat
  sl : Slice
  pc : BitVec 48
  word : Nat

/-- The final step of R88, toward the join word `c` of the BRX at `pc`. -/
def finalStep (j : Nat) (sl : Slice) (pc : BitVec 48) (c : Nat) : Multi :=
  ⟨j, { sl.mapLanes (fun _ l => let l := l.shallower; if l.live then { l with d := false } else l) with cpc := none }, pc, c⟩

/-- What a BRX does in a slice once its checks have passed (R87). -/
def brxSlice (cx : Iss) (a : BitVec 8) (c : Nat) (j : Nat) (les : List LaneEnv) (sl : Slice) : Multi :=
  let ls := brxLanes cx les sl
  let idx := fun (i : Nat) => (ls.find? fun le => le.i == i).map fun le => (le.x a.toNat).toNat
  match ls with
  | [] => match brxKind cx sl with
    | .again => finalStep j sl cx.sp.pc c
    | _ => ⟨j, sl, cx.sp.pc, c⟩
  | low :: _ =>
    let k := (low.x a.toNat).toNat
    match brxKind cx sl with
    | .outer => ⟨j, { sl.mapLanes (fun i l => if l.active then (if idx i = some k then l else { l with c := 1 }) else l.deeper)
        with cpc := some cx.sp.pc }, cx.sp.pc, k⟩
    | .inner => ⟨j, sl, cx.sp.pc, k⟩
    | .again => ⟨j, sl.mapLanes fun i l => if idx i = some k then { l with c := 0 } else l, cx.sp.pc, k⟩

/-- Lets every slice of the split take its target from the table words, read through the fetch path. -/
def multiBranch (s : State) (cx : Iss) (pas : List (Chk × Nat)) (ms : List (Multi × Option (BitVec 48))) : State :=
  let r := ms.foldl (fun (r : State × List (Nat × BitVec 48)) m =>
    let s := r.1.setSlice (sliceKey cx.sp.team cx.sp.gang m.1.j) m.1.sl
    match m.2 with
    | some pc => (s, r.2 ++ [(m.1.j, pc)])
    | none =>
      let w := tableWord s cx pas (addPc m.1.pc (4 + 4 * m.1.word)).toNat
      (w.2, r.2 ++ [(m.1.j, tableTarget m.1.pc w.1)])) (s, [])
  branch r.1 cx r.2

/-- BRX (R47, R85, R87, R328). The nesting check comes after every cause of R48, and before the token check, which R119 gives
the same rank (log entry 57, DEDUCED). The table words are checked after the operand causes of R48 and before the nesting check (log
entry 16, DEDUCED). -/
def execBrx (a : BitVec 8) (c : BitVec 9) (s : State) : Out :=
  checked s (.brx a c) fun cx =>
    let per := cx.sp.slices.map fun j => (j, laneEnvs s cx.sp j, s.slice (sliceKey cx.sp.team cx.sp.gang j))
    let miss := (per.map fun e => (brxLanes cx e.2.1 e.2.2).filter fun le =>
      decide (c.toNat ≤ (le.x a.toNat).toNat)).flatten
    match miss with
    | l :: t => .error (cause 0x0B 0 (l.x a.toNat).toNat (laneMask (l :: t)))
    | [] =>
      let torn := (per.map fun e => match brxKind cx e.2.2, brxLanes cx e.2.1 e.2.2 with
        | .inner, l :: t => if t.any fun x => x.x a.toNat ≠ l.x a.toNat then l :: t else []
        | _, _ => []).flatten
      match torn with
      | l :: t => .error (cause 0x0A 0 0 (laneMask (l :: t)))
      | [] =>
        withXlate s cx (.brx a c) (chksOf 0 (liveMask s cx.sp) (cx.sp.pc.toNat + 4) (4 * (c.toNat + 1)) .x) fun pas =>
          guardedBy (nestCheck s cx fun sl => decide (brxKind cx sl = .outer) && sl.anyActive)
            (settleSplit (multiBranch s cx pas (per.map fun e => (brxSlice cx a c.toNat e.1 e.2.1 e.2.2, none))) cx)

/-- The lanes of a slice after the first part of JOINX: the active ones have done their case (R88). -/
def caseDone (sl : Slice) : Slice := sl.mapLanes fun _ l => if l.active then { l with d := true, c := 1 } else l
/-- Whether a lane still waits for its case (R88). -/
def caseLeft (sl : Slice) : Bool := sl.lanes.any fun l => l.live && l.c == 1 && !l.d

/-- JOINX (R88). TLANES of cause 0x0A names the live lanes of the slices whose CPC is invalid (log entry 55, DEDUCED). A slice
at its last case finds the join word behind the BRX word at CPC, which gives the case count
(log entry 15, DEDUCED). -/
def execJoinx (s : State) : Out :=
  checked s .joinx fun cx =>
    let per := cx.sp.slices.map fun j => (j, s.slice (sliceKey cx.sp.team cx.sp.gang j))
    let bad := (liveLanes s cx.sp).filter fun le => le.sl.cpc.isNone
    if per.any fun e => e.2.cpc.isNone then .error (cause 0x0A 0 0 (laneMask bad))
    else
      let pcs := asSet (per.filterMap fun e => if caseLeft (caseDone e.2) then none else e.2.cpc.map BitVec.toNat)
      let m := liveMask s cx.sp
      withXlate s cx .joinx (pcs.map fun p => chksOf 0 m p 4 .x).flatten fun pas =>
        let r := pcs.foldl (fun (r : State × SMap Nat) p =>
          let w := tableWord r.1 cx pas p
          (w.2, put p (bits w.1.toNat 0 9) r.2)) (s, [])
        withXlate r.1 cx .joinx (r.2.map fun e => chksOf 0 m (e.1 + 4 + 4 * e.2) 4 .x).flatten fun pas =>
          .ok (multiBranch r.1 cx pas (per.map fun e =>
            let sl := caseDone e.2
            let pc := e.2.cpc.getD 0
            if caseLeft sl then (⟨e.1, sl, pc, 0⟩, some pc)
            else (finalStep e.1 sl pc (getD 0 pc.toNat r.2), none)))

/-! ### Calls (R128 to R131) -/

/-- The link word of a call (Table 5.1). -/
def linkWord (cx : Iss) (k : Nat) : Nat := k * 2 ^ 48 + ((nextPc cx).toNat &&& 0x0000FFFFFFFFFFFC)

/-- Window overflow of a shift by `k` (R129, R131). -/
def shiftFault (s : State) (cx : Iss) (wb k : Nat) : CauseRec :=
  cause 0x03 0 (8 * k % 512 + 2 ^ 16 * wb + 2 ^ 25) (liveMask s cx.sp)

/-- The first slice of the split whose window cannot move up by `k` (R129): TVAL holds the WB of the lowest-numbered one
(log entry 56, DEDUCED). -/
def callOver (s : State) (cx : Iss) (k : Nat) : Option CauseRec :=
  (cx.sp.keys.find? fun key => decide ((s.slice key).size ≤ (s.slice key).wb + 8 * k)).map fun key =>
    shiftFault s cx (s.slice key).wb k

/-- A slice after a call with shift `k` (R129). -/
def callSlice (cx : Iss) (k : Nat) (sl : Slice) : Slice :=
  let sl := sl.writeG cx.sp.handler 2 63 (linkWord cx k)
  { sl with wb := sl.wb + 8 * k }

/-- CALL (R129). -/
def execCall (k : BitVec 5) (o : BitVec 20) (s : State) : Out :=
  checked s (.call k o) fun cx => guardedBy (callOver s cx k.toNat)
    (goTo (perSlice s cx fun _ sl => callSlice cx k.toNat sl) cx (target cx o.toInt) 1 1)

/-- CALLR (R130, R328): the shift test, then divergent targets, then misaligned ones. A target beyond 2^48 fails at its fetch
(R271). -/
def execCallr (a : BitVec 8) (k : BitVec 5) (s : State) : Out :=
  checked s (.callr a k) fun cx =>
    let per := cx.sp.slices.map fun j => (j, callrLanes (laneEnvs s cx.sp j))
    let tgt := fun (le : LaneEnv) => le.xs a.toNat 2
    let torn := (per.map fun e => match e.2 with
      | l :: t => if t.any fun x => tgt x ≠ tgt l then l :: t else []
      | [] => []).flatten
    let odd := (per.map fun e => e.2.filter fun le => tgt le % 4 ≠ 0).flatten
    match callOver s cx k.toNat, torn, odd with
    | some c, _, _ => .error c
    | none, l :: t, _ => .error (cause 0x0A 0 0 (laneMask (l :: t)))
    | none, [], l :: t => .error (cause 0x04 0 (tgt l) (laneMask (l :: t)))
    | none, [], [] =>
      .ok (settleSplit (branchFar (perSlice s cx fun _ sl => callSlice cx k.toNat sl) cx (per.map fun e =>
        (e.1, match e.2 with | le :: _ => BitVec.ofNat 64 (tgt le) | [] => (nextPc cx).setWidth 64))) cx)

/-- The link word a slice returns by (R131). -/
def linkOf (s : State) (cx : Iss) (key : Nat) : Nat := readG s.tick key (s.slice key) cx.sp.handler 63

/-- RET (R131). Cause 0x03 names every live lane of the split, and TVAL holds k and WB of the lowest-numbered slice that fails
(log entry 56, DEDUCED). -/
def execRet (s : State) : Out :=
  checked s .ret fun cx =>
    let k := fun (key : Nat) => bits (linkOf s cx key) 48 5
    match cx.sp.keys.find? fun key => decide ((s.slice key).wb < 8 * k key) with
    | some key => .error (shiftFault s cx (s.slice key).wb (k key))
    | none =>
      .ok (branch (perSlice s cx fun key sl => { sl with wb := sl.wb - 8 * k key }) cx
        (cx.sp.slices.map fun j =>
          (j, BitVec.ofNat 48 (bits (linkOf s cx (sliceKey cx.sp.team cx.sp.gang j)) 2 46 * 4))))

/-! ### RGANG and EXIT (R89 to R91) -/

/-- RGANG (R89, R90). -/
def execRgang (s : State) : Out :=
  plain s .rgang fun cx =>
    if cx.sp.handler then advance s cx
    else checkRgang (advanceWait s cx .rgang) cx.sp.team cx.sp.gang

/-- EXIT (R91). -/
def execExit (s : State) : Out :=
  plain s .exit fun cx =>
    let s := perSlice s cx fun _ sl => sl.mapLanes fun _ l => if l.active then { l with e := true } else l
    afterExit (advance s cx) cx.sid cx.sp

/-! ### Traps (R333, R334) -/

/-- TRAP (R333). -/
def execTrap (c : BitVec 9) (s : State) : Out :=
  checked s (.trap c) fun cx =>
    match guardedLanes s cx.sp with
    | [] => .ok (advance s cx)
    | ls => .error (cause 0x10 0 c.toNat (laneMask ls))

/-- BRK (R333). -/
def execBrk (c : BitVec 9) (s : State) : Out :=
  checked s (.brk c) fun cx => .error (cause 0x11 1 c.toNat (liveMask s cx.sp))

/-- A slice whose live lanes take PREC from TPREC (R165): flags that completed operations had set in PREC go with it (R177). -/
def Slice.restorePrec (sl : Slice) : Slice :=
  { sl.mapLanes fun _ l => if l.live then { l with prec := l.tprec } else l with
    pendF := sl.pendF.filter fun p => match p.ripe with | .cov .. => !(sl.lane p.lane).live | .slot _ => true }

/-- Return from a handler (R334, R335): the checks, then PREC, MODE and the mode come back, and a cause pending in the
gang is delivered. -/
def returnFromTrap (s : State) (i : Instr) (next : Bool) : Out :=
  runIssue s i (fun cx => if cx.sp.handler then none else some (privileged s cx i)) fun cx =>
    if !modeValid cx.sp.tsave then .error (illegalWord s cx i)
    else
      match (liveLanes s cx.sp).filter fun le => !precValid le.lane.tprec with
      | l :: t => .error (cause 0x18 0 l.lane.tprec.toNat (laneMask (l :: t)))
      | [] =>
        let s := perSlice s cx fun _ sl => sl.restorePrec
        let s := goTo s cx (addPc (BitVec.ofNat 48 cx.sp.tpc.toNat) (if next then 4 else 0)) 1 1
        let s := perSlice s cx fun _ sl => sl.settle
        let s := s.modSplit cx.sid fun p => { p with mode := cx.sp.tsave, handler := false, afterRft := true }
        .ok (deliverPending s cx.sp.team cx.sp.gang)

/-- RFT.again (R334). -/
def execRftAgain (s : State) : Out := returnFromTrap s .rftAgain false
/-- RFT.next (R334). -/
def execRftNext (s : State) : Out := returnFromTrap s .rftNext true

/-! ### Split-wide queries (R92 to R94) -/

/-- GWID (R92). -/
def execGwid (d : BitVec 8) (s : State) : Out :=
  plain s (.gwid d) fun cx =>
    let v := 4 * cx.sp.slices.length + 2 ^ 8 * (activeLanes s cx.sp).length + 2 ^ 16 * cx.gang.width
      + 2 ^ 24 * (4 * cx.sp.slices.headD 0)
    advance (perLane s cx 4 fun le => [(le.key d.toNat, w32 v)]) cx

/-- What VOTE decides over the active lanes (R93). -/
def voteOf (t : Nat) (ps : List Bool) : Bool :=
  match t with
  | 0 => ps.all id
  | 1 => ps.any id
  | 2 => ps.all id || !(ps.any id)
  | _ => !(ps.any id)

/-- VOTE (R93). -/
def execVote (d a : BitVec 6) (t : BitVec 4) (s : State) : Out :=
  plain s (.vote d a t) fun cx =>
    let v := voteOf t.toNat ((activeLanes s cx.sp).map fun le => le.p a.toNat)
    advance (predEffect s cx 2 d.toNat fun _ => v) cx

/-- BALLOT (R94). -/
def execBallot (d a : BitVec 8) (s : State) : Out :=
  plain s (.ballot d a) fun cx =>
    let m := laneMask ((activeLanes s cx.sp).filter fun le => le.p a.toNat)
    advance (perLane s cx 4 fun le => le.put d.toNat 2 m) cx

/-! ### Shuffles (R95, R96) -/

/-- The effect of R96 (Table 3.7). -/
def shuffle (s : State) (cx : Iss) (i : Instr) (d a : BitVec 8) : State :=
  let sp := modeSP cx.sp.mode
  advance (perLane s cx 6 fun le =>
    let side := fun (b : Bool) => if sp = 0 then [] else [(keyP sp le.i, w32 (ofBool b))]
    match shuffleFrom s cx.sp i le with
    | some o => (le.key d.toNat, o.x a.toNat) :: side true
    | none => side false) cx

/-- SHFL register form (R95, R96). -/
def execShfl (d a b : BitVec 8) (s : State) : Out :=
  plain s (.shfl d a b) fun cx => shuffle s cx (.shfl d a b) d a

/-- SHFL immediate form (R95, R96). -/
def execShflImm (d a b : BitVec 8) (s : State) : Out :=
  plain s (.shflImm d a b) fun cx => shuffle s cx (.shflImm d a b) d a

/-- SHFX (R95, R96). -/
def execShfx (d a : BitVec 8) (m : BitVec 2) (k : BitVec 6) (s : State) : Out :=
  plain s (.shfx d a m k) fun cx => shuffle s cx (.shfx d a m k) d a

/-! ### RSORT (R97, R98) -/

/-- Whether RSORT may run (R97). -/
def sortOk (s : State) (cx : Iss) : Bool :=
  let g := s.slices.filter fun e => decide (e.1 / 16 = cx.sp.team * 16 + cx.sp.gang) && e.2.anyLive
  g.all (fun e => cx.sp.keys.contains e.1 && e.2.toks.isEmpty && e.2.stand.isEmpty && e.2.cpc.isNone) && !cx.sp.handler

/-- The lanes of the split in the order of R98: the live ones by key, then the exited ones. -/
def sortOrder (a : BitVec 8) (all : List LaneEnv) : List LaneEnv :=
  sortBy (fun le => bits (le.x a.toNat).toNat 0 16) (all.filter fun le => le.lane.live)
    ++ all.filter fun le => !le.lane.live

/-- Gives lane place `dst` the state of lane `src` (R98): slots, predicates, PREC, C, E, D and LID. -/
def moveLane (d c : Nat) (s : State) (dst src : LaneEnv) : State :=
  s.modSlice dst.sk fun sl =>
    let sl := { sl with lanes := modNth sl.lanes dst.i fun l =>
      { src.lane with prec := precRead src, tprec := l.tprec } }
    sl.writes 1 ((upFrom 0 c).map (fun k => (dst.key (d + k), src.x (d + k)))
      ++ (upFrom 1 63).map fun r => (keyP r dst.i, w32 (ofBool (src.p r))))

/-- RSORT (R97, R98) (log entry 17, DEDUCED). TLANES of cause 0x0C, a condition of the split, names its live lanes (log entry
55, DEDUCED). -/
def execRsort (d a c : BitVec 8) (s : State) : Out :=
  checked s (.rsort d a c) fun cx =>
    if !sortOk s cx then .error (cause 0x0C 0 0 (liveMask s cx.sp))
    else
      let all := splitLanes s cx.sp
      let t := perSlice s cx fun _ sl => { sl with pendF := [] }
      let t := (all.zip (sortOrder a all)).foldl (fun t e => moveLane d.toNat c.toNat t e.1 e.2) t
      let t := settleSplit (advanceBusy t cx (16 + c.toNat)) cx
      .ok (afterExit t cx.sid cx.sp)

end Sys2Proof.Machine
end

