-- ==== Sys2Proof/Machine/Hbm.lean ====
section
/-! DEFINITION. HBM4E: refresh, uncorrectable errors and layer map-out (R24, R266 to R268). -/
namespace Sys2Proof.Machine

/-- HBM_REFRESH (R267): a bank is refreshed, or its refresh postponed, at most eight times in a row. -/
def execHbmRefresh (site ch bank : Nat) (postpone : Bool) (s : State) : Out :=
  let i := s.island site
  let k := 4096 * ch + bank
  let n := getD 0 k i.postponed
  if !s.populated site || decide (128 ≤ ch) || decide (4096 ≤ bank) || (postpone && decide (8 ≤ n)) then
    .fault (.notEnabled "HBM_REFRESH")
  else .next (s.setIsland site { i with postponed := setD 0 k (if postpone then n + 1 else 0) i.postponed })

/-- A line of HBM4E, the L2 or a vault is poisoned (R266). -/
def poisonLine (s : State) (line : Nat) : State := syncPoison { s with poison := put line [] s.poison }

/-- UNCORRECTABLE_ERROR (R242, R266): a line of HBM4E, L2 or a vault is poisoned, or a byte of core SRAM or a tile element is
lost. -/
def execUncorrectableError (p : ErrPlace) (s : State) : Out :=
  match p with
  | .line n =>
    match s.region (siteOf (128 * n)) (offOf (128 * n)) with
    | .hbm | .vault => .next (poisonLine s n)
    | _ => .fault (.notEnabled "UNCORRECTABLE_ERROR")
  | .sram ck a =>
    if ck < 2048 ∧ s.populated (ck / 128) = true ∧ a < 32 * Config.wayBytes then
      .next (s.setCore ck { s.core ck with badSram := a :: (s.core ck).badSram })
    else .fault (.notEnabled "UNCORRECTABLE_ERROR")
  | .tile ck k =>
    if ck < 2048 ∧ s.populated (ck / 128) = true ∧ k < 8 * 4096 then
      .next (s.setCore ck { s.core ck with badTiles := k :: (s.core ck).badTiles })
    else .fault (.notEnabled "UNCORRECTABLE_ERROR")

/-! ### The withdrawn range (R268) -/

/-- The range a map-out withdraws: the top 4 GiB of the island's HBM4E, as memory addresses. -/
def withdrawn (s : State) (site : Nat) : Nat × Nat :=
  let cap := (s.island site).hcap
  (2 ^ 44 * site + (cap - Config.dieBytes), 2 ^ 44 * site + cap)

/-- Whether an operation still has an access to addresses from `lo` up to `hi`. -/
def OpBody.within (lo hi : Nat) : OpBody → Bool
  | .access _ false accs .. => accs.any fun x => x.addrs.any fun a => decide (lo ≤ a) && decide (a < hi)
  | .cmo _ _ lines _ => lines.any fun l => decide (lo ≤ 128 * l) && decide (128 * l < hi)
  | .vpah _ rs _ => rs.any fun r => decide (lo ≤ r.2.2) && decide (r.2.2 < hi)
  | .tcopy t => t.pages.any fun p => decide (lo < p.2.1 + p.2.2) && decide (p.2.1 < hi)
  | .remote r =>
    (r.loc.any fun p => decide (lo < p.1 + p.2) && decide (p.1 < hi))
      || (r.rem.any fun p => decide (lo < 2 ^ 44 * r.dst + p.1 + p.2) && decide (2 ^ 44 * r.dst + p.1 < hi))
      || (r.kind == .atom && r.accs.any fun x => x.addrs.any fun a =>
        decide (lo ≤ 2 ^ 44 * r.dst + a) && decide (2 ^ 44 * r.dst + a < hi))
  | _ => false

/-- Whether a launch has a header still to copy in a range, or a check in it that has passed (R362, R368). -/
def Launch.within (lo hi : Nat) (l : Launch) : Bool :=
  (l.passed.any fun p => decide (lo ≤ paKey p.2.2) && decide (paKey p.2.2 < hi))
    || (l.hdr.isNone && match l.hdrPa with | some pa => decide (lo < paKey pa + 128) && decide (paKey pa < hi) | none => false)

/-- Whether an access to a range is outstanding: an operation, a packet, a launch's, or a check that has passed. -/
def rangeBusy (s : State) (lo hi : Nat) : Bool :=
  (s.ops.any fun e => e.2.body.within lo hi)
    || (s.pkts.any fun e => pktAsks e.2.pkt && decide (lo < 2 ^ 44 * e.2.pkt.dst + e.2.pkt.addr + e.2.pkt.len)
        && decide (2 ^ 44 * e.2.pkt.dst + e.2.pkt.addr < hi))
    || (s.fe.launches.any fun e => e.2.within lo hi)
    || s.splits.any fun e => e.2.holds.any fun p => decide (lo ≤ paKey p.2.2) && decide (paKey p.2.2 < hi)

/-! ### Moving pages (Table 11.10, step 2) -/

/-- A leaf found in a replica: its context, its island and offset, its level, and the entry. -/
structure LeafAt where
  asid : Nat
  site : Nat
  off : Nat
  level : Nat
  entry : Nat
  deriving DecidableEq, Repr

/-- The well-formed leaves under a table of a replica. -/
def leavesFrom (s : State) (asid site : Nat) : (fuel level table : Nat) → List LeafAt
  | 0, _, _ => []
  | fuel + 1, level, table =>
    ((upFrom 0 (if level = 3 then 32 else 512)).map fun k =>
      let e := readEntry s (2 ^ 44 * site + table + 8 * k)
      if !bitAt e 0 || entryBad s.fe.panel.toNat site level e then []
      else if bitAt e 1 then [⟨asid, site, table + 8 * k, level, e⟩]
      else leavesFrom s asid site fuel (level + 1) (bits e 8 36 * 256)).flatten

/-- Every leaf of every replica that maps into a range. -/
def leavesInto (s : State) (lo hi : Nat) : List LeafAt :=
  ((s.ctxs.map fun c => (c.2.descs.map fun d => leavesFrom s c.1 d.1 4 0 (bits d.2.toNat 12 32 * 4096)).flatten).flatten).filter
    fun l =>
      let pa := bits l.entry 8 48 * 256
      bits pa 48 8 == s.fe.panel.toNat && decide (lo < paKey pa + pageBytes l.level) && decide (paKey pa < hi)

/-- Takes a frame from the map-out pool of an island that lies outside the withdrawn range, from the first range of the pool that
has one (log entry 34, DEDUCED). -/
def takeSpare (s : State) (site n limit : Nat) : Option (Nat × State) :=
  let pool := getD [] site s.fe.spares
  let below := (pool.filter fun r => decide (r.1 < limit)).map fun r => (r.1, Nat.min r.2 (limit - r.1))
  let above := (pool.filter fun r => decide (limit < r.1 + r.2)).map fun r => (Nat.max r.1 limit, r.1 + r.2 - Nat.max r.1 limit)
  (takeFrame n below).map fun r => (r.1, s.modFe fun f => { f with spares := put site (r.2 ++ above) f.spares })

/-- Copies `n` bytes of memory, poison with them. -/
def copyRange (s : State) (src dst n : Nat) : State :=
  let cells := s.mem.filter fun e => decide (src ≤ e.1) && decide (e.1 < src + n)
  let bad := s.poison.filter fun e => decide (src ≤ 128 * e.1) && decide (128 * e.1 < src + n)
  let s := overwrite s dst n (cells.map fun e => (e.1 - src + dst, e.2))
  syncPoison { s with poison := bad.foldl (fun p e => put (e.1 - src / 128 + dst / 128) e.2 p) s.poison }

/-- Removes the lines of a range from every L1 of an island, dirty bytes first written back, and from its fetch buffers and
record caches; what is written back belongs to the resident context's partition (R259). -/
def flushRange (s : State) (site lo hi : Nat) : State :=
  let part := match s.ctxs.find? fun e => e.2.resident with | some e => partOf s e.1 | none => 0
  let s := (s.cores.filter fun e => decide (e.1 / 128 = site)).foldl (fun t e =>
    ((l1Lines t e.1).filter fun l => decide (lo ≤ 128 * l) && decide (128 * l < hi)).foldl
      (fun u l => l1DropLine (l1CleanLine u e.1 part 2 l) e.1 l) t) s
  let out := fun (x : Nat) => decide (x < lo ∨ hi ≤ x)
  let clear := fun (e : Nat × Core) =>
    if e.1 / 128 = site then (e.1, { e.2 with fetch := e.2.fetch.filter fun x => out x.1, recs := e.2.recs.filter out })
    else e
  { s with cores := s.cores.map clear }

/-- Moves the mapped pages of a range to frames of the map-out pool and updates every replica; none when the pool lacks a
frame. Every TLB entry that mapped the range goes (R281). -/
def vacate (s : State) (site : Nat) : Option State :=
  let r := withdrawn s site
  let s := flushRange s site r.1 r.2
  let ls := leavesInto s r.1 r.2
  let pages := asSet (ls.map fun l => (bits l.entry 8 48 * 256) * 4 + l.level)
  let moved := pages.foldl (fun (t : Option State) p => t.bind fun u =>
    let pa := p / 4
    let n := pageBytes (p % 4)
    (takeSpare u site n (offOf r.1)).map fun f =>
      let v := copyRange f.2 (paKey pa) (2 ^ 44 * site + f.1) n
      (ls.filter fun l => l.level == p % 4 && bits l.entry 8 48 * 256 == pa).foldl (fun w l =>
        writeEntry w (partOf w l.asid) l.site l.off (l.entry - pa + (pa / 2 ^ 44 * 2 ^ 44 + f.1))) v) (some s)
  let old := fun (e : Tlb) =>
    let pa := bits e.leaf.toNat 8 48 * 256
    decide (r.1 < paKey pa + pageBytes e.level) && decide (paKey pa < r.2)
  moved.map fun u =>
    { u with cores := u.cores.map (fun e => (e.1, { e.2 with tlb := e.2.tlb.filter fun x => !old x }))
             islands := u.islands.map (fun e => (e.1, { e.2 with tlb := e.2.tlb.filter fun x => !old x })) }

/-- Invalidates the L2 ways that hold lines of a range. -/
def dropWays (s : State) (lo hi : Nat) : State :=
  { s with l2 := s.l2.filter fun e =>
      let g := e.1 / 16
      let a := 128 * wayLine (g / 4096 / 32) (g / 4096 % 32) (g % 4096) e.2 0
      decide (a < lo ∨ hi ≤ a) }

/-! ### The steps of a map-out -/

/-- Contexts with a descriptor for an island. -/
def holders (s : State) (site : Nat) : List Nat := (s.ctxs.filter fun e => (find site e.2.descs).isSome).map (·.1)

/-- Payload of ETYPE 2 and 3 (Table 17.11). -/
def mapoutPayload (die lo hi : Nat) : List Byte :=
  leBytes 1 (die / 16) ++ leBytes 1 (die % 16) ++ leBytes 6 0 ++ leBytes 8 (offOf lo) ++ leBytes 8 (offOf (hi - 1))

/-- Posts an event of a map-out on the panel ring, and in host-assisted mode on the rings of the contexts that hold a
descriptor for the island. -/
def postMapout (s : State) (site : Nat) (host : Bool) (ev : Nat → List Byte) : State :=
  let s := postPanel (ev 0) s
  if host then (holders s site).foldl (fun t a => postCtx a (ev a) t) s else s

/-- Writes the record of a map-out in progress. -/
def setMapout (s : State) (site : Nat) (m : MapOut) : State :=
  let i := s.island site
  s.setIsland site { i with mapouts := i.mapouts.filter (fun x => x.die ≠ m.die) ++ [m] }

/-- Step 1 in host-assisted mode: the notice asks for an acknowledgement. -/
def assistMapout (s : State) (site die flags : Nat) : State :=
  let r := withdrawn s site
  let n := freeSvc s
  let ev := fun (asid : Nat) => eventRecord 2 flags n site s.fe.panel.toNat asid (mapoutPayload die r.1 r.2)
  let s := openSvc (.mapout site die) none (ev 0) s
  setMapout (postMapout s site true ev) site ⟨die, 2, true, some n⟩

/-- LAYER_MAP_OUT (R268): a failing die starts a map-out with its notice; in hardware mode firmware then vacates the range,
once no access to it is outstanding (log entry 38, DEDUCED). -/
def execLayerMapOut (site die : Nat) (s : State) : Out :=
  let i := s.island site
  if svcsFull s then .fault (.notEnabled "LAYER_MAP_OUT")
  else match i.mapouts with
  | [] =>
    if !s.populated site || decide (64 ≤ die) || !i.hdie.getLsbD die then .fault (.notEnabled "LAYER_MAP_OUT")
    else if (holders s site).any fun a => modeBit s a 1 then .next (assistMapout s site die 0)
    else
      let r := withdrawn s site
      let ev := fun (asid : Nat) => plainEvent s 2 0 site asid (mapoutPayload die r.1 r.2)
      .next (setMapout (postMapout s site false ev) site ⟨die, 2, false, none⟩)
  | m :: _ =>
    let r := withdrawn s site
    if m.die ≠ die ∨ m.step ≠ 2 ∨ m.host ∨ rangeBusy s r.1 r.2 then .fault (.notEnabled "LAYER_MAP_OUT")
    else
      match vacate s site with
      | some t => .next (setMapout t site { m with step := 3 })
      | none => .next (assistMapout (poolExhausted s site none 3) site die 1)

/-- MAPOUT_ACK (R268, R387). -/
def execMapoutAck (svc : Nat) (s : State) : Out :=
  command 0x27 "MAPOUT_ACK" s <|
    match find svc s.fe.svcs with
    | some ⟨.mapout site die, _, _, _⟩ =>
      let s := s.modFe fun f => { f with svcs := del svc f.svcs }
      .ok (setMapout s site ⟨die, 3, true, none⟩, 0)
    | _ => .error 2

/-- MAPOUT_COPY (R268, step 3): the die's contents are copied and accesses redirected; no access can see it. -/
def execMapoutCopy (site die : Nat) (s : State) : Out :=
  match (s.island site).mapouts.find? fun m => m.die == die && m.step == 3 with
  | some m => .next (setMapout s site { m with step := 4 })
  | none => .fault (.notEnabled "MAPOUT_COPY")

/-- MAPOUT_COMMIT (R24, R268, step 4): the range becomes a hole, and the hot-remove event is posted. -/
def execMapoutCommit (site die : Nat) (s : State) : Out :=
  match (s.island site).mapouts.find? fun m => m.die == die && m.step == 4 with
  | none => .fault (.notEnabled "MAPOUT_COMMIT")
  | some m =>
    let r := withdrawn s site
    if rangeBusy s r.1 r.2 then .fault (.notEnabled "MAPOUT_COMMIT")
    else
      let s := flushRange s site r.1 r.2
      let s := dropWays (zeroRange s r.1 (r.2 - r.1)) r.1 r.2
      let i := s.island site
      let s := s.setIsland site { i with
        hdie := i.hdie &&& ~~~(BitVec.ofNat 64 (2 ^ die)), igen := i.igen + 1
        mapouts := i.mapouts.filter fun x => x.die ≠ die }
      let cap := (s.island site).hcap
      let ev := fun (asid : Nat) => plainEvent s 3 0 site asid (mapoutPayload die r.1 r.2 ++ leBytes 8 cap)
      .next (postMapout s site m.host ev)

end Sys2Proof.Machine
end

