-- ==== Sys2Proof/Machine/Matrix.lean ====
section
/-! DEFINITION. The matrix engine and the accumulator tiles (spec/10). -/
namespace Sys2Proof.Machine

/-! ### The dot product (R243, R244) -/

/-- Whether a term is nonzero and finite. -/
def FVal.nonzero : FVal → Bool
  | .fin _ m _ => m != 0
  | _ => false
/-- Exponent of the leading bit of a finite term. -/
def FVal.lead : FVal → Int
  | .fin _ m e => leadExp m 1 e
  | _ => 0
/-- A finite term truncated toward zero to a whole number of quanta 2^q. -/
def FVal.truncated (q : Int) : FVal → Int
  | .fin neg m e => if neg then -((quanta m 1 e q).1 : Int) else ((quanta m 1 e q).1 : Int)
  | _ => 0

/-- The greatest leading exponent of nonempty terms. -/
def maxLead : List FVal → Int
  | [] => 0
  | [t] => t.lead
  | t :: ts => max t.lead (maxLead ts)

/-- The sum of terms none of which is a NaN (R243). -/
def sumTerms (terms : List FVal) : Nat :=
  let infs := terms.filter FVal.isInf
  if infs.any FVal.neg && infs.any (fun t => !t.neg) then 0x7FC00000
  else
    match infs with
    | t :: _ => encInf 8 23 t.neg
    | [] =>
      let nz := terms.filter FVal.nonzero
      let q := maxLead nz - 40
      let s := nz.foldl (fun a t => a + t.truncated q) (0 : Int)
      if s = 0 then 0 else (roundX ⟨24, 8, 23, 0, true⟩ (.num (decide (s < 0)) s.natAbs 1 q)).v

/-- dot(i, j): a row of A and a column of B in CE16, and the old element in FP32, if any (R243). -/
def dot (as bs : List Nat) (c : Option Nat) : Nat :=
  let ps := (as.zip bs).map fun e => (mulV (decodeF 8 7 e.1) (decodeF 8 7 e.2)).1
  let terms := ps ++ (match c with | some v => [decodeF 8 23 v] | none => [])
  if terms.any FVal.isNan then 0x7FC00000 else sumTerms terms

/-! ### Tiles (R236, R237) -/

/-- The physical tile of a tile name, when it is allotted to the role of a gang (R237). -/
def ownedTile (t : Team) (gang name : Nat) : Option Nat :=
  let role := (nth ⟨8, 0, 32, 0, false⟩ t.gangs gang).role
  (t.tiles.find? fun x => x.1 == name && x.2.1 == role).map (·.2.2)

/-- The elements of a physical tile, row by row. -/
def tileElems (c : Core) (phys : Nat) : List Nat :=
  let m := c.tiles.filter fun e => decide (e.1 / 4096 = phys)
  (upFrom (4096 * phys) 4096).map fun k => (getD 0 k m).toNat
/-- Writes a whole physical tile, soft errors in it with it. -/
def setTile (c : Core) (phys : Nat) (vs : List Nat) : Core :=
  { c with badTiles := c.badTiles.filter fun k => decide (k / 4096 ≠ phys), tiles := c.tiles.filter (fun e => decide (e.1 < 4096 * phys))
      ++ ((upFrom (4096 * phys) 4096).zip (vs.map w32)).filter (fun e => e.2 != 0)
      ++ c.tiles.filter (fun e => decide (4096 * phys + 4096 ≤ e.1)) }
/-- Element key of a physical tile. -/
def tileKey (phys row col : Nat) : Nat := 4096 * phys + 64 * row + col

/-- A × B + C, or A × B (R245): A is 64 × 32 and B 32 × 64, row-major. -/
def matmul (as bs : List Nat) (old : Option (List Nat)) : List Nat :=
  let cols := (upFrom 0 64).map fun j => (upFrom 0 32).map fun k => nth 0 (bs.drop (64 * k)) j
  ((upFrom 0 64).map fun i =>
    let row := (as.drop (32 * i)).take 32
    let olds := match old with | some o => (o.drop (64 * i)).take 64 | none => []
    (upFrom 0 64).map fun j => dot row (nth [] cols j) (match old with | some _ => some (nth 0 olds j) | none => none)).flatten

/-! ### Operands at acceptance (R239, Table 10.1) -/

/-- `n` 16-bit elements of the team's scratchpad from an offset. -/
def scratchHalves (s : State) (o : Op) (t : Team) (off n : Nat) : List Nat :=
  (upFrom 0 n).map fun k => scratchRead s o t (off + 2 * k) 2

/-- Cause 0x13 for the first range that leaves the team's scratchpad (R201). -/
def rangeFault (t : Team) (rs : List (Nat × Nat)) : Option CauseRec :=
  (rs.findSome? fun r => if r.2 = 0 then none else scratchOver t r.1 r.2).map fun off => cause 0x13 0 off

/-- Subcauses 16 and 17 of the two descriptors of an operation: for each its value, whether it is malformed, and whether
it is misaligned. -/
def descFault (ds : List (Nat × Bool × Bool)) : Option CauseRec :=
  match ds.find? fun d => d.2.1 with
  | some d => some (cause 0x12 16 d.1)
  | none => (ds.find? fun d => d.2.2).map fun d => cause 0x12 17 d.1

/-- The MMA descriptor checks (Table 10.2). -/
def plainDesc (v : Nat) : Nat × Bool × Bool := (v, bits v 18 46 != 0, bits v 0 18 % 64 != 0)
/-- The gather descriptor checks (Table 10.3). -/
def gatherDesc (v : Nat) : Nat × Bool × Bool :=
  (v, bits v 50 14 != 0 || bitAt v 31 || bits v 18 13 == 0 || decide (4096 < bits v 18 13),
    bits v 32 18 % 128 != 0 || bits v 0 18 % 64 != 0)
/-- The sparse descriptor checks (Table 10.4). -/
def sparseDesc (v : Nat) : Nat × Bool × Bool :=
  (v, bits v 54 10 != 0, bits v 36 18 % 2 != 0 || bits v 18 18 % 2 != 0 || bits v 0 18 % 2 != 0)

/-- A and B of an operation, or its cause. -/
abbrev Operands2 := Except CauseRec (List Nat × List Nat)

/-- MMA (R245). -/
def mmaOperands (s : State) (o : Op) (t : Team) (ga gb : Nat) : Operands2 :=
  match descFault [plainDesc ga, plainDesc gb] with
  | some c => .error c
  | none =>
    match rangeFault t [(bits ga 0 18, 4096), (bits gb 0 18, 4096)] with
    | some c => .error c
    | none => .ok (scratchHalves s o t (bits ga 0 18) 2048, scratchHalves s o t (bits gb 0 18) 2048)

/-- MMAG (R246): the index vector, of whose bad indices the first is reported (log entry 78, DESIGN CHOICE), then B and the row
table. -/
def mmagOperands (s : State) (o : Op) (t : Team) (ga gb : Nat) : Operands2 :=
  match descFault [gatherDesc ga, plainDesc gb] with
  | some c => .error c
  | none =>
    let ioff := bits ga 32 18
    let rows := bits ga 18 13
    let toff := bits ga 0 18
    match rangeFault t [(ioff, 128)] with
    | some c => .error c
    | none =>
      let vs := scratchHalves s o t ioff 64
      match (vs.zip (upFrom 0 64)).find? fun e => e.1 != 0xFFFF && decide (rows ≤ e.1) with
      | some e => .error (cause 0x12 18 (e.1 + 2 ^ 16 * e.2))
      | none =>
        match rangeFault t [(bits gb 0 18, 4096), (toff, 64 * rows)] with
        | some c => .error c
        | none => .ok ((vs.map fun v => if v = 0xFFFF then List.replicate 32 0 else scratchHalves s o t (toff + 64 * v) 32).flatten,
            scratchHalves s o t (bits gb 0 18) 2048)

/-- The first row pointer that decreases, or the last when it is above 2,048 (subcause 19). -/
def badPointer (ps : List Nat) : Option Nat :=
  match (upFrom 1 32).find? fun k => decide (nth 0 ps k < nth 0 ps (k - 1)) with
  | some k => some k
  | none => if 2048 < nth 0 ps 32 then some 32 else none

/-- The first entry whose column is beyond 63 or repeats in its row (subcause 20; that it is the first of several is log entry 78,
DESIGN CHOICE); `e0` numbers the first entry. -/
def badEntry (ps : List Nat) (e0 : Nat) (cols : List Nat) : Option Nat :=
  (upFrom 0 cols.length).find? (fun n =>
    let e := e0 + n
    let c := nth 0 cols n
    let start := maxNat (ps.filter fun p => decide (p ≤ e))
    decide (64 ≤ c) || ((cols.take n).drop (start - e0)).contains c) |>.map (e0 + ·)

/-- B assembled from compressed sparse rows (R247). -/
def sparseB (ps : List Nat) (e0 : Nat) (cols vals : List Nat) : List Nat :=
  ((upFrom 0 32).map fun k =>
    let lo := nth 0 ps k - e0
    let n := nth 0 ps (k + 1) - nth 0 ps k
    (((cols.drop lo).take n).zip ((vals.drop lo).take n)).foldl (fun row e => setNth row e.1 e.2) (List.replicate 64 0)).flatten

/-- MMAS (R247): the row pointers, the arrays, then A. -/
def mmasOperands (s : State) (o : Op) (t : Team) (ga gb : Nat) : Operands2 :=
  match descFault [plainDesc ga, sparseDesc gb] with
  | some c => .error c
  | none =>
    let poff := bits gb 0 18
    match rangeFault t [(poff, 66)] with
    | some c => .error c
    | none =>
      let ps := scratchHalves s o t poff 33
      match badPointer ps with
      | some k => .error (cause 0x12 19 k)
      | none =>
        let e0 := nth 0 ps 0
        let n := nth 0 ps 32 - e0
        match rangeFault t [(bits gb 18 18 + 2 * e0, 2 * n), (bits gb 36 18 + 2 * e0, 2 * n)] with
        | some c => .error c
        | none =>
          let cols := scratchHalves s o t (bits gb 18 18 + 2 * e0) n
          match badEntry ps e0 cols with
          | some e => .error (cause 0x12 20 e)
          | none =>
            match rangeFault t [(bits ga 0 18, 4096)] with
            | some c => .error c
            | none => .ok (scratchHalves s o t (bits ga 0 18) 2048,
                sparseB ps e0 cols (scratchHalves s o t (bits gb 36 18 + 2 * e0) n))

/-- Bytes an ACCST writes (R251). -/
def accstBytes (ctl : Nat) : Nat := if bitAt ctl 50 then 8192 else 16384

/-- The checks of ACCST (R251, Table 10.1). -/
def accstCheck (t : Team) (ctl : Nat) : Option CauseRec :=
  if bits ctl 51 13 ≠ 0 ∨ bits ctl 11 21 ≠ 0 then some (cause 0x12 1 ctl)
  else if ctlSpoff ctl % 64 ≠ 0 then some (cause 0x12 17 ctl)
  else
    match rangeFault t [(ctlSpoff ctl, accstBytes ctl)] with
    | some c => some c
    | none => if ctlBen ctl && decide (t.bbs.length ≤ ctlBidx ctl) then some (cause 0x13 0 (ctlBidx ctl)) else none

/-- A row operand with a nonzero reserved bit (Table 10.5). -/
def rowReserved (v : Nat) : Bool := bits v 22 42 != 0 || bits v 11 5 != 0 || bits v 6 2 != 0

/-- The scratchpad ranges that an operation reads at acceptance, once its checks have passed: team offset and bytes. -/
def operandRanges (s : State) (o : Op) (t : Team) (m : MatOp) : List (Nat × Nat) :=
  let ga := m.ga.toNat
  let gb := m.gb.toNat
  match m.kind with
  | .mma _ => [(bits ga 0 18, 4096), (bits gb 0 18, 4096)]
  | .mmag _ => [(bits ga 32 18, 128), (bits gb 0 18, 4096)]
      ++ ((scratchHalves s o t (bits ga 32 18) 64).filter (· != 0xFFFF)).map fun v => (bits ga 0 18 + 64 * v, 64)
  | .mmas _ =>
    let ps := scratchHalves s o t (bits gb 0 18) 33
    let e0 := nth 0 ps 0
    let n := nth 0 ps 32 - e0
    [(bits gb 0 18, 66), (bits gb 18 18 + 2 * e0, 2 * n), (bits gb 36 18 + 2 * e0, 2 * n), (bits ga 0 18, 4096)]
  | _ => []

/-- Whether a read of ranges of the team's scratchpad meets an uncorrectable soft error (R242). -/
def sramBad (s : State) (t : Team) (rs : List (Nat × Nat)) : Bool :=
  (s.core (coreKey t.site t.core)).badSram.any fun a => rs.any fun r => decide (t.scratchBase + r.1 ≤ a) && decide (a < t.scratchBase + r.1 + r.2)

/-- The checks and the reads of an acceptance: the operation as accepted, or its cause (R239). -/
def acceptMatrix (s : State) (o : Op) (t : Team) (m : MatOp) : Except CauseRec MatOp :=
  match ownedTile t o.gang m.tile with
  | none => .error (cause 0x14 0 m.tile)
  | some p =>
    let m := { m with phys := p, scr := t.scratchBase, accepted := true }
    let ga := m.ga.toNat
    let ab := fun (r : Operands2) => match r with
      | .ok v => Except.ok { m with amat := v.1, bmat := v.2, bad := sramBad s t (operandRanges s o t m) }
      | .error c => .error c
    match m.kind with
    | .mma _ => ab (mmaOperands s o t ga m.gb.toNat)
    | .mmag _ => ab (mmagOperands s o t ga m.gb.toNat)
    | .mmas _ => ab (mmasOperands s o t ga m.gb.toNat)
    | .accz => .ok m
    | .accrd | .accwr => if rowReserved ga then .error (cause 0x12 21 ga) else .ok m
    | .accst => match accstCheck t ga with | some c => .error c | none => .ok m

/-! ### The words (R245 to R251) -/

/-- What the operation comes after: scratchpad accesses, and atomics whose acquire part shows the split what others have stored
there (R241, R319). -/
def scratchBefore (s : State) (cx : Iss) : List Nat :=
  opsOf s cx.sp.keys fun b => match b with
    | .access _ scr _ _ _ _ _ _ _ acq _ => scr || acq
    | .remote r => r.acq
    | _ => false

/-- A matrix multiplication at issue. -/
def mmaWord (s : State) (i : Instr) (k : MatKind) (t : BitVec 4) (p : BitVec 3) (a b : BitVec 8) : Out :=
  plain s i fun cx => engineWord s cx (some t.toNat) (scratchBefore s cx) (.matrix
    { kind := k, tile := p.toNat, ga := BitVec.ofNat 64 (cx.g s a.toNat), gb := BitVec.ofNat 64 (cx.g s b.toNat) })

/-- MMA (R245). -/
def execMma (t : BitVec 4) (p : BitVec 3) (a b : BitVec 8) (e : Bool) (s : State) : Out :=
  mmaWord s (.mma t p a b e) (.mma e) t p a b
/-- MMAG (R246). -/
def execMmag (t : BitVec 4) (p : BitVec 3) (a b : BitVec 8) (e : Bool) (s : State) : Out :=
  mmaWord s (.mmag t p a b e) (.mmag e) t p a b
/-- MMAS (R247). -/
def execMmas (t : BitVec 4) (p : BitVec 3) (a b : BitVec 8) (e : Bool) (s : State) : Out :=
  mmaWord s (.mmas t p a b e) (.mmas e) t p a b
/-- ACCZ (R249). -/
def execAccz (p : BitVec 3) (t : BitVec 4) (s : State) : Out :=
  plain s (.accz p t) fun cx => engineWord s cx (some t.toNat) [] (.matrix { kind := .accz, tile := p.toNat })

/-- Column of a lane number for a row operand (R250). -/
def rowCol (v n : Nat) : Nat := (bits v 16 6 + n) % 64

/-- ACCRD (R250). -/
def execAccrd (d a : BitVec 8) (t : BitVec 4) (s : State) : Out :=
  plain s (.accrd d a t) fun cx =>
    let v := cx.g s a.toNat
    engineWord s cx (some t.toNat) [] (.matrix
      { kind := .accrd, tile := bits v 8 3, ga := BitVec.ofNat 64 v, row := bits v 0 6
        cols := (guardedLanes s cx.sp).map fun le => (le.sk, rowCol v le.n, le.key d.toNat) })

/-- ACCWR (R250): the data are read at issue. -/
def execAccwr (d a : BitVec 8) (t : BitVec 4) (s : State) : Out :=
  plain s (.accwr d a t) fun cx =>
    let v := cx.g s d.toNat
    let ls := guardedLanes s cx.sp
    engineWord s cx (some t.toNat) [] (.matrix
      { kind := .accwr, tile := bits v 8 3, ga := BitVec.ofNat 64 v, row := bits v 0 6
        cols := ls.map fun le => (le.sk, rowCol v le.n, 0), vals := ls.map fun le => le.x a.toNat })

/-- ACCST (R251) (log entry 28, DEDUCED). -/
def execAccst (d : BitVec 8) (p : BitVec 3) (s : State) : Out :=
  plain s (.accst d p) fun cx =>
    let ctl := cx.g s d.toNat
    engineWord s cx (ctlToken ctl) (scratchBefore s cx)
      (.matrix { kind := .accst, tile := p.toNat, ga := BitVec.ofNat 64 ctl })

/-! ### Acceptance and completion (R239, R240, R242) -/

/-- Matrix operations of a core, accepted or not, that `f` picks. -/
def matrixOps (s : State) (ck : Nat) (f : MatOp → Bool) : List Nat :=
  (s.ops.filter fun e => coreKey e.2.site e.2.core == ck && (match e.2.body with | .matrix m => f m | _ => false)).map (·.1)

/-- MATRIX_ACCEPT (R239, R240): in issue order, when the queue has a free entry and what comes before has taken effect. -/
def execMatrixAccept (id : Nat) (s : State) : Out :=
  match find id s.ops with
  | none => .fault (.notEnabled "MATRIX_ACCEPT")
  | some o =>
    match o.body, acceptWaiter s id, find o.team s.teams with
    | .matrix m, some w, some t =>
      let ck := coreKey o.site o.core
      if m.accepted || (matrixOps s ck fun x => !x.accepted).any (fun j => decide (j < id))
          || decide (Config.matrixQueue ≤ (matrixOps s ck fun x => x.accepted).length) || !o.after.all (depDone s) then
        .fault (.notEnabled "MATRIX_ACCEPT")
      else
        match acceptMatrix s o t m with
        | .ok m => .next (endAccept s id o w.1 (.ok s (.matrix m)))
        | .error c => .next (endAccept s id o w.1 (.fault { c with tlanes := o.lanes }))
    | _, _, _ => .fault (.notEnabled "MATRIX_ACCEPT")

/-- A tile element as ACCST stores it (R251). -/
def storeCE16 (v : Nat) : Nat := (roundX ⟨8, 8, 7, 0, true⟩ (decodeF 8 23 v).exact).v

/-- The elements an ACCST writes, each by its address in the core SRAM with its bytes (R251). -/
def accstOuts (c : Core) (m : MatOp) : List (Nat × List Byte) :=
  let ctl := m.ga.toNat
  let es := if bitAt ctl 50 then 2 else 4
  let vs := tileElems c m.phys
  (upFrom 0 vs.length).zip vs |>.map fun e =>
    (m.scr + ctlSpoff ctl + es * e.1, if bitAt ctl 50 then leBytes 2 (storeCE16 e.2) else leBytes 4 e.2)

/-- Whether an operation stands behind another on its tile (R240). -/
def tileBusy (s : State) (id : Nat) (o : Op) (m : MatOp) : Bool :=
  (matrixOps s (coreKey o.site o.core) fun x => x.accepted && x.phys == m.phys).any fun j => decide (j < id)

/-- The effect of an operation, once those accepted before it on its tile have had theirs (R240). -/
def matrixEffect (s : State) (id : Nat) (o : Op) (m : MatOp) : State :=
  let ck := coreKey o.site o.core
  let c := s.core ck
  let mul := fun (ow : Bool) => s.setCore ck (setTile c m.phys
    (matmul m.amat m.bmat (if ow then none else some (tileElems c m.phys))))
  match m.kind with
  | .mma ow | .mmag ow | .mmas ow => mul ow
  | .accz => s.setCore ck (setTile c m.phys [])
  | .accrd => landAll s o (m.cols.map fun x => ⟨x.1, x.2.2, getD 0 (tileKey m.phys m.row x.2.1) c.tiles⟩)
  | .accwr =>
    let keys := m.cols.map fun x => tileKey m.phys m.row x.2.1
    s.setCore ck { c with
      tiles := (keys.zip m.vals).foldl (fun ts x => setD 0 x.1 x.2 ts) c.tiles, badTiles := c.badTiles.filter fun k => !keys.contains k }
  | .accst => engineWrite s ck id o.since (m.outs.getD (accstOuts c m))

/-- Whether an operation reads an operand or a tile element with an uncorrectable soft error (R242). -/
def matrixBad (s : State) (o : Op) (m : MatOp) : Bool :=
  let bad := (s.core (coreKey o.site o.core)).badTiles.filter fun k => decide (k / 4096 = m.phys)
  m.bad || match m.kind with
    | .mma ow | .mmag ow | .mmas ow => !ow && !bad.isEmpty
    | .accrd => m.cols.any fun x => bad.contains (tileKey m.phys m.row x.2.1)
    | .accst => m.outs.isNone && !bad.isEmpty
    | _ => false

/-- Lets an ACCST whose turn at its tile has come write some of its elements, in a free order (R241, R251); one that
meets a soft error in its tile writes nothing (R242). -/
def accstProgress (s : State) (id : Nat) : State :=
  match find id s.ops with
  | none => s
  | some o =>
    match o.body with
    | .matrix m =>
      if m.kind ≠ .accst ∨ !m.accepted ∨ tileBusy s id o m ∨ matrixBad s o m then s
      else
        let ck := coreKey o.site o.core
        let w := takeSome s (28 * 2 ^ 64 + 2 * id) (m.outs.getD (accstOuts (s.core ck) m))
        if w.1.isEmpty then s
        else (engineWrite s ck id o.since w.1).modOp id fun y => { y with body := .matrix { m with outs := some w.2 } }
    | _ => s

/-- MATRIX_COMPLETE (R242). A soft error has no line whose address TVAL could hold: its value is free (log entry 66, DESIGN
CHOICE). -/
def execMatrixComplete (id : Nat) (s : State) : Out :=
  match find id s.ops with
  | none => .fault (.notEnabled "MATRIX_COMPLETE")
  | some o =>
    match o.body with
    | .matrix m =>
      if !m.accepted || tileBusy s id o m then .fault (.notEnabled "MATRIX_COMPLETE")
      else if matrixBad s o m then
        .next (finishOp (raiseOp s o (cause 0x15 0 (Config.choose s.tick (27 * 2 ^ 64 + id) % 2 ^ 64) o.lanes)) id o)
      else
        let s := matrixEffect s id o m
        .next (if m.kind = .accst then engineDone s id o m.ga.toNat (accstBytes m.ga.toNat) else finishOp s id o)
    | _ => .fault (.notEnabled "MATRIX_COMPLETE")

end Sys2Proof.Machine
end

