-- ==== Sys2Proof/Machine/Issue.lean ====
section
/-! DEFINITION. The issue stage (R46, R66 to R69, R72, R112, R302, R325, R336 to R338). -/
namespace Sys2Proof.Machine

/-! ### What stops a split (Table 3.1) -/

/-- Whether a split is stopped with its context: the context ends (R325), is halted, or has this split stopped by a debugger
cause (R124, R337), or is being pre-empted; a split about to replay finishes that first (R277, R338). -/
def stopped (c : Ctx) (sid : Nat) (sp : Split) : Bool :=
  c.ending || c.halted || (c.haltAt.any fun h => h.1 == sid) || match c.pre with
    | .none => false
    | .stopping _ => !sp.handler && !sp.replays
    | .limit => !sp.replays

/-- Whether the wait of a split may end now: what a split itself asked to wait for does not end while it is stopped (R341);
fences and the order kept by barriers do. -/
def waitRuns (c : Ctx) (sid : Nat) (sp : Split) : Bool := !sp.wait.kept || !stopped c sid sp

/-- The word a split would issue, as its fetch buffer holds it. -/
def peekWord (s : State) (cx : Iss) : Option Word :=
  (fetched s cx.tm cx.sp).bind fun pa => find (paKey pa) (s.core cx.ck).fetch

/-- The token an instruction posts to: named by its word, or by its control word (R230, R251, R293). -/
def postsTo (s : State) (cx : Iss) (i : Instr) : Option Nat :=
  match i with
  | .tcopyLd d _ _ | .tcopySt d _ _ | .accst d _ => ctlToken (cx.g s d.toNat)
  | i => wordToken s cx i

/-- Whether an instruction would take some count of the split past 255 (R112). -/
def holdsBack (s : State) (cx : Iss) (i : Instr) : Bool :=
  match postsTo s cx i with | some t => tokenFull s cx.sp t | none => false

/-- Whether the last word of a split has ended, with nothing of it left to wait for or to deliver. -/
def Split.settled (p : Split) : Bool :=
  p.park.isNone && p.pending.isNone && p.wait == .none && p.passed.isEmpty && p.declined.isEmpty && p.held.isNone

/-- Whether a split waits for nothing of its own; a split of a group that has been selected issues then, whatever another split
of the group has raised (R67, R69). A split that becomes one with another waits for that one's part of their word (R72). -/
def unhindered (cx : Iss) : Bool :=
  cx.tm.resident && cx.sp.park.isNone && cx.sp.pending.isNone && cx.sp.wait == .none
    && !(cx.sp.settled && cx.sp.joinTo.isSome)

/-- Whether an atomic of the split has still to run an acquire part at island scope or above: the fetch of what follows it in program
order waits until that part has emptied the fetch buffer (R398; log entry 68, DEDUCED). -/
def acquiring (s : State) (cx : Iss) : Bool :=
  !(opsOf s cx.sp.keys fun b => match b with
    | .access _ scr _ _ _ _ _ _ _ acq scope => acq && !scr && decide (2 ≤ scope)
    | .remote r => r.acq && decide (2 ≤ r.scope)
    | _ => false).isEmpty

/-- Whether a split has nothing to wait for but room in its token (Table 3.1). -/
def nearlyReady (s : State) (cx : Iss) : Bool :=
  (match find cx.tm.asid s.ctxs with | some c => !stopped c cx.sid cx.sp | none => false) && unhindered cx

/-- Whether the next word of a split waits for room in its token (R112); a word that has issued is counted already (R276). -/
def waitsForToken (s : State) (cx : Iss) : Bool :=
  !cx.sp.reissues && match (peekWord s cx).bind fun w => (decode w).toOption with | some i => holdsBack s cx i | none => false

/-- Whether a split is ready (R66). -/
def ready (s : State) (cx : Iss) : Bool := nearlyReady s cx && cx.sp.busy == 0 && !waitsForToken s cx

/-! ### Selection (R67) -/

/-- Splits of a core's resident teams. -/
def coreSplits (s : State) (ck : Nat) : List Iss :=
  s.splits.filterMap fun e => match find e.2.team s.teams with
    | some t => if t.resident ∧ coreKey t.site t.core = ck then some ⟨e.1, e.2, t⟩ else none
    | none => none

/-- Positions of a split's slices. -/
def positionsOf (s : State) (cx : Iss) : List Nat := cx.sp.keys.map fun k => (s.slice k).pos

/-- Order of candidates: decreasing age, then gang-table entry, then lowest position. -/
def rank (s : State) (cx : Iss) : Nat :=
  (2 ^ 64 - Nat.min cx.sp.age (2 ^ 64)) * 2 ^ 16 + cx.gang.entry * 16 + (leastBy id (positionsOf s cx)).getD 0

/-- Candidates of a cycle: the ready splits, or of those the ones in handler mode if any is. -/
def candidates (s : State) (ck : Nat) : List Iss :=
  let rs := (coreSplits s ck).filter (ready s)
  let hs := rs.filter fun cx => cx.sp.handler
  sortBy (rank s) (if hs.isEmpty then rs else hs)

/-- The group that issues with a lead: same grid, same PC, positions that do not meet. -/
def groupWith (s : State) (lead : Iss) : List Nat → List Iss → List Iss
  | _, [] => []
  | used, cx :: t =>
    if cx.tm.grid = lead.tm.grid ∧ cx.sp.va = lead.sp.va ∧ (positionsOf s cx).all fun p => !used.contains p then
      cx :: groupWith s lead (used ++ positionsOf s cx) t
    else groupWith s lead used t

/-- The group of a cycle. -/
def selectGroup (s : State) (cs : List Iss) : List Nat :=
  match cs with
  | [] => []
  | lead :: t => lead.sid :: (groupWith s lead (positionsOf s lead) t).map (·.sid)

/-! ### A cycle of a core -/

/-- Looks at every wait of the core's splits (Table 3.1). -/
def pollCore (s : State) (ck : Nat) : State :=
  (coreSplits s ck).foldl (fun t cx =>
    match find cx.tm.asid t.ctxs with
    | some c => if waitRuns c cx.sid cx.sp then pollWait t cx.sid else t
    | none => t) s

/-- A split that waits for room in its token will find its earlier results in place (R107). -/
def settleFull (s : State) (ck : Nat) : State :=
  (coreSplits s ck).foldl (fun t cx =>
    if nearlyReady t cx && waitsForToken t cx then cx.sp.keys.foldl (fun u k => u.modSlice k Slice.settle) t else t) s

/-- The issue occupancy of the core's splits falls by one cycle (R66). -/
def tickBusy (s : State) (ck : Nat) : State :=
  (coreSplits s ck).foldl (fun t cx => t.modSplit cx.sid fun p => { p with busy := p.busy - 1 }) s

/-- The cycle counts of a core and its island advance (R52): a core that took no issue cycle while its island counted goes
on in the cycle its island has reached, so that CYCLE rises from each issue cycle of a core to the next (log entry 46, DESIGN CHOICE). -/
def tickCore (s : State) (ck : Nat) : State :=
  let i := s.island (ck / 128)
  let n := Nat.max i.cycle ((s.core ck).cycles + 1)
  let s := s.setCore ck { s.core ck with cycles := n }
  s.setIsland (ck / 128) { i with cycle := n }

/-- Splits of contexts that end come to their next issue slot and stop, unless a check of their word is still in progress (R325). -/
def noteStops (s : State) (ck : Nat) : State :=
  let here := ((coreSplits s ck).filter fun cx => cx.sp.park.isNone && (match cx.sp.wait with
    | .accept _ | .check _ | .exact .. => false | _ => true)).map (·.sid)
  { s with ctxs := s.ctxs.map fun e =>
      if e.2.ending then (e.1, { e.2 with unstopped := e.2.unstopped.filter fun x => !here.contains x }) else e }

/-- Whether two splits have equal signatures. -/
def sameSignature (s : State) (a b : Split) : Bool :=
  let cs := (a.keys ++ b.keys).map fun k => (s.slice k).cpc
  a.mode == b.mode && a.handler == b.handler && cs.all fun c => c == (cs.headD none)

/-- Merges split `y` into split `x`. TCAUSE, TPC, TVAL, TLANES and TSAVE of the merged split are those of `x`, which stands earlier in
the group (log entry 78, DESIGN CHOICE). -/
def mergeSplits (s : State) (x : Nat) (a : Split) (y : Nat) (b : Split) : State :=
  { s with splits := put x { a with slices := sortBy id (a.slices ++ b.slices), busy := Nat.max a.busy b.busy
                                    stepMark := a.stepMark || b.stepMark } (del y s.splits) }

/-- A split that was to become one with another does so once their word has ended in both, or stays apart when the other is gone, or
the word has left them at different addresses or with different signatures (R72). -/
def joinLater (s : State) (cx : Iss) : State :=
  let alone := s.modSplit cx.sid fun p => { p with joinTo := none }
  match find cx.sid s.splits, cx.sp.joinTo with
  | some b, some x =>
    if x = cx.sid then (if s.splits.any fun e => e.1 != x && e.2.joinTo == some x then s else alone)
    else match find x s.splits with
    | none => alone
    | some a =>
      if !sameSignature s a b then alone
      else if !(a.settled && b.settled) then s
      else if a.va = b.va then mergeSplits s x a cx.sid b else alone
  | _, _ => s
/-- Every merge of the core's splits that is due, those that others wait for last. -/
def joinTwins (s : State) (ck : Nat) : State :=
  let cs := (coreSplits s ck).filter fun cx => cx.sp.joinTo.isSome
  (cs.filter (fun cx => cx.sp.joinTo != some cx.sid) ++ cs.filter fun cx => cx.sp.joinTo == some cx.sid).foldl joinLater s

/-- ISSUE_GROUP (R67): one cycle of a core. Waits that can end do so, copies move on, occupancies fall; then the core
selects a group, whose splits issue one after another in the steps that follow (R69). -/
def execIssueGroup (ck : Nat) (s : State) : Out :=
  if (coreSplits s ck).isEmpty || decide (s.turn ≠ .idle) || (s.island (ck / 128)).underReset then .fault (.notEnabled "ISSUE_GROUP")
  else
    let s := noteStops (tickCore (kickRemotes s) ck) ck
    let s := (tcopies s ck true).foldl tcopyProgress s
    let s := (matrixOps s ck fun m => m.accepted).foldl accstProgress s
    let s := settleFull (joinTwins (pollCore s ck) ck) ck
    let cs := candidates s ck
    let g := selectGroup s cs
    let s := cs.foldl (fun t cx => t.modSplit cx.sid fun p => { p with age := if g.contains cx.sid then 0 else p.age + 1 }) s
    .next { tickBusy s ck with turn := if g.isEmpty then .idle else .issue ck g [] }

/-! ### What precedes an instruction -/

/-- Whether a context is being single-stepped: STEP and ATT of DBG (Table 15.5). -/
def stepping (s : State) (asid : Nat) : Bool :=
  match find asid s.ctxs with | some c => c.dbg.getLsbD 2 && c.dbg.getLsbD 0 | none => false

/-- The core's cycle is that of the issue of the split's instruction, unless that has issued before (R335). -/
def dateIssue (s : State) (cx : Iss) : State :=
  s.modSplit cx.sid fun p => { p with issuedAt := if p.reissues then p.issuedAt else (s.core cx.ck).cycles }

/-- A step cause due at the split (R336), or a remote fault due after RFT (R302): the state with it raised. -/
def preIssue (s : State) (cx : Iss) : Option State :=
  if cx.sp.stepMark && stepping s cx.tm.asid && !cx.sp.reissues then
    some (raiseAt (dateIssue s cx) cx.sid (cause 0x11 2 0 (liveMask s cx.sp)))
  else if cx.sp.afterRft then (remoteFault s cx.sp).map fun c => raiseRemote (dateIssue s cx) cx.sid cx.sp c
  else none

/-- The marks of a split about to issue: RFT's has been looked at, single-stepping leaves its own, and increments of a parked
word make way for its own (R110, R302, R336). -/
def markIssue (s : State) (cx : Iss) : State :=
  (perSlice (dateIssue s cx) cx fun _ sl => sl.unhold).modSplit cx.sid fun p => { p with
    afterRft := p.afterRft && p.handler, stepMark := stepping s cx.tm.asid && !p.handler }

/-- ILLEGAL_ENCODING (R46): cause 0x01 at the split that issues the word. -/
def execIllegalEncoding (w : BitVec 32) (s : State) : Out :=
  match issuing s with
  | none => .fault .noIssuingSplit
  | some cx => .next (raiseAt s cx.sid (cause 0x01 0 w.toNat (liveMask s cx.sp)))

/-! ### The merge after a group (R72) -/

/-- Whether two splits of one gang that issued together have equal signatures, and are one from the next instruction on (R72). -/
def mergeable (s : State) (a b : Split) : Bool := a.team == b.team && a.gang == b.gang && sameSignature s a b

/-- Two mergeable splits become one: at once where they stand alike; when the word has ended in each of them, where it has not; not
at all where they have taken different ways, which R70 would divide again (log entry 51, DEDUCED). -/
def mergePair (s : State) (x : Nat) (a : Split) (y : Nat) (b : Split) : State :=
  let alike := a.va == b.va && a.wait == b.wait
  let plain := fun (p : Split) => ({ p with wait := .none } : Split).settled
  if alike && plain a && plain b then mergeSplits s x a y b
  else if a.settled && b.settled then s
  else (s.modSplit x fun p => { p with joinTo := some x }).modSplit y fun p => { p with joinTo := some x }

/-- Merges one split of a group with those of it that stand before it. -/
def mergeInto (s : State) (sid : Nat) (before : List Nat) : State :=
  match find sid s.splits with
  | none => s
  | some b =>
    match before.findSome? fun x => (find x s.splits).bind fun a => if mergeable s a b then some (x, a) else none with
    | some (x, a) => mergePair s x a sid b
    | none => s

/-- The merge rule over a group, in order. -/
def mergeGroup (s : State) : List Nat → List Nat → State
  | _, [] => s
  | before, sid :: t => mergeGroup (mergeInto s sid before) (before ++ [sid]) t

end Sys2Proof.Machine
end

