-- ==== Sys2Proof/Machine/Power.lean ====
section
/-! DEFINITION. Reset domains, clocks and power (R22, R255, R289 to R291, R380 to R383). -/
namespace Sys2Proof.Machine

/-! ### The contexts an island reset ends (R380) -/

/-- Whether a context has a team, or a parked service, on an island. -/
def ctxOn (s : State) (site asid : Nat) : Bool :=
  (s.teams.any fun e => e.2.asid == asid && e.2.resident && e.2.site == site)
    || s.fe.svcs.any fun e => match e.2.kind with
      | .fault a t _ => a == asid && t == site
      | .fillRead a t .. => a == asid && t == site
      | _ => false

/-- Contexts a reset of an island ends; a fault reset ends also those that hold a descriptor for it. -/
def ctxsEnded (s : State) (site : Nat) (fault : Bool) : List Nat :=
  (s.ctxs.filter fun e => ctxOn s site e.1 || (fault && (find site e.2.descs).isSome)).map (·.1)

/-- The queue of the record: that of the root of a grid of the context with a team on the island, or of any grid of it, or
the lowest queue of the context. -/
def resetQueue (s : State) (site asid : Nat) : Option Nat :=
  let here := (s.teams.find? fun e => e.2.asid == asid && e.2.site == site).bind fun e => rootQueue s e.2.grid
  let any := (s.fe.grids.find? fun e => e.2.asid == asid).map (·.2.root)
  let own := (s.fe.queues.find? fun e => e.2.asid.toNat == asid).map (·.1)
  match here with
  | some q => some q
  | none => match any with | some q => some q | none => own

/-- Ends a context that is not ending yet with a record of KIND 5 (R326, R380). -/
def endForReset (s : State) (site asid : Nat) : State :=
  match find asid s.ctxs with
  | some c =>
    if c.ending then s
    else endContext s asid ((resetQueue s site asid).map fun q => (q, errRecord 0 0 5 0 site 0 0 0 0 0 0 0 c.pid.toNat))
  | none => s

/-! ### Packets an island was sending (R290) -/

/-- Takes a packet out of the queue of the link direction it waits on. -/
def unqueue (s : State) (p : PktSt) (pk : Nat) : State :=
  match p.onLink with
  | none => s
  | some (h, vc) =>
    let c := (s.link (linkKey p.site h)).chan vc
    let rest := c.queue.filter (· != pk)
    let left := if c.queue.head? = some pk then (match headPkt s { c with queue := rest } with | some q => pktFlits q.2.pkt | none => 0)
      else c.left
    s.setChan (linkKey p.site h) vc { c with queue := rest, left := left }

/-- Whether the first flits of a packet have crossed the link it waits on. -/
def begun (s : State) (pk : Nat) (p : PktSt) : Bool :=
  match p.onLink with
  | none => false
  | some (h, vc) =>
    let c := (s.link (linkKey p.site h)).chan vc
    (decide (c.queue.head? = some pk) && decide (c.left < pktFlits p.pkt))
      || (s.link (linkKey p.site h)).window.any fun f => f.pk == pk

/-- A packet of an island that enters reset, still at the island: one begun ends in a poisoned tail flit; of one not begun
the manual leaves open whether it counts as being sent, so that it goes whole, poisoned or not at all. Credit audits are the optical
engine's own, which goes on (R289). -/
def cutPacket (site : Nat) (s : State) (e : Nat × PktSt) : State :=
  let p := e.2
  if pktAudits p.pkt = true ∨ p.site ≠ site ∨ p.pkt.src ≠ site ∨ p.pkt.srcPanel ≠ s.fe.panel.toNat then s
  else
    let poisoned := { s with pkts := put e.1 { p with pkt := { p.pkt with poisoned := true } } s.pkts }
    if begun s e.1 p then poisoned
    else match pick s (15 * 2 ^ 64 + e.1) 3 with
      | 0 => s
      | 1 => poisoned
      | _ => dropPkt (unqueue s p e.1) e.1 p

/-! ### The reset of an island (Table 17.6) -/

/-- HBM4E of an island takes the bytes its L2 held dirty (ISL.RESET), or keeps its own (fault reset); then the L2 is
invalid. -/
def settleL2 (s : State) (site : Nat) (fault : Bool) : State :=
  let mine := s.stale.filter fun e => siteOf e.1 == site
  { s with mem := if fault then mine.foldl (fun m e => writeByte m e.1 e.2) s.mem else s.mem
           stale := s.stale.filter fun e => siteOf e.1 != site
           l2 := s.l2.filter fun e => decide (e.1 / 16 / 4096 / 32 ≠ site) }

/-- Vaults and counters of an island read 0 (R255, R291). -/
def clearVaults (s : State) (site : Nat) : State :=
  let keep := fun (a : Nat) => decide (siteOf a ≠ site) || decide (offOf a < 2 ^ 43)
  { s with mem := s.mem.filter fun e => keep e.1
           poison := s.poison.filter fun e => keep (128 * e.1)
           ctrs := s.ctrs.filter fun e => decide (e.1 / 4096 ≠ site) }

/-- IGEN counts a change of a site's bit of IMAP.LIVE to `live` in every other populated island; none counts where it stands so
already (R21, R22). -/
def bumpOthers (s : State) (site : Nat) (live : Bool) : State :=
  if s.live site == live then s else ((setBits 16 s.pres.toNat).filter (· != site)).foldl bumpGen s

/-- An island enters reset (R22, R290, R380) (log entry 42, DEDUCED). -/
def enterReset (s : State) (site : Nat) (fault : Bool) : State :=
  let s := (ctxsEnded s site fault).foldl (fun t a => endForReset t site a) s
  let s := { s with ops := s.ops.filter fun e => e.2.site != site, puts := s.puts.filter fun x => x.site != site }
  let s := s.pkts.foldl (cutPacket site) s
  let s := clearVaults (settleL2 s site fault) site
  let s := { s with cores := s.cores.filter fun e => decide (e.1 / 128 ≠ site) }
  let i := s.island site
  let fresh : Island :=
    { cmap0 := i.cmap0, cmap1 := i.cmap1, hdie := i.hdie, hdieFused := i.hdieFused, topo := i.topo, amps := i.amps, mhz := i.mhz
      mapouts := i.mapouts, underReset := true, live := false }
  (bumpOthers s site false).setIsland site fresh

/-- ISL_RESET (R380): argument [0] resets the optical engine die as well. -/
def execIslReset (site : Nat) (optical : Bool) (s : State) : Out :=
  command 0x90 "ISL_RESET" s <|
    if !s.populated site then .error 1
    else
      let s := enterReset s site false
      .ok (if optical then resetOptical s site else s, 0)

/-- BASE_DIE_FAULT_RESET (R380): an uncorrectable base-die fault. -/
def execBaseDieFaultReset (site : Nat) (s : State) : Out :=
  if s.populated site then .next (enterReset s site true) else .fault (.notEnabled "BASE_DIE_FAULT_RESET")

/-- ISLAND_RESET_EXIT (R22): the island serves again, and its cycle count starts at zero (R52). -/
def execIslandResetExit (site : Nat) (s : State) : Out :=
  if s.populated site && (s.island site).underReset then
    .next ((bumpOthers s site true).setIsland site { s.island site with underReset := false, live := true, cycle := 0 })
  else .fault (.notEnabled "ISLAND_RESET_EXIT")

/-! ### Power-on (R373, R380) -/

/-- POWER_ON (R380): everything is reset; the fuses stay, and so does what has left the panel. -/
def execPowerOn (s : State) : Out :=
  let r := State.reset
  let fused := fun (e : Nat × Island) =>
    (e.1, ({ cmap0 := e.2.cmap0, cmap1 := e.2.cmap1, hdie := e.2.hdie, hdieFused := e.2.hdieFused } : Island))
  let link := fun (e : Nat × Link) => (e.1, ({ lanes := e.2.fused, fused := e.2.fused } : Link))
  .next { r with
    tick := s.tick, inputs := s.inputs, pres := s.pres, islands := s.islands.map fused, links := s.links.map link
    extOut := s.extOut, rdmaOut := s.rdmaOut }

/-! ### Clocks and power (R381 to R383) -/

/-- CLOCK_THROTTLE (R381, R382): an island's controller sets its core clock, at most 2.0 GHz. Timing alone changes. -/
def execClockThrottle (site mhz : Nat) (s : State) : Out :=
  if s.populated site && decide (0 < mhz) && decide (mhz ≤ 2000) then
    .next (s.setIsland site { s.island site with mhz := mhz })
  else .fault (.notEnabled "CLOCK_THROTTLE")

/-- PWR_CAP (R383): a cap from 400 A to 1,250 A; the result value is the cap in force. -/
def execPwrCap (site amps : Nat) (s : State) : Out :=
  if !s.populated site then command 0x91 "PWR_CAP" s (.error 1)
  else if amps < 400 ∨ 1250 < amps then asCommand 0x91 "PWR_CAP" s (.next (endCommand s (s.island site).amps 2))
  else command 0x91 "PWR_CAP" s (.ok (s.setIsland site { s.island site with amps := amps }, amps))

end Sys2Proof.Machine
end

