-- ==== Sys2Proof/Machine/Scratch.lean ====
section
/-! DEFINITION. Scratchpad instructions LDS, STS, ATOMS and SPRZ (spec/08 sections 8.2, 8.3). -/
namespace Sys2Proof.Machine

/-- The unit of a lane at a team offset. -/
def LaneEnv.scratchUnit (le : LaneEnv) (a : BitVec 8) (bytes : Nat) : MUnit := le.unit (le.x a.toNat).toNat bytes

/-- Physical scratchpad addresses of a unit of a team. -/
def scratchAddrs (t : Team) (u : MUnit) : List Nat := span (t.scratchBase + u.va) u.bytes

/-- Cause 0x13 of units: TVAL holds the lowest byte at or beyond the size (R201) (log entry 25, DEDUCED). -/
def scratchFault (size : Nat) (us : List MUnit) : CauseRec :=
  cause 0x13 0 (((leastBy id (us.map fun u => Nat.max u.va size)).getD 0))
    (maskOf ((us.map fun u => setBits 64 u.mask).flatten))

/-- The checks of R201 and R205, in the order of R48, then the accesses. -/
def scratchAccess (s : State) (cx : Iss) (tok : Nat) (kind : AccKind) (us : List MUnit) (aop : BitVec 3) (sgn wide rel acq : Bool)
    (scope : Nat) : Except CauseRec State :=
  match us.filter fun u => decide (cx.tm.scratch < u.va + u.bytes) with
  | u :: t => .error (scratchFault cx.tm.scratch (u :: t))
  | [] =>
    match misaligned us with
    | u :: t => .error (unitCause 0x04 (u :: t))
    | [] => .ok (advanceHeld (postAccess s cx tok true kind (us.map fun u => u.acc (scratchAddrs cx.tm u)) false aop sgn wide
        rel acq scope) cx)

/-- LDS (R205). -/
def execLds (d a : BitVec 8) (t : BitVec 4) (z : BitVec 3) (s : State) : Out :=
  checked s (.lds d a t z) fun cx =>
    scratchAccess s cx t.toNat .load ((guardedLanes s cx.sp).map fun le =>
      { le.scratchUnit a (sizeBytes z) with
        dst := le.units d.toNat (sizeSlots z), conv := .extend (sizeSigned z) (4 * sizeSlots z) }) 0 false false false false 0

/-- STS (R205). -/
def execSts (d a : BitVec 8) (t : BitVec 4) (z : BitVec 3) (s : State) : Out :=
  checked s (.sts d a t z) fun cx =>
    scratchAccess s cx t.toNat .store ((guardedLanes s cx.sp).map fun le =>
      { le.scratchUnit a (sizeBytes z) with data := le.storeData d.toNat (sizeSlots z) (sizeBytes z) })
      0 false false false false 0

/-- ATOMS (R206): its scope is at most core. -/
def execAtoms (d a : BitVec 8) (t : BitVec 4) (o : BitVec 3) (sg w : Bool) (s : State) : Out :=
  checked s (.atoms d a t o sg w) fun cx =>
    let ord := modeORD cx.sp.mode
    scratchAccess s cx t.toNat .atom ((guardedLanes s cx.sp).map fun le => le.atomUnit d o w (le.x a.toNat).toNat)
      o sg w (orderRel ord) (orderAcq ord) (Nat.min (modeSCP cx.sp.mode) 1)

/-! ### SPRZ (R204) -/

/-- Whether some unit of the ways from `lo` up to `hi` is allotted to a team of the core. -/
def waysAllotted (s : State) (site core lo hi : Nat) : Bool :=
  s.teams.any fun e => e.2.resident && e.2.site == site && e.2.core == core && e.2.scratch != 0
    && decide (e.2.scratchBase < Config.wayBytes * hi) && decide (Config.wayBytes * lo < e.2.scratchBase + e.2.scratch)

/-- L1 falls to `m` ways: the lines of the leaving ways, freely chosen among those of each set, are written back and
invalidated. -/
def l1Shrink (s : State) (ck part ret m : Nat) : State :=
  (l1Lines s ck).foldl (fun t l =>
    let peers := (l1Lines t ck).filter fun x => l1Set x == l1Set l
    if m < peers.length || Config.choose s.tick (5 * 2 ^ 64 + l) % 2 == 0 then l1DropLine (l1CleanLine t ck part ret l) ck l else t) s

/-- The state after a request for `m` ways, and the status (R204). -/
def sprz (s : State) (site core part ret m : Nat) : State × Nat :=
  let ck := coreKey site core
  let n := (s.core ck).l1w.toNat
  if 32 < m then (s, 2)
  else if n < m then
    if waysAllotted s site core (32 - m) (32 - n) then (s, 1)
    else
      let c := s.core ck
      (s.setCore ck { c with l1w := BitVec.ofNat 6 m
                             scratch := c.scratch.filter fun e => decide (e.1 < Config.wayBytes * (32 - m))
                             sramPast := c.sramPast.filter fun e => decide (e.1 < Config.wayBytes * (32 - m)) }, 0)
  else if m < n then
    let s := l1Shrink s ck part ret m
    (s.setCore ck { s.core ck with l1w := BitVec.ofNat 6 m }, 0)
  else (s, 0)

/-- SPRZ (R204): the result is in place for the next instruction. -/
def execSprz (d a : BitVec 8) (s : State) : Out :=
  plain s (.sprz d a) fun cx =>
    let r := sprz s cx.tm.site cx.tm.core (partOf s cx.tm.asid) (retOf (modeEP cx.sp.mode)) (cx.g s a.toNat)
    let v := (r.1.core cx.ck).l1w.toNat * 256 + r.2
    advance (perSlice r.1 cx fun _ sl => sl.writeG cx.sp.handler 1 d.toNat v) cx

end Sys2Proof.Machine
end

