-- ==== Sys2Proof/Machine/Sfu.lean ====
section
/-! DEFINITION. The special functions FSQRT to FTANH (spec/07 section 7.6). The faithful ones are computed from bounds on
the exact value that are tight enough to name the two adjacent members; which of the two a part returns is free (log
entry 9). -/
namespace Sys2Proof.Machine

/-! ### Fixed-point bounds: numbers scaled by 2^w, each true value within `slack` units of the one computed -/

/-- Units by which a computed fixed-point value may differ from the true one. -/
def slack : Nat := 2 ^ 24

/-- Σ z^(2k+1) ÷ (2k+1) from term `t` = z^(2k+1) on, `z2` = z². -/
def atanhSum (w z2 : Nat) : (fuel k t : Nat) → Nat
  | 0, _, _ => 0
  | fuel + 1, k, t => if t = 0 then 0 else t / (2 * k + 1) + atanhSum w z2 fuel (k + 1) (t * z2 / 2 ^ w)
/-- ln of 1 ≤ n ÷ d < 2, scaled. -/
def lnFix (w n d : Nat) : Nat :=
  let z := (n - d) * 2 ^ w / (n + d)
  2 * atanhSum w (z * z / 2 ^ w) w 0 z
/-- ln 2, scaled. -/
def ln2Fix (w : Nat) : Nat := lnFix w (2 ^ (w + 1) - 1) (2 ^ w) + 1

/-- arctan(1 ÷ n), scaled: alternating series. -/
def atanInv (n : Nat) : (fuel k t : Nat) → Int
  | 0, _, _ => 0
  | fuel + 1, k, t =>
    if t = 0 then 0 else ((t / (2 * k + 1) : Nat) : Int) - atanInv n fuel (k + 1) (t / (n * n))
/-- π ÷ 2, scaled (Machin's formula). -/
def halfPi (w : Nat) : Nat :=
  (8 * atanInv 5 w 0 (2 ^ w / 5) - 2 * atanInv 239 w 0 (2 ^ w / 239)).toNat

/-- Σ y^k ÷ k! from term `t` on. -/
def expSum (w y : Nat) : (fuel k t : Nat) → Nat
  | 0, _, _ => 0
  | fuel + 1, k, t => if t = 0 then 0 else t + expSum w y fuel (k + 1) (t * y / (2 ^ w * (k + 1)))
/-- 2^f for 0 ≤ f < 1, scaled. -/
def exp2Fix (w f : Nat) : Nat := expSum w (f * ln2Fix w / 2 ^ w) w 0 (2 ^ w)

/-- Alternating or plain series Σ (±1)^k y^k ÷ ((k·2+a)!/a!), the common form of cos, sin÷x, cosh and sinh÷x in y = x². -/
def trigSum (w y a : Nat) (alt : Bool) : (fuel k t : Nat) → Int
  | 0, _, _ => 0
  | fuel + 1, k, t =>
    if t = 0 then 0
    else
      let r := trigSum w y a alt fuel (k + 1) (t * y / (2 ^ w * ((2 * k + a + 1) * (2 * k + a + 2))))
      (t : Int) + (if alt then -r else r)
/-- cos x and sin x ÷ x (or cosh, sinh ÷ x) from x² scaled. -/
def cosFix (w y : Nat) (alt : Bool) : Int := trigSum w y 0 alt w 0 (2 ^ w)
def sinrFix (w y : Nat) (alt : Bool) : Int := trigSum w y 1 alt w 0 (2 ^ w)

/-! ### The functions: sign, and bounds on the floor of the magnitude scaled by 2^−e -/

/-- A magnitude known by bounds on the floor of its value ÷ 2^e. -/
structure Bound where
  neg : Bool
  lo : Nat
  hi : Nat
  e : Int

/-- Bounds around a computed value, within what the function allows. -/
def around (neg : Bool) (v : Int) (lo hi : Nat) (e : Int) : Bound :=
  let a : Int := v - slack
  let b : Int := v + slack
  ⟨neg, if a < lo then lo else a.toNat, if hi < b then hi else b.toNat, e⟩

/-- Bounds of m × r × 2^e for a ratio r in (0, 1) known by bounds scaled by 2^w. -/
def timesRatio (neg : Bool) (m : Nat) (e : Int) (w : Nat) (r : Int) : Bound :=
  let a : Int := r - slack
  let b : Int := r + slack
  let lo := if a < 0 then 0 else a.toNat
  let hi := if (2 ^ w : Nat) < b then 2 ^ w else b.toNat
  ⟨neg, m * lo, m * hi - 1, e - w⟩

/-- x² of x = m × 2^e < 1, scaled. -/
def squareFix (w m : Nat) (e : Int) : Nat := shiftBy (m * m) (2 * e + w)

/-- 2^x for x that is no integer. -/
def exp2B (w : Nat) (neg : Bool) (m : Nat) (e : Int) : Bound :=
  -- floor and fraction of ±m × 2^e, e < 0
  let k : Int := (-e).toNat
  let fl := m / 2 ^ k.toNat
  let fr := m % 2 ^ k.toNat
  let n : Int := if neg then -(fl : Int) - 1 else fl
  let f := if neg then 2 ^ k.toNat - fr else fr
  around false (exp2Fix w (shiftBy f ((w : Int) - k))) (2 ^ w) (2 ^ (w + 1) - 1) (n - w)

/-- log2 of m × 2^e, no power of two. -/
def log2B (w m : Nat) (e : Int) : Bound :=
  let l := Nat.log2 m
  let frac : Nat := lnFix w m (2 ^ l) * 2 ^ w / ln2Fix w
  let v : Int := ((l : Int) + e) * (2 ^ w : Nat) + frac
  around (decide (v < 0)) v.natAbs 0 (2 ^ (w + 20)) (-w)

/-- Whether ±m × 2^e is below 1 in magnitude. -/
def below1 (m : Nat) (e : Int) : Bool := decide ((Nat.log2 m : Int) + e < 0)

/-- x reduced modulo π ÷ 2: the quadrant and the rest, scaled by 2^w. -/
def reduce (w m : Nat) (e : Int) : Nat × Nat :=
  let g := ((Nat.log2 m : Int) + e).toNat
  let x := shiftBy m (e + w + g)
  let h := halfPi (w + g)
  (x / h, x % h / 2 ^ g)

/-- sin of a reduced angle r, scaled. -/
def sinOf (w r : Nat) : Int := sinrFix w (r * r / 2 ^ w) true * r / (2 ^ w : Nat)
def cosOf (w r : Nat) : Int := cosFix w (r * r / 2 ^ w) true

/-- sin x. -/
def sinB (w : Nat) (neg : Bool) (m : Nat) (e : Int) : Bound :=
  if below1 m e then timesRatio neg m e w (sinrFix w (squareFix w m e) true)
  else
    let q := reduce w m e
    let v := if q.1 % 2 = 0 then sinOf w q.2 else cosOf w q.2
    around (xor neg (decide (2 ≤ q.1 % 4))) v 0 (2 ^ w - 1) (-w)
/-- cos x. -/
def cosB (w m : Nat) (e : Int) : Bound :=
  if below1 m e then around false (cosFix w (squareFix w m e) true) 0 (2 ^ w - 1) (-w)
  else
    let q := reduce w m e
    let v := if q.1 % 2 = 0 then cosOf w q.2 else sinOf w q.2
    around (q.1 % 4 == 1 || q.1 % 4 == 2) v 0 (2 ^ w - 1) (-w)
/-- tanh x. -/
def tanhB (w : Nat) (neg : Bool) (m : Nat) (e : Int) : Bound :=
  if below1 m e then
    let y := squareFix w m e
    timesRatio neg m e w (sinrFix w y false * (2 ^ w : Nat) / cosFix w y false)
  else if 12 < (Nat.log2 m : Int) + e then ⟨neg, 2 ^ w - 1, 2 ^ w - 1, -w⟩
  else
    let t := 2 * shiftBy m (e + w) * 2 ^ w / ln2Fix w
    let ex := exp2Fix w (t % 2 ^ w) * 2 ^ (t / 2 ^ w)
    around neg (((ex - 2 ^ w) * 2 ^ w / (ex + 2 ^ w) : Nat) : Int) 0 (2 ^ w - 1) (-w)

/-- Whether both bounds lie between the same two members of the value set. -/
def Bound.separated (x : Rnd) (b : Bound) : Bool :=
  let l := leadExp (2 * b.lo + 1) 1 (b.e - 1)
  let qu : Int := l - x.p + 1
  let qs : Int := eminOf x.eb - x.p + 1
  let q := if qu < qs then qs else qu
  (quanta b.lo 1 b.e q).1 == (quanta b.hi 1 b.e q).1

/-- The bounds as an exact value with a sticky part, from the first working precision that separates them. -/
def pickBound (x : Rnd) (f : Nat → Bound) : List Nat → XVal
  | [] => .num false 0 1 0
  | [w] => sticky (f w).neg (f w).lo false (f w).e
  | w :: t => if (f w).separated x then sticky (f w).neg (f w).lo false (f w).e else pickBound x f t

/-- Working precisions in bits. -/
def precisions : List Nat := [256, 1024, 4096]

/-! ### Special operands (Table 7.5) and results -/

/-- A function with its result for each kind of operand. -/
inductive Sfu where
  | sqrt | rcp | rsq | exp2 | log2 | sin | cos | tanh
  deriving DecidableEq, Repr

def Sfu.code : Sfu → Nat
  | .sqrt => 0 | .rcp => 1 | .rsq => 2 | .exp2 => 3 | .log2 => 4 | .sin => 5 | .cos => 6 | .tanh => 7

/-- Exact one. -/
def xOne (neg : Bool) : XVal := .num neg 1 1 0
def xZero (neg : Bool) : XVal := .num neg 0 1 0

/-- A finite nonzero power of two's exponent, when m is a power of two. -/
def isPow2 (m : Nat) : Bool := m == 2 ^ Nat.log2 m

/-- Exact value of a special function, with the flag DZ (R191, R192, Table 7.5). -/
def Sfu.value (fn : Sfu) (x : Rnd) : FVal → XVal × Bool
  | .nan sg => (.nan sg, false)
  | .inf n =>
    (match fn with
     | .sqrt => if n then .nan true else .inf false
     | .rcp => xZero n
     | .rsq => if n then .nan true else xZero false
     | .exp2 => if n then xZero false else .inf false
     | .log2 => if n then .nan true else .inf false
     | .sin | .cos => .nan true
     | .tanh => xOne n, false)
  | .fin n m e =>
    if m = 0 then
      match fn with
      | .sqrt | .sin | .tanh => (xZero n, false)
      | .rcp | .rsq => (.inf n, true)
      | .exp2 | .cos => (xOne false, false)
      | .log2 => (.inf true, true)
    else
      (match fn with
       | .sqrt => if n then .nan true else sqrtX m e
       | .rcp => .num n 1 m (-e)
       | .rsq => if n then .nan true else rsqrtX m e
       | .exp2 =>
         if 15 ≤ (Nat.log2 m : Int) + e then
           .num false 1 1 (if n then eminOf x.eb - x.p - 4 else emaxOf x.eb + 4)
         else if (quanta m 1 e 0).2.1 = 0 then
           .num false 1 1 (if n then -((quanta m 1 e 0).1 : Int) else (quanta m 1 e 0).1)
         else pickBound x (fun w => exp2B w n m e) precisions
       | .log2 =>
         if n then .nan true
         else if isPow2 m then
           let k : Int := (Nat.log2 m : Int) + e
           .num (decide (k < 0)) k.natAbs 1 0
         else pickBound x (fun w => log2B w m e) precisions
       | .sin => pickBound x (fun w => sinB w n m e) precisions
       | .cos => pickBound x (fun w => cosB w m e) precisions
       | .tanh => pickBound x (fun w => tanhB w n m e) precisions, false)

/-- The result of a special function in a lane (R191). -/
def Sfu.result (fn : Sfu) (le : LaneEnv) (a : Nat) : FRes :=
  let x := le.rnd
  let v := fn.value x (le.f a)
  let r := if fn = .sqrt then roundX x v.1
    else faithfulX x (Config.faithfulUp fn.code le.cls (le.fraw a) le.lane.prec.toNat) v.1
  if v.2 then { r with flags := r.flags + fDZ } else r

/-- A special function word: subcause 3 first (R191), then R178; a word with that check may fault (R328). -/
def sfuWord (s : State) (i : Instr) (fn : Sfu) (d a : BitVec 8) (t : BitVec 4) : Out :=
  checked s i fun cx =>
    match (guardedLanes s cx.sp).filter fun le => fn != .sqrt && decide (24 < precP le.lane.prec) with
    | l :: r => .error (cause 0x0D 3 fn.code (laneMask (l :: r)))
    | [] =>
      let r := fpPost s cx t.toNat d.toNat fun le => fn.result le a.toNat
      .ok (if fn = .sqrt then r else settleSplit r cx)

/-- FSQRT (R191). -/
def execFsqrt (d a : BitVec 8) (t : BitVec 4) (s : State) : Out := sfuWord s (.fsqrt d a t) .sqrt d a t
/-- FRCP (R191). -/
def execFrcp (d a : BitVec 8) (t : BitVec 4) (s : State) : Out := sfuWord s (.frcp d a t) .rcp d a t
/-- FRSQ (R191). -/
def execFrsq (d a : BitVec 8) (t : BitVec 4) (s : State) : Out := sfuWord s (.frsq d a t) .rsq d a t
/-- FEXP2 (R191). -/
def execFexp2 (d a : BitVec 8) (t : BitVec 4) (s : State) : Out := sfuWord s (.fexp2 d a t) .exp2 d a t
/-- FLOG2 (R191). -/
def execFlog2 (d a : BitVec 8) (t : BitVec 4) (s : State) : Out := sfuWord s (.flog2 d a t) .log2 d a t
/-- FSIN (R191). -/
def execFsin (d a : BitVec 8) (t : BitVec 4) (s : State) : Out := sfuWord s (.fsin d a t) .sin d a t
/-- FCOS (R191). -/
def execFcos (d a : BitVec 8) (t : BitVec 4) (s : State) : Out := sfuWord s (.fcos d a t) .cos d a t
/-- FTANH (R191). -/
def execFtanh (d a : BitVec 8) (t : BitVec 4) (s : State) : Out := sfuWord s (.ftanh d a t) .tanh d a t

end Sys2Proof.Machine
end

