-- ==== Sys2Proof/Machine/Dispatch.lean ====
section
/-! DEFINITION. The dispatch: one arm per constructor of Instr. -/
namespace Sys2Proof.Machine

/-- The outcome of one step of the part (the rule of each constructor is in Syntax.lean). -/
def exec (i : Instr) (s : State) : Host.Outcome State Fault Refusal :=
  match i with
  | .add v0 v1 v2 v3 => Sys2Proof.Machine.execAdd v0 v1 v2 v3 s
  | .sub v0 v1 v2 v3 => Sys2Proof.Machine.execSub v0 v1 v2 v3 s
  | .mul v0 v1 v2 v3 => Sys2Proof.Machine.execMul v0 v1 v2 v3 s
  | .mulh v0 v1 v2 v3 => Sys2Proof.Machine.execMulh v0 v1 v2 v3 s
  | .mad v0 v1 v2 v3 => Sys2Proof.Machine.execMad v0 v1 v2 v3 s
  | .min v0 v1 v2 v3 => Sys2Proof.Machine.execMin v0 v1 v2 v3 s
  | .max v0 v1 v2 v3 => Sys2Proof.Machine.execMax v0 v1 v2 v3 s
  | .and v0 v1 v2 v3 => Sys2Proof.Machine.execAnd v0 v1 v2 v3 s
  | .or v0 v1 v2 v3 => Sys2Proof.Machine.execOr v0 v1 v2 v3 s
  | .xor v0 v1 v2 v3 => Sys2Proof.Machine.execXor v0 v1 v2 v3 s
  | .andn v0 v1 v2 v3 => Sys2Proof.Machine.execAndn v0 v1 v2 v3 s
  | .shl v0 v1 v2 v3 => Sys2Proof.Machine.execShl v0 v1 v2 v3 s
  | .shr v0 v1 v2 v3 => Sys2Proof.Machine.execShr v0 v1 v2 v3 s
  | .rot v0 v1 v2 v3 => Sys2Proof.Machine.execRot v0 v1 v2 v3 s
  | .absd v0 v1 v2 v3 => Sys2Proof.Machine.execAbsd v0 v1 v2 v3 s
  | .div v0 v1 v2 v3 => Sys2Proof.Machine.execDiv v0 v1 v2 v3 s
  | .rem v0 v1 v2 v3 => Sys2Proof.Machine.execRem v0 v1 v2 v3 s
  | .prmb v0 v1 v2 => Sys2Proof.Machine.execPrmb v0 v1 v2 s
  | .bfx v0 v1 v2 v3 => Sys2Proof.Machine.execBfx v0 v1 v2 v3 s
  | .bfi v0 v1 v2 v3 => Sys2Proof.Machine.execBfi v0 v1 v2 v3 s
  | .sel v0 v1 v2 => Sys2Proof.Machine.execSel v0 v1 v2 s
  | .clz v0 v1 v2 => Sys2Proof.Machine.execClz v0 v1 v2 s
  | .ctz v0 v1 v2 => Sys2Proof.Machine.execCtz v0 v1 v2 s
  | .popc v0 v1 v2 => Sys2Proof.Machine.execPopc v0 v1 v2 s
  | .brev v0 v1 v2 => Sys2Proof.Machine.execBrev v0 v1 v2 s
  | .not v0 v1 v2 => Sys2Proof.Machine.execNot v0 v1 v2 s
  | .neg v0 v1 v2 => Sys2Proof.Machine.execNeg v0 v1 v2 s
  | .abs v0 v1 v2 => Sys2Proof.Machine.execAbs v0 v1 v2 s
  | .sex8 v0 v1 v2 => Sys2Proof.Machine.execSex8 v0 v1 v2 s
  | .sex16 v0 v1 v2 => Sys2Proof.Machine.execSex16 v0 v1 v2 s
  | .movg v0 v1 v2 => Sys2Proof.Machine.execMovg v0 v1 v2 s
  | .movl v0 v1 v2 v3 => Sys2Proof.Machine.execMovl v0 v1 v2 v3 s
  | .addi v0 v1 v2 => Sys2Proof.Machine.execAddi v0 v1 v2 s
  | .andi v0 v1 v2 => Sys2Proof.Machine.execAndi v0 v1 v2 s
  | .ori v0 v1 v2 => Sys2Proof.Machine.execOri v0 v1 v2 s
  | .xori v0 v1 v2 => Sys2Proof.Machine.execXori v0 v1 v2 s
  | .shli v0 v1 v2 => Sys2Proof.Machine.execShli v0 v1 v2 s
  | .shri v0 v1 v2 => Sys2Proof.Machine.execShri v0 v1 v2 s
  | .roti v0 v1 v2 => Sys2Proof.Machine.execRoti v0 v1 v2 s
  | .muli v0 v1 v2 => Sys2Proof.Machine.execMuli v0 v1 v2 s
  | .gaddi v0 v1 v2 => Sys2Proof.Machine.execGaddi v0 v1 v2 s
  | .ldh v0 v1 => Sys2Proof.Machine.execLdh v0 v1 s
  | .ldl v0 v1 => Sys2Proof.Machine.execLdl v0 v1 s
  | .ldhg v0 v1 => Sys2Proof.Machine.execLdhg v0 v1 s
  | .ldlg v0 v1 => Sys2Proof.Machine.execLdlg v0 v1 s
  | .icmp v0 v1 v2 v3 => Sys2Proof.Machine.execIcmp v0 v1 v2 v3 s
  | .icmpi v0 v1 v2 v3 => Sys2Proof.Machine.execIcmpi v0 v1 v2 v3 s
  | .plog v0 v1 v2 v3 => Sys2Proof.Machine.execPlog v0 v1 v2 v3 s
  | .pmovP2x v0 => Sys2Proof.Machine.execPmovP2x v0 s
  | .pmovX2p v0 => Sys2Proof.Machine.execPmovX2p v0 s
  | .pmovMov v0 v1 => Sys2Proof.Machine.execPmovMov v0 v1 s
  | .pmovNot v0 v1 => Sys2Proof.Machine.execPmovNot v0 v1 s
  | .pmovSet v0 v1 => Sys2Proof.Machine.execPmovSet v0 v1 s
  | .pmovLsb v0 v1 => Sys2Proof.Machine.execPmovLsb v0 v1 s
  | .setm v0 => Sys2Proof.Machine.execSetm v0 s
  | .setmField v0 v1 => Sys2Proof.Machine.execSetmField v0 v1 s
  | .getm v0 => Sys2Proof.Machine.execGetm v0 s
  | .prset v0 => Sys2Proof.Machine.execPrset v0 s
  | .prsetField v0 v1 => Sys2Proof.Machine.execPrsetField v0 v1 s
  | .prget v0 => Sys2Proof.Machine.execPrget v0 s
  | .mfs v0 v1 v2 => Sys2Proof.Machine.execMfs v0 v1 v2 s
  | .mts v0 v1 v2 => Sys2Proof.Machine.execMts v0 v1 v2 s
  | .dly v0 => Sys2Proof.Machine.execDly v0 s
  | .vpah v0 v1 v2 => Sys2Proof.Machine.execVpah v0 v1 v2 s
  | .br v0 => Sys2Proof.Machine.execBr v0 s
  | .call v0 v1 => Sys2Proof.Machine.execCall v0 v1 s
  | .callr v0 v1 => Sys2Proof.Machine.execCallr v0 v1 s
  | .ret => Sys2Proof.Machine.execRet s
  | .brf v0 v1 v2 => Sys2Proof.Machine.execBrf v0 v1 v2 s
  | .bre v0 => Sys2Proof.Machine.execBre v0 s
  | .join => Sys2Proof.Machine.execJoin s
  | .brb v0 v1 v2 => Sys2Proof.Machine.execBrb v0 v1 v2 s
  | .brg v0 v1 v2 => Sys2Proof.Machine.execBrg v0 v1 v2 s
  | .brx v0 v1 => Sys2Proof.Machine.execBrx v0 v1 s
  | .joinx => Sys2Proof.Machine.execJoinx s
  | .rgang => Sys2Proof.Machine.execRgang s
  | .exit => Sys2Proof.Machine.execExit s
  | .trap v0 => Sys2Proof.Machine.execTrap v0 s
  | .rftAgain => Sys2Proof.Machine.execRftAgain s
  | .rftNext => Sys2Proof.Machine.execRftNext s
  | .brk v0 => Sys2Proof.Machine.execBrk v0 s
  | .gwid v0 => Sys2Proof.Machine.execGwid v0 s
  | .vote v0 v1 v2 => Sys2Proof.Machine.execVote v0 v1 v2 s
  | .ballot v0 v1 => Sys2Proof.Machine.execBallot v0 v1 s
  | .shfl v0 v1 v2 => Sys2Proof.Machine.execShfl v0 v1 v2 s
  | .shflImm v0 v1 v2 => Sys2Proof.Machine.execShflImm v0 v1 v2 s
  | .shfx v0 v1 v2 v3 => Sys2Proof.Machine.execShfx v0 v1 v2 v3 s
  | .rsort v0 v1 v2 => Sys2Proof.Machine.execRsort v0 v1 v2 s
  | .wait v0 v1 => Sys2Proof.Machine.execWait v0 v1 s
  | .tksRd v0 v1 => Sys2Proof.Machine.execTksRd v0 v1 s
  | .tksDrain => Sys2Proof.Machine.execTksDrain s
  | .tksRs v0 v1 => Sys2Proof.Machine.execTksRs v0 v1 s
  | .bsync v0 v1 => Sys2Proof.Machine.execBsync v0 v1 s
  | .bari v0 v1 => Sys2Proof.Machine.execBari v0 v1 s
  | .bara v0 v1 => Sys2Proof.Machine.execBara v0 v1 s
  | .barw v0 v1 => Sys2Proof.Machine.execBarw v0 v1 s
  | .mwait v0 v1 => Sys2Proof.Machine.execMwait v0 v1 s
  | .launch v0 v1 => Sys2Proof.Machine.execLaunch v0 v1 s
  | .lwait => Sys2Proof.Machine.execLwait s
  | .lpb v0 => Sys2Proof.Machine.execLpb v0 s
  | .ldg v0 v1 v2 v3 v4 => Sys2Proof.Machine.execLdg v0 v1 v2 v3 v4 s
  | .stg v0 v1 v2 v3 => Sys2Proof.Machine.execStg v0 v1 v2 v3 s
  | .lds v0 v1 v2 v3 => Sys2Proof.Machine.execLds v0 v1 v2 v3 s
  | .sts v0 v1 v2 v3 => Sys2Proof.Machine.execSts v0 v1 v2 v3 s
  | .ldf v0 v1 v2 v3 => Sys2Proof.Machine.execLdf v0 v1 v2 v3 s
  | .stf v0 v1 v2 => Sys2Proof.Machine.execStf v0 v1 v2 s
  | .ldp v0 v1 v2 v3 v4 => Sys2Proof.Machine.execLdp v0 v1 v2 v3 v4 s
  | .stp v0 v1 v2 v3 => Sys2Proof.Machine.execStp v0 v1 v2 v3 s
  | .ldgg v0 v1 v2 v3 v4 => Sys2Proof.Machine.execLdgg v0 v1 v2 v3 v4 s
  | .stgg v0 v1 v2 v3 => Sys2Proof.Machine.execStgg v0 v1 v2 v3 s
  | .atom v0 v1 v2 v3 v4 v5 => Sys2Proof.Machine.execAtom v0 v1 v2 v3 v4 v5 s
  | .atoms v0 v1 v2 v3 v4 v5 => Sys2Proof.Machine.execAtoms v0 v1 v2 v3 v4 v5 s
  | .fence v0 v1 v2 => Sys2Proof.Machine.execFence v0 v1 v2 s
  | .cmo v0 v1 v2 v3 v4 => Sys2Proof.Machine.execCmo v0 v1 v2 v3 v4 s
  | .pref v0 v1 => Sys2Proof.Machine.execPref v0 v1 s
  | .sprz v0 v1 => Sys2Proof.Machine.execSprz v0 v1 s
  | .tcopyLd v0 v1 v2 => Sys2Proof.Machine.execTcopyLd v0 v1 v2 s
  | .tcopySt v0 v1 v2 => Sys2Proof.Machine.execTcopySt v0 v1 v2 s
  | .lrfence => Sys2Proof.Machine.execLrfence s
  | .mma v0 v1 v2 v3 v4 => Sys2Proof.Machine.execMma v0 v1 v2 v3 v4 s
  | .mmag v0 v1 v2 v3 v4 => Sys2Proof.Machine.execMmag v0 v1 v2 v3 v4 s
  | .mmas v0 v1 v2 v3 v4 => Sys2Proof.Machine.execMmas v0 v1 v2 v3 v4 s
  | .accz v0 v1 => Sys2Proof.Machine.execAccz v0 v1 s
  | .accrd v0 v1 v2 => Sys2Proof.Machine.execAccrd v0 v1 v2 s
  | .accwr v0 v1 v2 => Sys2Proof.Machine.execAccwr v0 v1 v2 s
  | .accst v0 v1 => Sys2Proof.Machine.execAccst v0 v1 s
  | .rput v0 v1 v2 => Sys2Proof.Machine.execRput v0 v1 v2 s
  | .rget v0 v1 v2 => Sys2Proof.Machine.execRget v0 v1 v2 s
  | .ratom v0 v1 v2 v3 v4 v5 => Sys2Proof.Machine.execRatom v0 v1 v2 v3 v4 v5 s
  | .rfence => Sys2Proof.Machine.execRfence s
  | .nwait v0 v1 => Sys2Proof.Machine.execNwait v0 v1 s
  | .nadd v0 v1 => Sys2Proof.Machine.execNadd v0 v1 s
  | .fadd v0 v1 v2 => Sys2Proof.Machine.execFadd v0 v1 v2 s
  | .fsub v0 v1 v2 => Sys2Proof.Machine.execFsub v0 v1 v2 s
  | .fmul v0 v1 v2 => Sys2Proof.Machine.execFmul v0 v1 v2 s
  | .fdiv v0 v1 v2 => Sys2Proof.Machine.execFdiv v0 v1 v2 s
  | .fmin v0 v1 v2 => Sys2Proof.Machine.execFmin v0 v1 v2 s
  | .fmax v0 v1 v2 => Sys2Proof.Machine.execFmax v0 v1 v2 s
  | .fcpys v0 v1 v2 => Sys2Proof.Machine.execFcpys v0 v1 v2 s
  | .fma v0 v1 v2 => Sys2Proof.Machine.execFma v0 v1 v2 s
  | .fms v0 v1 v2 => Sys2Proof.Machine.execFms v0 v1 v2 s
  | .fnma v0 v1 v2 => Sys2Proof.Machine.execFnma v0 v1 v2 s
  | .fcmp v0 v1 v2 v3 => Sys2Proof.Machine.execFcmp v0 v1 v2 v3 s
  | .fabs v0 v1 => Sys2Proof.Machine.execFabs v0 v1 s
  | .fneg v0 v1 => Sys2Proof.Machine.execFneg v0 v1 s
  | .fmov v0 v1 => Sys2Proof.Machine.execFmov v0 v1 s
  | .fclass v0 v1 => Sys2Proof.Machine.execFclass v0 v1 s
  | .frnd v0 v1 v2 => Sys2Proof.Machine.execFrnd v0 v1 v2 s
  | .fexpo v0 v1 => Sys2Proof.Machine.execFexpo v0 v1 s
  | .fsqrt v0 v1 v2 => Sys2Proof.Machine.execFsqrt v0 v1 v2 s
  | .frcp v0 v1 v2 => Sys2Proof.Machine.execFrcp v0 v1 v2 s
  | .frsq v0 v1 v2 => Sys2Proof.Machine.execFrsq v0 v1 v2 s
  | .fexp2 v0 v1 v2 => Sys2Proof.Machine.execFexp2 v0 v1 v2 s
  | .flog2 v0 v1 v2 => Sys2Proof.Machine.execFlog2 v0 v1 v2 s
  | .fsin v0 v1 v2 => Sys2Proof.Machine.execFsin v0 v1 v2 s
  | .fcos v0 v1 v2 => Sys2Proof.Machine.execFcos v0 v1 v2 s
  | .ftanh v0 v1 v2 => Sys2Proof.Machine.execFtanh v0 v1 v2 s
  | .fcvtCls v0 v1 v2 => Sys2Proof.Machine.execFcvtCls v0 v1 v2 s
  | .fcvtF2s32 v0 v1 => Sys2Proof.Machine.execFcvtF2s32 v0 v1 s
  | .fcvtF2n32 v0 v1 => Sys2Proof.Machine.execFcvtF2n32 v0 v1 s
  | .fcvtF2s64 v0 v1 => Sys2Proof.Machine.execFcvtF2s64 v0 v1 s
  | .fcvtF2n64 v0 v1 => Sys2Proof.Machine.execFcvtF2n64 v0 v1 s
  | .fcvtS32f v0 v1 => Sys2Proof.Machine.execFcvtS32f v0 v1 s
  | .fcvtN32f v0 v1 => Sys2Proof.Machine.execFcvtN32f v0 v1 s
  | .fcvtS64f v0 v1 => Sys2Proof.Machine.execFcvtS64f v0 v1 s
  | .fcvtN64f v0 v1 => Sys2Proof.Machine.execFcvtN64f v0 v1 s
  | .fcvtF2ce v0 v1 => Sys2Proof.Machine.execFcvtF2ce v0 v1 s
  | .fcvtCef v0 v1 => Sys2Proof.Machine.execFcvtCef v0 v1 s
  | .frsp v0 v1 => Sys2Proof.Machine.execFrsp v0 v1 s
  | .illegalEncoding v0 => Sys2Proof.Machine.execIllegalEncoding v0 s
  | .issueGroup v0 => Sys2Proof.Machine.execIssueGroup v0 s
  | .pageWalk v0 => Sys2Proof.Machine.execPageWalk v0 s
  | .faultService v0 => Sys2Proof.Machine.execFaultService v0 s
  | .translationReplay v0 => Sys2Proof.Machine.execTranslationReplay v0 s
  | .instructionFetch v0 v1 => Sys2Proof.Machine.execInstructionFetch v0 v1 s
  | .operationComplete v0 => Sys2Proof.Machine.execOperationComplete v0 s
  | .mwaitWake v0 => Sys2Proof.Machine.execMwaitWake v0 s
  | .monitorTimeout v0 => Sys2Proof.Machine.execMonitorTimeout v0 s
  | .tcopyAccept v0 => Sys2Proof.Machine.execTcopyAccept v0 s
  | .tcopyComplete v0 => Sys2Proof.Machine.execTcopyComplete v0 s
  | .matrixAccept v0 => Sys2Proof.Machine.execMatrixAccept v0 s
  | .matrixComplete v0 => Sys2Proof.Machine.execMatrixComplete v0 s
  | .hbmRefresh v0 v1 v2 v3 => Sys2Proof.Machine.execHbmRefresh v0 v1 v2 v3 s
  | .layerMapOut v0 v1 => Sys2Proof.Machine.execLayerMapOut v0 v1 s
  | .mapoutCopy v0 v1 => Sys2Proof.Machine.execMapoutCopy v0 v1 s
  | .mapoutCommit v0 v1 => Sys2Proof.Machine.execMapoutCommit v0 v1 s
  | .flitReceive v0 v1 v2 => Sys2Proof.Machine.execFlitReceive v0 v1 v2 s
  | .linkRetrain v0 v1 => Sys2Proof.Machine.execLinkRetrain v0 v1 s
  | .creditAuditSend v0 => Sys2Proof.Machine.execCreditAuditSend v0 s
  | .creditAuditRequest v0 v1 => Sys2Proof.Machine.execCreditAuditRequest v0 v1 s
  | .creditAuditReceive v0 => Sys2Proof.Machine.execCreditAuditReceive v0 s
  | .packetForward v0 => Sys2Proof.Machine.execPacketForward v0 s
  | .remoteRequestArrive v0 => Sys2Proof.Machine.execRemoteRequestArrive v0 s
  | .remoteResponseArrive v0 => Sys2Proof.Machine.execRemoteResponseArrive v0 s
  | .remoteTimeout v0 => Sys2Proof.Machine.execRemoteTimeout v0 s
  | .baseDieFaultReset v0 => Sys2Proof.Machine.execBaseDieFaultReset v0 s
  | .islandResetExit v0 => Sys2Proof.Machine.execIslandResetExit v0 s
  | .opticalEngineReset v0 => Sys2Proof.Machine.execOpticalEngineReset v0 s
  | .powerOn => Sys2Proof.Machine.execPowerOn s
  | .preemptRequest v0 => Sys2Proof.Machine.execPreemptRequest v0 s
  | .handlerTimeLimit v0 => Sys2Proof.Machine.execHandlerTimeLimit v0 s
  | .preemptSave v0 => Sys2Proof.Machine.execPreemptSave v0 s
  | .teamResume v0 => Sys2Proof.Machine.execTeamResume v0 s
  | .timeSliceExpiry v0 => Sys2Proof.Machine.execTimeSliceExpiry v0 s
  | .hostRdmaWrite v0 v1 v2 => Sys2Proof.Machine.execHostRdmaWrite v0 v1 v2 s
  | .rdmaRead v0 v1 v2 => Sys2Proof.Machine.execRdmaRead v0 v1 v2 s
  | .rdmaRefused v0 => Sys2Proof.Machine.execRdmaRefused v0 s
  | .connectionEstablish v0 => Sys2Proof.Machine.execConnectionEstablish v0 s
  | .packetDispatch => Sys2Proof.Machine.execPacketDispatch s
  | .levelDue v0 => Sys2Proof.Machine.execLevelDue v0 s
  | .nopPacket v0 => Sys2Proof.Machine.execNopPacket v0 s
  | .launchPacket v0 => Sys2Proof.Machine.execLaunchPacket v0 s
  | .waitn v0 => Sys2Proof.Machine.execWaitn v0 s
  | .waitnComplete v0 => Sys2Proof.Machine.execWaitnComplete v0 s
  | .signal v0 => Sys2Proof.Machine.execSignal v0 s
  | .marker v0 => Sys2Proof.Machine.execMarker v0 s
  | .launchRun v0 => Sys2Proof.Machine.execLaunchRun v0 s
  | .prologueRepeat v0 => Sys2Proof.Machine.execPrologueRepeat v0 s
  | .teamPlacement v0 v1 => Sys2Proof.Machine.execTeamPlacement v0 v1 s
  | .shootdownAck v0 => Sys2Proof.Machine.execShootdownAck v0 s
  | .eventRepost v0 => Sys2Proof.Machine.execEventRepost v0 s
  | .firmwareTakeover => Sys2Proof.Machine.execFirmwareTakeover s
  | .firmwareWatchdog => Sys2Proof.Machine.execFirmwareWatchdog s
  | .clockThrottle v0 v1 => Sys2Proof.Machine.execClockThrottle v0 v1 s
  | .ctxNew v0 => Sys2Proof.Machine.execCtxNew v0 s
  | .ctxEnd v0 => Sys2Proof.Machine.execCtxEnd v0 s
  | .ctxSlice v0 => Sys2Proof.Machine.execCtxSlice v0 s
  | .evtPanel v0 => Sys2Proof.Machine.execEvtPanel v0 s
  | .xlDesc v0 v1 v2 => Sys2Proof.Machine.execXlDesc v0 v1 v2 s
  | .xlWrite v0 v1 => Sys2Proof.Machine.execXlWrite v0 v1 s
  | .xlInval v0 v1 v2 v3 => Sys2Proof.Machine.execXlInval v0 v1 v2 v3 s
  | .xlResolve v0 v1 => Sys2Proof.Machine.execXlResolve v0 v1 s
  | .xlFill v0 v1 => Sys2Proof.Machine.execXlFill v0 v1 s
  | .pool v0 v1 v2 => Sys2Proof.Machine.execPool v0 v1 v2 s
  | .savePlace v0 v1 => Sys2Proof.Machine.execSavePlace v0 v1 s
  | .mapoutAck v0 => Sys2Proof.Machine.execMapoutAck v0 s
  | .qState v0 v1 => Sys2Proof.Machine.execQState v0 v1 s
  | .gState v0 v1 => Sys2Proof.Machine.execGState v0 v1 s
  | .l2Mask v0 v1 v2 => Sys2Proof.Machine.execL2Mask v0 v1 v2 s
  | .l2Occ v0 v1 v2 => Sys2Proof.Machine.execL2Occ v0 v1 v2 s
  | .topo v0 v1 v2 => Sys2Proof.Machine.execTopo v0 v1 v2 s
  | .panelNum v0 => Sys2Proof.Machine.execPanelNum v0 s
  | .fwUpdate v0 => Sys2Proof.Machine.execFwUpdate v0 s
  | .fwAttest v0 v1 v2 v3 => Sys2Proof.Machine.execFwAttest v0 v1 v2 v3 s
  | .dbgSet v0 v1 => Sys2Proof.Machine.execDbgSet v0 v1 s
  | .islReset v0 v1 => Sys2Proof.Machine.execIslReset v0 v1 s
  | .pwrCap v0 v1 => Sys2Proof.Machine.execPwrCap v0 v1 s
  | .reservedCommand v0 => Sys2Proof.Machine.execReservedCommand v0 s
  | .debuggerHaltRequest v0 => Sys2Proof.Machine.execDebuggerHaltRequest v0 s
  | .debuggerResume v0 v1 => Sys2Proof.Machine.execDebuggerResume v0 v1 s
  | .uncorrectableError v0 => Sys2Proof.Machine.execUncorrectableError v0 s
  | .linkRetrainUp v0 v1 => Sys2Proof.Machine.execLinkRetrainUp v0 v1 s
  | .connectionLoss v0 => Sys2Proof.Machine.execConnectionLoss v0 s
  | .creditSoftError v0 v1 v2 => Sys2Proof.Machine.execCreditSoftError v0 v1 v2 s
  | .fillReadResponse v0 v1 => Sys2Proof.Machine.execFillReadResponse v0 v1 s

end Sys2Proof.Machine
end

