-- ==== Sys2Proof/Machine/Cycle.lean ====
section
/-! DEFINITION. How steps follow one another (spec/95; log entries 1 and 2, DESIGN CHOICE): the splits of an issue group issue first, then
contexts that have drained are freed, then the next external event lands, or one of the part's own events happens. -/
namespace Sys2Proof.Machine

/-! ### The issue group in progress (R67, R69) -/

/-- Split `sid` leaves the group's list, as issued or not; with the last of them the group ends in its merge (R72). -/
def leaveGroup (s : State) (sid : Nat) (issued : Bool) : State :=
  match s.turn with
  | .idle => s
  | .issue ck todo done =>
    let todo := todo.filter (· != sid)
    let done := if issued then done ++ [sid] else done
    if todo.isEmpty then { mergeGroup s [] done with turn := .idle } else { s with turn := .issue ck todo done }

/-- The state after a step of the group, from the outcome of its word. -/
def afterIssue (sid : Nat) : Out → Out
  | .next t => .next (leaveGroup { t with cur := none } sid true)
  | .fault r => .fault r
  | .refused r => .refused r

/-- The state after a fetch: a split that still stands at its PC with the word at hand issues next; another leaves. -/
def afterFetch (cx : Iss) : Out → Out
  | .next t => .next (match issuing { t with cur := some cx.sid } with
      | some c => if c.sp.pc = cx.sp.pc ∧ unhindered c ∧ (fetched t c.tm c.sp).isSome then t else leaveGroup t cx.sid false
      | none => leaveGroup t cx.sid false)
  | .fault r => .fault r
  | .refused r => .refused r

/-- The word at `pa` issues at the split of `cx`: what it decodes to runs, or the word is illegal (R46); a word that would
take a count past 255 stays (R112). -/
def issueWord (s : State) (cx : Iss) (pa : Nat) : Out :=
  let f := fetchWord s cx.ck (partOf s cx.tm.asid) cx.ret pa
  let t := { markIssue f.2 cx with cur := some cx.sid }
  match decode f.1 with
  | .error _ => afterIssue cx.sid (exec (.illegalEncoding f.1) t)
  | .ok i => if holdsBack s cx i then .next (leaveGroup s cx.sid false) else afterIssue cx.sid (exec i (noteReads t cx i))

/-- A word that has issued does so again for the lanes whose checks had not passed: not fetched again, and with the free choices of
its issue, so that its operands are those it read then (R276; log entry 80, DEDUCED). -/
def reissue (s : State) (cx : Iss) (h : Held) : Out :=
  let t := { markIssue s cx with cur := some cx.sid, tick := h.step }
  match afterIssue cx.sid (exec h.instr (noteReads t cx h.instr)) with
  | .next u => .next { noteShot cx.sid (fun o => decide (s.nextOp ≤ o)) u with tick := s.tick }
  | .fault r => .fault r
  | .refused r => .refused r

/-- One split of a group issues. -/
def issueOne (s : State) (ck sid : Nat) : Out :=
  match issuing { s with cur := some sid } with
  | none => .next (leaveGroup s sid false)
  | some cx =>
    if !unhindered cx then .next (leaveGroup s sid false)
    else
      match cx.sp.held with
      | some h => reissue s cx h
      | none =>
        if acquiring s cx then .next (leaveGroup s sid false)
        else match fetched s cx.tm cx.sp with
        | none => afterFetch cx (exec (.instructionFetch ck sid) s)
        | some pa =>
          match preIssue s cx with
          | some t => .next (leaveGroup t sid false)
          | none => issueWord s cx pa

/-! ### The part's own events -/

/-- Events about splits, teams and contexts. -/
def teamMoves (s : State) : List Instr :=
  (asSet ((s.teams.filter fun e => e.2.resident).map fun e => coreKey e.2.site e.2.core)).map Instr.issueGroup
    ++ (s.splits.map fun e => match e.2.park, e.2.wait with
        | some _, _ => [.pageWalk (.split e.1), .faultService (.split e.1), .translationReplay (.split e.1)]
        | none, .mwait .. => [.mwaitWake e.1, .monitorTimeout e.1]
        | _, _ => []).flatten
    ++ (s.teams.map fun e => [.preemptSave e.1, .teamResume e.1]).flatten
    ++ (s.ctxs.map fun e => [.handlerTimeLimit e.1, .timeSliceExpiry e.1]).flatten

/-- Events about outstanding operations. -/
def opMoves (s : State) : List Instr :=
  (s.ops.map fun e => match e.2.body with
    | .tcopy _ => [.tcopyAccept e.1, .tcopyComplete e.1]
    | .matrix _ => [.matrixAccept e.1, .matrixComplete e.1]
    | .remote _ => [.remoteTimeout e.1]
    | _ => [.operationComplete e.1]).flatten

/-- Events of the fabric. -/
def fabricMoves (s : State) : List Instr :=
  (s.pkts.map fun e => [.packetForward e.1, .remoteRequestArrive (.here e.1), .remoteResponseArrive (.here e.1)]).flatten
    ++ (s.links.map fun e => [.flitReceive e.1 0 true, .flitReceive e.1 1 true, .flitReceive e.1 2 true
        , .linkRetrain e.1 0, .linkRetrain e.1 1, .linkRetrain e.1 2, .creditAuditSend e.1, .creditAuditRequest e.1 0
        , .creditAuditRequest e.1 1, .creditAuditRequest e.1 2, .creditAuditReceive e.1]).flatten

/-- Events of the islands: refresh of a free bank, the steps of map-outs, the end of a reset. -/
def islandMoves (s : State) : List Instr :=
  let n := Config.choose s.tick (16 * 2 ^ 64)
  [.hbmRefresh (n % 16) (n / 16 % 128) (n / 2048 % 64) (bitAt n 17)]
    ++ (s.islands.map fun e =>
        (e.2.mapouts.map fun m => [.layerMapOut e.1 m.die, .mapoutCopy e.1 m.die, .mapoutCommit e.1 m.die]).flatten
          ++ [.islandResetExit e.1]).flatten

/-- Events of the front end. -/
def frontMoves (s : State) : List Instr :=
  [.packetDispatch, .levelDue 1, .levelDue 2, .levelDue 3, .firmwareTakeover]
    ++ (s.fe.pkts.map fun e => match e.2.ty with
        | 0 => [.nopPacket e.1] | 1 => [.launchPacket e.1] | 2 => [.waitn e.1, .waitnComplete e.1]
        | 3 => [.signal e.1] | _ => [.marker e.1]).flatten
    ++ (s.fe.launches.map fun e => [.launchRun e.1, .prologueRepeat e.1, .pageWalk (.launch e.1), .faultService (.launch e.1)
        , .translationReplay (.launch e.1)]).flatten
    ++ (s.fe.grids.map fun (e : Nat × Grid) => e.2.toPlace.map fun p => Instr.teamPlacement p.1 e.1).flatten
    ++ s.fe.shoots.map (fun e => .shootdownAck e.1) ++ s.fe.svcs.map fun e => .eventRepost e.1

/-- The part's own events that can happen now. -/
def enabledMoves (s : State) : List Instr :=
  (teamMoves s ++ opMoves s ++ fabricMoves s ++ islandMoves s ++ frontMoves s).filter fun i =>
    match exec i s with | .next _ => true | _ => false

/-- The clocks go on. The front end and every island have a clock of their own, with no fixed relation and some of them slowed, so
which of them count is free; an island under reset counts nothing (R52, R374, R381, R382) (log entry 46, DESIGN CHOICE). -/
def tickClocks (s : State) : State :=
  let n := Config.choose s.tick (18 * 2 ^ 64)
  let on := fun (k : Nat) => bitAt n k && s.populated k && !(s.island k).underReset
  let t := ((upFrom 0 16).filter on).foldl (fun t k => t.setIsland k { t.island k with cycle := (t.island k).cycle + 1 }) (tickLinks s)
  { t with cores := t.cores.map fun (e : Nat × Core) => (e.1, { e.2 with cycles := e.2.cycles + ofBool (on (e.1 / 128)) })
           fe := { t.fe with fcyc := t.fe.fcyc + ofBool (bitAt n 16) } }

/-- One event of the part itself, or a cycle in which none happens; which one, the manual leaves open (log entry 1, DESIGN CHOICE). -/
def internalStep (s : State) : Out :=
  let ms := enabledMoves s
  match nth none (ms.map some) (Config.nextMove s.tick % (ms.length + 1)) with
  | some i => exec i s
  | none => .next (tickClocks s)

/-- An ending context that has drained (R325). -/
def toReap (s : State) : Option Nat := (s.ctxs.find? fun e => e.2.ending && drained s e.1).map (·.1)

/-- A step between issue groups. -/
def idleStep (s : State) : Out :=
  match toReap s with
  | some asid => exec (.ctxEnd asid) s
  | none =>
    match s.inputs with
    | some i :: rest => exec i { s with inputs := rest }
    | none :: rest => internalStep { s with inputs := rest }
    | [] => internalStep s

/-- One step, before it is counted. -/
def turnStep (s : State) : Out :=
  match s.turn with
  | .issue ck (sid :: _) _ => issueOne s ck sid
  | .issue _ [] done => .next { mergeGroup s [] done with turn := .idle }
  | .idle => idleStep s

/-- Counts the step (log entry 1, DESIGN CHOICE). -/
def countStep : Out → Out
  | .next t => .next { t with tick := t.tick + 1 }
  | .fault r => .fault r
  | .refused r => .refused r

/-! ### A program placed from outside (log entry 8, DESIGN CHOICE) -/

/-- The core and the physical address from which the next step issues a word, if it issues one. -/
def nextFetch (s : State) : Option (Nat × Nat) :=
  match s.turn with
  | .issue _ (sid :: _) _ =>
    (issuing { s with cur := some sid }).bind fun cx =>
      if unhindered cx && cx.sp.held.isNone && !acquiring s cx then (fetched s cx.tm cx.sp).map fun pa => (cx.ck, pa) else none
  | _ => none

/-- Stores a word at a physical address, in memory and in a core's fetch buffer. -/
def storeWord (s : State) (ck pa : Nat) (w : Word) : State :=
  let s := { s with mem := ((span (paKey pa) 4).zip (leBytes 4 w.toNat)).foldl (fun m (e : Nat × Byte) => writeByte m e.1 e.2) s.mem }
  s.setCore ck { s.core ck with fetch := put (paKey pa) w (s.core ck).fetch, fetchSince := s.tick }

/-- Virtual address and offset on island 0 of the word that `placeSplit` makes the next one. -/
def placedAt : Nat := 0x10000

/-- A context with one team of one 4-lane gang on core 0 of island 0, its page mapped, its split about to issue. -/
def placeSplit (s : State) : State :=
  let asid := freshKey s.ctxs 1 255
  let tid := s.nextTeam
  let sid := s.nextSplit
  let c : Ctx := { pid := w32 (256 * asid), window := 0, modeWord := 0, ring := ⟨0, 0, 0, 0, 4⟩ }
  let t : Team :=
    { asid := asid, grid := 0, idx := 0, x := 0, y := 0, z := 0, site := 0, core := 0
      gangs := [{ width := 4, role := 0, size := 256 }], scratchBase := 0, scratch := 0, tiles := [], barPhys := []
      bbPhys := [], bars := [], bbs := [] }
  let lanes : List Lane := (upFrom 0 4).map fun n => { lid := w32 n }
  let sp : Split := { team := tid, gang := 0, slices := [0], pc := BitVec.ofNat 48 placedAt, mode := 0 }
  let leaf := s.fe.panel.toNat * 2 ^ 48 + placedAt + 0x1F
  let s := { s with
    ctxs := put asid c s.ctxs, teams := put tid t s.teams, nextTeam := tid + 1, splits := put sid sp s.splits
    nextSplit := sid + 1, slices := put (sliceKey tid 0 0) { size := 256, lanes := lanes } s.slices
    turn := .issue (coreKey 0 0) [sid] [] }
  s.setCore (coreKey 0 0) { s.core (coreKey 0 0) with tlb := tlbAdd Config.coreTlb (tlbOf asid 3 placedAt leaf) (s.core (coreKey 0 0)).tlb }

end Sys2Proof.Machine
end

