-- ==== Sys2Proof/Machine/Step.lean ====
section
/-! DEFINITION. One step of the part. -/
namespace Sys2Proof.Machine

/-- One step of the part: the word of the next split of an issue group, or an event. -/
def step (s : State) : Host.Outcome State Fault Refusal := countStep (turnStep s)

/-- The state with a word stored where the step takes its next one; where no split is about to issue, one is placed
(log entry 8, DESIGN CHOICE). -/
def State.withFetchWord (s : State) (_nbits w : Nat) : State :=
  match nextFetch s with
  | some (ck, pa) => storeWord s ck pa (BitVec.ofNat 32 w)
  | none => storeWord (placeSplit s) (coreKey 0 0) (s.fe.panel.toNat * 2 ^ 48 + placedAt) (BitVec.ofNat 32 w)

end Sys2Proof.Machine
end

