-- ==== Sys2Proof/Safety.lean ====
section
/-! DEFINITION. What counts as a safe run, and the terms in which statements speak of what an instruction writes and what
it leaves. -/
namespace Sys2Proof.Machine

/-- The invariant of every step: memory is in its one canonical form, so that equal memories are equal data. -/
def State.Inv (s : State) : Prop := Memory.wf s.mem = true

/-- `t` comes from `s` by `n` steps of the part. -/
def Runs : Nat → State → State → Prop
  | 0, s, t => s = t
  | n + 1, s, t => ∃ u, step s = .next u ∧ Runs n u t

/-- `t` comes from `s` by some steps. -/
def Reach (s t : State) : Prop := ∃ n, Runs n s t

/-- The part goes on from `s`: its next step is neither a fault nor a refusal. -/
def GoesOn (s : State) : Prop := ∃ t, step s = .next t

/-- No run from `s` stops, and every state of it meets the invariant. -/
def Safe (s : State) : Prop := ∀ t, Reach s t → t.Inv ∧ GoesOn t

/-- The next slot of the command ring holds a published command of type `ty` with a plain trailer, and no other command is still
executing (R347, R348, R372). -/
def CommandReady (s : State) (ty : Nat) : Prop := commandNext s ty = true ∧ bits (cmdTrailer s) 8 16 = 0

/-! ### Registers as they stand once every outstanding write has taken its place (R105) -/

/-- A register unit of slice `sk` (Slice.regs lists the units). -/
def State.reg (s : State) (sk key : Nat) : Word := readFinal (s.slice sk) key
/-- Half `h` of g register `r` of slice `sk`, as a mode names it. -/
def State.regG (s : State) (sk : Nat) (handler : Bool) (r h : Nat) : Word := s.reg sk (keyG (gIndex handler r) h)
/-- The lanes of a slice with their outstanding PREC flags set (R177). -/
def Slice.lanesNow (sl : Slice) : List Lane := sl.pendF.foldl (fun ls p => orPrec ls p.lane p.flags) sl.lanes
/-- A slice without its register units and the issue-slot bookkeeping of outstanding writes. -/
def Slice.still (sl : Slice) : Slice :=
  { sl with regs := [], pend := [], lanes := sl.lanesNow, pendF := [], lastW := [], slot := 0, chain := none }

/-- The word `i` issues at the split of `cx`, which waits for nothing (R66, R276, R335), and passes the checks that every word shares:
the window check of R126, and the token check of R119 (which only a context with DBG.TKC makes). -/
def Issues (s : State) (i : Instr) (cx : Iss) : Prop :=
  issuing s = some cx ∧ windowCheck s cx (operands i) = none ∧ hazardCheck s cx i = none
    ∧ cx.sp.wait = .none ∧ cx.sp.park = none ∧ cx.sp.pending = none

/-- Nothing of the machine changed but register units of slices and issue-slot bookkeeping, and, of the issuing split,
its PC and issue occupancy. Memory, every flag, MODE, the handler registers, tokens, windows, every other split, context
and device are as before. -/
def OnlyRegs (s t : State) (cx : Iss) (pc : BitVec 48) (busy : Nat) : Prop :=
  t = { s with slices := t.slices, splits := upd cx.sid (fun sp => { sp with pc := pc, busy := busy, passed := [], declined := [], hazard := none, held := none }) s.splits }
    ∧ (∀ sk, (t.slice sk).still = (s.slice sk).still) ∧ ∀ a, readByte t.mem a = readByte s.mem a

/-- As `OnlyRegs`, at the end of a word that issues in one cycle and goes on at the next word. -/
def NextWord (s t : State) (cx : Iss) : Prop := OnlyRegs s t cx (addPc cx.sp.pc 4) 0

/-- Every register unit but the `k` x slots from `d` upward of the active guarded lanes is as before. -/
def LeavesX (s t : State) (cx : Iss) (d k : Nat) : Prop :=
  ∀ sk key, (∀ le ∈ guardedLanes s cx.sp, ∀ j, j < k → ¬(le.sk = sk ∧ le.key (d + j) = key)) → t.reg sk key = s.reg sk key

/-- In each active guarded lane the `k` x slots from `d` upward hold the words of `f`, lowest first; every other register
unit is as before. -/
def WritesX (s t : State) (cx : Iss) (d k : Nat) (f : LaneEnv → Nat) : Prop :=
  (∀ le ∈ guardedLanes s cx.sp, ∀ j, j < k → t.reg le.sk (le.key (d + j)) = half (f le) j) ∧ LeavesX s t cx d k

/-- In each active guarded lane predicate `p` holds `f`, unless it is p0, which discards; every other register unit is
as before. -/
def WritesP (s t : State) (cx : Iss) (p : Nat) (f : LaneEnv → Bool) : Prop :=
  (∀ le ∈ guardedLanes s cx.sp, p ≠ 0 → t.reg le.sk (keyP p le.i) = w32 (ofBool (f le)))
    ∧ ∀ sk key, (∀ le ∈ guardedLanes s cx.sp, ¬(p ≠ 0 ∧ le.sk = sk ∧ keyP p le.i = key)) → t.reg sk key = s.reg sk key

/-- In each slice of the split g register `d` holds `f` of the slice, unless it is g0, which discards; every other
register unit is as before. -/
def WritesG (s t : State) (cx : Iss) (d : Nat) (f : Nat → Nat) : Prop :=
  (∀ sk ∈ cx.sp.keys, d ≠ 0 → ∀ h, h < 2 → t.regG sk cx.sp.handler d h = half (f sk) h)
    ∧ ∀ sk key, (∀ h, h < 2 → ¬(d ≠ 0 ∧ sk ∈ cx.sp.keys ∧ keyG (gIndex cx.sp.handler d) h = key)) → t.reg sk key = s.reg sk key

/-! ### Integer elements (R139, R140) -/

/-- Element `k` of a slot under MODE.IT. -/
def elemBits (it k : Nat) (v : Word) : BitVec (itWidth it) := BitVec.ofNat (itWidth it) (v.toNat / 2 ^ (itWidth it * k))
/-- The number a pattern stands for, by signedness. -/
def valueOf {w : Nat} (sgn : Bool) (x : BitVec w) : Int := if sgn then x.toInt else (x.toNat : Int)
/-- The value of element `k` of a slot under MODE.IT (Table 5.4). -/
def elemInt (it k : Nat) (v : Word) : Int := valueOf (itSigned it) (elemBits it k v)
/-- fit of R140 for an operation that saturates. -/
def fitted (it : Nat) (sat : Bool) (r : Int) : BitVec (itWidth it) :=
  let w := itWidth it
  let lo : Int := if itSigned it then -2 ^ (w - 1) else 0
  let hi : Int := if itSigned it then 2 ^ (w - 1) - 1 else 2 ^ w - 1
  BitVec.ofInt w (if sat then max lo (min hi r) else r)

/-- The word `i` completes: every element of x slot `d` of each active guarded lane gets the value `r` gives for MODE.IT,
MODE.SAT, the element's number and the lane; nothing else changes but the split's PC. -/
def ElemWord (i : Instr) (d : BitVec 8) (r : (it : Nat) → Bool → Nat → LaneEnv → BitVec (itWidth it)) : Prop :=
  ∀ (s : State) (cx : Iss), Issues s i cx → ∃ t, exec i s = .next t ∧ NextWord s t cx ∧ LeavesX s t cx d.toNat 1 ∧
    ∀ le ∈ guardedLanes s cx.sp, ∀ k, k < 32 / itWidth (modeIT cx.sp.mode) →
      elemBits (modeIT cx.sp.mode) k (t.reg le.sk (le.key d.toNat)) = r (modeIT cx.sp.mode) (modeSAT cx.sp.mode) k le

/-- The word `i` completes: `k` x slots from `d` upward of each active guarded lane get the words of `f`; nothing else
changes but the split's PC. -/
def LaneWord (i : Instr) (d : BitVec 8) (k : Nat) (f : State → Iss → LaneEnv → Nat) : Prop :=
  ∀ (s : State) (cx : Iss), Issues s i cx → ∃ t, exec i s = .next t ∧ NextWord s t cx ∧ WritesX s t cx d.toNat k (f s cx)

/-- The word `i` completes: g register `d` of each slice of the split gets `f`; nothing else changes but the split's PC. -/
def SliceWord (i : Instr) (d : BitVec 8) (f : State → Iss → Nat → Nat) : Prop :=
  ∀ (s : State) (cx : Iss), Issues s i cx → ∃ t, exec i s = .next t ∧ NextWord s t cx ∧ WritesG s t cx d.toNat (f s cx)

/-- The word `i` completes: predicate `p` of each active guarded lane gets `f`; nothing else changes but the split's PC. -/
def PredWord (i : Instr) (p : Nat) (f : State → Iss → LaneEnv → Bool) : Prop :=
  ∀ (s : State) (cx : Iss), Issues s i cx → ∃ t, exec i s = .next t ∧ NextWord s t cx ∧ WritesP s t cx p (f s cx)

/-- A g register of slice `sk` as the issuing split reads it. -/
def Iss.gOf (cx : Iss) (s : State) (sk r : Nat) : Nat := readG s.tick sk (s.slice sk) cx.sp.handler r

/-! ### Operations posted at issue (R110, R111) -/

/-- The issuing split after its word, when the word has ended in one cycle. -/
def Iss.after (cx : Iss) : Split := { cx.sp with pc := addPc cx.sp.pc 4, busy := 0, passed := [], declined := [], hazard := none, held := none }

/-- Nothing of the machine changed but the operations outstanding, the tokens they stand on, issue-slot bookkeeping, and
the issuing split, which is now `sp`: no register unit, flag, byte of memory or other register. -/
def PostsAs (s t : State) (cx : Iss) (sp : Split) : Prop :=
  t = { s with slices := t.slices, ops := t.ops, nextOp := t.nextOp, splits := upd cx.sid (fun _ => sp) s.splits }
    ∧ (∀ sk, { (t.slice sk).still with toks := [], posted := [] } = { (s.slice sk).still with toks := [], posted := [] })
    ∧ (∀ sk key, t.reg sk key = s.reg sk key) ∧ (∀ id, id < s.nextOp → find id t.ops = find id s.ops)
    ∧ ∀ a, readByte t.mem a = readByte s.mem a

/-- As `PostsAs`, at the end of a word whose split goes on at the next word. -/
def Posts (s t : State) (cx : Iss) : Prop := PostsAs s t cx cx.after

/-- A new operation of the issuing split stands on token `tok` of slice `sk`, with a body that `p` describes. -/
def Posted (s t : State) (tok sk : Nat) (p : OpBody → Prop) : Prop :=
  ∃ id o, s.nextOp ≤ id ∧ find id t.ops = some o ∧ o.tok = some tok ∧ sk ∈ o.slices
    ∧ (⟨tok, id, false⟩ : TokE) ∈ (t.slice sk).toks ∧ p o.body

/-- The pieces that the translation of some units checks. -/
def unitChecks (us : List MUnit) (need : Need) : List Chk := (us.map fun u => chksOf u.n u.mask u.va u.bytes need).flatten

/-- The word `i` stands at the issuing split of `cx`, and every operand lies within the window (R126). -/
def Stands (s : State) (i : Instr) (cx : Iss) : Prop := issuing s = some cx ∧ windowCheck s cx (operands i) = none

/-- The word `i` raises cause `code` at its split, with subcause `sub`, TVAL and the lanes `lanes` (R324, Table 15.1). -/
def Traps (i : Instr) (s : State) (cx : Iss) (code sub tval lanes : Nat) : Prop :=
  exec i s = .next (raiseAt s cx.sid (cause code sub tval lanes))

/-- The word `i` raises cause `code` for the units `us`: TVAL holds what `tval` gives of them, TLANES names exactly their lanes. -/
def UnitTrap (i : Instr) (s : State) (cx : Iss) (code : BitVec 8) (us : List MUnit) (tval : Nat → Prop) : Prop :=
  ∃ r, exec i s = .next (raiseAt s cx.sid r) ∧ r.code = code ∧ r.sub = 0 ∧ tval r.tval
    ∧ ∀ n, n < 64 → bitAt r.tlanes n = us.any fun u => bitAt u.mask n

/-- The parked word `i`: its split stays at it, with the misses to be served, and its increment stands on `tok` (R110, R276). -/
def Parks (i : Instr) (tok : Nat) (s : State) (cx : Iss) (ms : List Miss) (ps : List (Nat × Need × Nat)) : Prop :=
  ∃ t, exec i s = .next t ∧ find cx.sid t.splits = some { cx.sp with park := some ⟨.instr i, ms, ps, s.tick⟩ }
    ∧ (∀ sk key, t.reg sk key = s.reg sk key) ∧ (∀ a, readByte t.mem a = readByte s.mem a) ∧ t.ctxs = s.ctxs ∧ t.ops = s.ops
    ∧ ∀ sk ∈ cx.sp.keys, (t.slice sk).count tok = (s.slice sk).count tok + 1

/-- What an access carries beside its bytes: the .lu of a load, and of an atomic its operation, signedness, width, release and acquire
parts and their scope (R206, R261, R263, R316). -/
structure Terms where
  lu : Bool := false
  aop : BitVec 3 := 0
  sgn : Bool := false
  wide : Bool := false
  rel : Bool := false
  acq : Bool := false
  scope : Nat := 0

/-- The outstanding operation that makes some accesses on these terms. -/
def Terms.body (q : Terms) (kind : AccKind) (scr : Bool) (ep : Nat) (accs : List Acc) : OpBody :=
  .access kind scr accs ep q.lu q.aop q.sgn q.wide q.rel q.acq q.scope

/-- The terms of an atomic: what its word names, and the order and the scope of MODE, the scope at most `most` (R137, R206, R316). -/
def atomTerms (o : BitVec 3) (sg w : Bool) (most : Nat) (cx : Iss) : Terms :=
  let ord := modeORD cx.sp.mode
  { aop := o, sgn := sg, wide := w, rel := decide (2 ≤ ord), acq := decide (ord = 1 ∨ 3 ≤ ord), scope := min (modeSCP cx.sp.mode) most }

/-- The memory word `i`. It completes at issue when its units are aligned, their translations pass and their regions admit them:
it posts, in the slice of each unit, an operation on `tok` that makes that unit's access on the terms `q` with the EP of MODE, and
changes nothing else but its split's PC. A misaligned unit raises cause 0x04, a failed translation its cause, a unit in a region that the form may not reach cause
0x04 (R48, R253, R262), and a translation that misses parks the split. -/
def MemWord (i : Instr) (tok : BitVec 4) (kind : AccKind) (need : Need) (ctr blk : Bool) (us : State → Iss → List MUnit)
    (q : Iss → Terms) : Prop :=
  ∀ (s : State) (cx : Iss), Stands s i cx →
    let odd := (us s cx).filter fun u => decide (u.va % u.bytes ≠ 0)
    let first := fun (vs : List MUnit) (v : Nat) => vs.head?.map MUnit.va = some v
    (odd ≠ [] → UnitTrap i s cx 0x04 odd (first odd)) ∧
    (odd = [] → match xlateAll s cx.env (unitChecks (us s cx) need) with
      | .fault c => exec i s = .next (raiseAt s cx.sid c)
      | .park ms ps => Issues s i cx → Parks i tok.toNat s cx ms ps
      | .ok pas =>
        let out := (us s cx).filter fun u => !regionOk s ctr blk (unitAddrs pas u)
        (out ≠ [] → UnitTrap i s cx 0x04 out (first out)) ∧
        (out = [] → Issues s i cx → ∃ t, exec i s = .next t ∧ Posts s t cx ∧
          ∀ u ∈ us s cx, u.sk ∈ cx.sp.keys → Posted s t tok.toNat u.sk fun b =>
            ∃ accs, b = (q cx).body kind false (modeEP cx.sp.mode) accs ∧ u.acc (unitAddrs pas u) ∈ accs))

/-- As `MemWord`, for a scratchpad word: the units lie in the team's allotment. One that does not raises cause 0x13 ahead of a
misaligned one's 0x04; TVAL then holds the lowest byte beyond the allotment (R201, R205; log entry 25, DEDUCED). -/
def ScratchWord (i : Instr) (tok : BitVec 4) (kind : AccKind) (us : State → Iss → List MUnit) (q : Iss → Terms) : Prop :=
  ∀ (s : State) (cx : Iss), Stands s i cx →
    let excess := (us s cx).filter fun u => decide (cx.tm.scratch < u.va + u.bytes)
    let odd := (us s cx).filter fun u => decide (u.va % u.bytes ≠ 0)
    let past := fun (u : MUnit) => max u.va cx.tm.scratch
    (excess ≠ [] → UnitTrap i s cx 0x13 excess fun v => (∃ u ∈ excess, v = past u) ∧ ∀ u ∈ excess, v ≤ past u) ∧
    (excess = [] → odd ≠ [] → UnitTrap i s cx 0x04 odd fun v => odd.head?.map MUnit.va = some v) ∧
    (excess = [] → odd = [] → Issues s i cx → ∃ t, exec i s = .next t ∧ Posts s t cx ∧
      ∀ u ∈ us s cx, u.sk ∈ cx.sp.keys → Posted s t tok.toNat u.sk fun b =>
        ∃ accs, b = (q cx).body kind true (modeEP cx.sp.mode) accs
          ∧ u.acc (span (cx.tm.scratchBase + u.va) u.bytes) ∈ accs)

/-- The units of the active guarded lanes at the addresses `va`. -/
def laneUnits (va : LaneEnv → Nat) (bytes : LaneEnv → Nat) (f : LaneEnv → MUnit → MUnit) (s : State) (cx : Iss) : List MUnit :=
  (guardedLanes s cx.sp).map fun le =>
    f le { n := le.n, mask := 2 ^ le.n, sk := le.sk, lane := le.i, va := va le, bytes := bytes le }

/-- The units of the slices of the split at the addresses their own g register `a` holds. -/
def sliceUnits (a : BitVec 8) (bytes : Nat) (f : Nat → MUnit → MUnit) (s : State) (cx : Iss) : List MUnit :=
  cx.sp.slices.map fun j => f (sliceKey cx.sp.team cx.sp.gang j)
    { n := j, mask := laneMask ((laneEnvs s cx.sp j).filter fun le => le.lane.live), sk := sliceKey cx.sp.team cx.sp.gang j
      lane := 4, va := cx.gOf s (sliceKey cx.sp.team cx.sp.gang j) a.toNat, bytes := bytes }

/-! ### Where a split goes after its word -/

/-- The issuing split goes on at the next word. -/
def Goes (t : State) (cx : Iss) : Prop := find cx.sid t.splits = some cx.after
/-- The issuing split waits, with its PC at the word. -/
def Waits (t : State) (cx : Iss) (w : Wait) : Prop :=
  find cx.sid t.splits = some { cx.sp with wait := w, passed := [], declined := [], hazard := none, held := none }
/-- Gang slice `j` of the issuing split stands at `pc` in a split that has kept MODE, the mode and the handler registers. -/
def GoesTo (t : State) (cx : Iss) (j : Nat) (pc : BitVec 48) : Prop :=
  ∃ sid sp, find sid t.splits = some sp ∧ j ∈ sp.slices ∧ sp.pc = pc ∧ sp.team = cx.sp.team ∧ sp.gang = cx.sp.gang
    ∧ sp.mode = cx.sp.mode ∧ sp.handler = cx.sp.handler ∧ sp.tcause = cx.sp.tcause ∧ sp.tpc = cx.sp.tpc
    ∧ sp.tval = cx.sp.tval ∧ sp.tlanes = cx.sp.tlanes ∧ sp.tsave = cx.sp.tsave ∧ sp.wait = cx.sp.wait

/-- No register unit changed, no byte of memory, no context, team, operation or counter, and nothing of the front end. -/
def Quiet (s t : State) : Prop :=
  (∀ sk key, t.reg sk key = s.reg sk key) ∧ (∀ a, readByte t.mem a = readByte s.mem a) ∧ t.ctxs = s.ctxs
    ∧ t.teams = s.teams ∧ t.ops = s.ops ∧ t.ctrs = s.ctrs ∧ t.fe = s.fe

/-- The key of gang slice `j` of the issuing split. -/
def Iss.key (cx : Iss) (j : Nat) : Nat := sliceKey cx.sp.team cx.sp.gang j

/-- Whether some lane of a slice meets `f`, which takes its place and itself. -/
def Slice.some (sl : Slice) (f : Nat → Lane → Bool) : Bool := (fourLanes.zip sl.lanes).any fun e => f e.1 e.2

/-- The structured word `i` completes when no live lane that `inc` picks stands at 255: in each slice the counter of each
lane becomes what `c` gives, and the slice goes to what `pc` gives, for the state, the slice's number and the lane's place
and record before; E, D, LID, every register unit and every byte are as before. Where some do, it raises cause 0x09 with those
lanes (R85). -/
def CounterWord (i : Instr) (inc : Slice → Bool) (c : State → Iss → Nat → Nat → Lane → BitVec 8)
    (pc : State → Iss → Nat → BitVec 48) : Prop :=
  ∀ (s : State) (cx : Iss), let full := (liveLanes s cx.sp).filter fun le => inc le.sl && le.lane.c == 255
    (Stands s i cx → full ≠ [] → Traps i s cx 0x09 0 0 (laneMask full)) ∧
    (Issues s i cx → full = [] → ∃ t, exec i s = .next t ∧ Quiet s t ∧ ∀ j ∈ cx.sp.slices, GoesTo t cx j (pc s cx j) ∧
      ∀ n, n < 4 → n < (s.slice (cx.key j)).lanes.length →
        ((t.slice (cx.key j)).lane n).c = c s cx j n ((s.slice (cx.key j)).lane n)
        ∧ ((t.slice (cx.key j)).lane n).e = ((s.slice (cx.key j)).lane n).e
        ∧ ((t.slice (cx.key j)).lane n).d = ((s.slice (cx.key j)).lane n).d
        ∧ ((t.slice (cx.key j)).lane n).lid = ((s.slice (cx.key j)).lane n).lid)

/-- A fetch of the word at a physical address answers `codeWord`: the buffer of the core holds no other value for it, and the word has held
no other since the buffer was last emptied (R398; log entry 64, DEDUCED). -/
def FetchSees (s : State) (ck pa : Nat) : Prop :=
  (∀ v, find (paKey pa) (s.core ck).fetch = some v → v = codeWord s pa) ∧
    ∀ v ∈ (wordValues s (paKey pa) (s.core ck).fetchSince).drop 1, w32 (v.toNat / 2 ^ (8 * (pa % 8)) % 2 ^ 32) = codeWord s pa

/-- Gang slice `j` of the issuing split stands at a 64-bit address, whatever its bits [63:48] (R130). -/
def StandsAt (t : State) (cx : Iss) (j va : Nat) : Prop :=
  ∃ sid sp, find sid t.splits = some sp ∧ sp.team = cx.sp.team ∧ sp.gang = cx.sp.gang ∧ j ∈ sp.slices ∧ sp.va = va

end Sys2Proof.Machine
end

