-- ==== Sys2Proof/Certificates/Slice0/Obligations.lean ====
section
/-! DEFINITION. The statements for the provers. -/
section
open Sys2Proof Sys2Proof.Machine

/-! ### Integer words (spec/05) -/

/-- R139 to R142 in the x form, Table 5.5: ADD, SUB, MUL, MAD, MIN, MAX and ABSD give each element of x d the exact sum,
difference, product, product plus accumulator, lesser, greater or unsigned distance of the elements of the operands as the
lane reads them, fitted as R140 says where the operation saturates; every other register unit, flag, register and byte
stays. -/
def Obligations.IntegerElementsExactAndFitted : Prop :=
  ∀ d a b : BitVec 8,
    let u := fun (it k : Nat) (le : LaneEnv) => elemInt it k (le.x a.toNat)
    let v := fun (it k : Nat) (le : LaneEnv) => elemInt it k (le.x b.toNat)
    let acc := fun (it k : Nat) (le : LaneEnv) => elemInt it k (le.x d.toNat)
    ElemWord (.add d a b false) d (fun it sat k le => fitted it sat (u it k le + v it k le))
    ∧ ElemWord (.sub d a b false) d (fun it sat k le => fitted it sat (u it k le - v it k le))
    ∧ ElemWord (.mul d a b false) d (fun it sat k le => fitted it sat (u it k le * v it k le))
    ∧ ElemWord (.mad d a b false) d (fun it sat k le => fitted it sat (u it k le * v it k le + acc it k le))
    ∧ ElemWord (.min d a b false) d (fun it _ k le => BitVec.ofInt _ (min (u it k le) (v it k le)))
    ∧ ElemWord (.max d a b false) d (fun it _ k le => BitVec.ofInt _ (max (u it k le) (v it k le)))
    ∧ ElemWord (.absd d a b false) d (fun it _ k le => BitVec.ofNat _ (u it k le - v it k le).natAbs)

/-- R141 in the x form: MULH gives each element the floor of the exact product over 2^w; SHL, SHR and ROT shift each
element by the element of b modulo w, SHR with the sign for s types. -/
def Obligations.IntegerElementsShiftedAndHigh : Prop :=
  ∀ d a b : BitVec 8,
    let x := fun (it k : Nat) (le : LaneEnv) => elemBits it k (le.x a.toNat)
    let n := fun (it k : Nat) (le : LaneEnv) => (elemBits it k (le.x b.toNat)).toNat % itWidth it
    ElemWord (.mulh d a b false) d (fun it _ k le =>
      BitVec.ofInt _ (elemInt it k (le.x a.toNat) * elemInt it k (le.x b.toNat) / 2 ^ itWidth it))
    ∧ ElemWord (.shl d a b false) d (fun it _ k le => x it k le <<< n it k le)
    ∧ ElemWord (.shr d a b false) d (fun it _ k le =>
      if itSigned it then (x it k le).sshiftRight (n it k le) else x it k le >>> n it k le)
    ∧ ElemWord (.rot d a b false) d (fun it _ k le => (x it k le).rotateLeft (n it k le))

/-- The bits a field of `len` bits at `pos` covers in `w` bits. -/
def Sys2Proof.Machine.fieldMask (w pos len : Nat) : BitVec w := (BitVec.allOnes len).setWidth w <<< pos

/-- R141, R148 and R150 in the x form: AND, OR, XOR and ANDN act on all 32 bits; BFX extracts and extends, and BFI places,
the field that x b gives, clipped at bit 31; SEL chooses by p[MODE.SP]. -/
def Obligations.WholeRegisterWords : Prop :=
  ∀ d a b : BitVec 8,
    let pos := fun (le : LaneEnv) => (le.x b.toNat).toNat % 32
    let len := fun (le : LaneEnv) => min (min ((le.x b.toNat).toNat / 256 % 64) 32) (32 - pos le)
    LaneWord (.and d a b false) d 1 (fun _ _ le => (le.x a.toNat &&& le.x b.toNat).toNat)
    ∧ LaneWord (.or d a b false) d 1 (fun _ _ le => (le.x a.toNat ||| le.x b.toNat).toNat)
    ∧ LaneWord (.xor d a b false) d 1 (fun _ _ le => (le.x a.toNat ^^^ le.x b.toNat).toNat)
    ∧ LaneWord (.andn d a b false) d 1 (fun _ _ le => (le.x a.toNat &&& ~~~le.x b.toNat).toNat)
    ∧ LaneWord (.bfx d a b false) d 1 (fun _ cx le =>
        let f := (le.x a.toNat).extractLsb' (pos le) (len le)
        (if itSigned (modeIT cx.sp.mode) then f.signExtend 32 else f.setWidth 32).toNat)
    ∧ LaneWord (.bfi d a b false) d 1 (fun _ _ le =>
        let m := fieldMask 32 (pos le) (len le)
        ((le.x d.toNat &&& ~~~m) ||| (le.x a.toNat <<< pos le &&& m)).toNat)
    ∧ LaneWord (.sel d a b) d 1 (fun _ cx le => (if le.p (modeSP cx.sp.mode) then le.x a.toNat else le.x b.toNat).toNat)
    ∧ encode (.sel d a b) = some (0x15#7 ++ d ++ a ++ b ++ 0#1)

/-- R149: PRMB gives each result byte what its selector in the old x d says of the eight bytes of b:a; its word. -/
def Obligations.PermuteBytes : Prop :=
  encode (.prmb 4 5 6) = some 0x24080A0C#32 ∧ (∀ d a b : BitVec 8, encode (.prmb d a b) = some (0x12#7 ++ d ++ a ++ b ++ 0#1)) ∧
  ∀ (s : State) (cx : Iss) (d a b : BitVec 8), Issues s (.prmb d a b) cx →
    ∃ t, exec (.prmb d a b) s = .next t ∧ NextWord s t cx ∧ LeavesX s t cx d.toNat 1 ∧
      ∀ le ∈ guardedLanes s cx.sp, ∀ k, k < 4 →
        let sel := (le.x d.toNat).toNat / 2 ^ (5 * k)
        let byte := (le.x b.toNat ++ le.x a.toNat).extractLsb' (8 * (sel % 8)) 8
        (t.reg le.sk (le.key d.toNat)).extractLsb' (8 * k) 8 =
          if sel / 8 % 4 = 0 then byte else if sel / 8 % 4 = 1 then 0#8
          else if sel / 8 % 4 = 2 then (if byte.msb then 0xFF#8 else 0#8) else 0xFF#8

/-- R144: with e = 1 the words of Table 5.5 act once per slice on 64-bit g values, signedness from MODE.IT, SAT ignored,
every result modulo 2^64; a write of g0 is discarded (R132). -/
def Obligations.GFormsActOnSlices : Prop :=
  ∀ d a b : BitVec 8,
    let x := fun (s : State) (cx : Iss) (sk : Nat) => BitVec.ofNat 64 (cx.gOf s sk a.toNat)
    let y := fun (s : State) (cx : Iss) (sk : Nat) => BitVec.ofNat 64 (cx.gOf s sk b.toNat)
    let old := fun (s : State) (cx : Iss) (sk : Nat) => BitVec.ofNat 64 (cx.gOf s sk d.toNat)
    let sgn := fun (cx : Iss) => itSigned (modeIT cx.sp.mode)
    let pos := fun (s : State) (cx : Iss) (sk : Nat) => (y s cx sk).toNat % 64
    let len := fun (s : State) (cx : Iss) (sk : Nat) => min (min ((y s cx sk).toNat / 256 % 128) 64) (64 - pos s cx sk)
    SliceWord (.add d a b true) d (fun s cx k => (x s cx k + y s cx k).toNat)
    ∧ SliceWord (.sub d a b true) d (fun s cx k => (x s cx k - y s cx k).toNat)
    ∧ SliceWord (.mul d a b true) d (fun s cx k => (x s cx k * y s cx k).toNat)
    ∧ SliceWord (.mulh d a b true) d (fun s cx k =>
        (BitVec.ofInt 64 (valueOf (sgn cx) (x s cx k) * valueOf (sgn cx) (y s cx k) / 2 ^ 64)).toNat)
    ∧ SliceWord (.mad d a b true) d (fun s cx k => (x s cx k * y s cx k + old s cx k).toNat)
    ∧ SliceWord (.min d a b true) d (fun s cx k =>
        if valueOf (sgn cx) (x s cx k) ≤ valueOf (sgn cx) (y s cx k) then (x s cx k).toNat else (y s cx k).toNat)
    ∧ SliceWord (.max d a b true) d (fun s cx k =>
        if valueOf (sgn cx) (x s cx k) ≤ valueOf (sgn cx) (y s cx k) then (y s cx k).toNat else (x s cx k).toNat)
    ∧ SliceWord (.and d a b true) d (fun s cx k => (x s cx k &&& y s cx k).toNat)
    ∧ SliceWord (.or d a b true) d (fun s cx k => (x s cx k ||| y s cx k).toNat)
    ∧ SliceWord (.xor d a b true) d (fun s cx k => (x s cx k ^^^ y s cx k).toNat)
    ∧ SliceWord (.andn d a b true) d (fun s cx k => (x s cx k &&& ~~~y s cx k).toNat)
    ∧ SliceWord (.shl d a b true) d (fun s cx k => (x s cx k <<< pos s cx k).toNat)
    ∧ SliceWord (.shr d a b true) d (fun s cx k =>
        (if sgn cx then (x s cx k).sshiftRight (pos s cx k) else x s cx k >>> pos s cx k).toNat)
    ∧ SliceWord (.rot d a b true) d (fun s cx k => ((x s cx k).rotateLeft (pos s cx k)).toNat)
    ∧ SliceWord (.absd d a b true) d (fun s cx k =>
        (valueOf (sgn cx) (x s cx k) - valueOf (sgn cx) (y s cx k)).natAbs)
    ∧ SliceWord (.bfx d a b true) d (fun s cx k =>
        let f := (x s cx k).extractLsb' (pos s cx k) (len s cx k)
        (if sgn cx then f.signExtend 64 else f.setWidth 64).toNat)
    ∧ SliceWord (.bfi d a b true) d (fun s cx k =>
        let m := fieldMask 64 (pos s cx k) (len s cx k)
        ((old s cx k &&& ~~~m) ||| (x s cx k <<< pos s cx k &&& m)).toNat)

/-- The quotient and the remainder of R143 with the edge results of Table 5.6. -/
def Sys2Proof.Machine.quotient {w : Nat} (sgn : Bool) (x y : BitVec w) : BitVec w :=
  if y = 0#w then BitVec.allOnes w else if sgn then x.sdiv y else x / y
def Sys2Proof.Machine.remainder {w : Nat} (sgn : Bool) (x y : BitVec w) : BitVec w :=
  if y = 0#w then x else if sgn then x.srem y else x % y

/-- R143, R144, Table 5.6: DIV and REM post to t8, change no register at issue, and hold for each element of each active
guarded lane (or with e = 1 for each slice) the truncated quotient, or the remainder with the dividend's sign. -/
def Obligations.DivisionLandsOnT8 : Prop :=
  ∀ (s : State) (cx : Iss) (d a b : BitVec 8) (e rm : Bool),
    let i : Instr := if rm then .rem d a b e else .div d a b e
    let it := modeIT cx.sp.mode
    let lands := fun (t : State) (sk key : Nat) (v : Word) =>
      Posted s t 8 sk fun body => ∃ ls fl, body = .result ls fl ∧ (⟨sk, key, v⟩ : Land) ∈ ls
    Issues s i cx → ∃ t, exec i s = .next t ∧ Posts s t cx ∧
      (e = false → ∀ le ∈ guardedLanes s cx.sp, ∃ v, lands t le.sk (le.key d.toNat) v ∧
        ∀ k, k < 32 / itWidth it → elemBits it k v =
          if rm then remainder (itSigned it) (elemBits it k (le.x a.toNat)) (elemBits it k (le.x b.toNat))
          else quotient (itSigned it) (elemBits it k (le.x a.toNat)) (elemBits it k (le.x b.toNat))) ∧
      (e = true → d.toNat ≠ 0 → ∀ sk ∈ cx.sp.keys, ∀ h, h < 2 → lands t sk (keyG (gIndex cx.sp.handler d.toNat) h)
        (half (if rm then remainder (itSigned it) (BitVec.ofNat 64 (cx.gOf s sk a.toNat)) (BitVec.ofNat 64 (cx.gOf s sk b.toNat))
          else quotient (itSigned it) (BitVec.ofNat 64 (cx.gOf s sk a.toNat)) (BitVec.ofNat 64 (cx.gOf s sk b.toNat))).toNat h))

/-- R151, Table 5.8, in the x form: CLZ, CTZ, POPC and BREV of each element; NEG and ABS of each element, fitted; NOT,
SEX8 and SEX16 of the whole slot. -/
def Obligations.UnaryWords : Prop :=
  ∀ d a : BitVec 8,
    let x := fun (it k : Nat) (le : LaneEnv) => elemBits it k (le.x a.toNat)
    ElemWord (.clz d a false) d (fun it _ k le => BitVec.clz (x it k le))
    ∧ ElemWord (.ctz d a false) d (fun it _ k le => BitVec.ctz (x it k le))
    ∧ ElemWord (.popc d a false) d (fun it _ k le => BitVec.ofNat _ ((List.range (itWidth it)).countP fun j => (x it k le).getLsbD j))
    ∧ ElemWord (.brev d a false) d (fun it _ k le => (x it k le).reverse)
    ∧ ElemWord (.neg d a false) d (fun it sat k le => fitted it sat (-elemInt it k (le.x a.toNat)))
    ∧ ElemWord (.abs d a false) d (fun it sat k le => fitted it sat (elemInt it k (le.x a.toNat)).natAbs)
    ∧ LaneWord (.not d a false) d 1 (fun _ _ le => (~~~le.x a.toNat).toNat)
    ∧ LaneWord (.sex8 d a false) d 1 (fun _ _ le => (((le.x a.toNat).setWidth 8).signExtend 32).toNat)
    ∧ LaneWord (.sex16 d a false) d 1 (fun _ _ le => (((le.x a.toNat).setWidth 16).signExtend 32).toNat)

/-- R37, R132 and R151 in the g form, once per slice on 64 bits with SAT ignored; MOVG copies the slice's own g register
to one or two x slots; MOVL copies one lane's slot, or pair, to g, whatever that lane's activity. -/
def Obligations.UnaryGForms : Prop :=
  ∀ d a : BitVec 8,
    let x := fun (s : State) (cx : Iss) (sk : Nat) => BitVec.ofNat 64 (cx.gOf s sk a.toNat)
    SliceWord (.clz d a true) d (fun s cx k => (BitVec.clz (x s cx k)).toNat)
    ∧ SliceWord (.ctz d a true) d (fun s cx k => (BitVec.ctz (x s cx k)).toNat)
    ∧ SliceWord (.popc d a true) d (fun s cx k => (List.range 64).countP fun j => (x s cx k).getLsbD j)
    ∧ SliceWord (.brev d a true) d (fun s cx k => ((x s cx k).reverse).toNat)
    ∧ SliceWord (.neg d a true) d (fun s cx k => (-(x s cx k)).toNat)
    ∧ SliceWord (.abs d a true) d (fun s cx k => (valueOf (itSigned (modeIT cx.sp.mode)) (x s cx k)).natAbs)
    ∧ SliceWord (.not d a true) d (fun s cx k => (~~~(x s cx k)).toNat)
    ∧ SliceWord (.sex8 d a true) d (fun s cx k => (((x s cx k).setWidth 8).signExtend 64).toNat)
    ∧ SliceWord (.sex16 d a true) d (fun s cx k => (((x s cx k).setWidth 16).signExtend 64).toNat)
    ∧ (∀ p : Bool, LaneWord (.movg d a p) d (if p then 2 else 1) (fun s cx le => cx.gOf s le.sk a.toNat))
    ∧ (∀ (p : Bool) (l : BitVec 2), SliceWord (.movl d a p l) d (fun s _ sk =>
        let x := fun (n : Nat) => (readUnit s.tick sk (s.slice sk) (keyX ((s.slice sk).wb + n) l.toNat)).toNat
        x a.toNat + if p then 2 ^ 32 * x (a.toNat + 1) else 0))

/-- R145, Table 5.7: the immediate words; the immediate is sign-extended and read modulo 2^w with the element's
signedness. R36, R146 and R147: GADDI adds the sign-extended immediate modulo 2^64; LDH loads imm17 << 15; LDL replaces
bits [14:0] alone; LDHG loads the sign-extended imm17 in every slice, and LDLG shifts the value it reads left by 17 and
ORs its own in: the value the member before it writes when it directly follows one of its chain, else the value read at
issue. -/
def Obligations.ImmediateWords : Prop :=
  (∀ (d a : BitVec 8) (i : BitVec 9) (n : BitVec 5),
     let imm := fun (it : Nat) => valueOf (itSigned it) (BitVec.ofInt (itWidth it) i.toInt)
     let x := fun (it k : Nat) (le : LaneEnv) => elemBits it k (le.x a.toNat)
     ElemWord (.addi d a i) d (fun it sat k le => fitted it sat (elemInt it k (le.x a.toNat) + imm it))
     ∧ ElemWord (.muli d a i) d (fun it sat k le => fitted it sat (elemInt it k (le.x a.toNat) * imm it))
     ∧ LaneWord (.andi d a i) d 1 (fun _ _ le => (le.x a.toNat &&& i.signExtend 32).toNat)
     ∧ LaneWord (.ori d a i) d 1 (fun _ _ le => (le.x a.toNat ||| i.signExtend 32).toNat)
     ∧ LaneWord (.xori d a i) d 1 (fun _ _ le => (le.x a.toNat ^^^ i.signExtend 32).toNat)
     ∧ ElemWord (.shli d a n) d (fun it _ k le => x it k le <<< (n.toNat % itWidth it))
     ∧ ElemWord (.shri d a n) d (fun it _ k le =>
         if itSigned it then (x it k le).sshiftRight (n.toNat % itWidth it) else x it k le >>> (n.toNat % itWidth it))
     ∧ ElemWord (.roti d a n) d (fun it _ k le => (x it k le).rotateLeft (n.toNat % itWidth it)))
  ∧ (∀ (d a : BitVec 8) (i : BitVec 9) (h : BitVec 17) (l : BitVec 15),
        SliceWord (.gaddi d a i) d (fun s cx k => (BitVec.ofNat 64 (cx.gOf s k a.toNat) + i.signExtend 64).toNat)
        ∧ encode (.gaddi d a i) = some (0x1F#7 ++ d ++ a ++ i)
        ∧ LaneWord (.ldh d h) d 1 (fun _ _ _ => (h.setWidth 32 <<< 15).toNat)
        ∧ (∀ (s : State) (cx : Iss), Issues s (.ldl d l) cx → ∃ t, exec (.ldl d l) s = .next t ∧ NextWord s t cx ∧
            LeavesX s t cx d.toNat 1 ∧ ∀ le ∈ guardedLanes s cx.sp,
              t.reg le.sk (le.key d.toNat) = (s.reg le.sk (le.key d.toNat) &&& ~~~0x7FFF#32) ||| l.setWidth 32)
        ∧ SliceWord (.ldhg d h) d (fun _ _ _ => (h.signExtend 64).toNat)
        ∧ SliceWord (.ldlg d h) d (fun s cx k =>
            let r := gIndex cx.sp.handler d.toNat
            let old := if d.toNat ≠ 0 ∧ (s.slice k).chain = some r then
                (s.reg k (keyG r 1) ++ s.reg k (keyG r 0)) else BitVec.ofNat 64 (cx.gOf s k d.toNat)
            (old <<< 17 ||| h.setWidth 64).toNat))

/-- The condition of Table 2.11 over two 32-bit values. -/
def Sys2Proof.Machine.condition (sgn : Bool) (cc : Nat) (x y : Word) : Bool :=
  match cc with
  | 0 => decide (x = y) | 1 => decide (x ≠ y) | 2 => decide (valueOf sgn x < valueOf sgn y)
  | 3 => decide (valueOf sgn x ≤ valueOf sgn y) | 4 => decide (valueOf sgn y < valueOf sgn x)
  | 5 => decide (valueOf sgn y ≤ valueOf sgn x) | 6 => decide (x &&& y ≠ 0#32) | _ => decide (x &&& y = 0#32)

/-- R152 and R153: ICMP, ICMPI and PLOG write one predicate in each active guarded lane; p0 discards. R154, Table 2.7:
PMOV between predicates and x slots. PMOV.p2x writes 64 predicates of the lane to a pair, bit 0 with 1; PMOV.x2p writes p1
to p63 from a pair and leaves p0. -/
def Obligations.PredicateWords : Prop :=
  ((∀ (p : BitVec 6) (a b : BitVec 8) (c : BitVec 3), PredWord (.icmp p a b c) p.toNat
      (fun _ cx le => condition (itSigned (modeIT cx.sp.mode)) c.toNat (le.x a.toNat) (le.x b.toNat)))
  ∧ (∀ (p : BitVec 6) (a i : BitVec 8) (c : BitVec 3), PredWord (.icmpi p a i c) p.toNat
      (fun _ cx le => condition (itSigned (modeIT cx.sp.mode)) c.toNat (le.x a.toNat) (i.signExtend 32)))
  ∧ (∀ (d a b : BitVec 6) (tt : BitVec 4), PredWord (.plog d a b tt) d.toNat
      (fun _ _ le => tt.getLsbD (2 * (if le.p a.toNat then 1 else 0) + if le.p b.toNat then 1 else 0))))
  ∧ ((∀ d a : BitVec 8, PredWord (.pmovMov d a) d.toNat (fun _ _ le => le.p a.toNat)
    ∧ PredWord (.pmovNot d a) d.toNat (fun _ _ le => !le.p a.toNat)
    ∧ PredWord (.pmovLsb d a) d.toNat (fun _ _ le => (le.x a.toNat).getLsbD 0)
    ∧ ∀ v : Bool, PredWord (.pmovSet d v) d.toNat (fun _ _ _ => v))
  ∧ (∀ (s : State) (cx : Iss) (d : BitVec 8), Issues s (.pmovP2x d) cx → ∃ t, exec (.pmovP2x d) s = .next t ∧
      NextWord s t cx ∧ LeavesX s t cx d.toNat 2 ∧ ∀ le ∈ guardedLanes s cx.sp, ∀ j, j < 64 →
        (t.reg le.sk (le.key (d.toNat + j / 32))).getLsbD (j % 32) = le.p j)
  ∧ (∀ (s : State) (cx : Iss) (a : BitVec 8), Issues s (.pmovX2p a) cx → ∃ t, exec (.pmovX2p a) s = .next t ∧
      NextWord s t cx ∧
      (∀ le ∈ guardedLanes s cx.sp, ∀ j, 0 < j → j < 64 →
        t.reg le.sk (keyP j le.i) = w32 (ofBool ((le.x (a.toNat + j / 32)).getLsbD (j % 32)))) ∧
      ∀ sk key, (∀ le ∈ guardedLanes s cx.sp, ∀ j, 0 < j → j < 64 → ¬(le.sk = sk ∧ keyP j le.i = key)) →
        t.reg sk key = s.reg sk key))

/-! ### Memory words (spec/06, 08, 11) -/

/-- R168, R262: LDG, STG, LDF and STF make one access for each active guarded lane at the address in the pair x a, LDGG
and STGG one for each slice at its own g a, on the token the word names, with the EP of MODE, with .lu where a load names it, and with
no order of its own; no register or byte changes at issue. -/
def Obligations.MemoryWordsPostAccesses : Prop :=
  ∀ (d a : BitVec 8) (k : BitVec 4) (z : BitVec 3) (l : Bool),
    let n := sizeBytes z
    let w := sizeSlots z
    let addr := fun (le : LaneEnv) => le.xs a.toNat 2
    let load := fun (_ : Iss) => ({ lu := l } : Terms)
    let store := fun (_ : Iss) => ({} : Terms)
    MemWord (.ldg d a k z l) k .load .r (z.toNat == 4) (z.toNat == 5) (laneUnits addr (fun _ => n) fun le u =>
      { u with dst := le.units d.toNat w, conv := .extend (sizeSigned z) (4 * w) }) load
    ∧ MemWord (.stg d a k z) k .store .w (z.toNat == 4) (z.toNat == 5) (laneUnits addr (fun _ => n) fun le u =>
      { u with data := leBytes n (le.xs d.toNat w) }) store
    ∧ MemWord (.ldf d a k l) k .load .r false false (laneUnits addr (fun le => 4 * classSlots le.cls) fun le u =>
      { u with dst := le.units (classSlots le.cls * d.toNat) (classSlots le.cls), conv := .extend false (4 * classSlots le.cls) }) load
    ∧ MemWord (.stf d a k) k .store .w false false (laneUnits addr (fun le => 4 * classSlots le.cls) fun le u =>
      { u with data := leBytes (4 * classSlots le.cls) (le.xs (classSlots le.cls * d.toNat) (classSlots le.cls)) }) store
    ∧ MemWord (.ldgg d a k z l) k .load .r (z.toNat == 4) (z.toNat == 5) (fun s cx => sliceUnits a n (fun _ u =>
      { u with dst := gUnits cx.sp.handler d.toNat, conv := .extend (sizeSigned z) 8 }) s cx) load
    ∧ MemWord (.stgg d a k z) k .store .w (z.toNat == 4) (z.toNat == 5) (fun s cx => sliceUnits a n (fun sk u =>
      { u with data := leBytes n (cx.gOf s sk d.toNat) }) s cx) store

/-- R205: LDS and STS make one access for each active guarded lane at the team offset in x a, with no order of its own; R206 and
R263: ATOMS and ATOM make one atomic for each, with v in x d, or for cas (code 7) e in x d and v in the slots after it, by the
operation, signedness and width the word names. R316: its release and acquire parts are those of MODE.ORD, at the scope of MODE.SCP,
which for ATOMS is core at most. -/
def Obligations.ScratchAndAtomicWordsPostAccesses : Prop :=
  ∀ (d a : BitVec 8) (k : BitVec 4) (z : BitVec 3) (o : BitVec 3) (sg w : Bool),
    let n := sizeBytes z
    let c := sizeSlots z
    let q := if w then 2 else 1
    let plain := fun (_ : Iss) => ({} : Terms)
    let atomic := fun (le : LaneEnv) (u : MUnit) =>
      { u with dst := le.units d.toNat q, conv := .extend false (4 * q)
               opV := le.xs (if o = 7#3 then d.toNat + q else d.toNat) q, opE := if o = 7#3 then le.xs d.toNat q else 0 }
    ScratchWord (.lds d a k z) k .load (laneUnits (fun le => (le.x a.toNat).toNat) (fun _ => n) fun le u =>
      { u with dst := le.units d.toNat c, conv := .extend (sizeSigned z) (4 * c) }) plain
    ∧ ScratchWord (.sts d a k z) k .store (laneUnits (fun le => (le.x a.toNat).toNat) (fun _ => n) fun le u =>
      { u with data := leBytes n (le.xs d.toNat c) }) plain
    ∧ ScratchWord (.atoms d a k o sg w) k .atom (laneUnits (fun le => (le.x a.toNat).toNat) (fun _ => 4 * q) atomic)
      (atomTerms o sg w 1)
    ∧ MemWord (.atom d a k o sg w) k .atom .rw (!w) false (laneUnits (fun le => le.xs a.toNat 2) (fun _ => 4 * q) atomic)
      (atomTerms o sg w 7)

/-- The unit of a lane's element of the array that its slice's descriptor `h` names (R173): single-copy atomic when it has at most 8
bytes within one granule of 64 (R174). -/
def Sys2Proof.Machine.elementUnits (a : BitVec 8) (h : BitVec 3) (f : LaneEnv → MUnit → MUnit) : State → Iss → List MUnit :=
  let va := fun (le : LaneEnv) => hBase (le.h h) + (le.x a.toNat).toNat * hB (le.h h)
  laneUnits va (fun le => hB (le.h h)) fun le u =>
    f le { u with whole := decide (hB (le.h h) ≤ 8 ∧ va le % 64 + hB (le.h h) ≤ 64) }

/-- The header fields of Table 6.8 that VPAH takes into a descriptor (Table 6.9), and the first check they fail (Table 6.10). -/
def Sys2Proof.Machine.headerSub (v : Nat) : Nat :=
  let f := fun (at_ n : Nat) => v / 2 ^ at_ % 2 ^ n
  let p := f 24 8
  let e := f 32 8
  if f 0 16 ≠ 0x5056 then 1 else if f 16 8 ≠ 1 then 2 else if p < 2 ∨ 113 < p then 3 else if e ∉ [8, 11, 15] then 4
  else if f 40 8 ≠ (p + e + 7) / 8 then 5 else if f 48 16 ≠ 0 ∨ f 96 32 ≠ 0 then 6 else 0

/-- R164, R173, R174: LDP and STP reach element x a of the array of descriptor h in each active guarded lane. A lane with an invalid
descriptor raises cause 0x17 subcause 8; one whose index is not below the count subcause 7; a lane of LDP.x whose container does
not hold the element format exactly raises 0x0D subcause 2; a lane in exact mode (PREC.XT = 1) whose element STP rounds
inexactly raises 0x0D subcause 1. Where none does, LDP, LDP.x and STP post one access for each lane and go on at once, but for
LDP in normal mode with a lane in exact mode: it posts one operation with every access, and the split waits for its check. The
accesses have the EP of MODE and no order of their own; TVAL of 0x0D subcause 2 is that of the lowest failing lane's array (log entry
78, DESIGN CHOICE). R172:
VPAH raises cause 0x04 on a misaligned header address, and else posts one operation that reads each slice's header, and the
split waits for its check. What a header of 16 bytes gives is its subcause, or the descriptor of its fields. STP rounds at issue
and its flags stand with its access (log entry 29, DEDUCED). -/
def Obligations.PackedArrayWords : Prop :=
  (∀ (s : State) (cx : Iss) (d a : BitVec 8) (k : BitVec 4) (x st : Bool) (h : BitVec 3),
    let i : Instr := if st then .stp d a k h else .ldp d a k x h
    let enc := fun (le : LaneEnv) => encodeElement le (hP (le.h h)) (hE (le.h h)) d.toNat
    let us := elementUnits a h (fun le u =>
      if st then { u with data := leBytes (hB (le.h h)) (enc le).v, fl := (enc le).flags }
      else
        { u with dst := le.units (classSlots le.cls * d.toNat) (classSlots le.cls)
                 conv := .packed (hP (le.h h)) (hE (le.h h)) le.lane.prec }) s cx
    let ls := guardedLanes s cx.sp
    let invalid := ls.filter fun le => !hValid (le.h h)
    let past := ls.filter fun le => decide (hCount (le.h h) ≤ (le.x a.toNat).toNat)
    let narrow := ls.filter fun le => decide (precP le.lane.prec < hP (le.h h) ∨ classEb le.cls < hE (le.h h))
    let rounds := ls.filter fun le => precXT le.lane.prec && bitAt (enc le).flags 0
    let fits := invalid = [] ∧ past = [] ∧ (st = false → x = true → narrow = []) ∧ (st = true → rounds = [])
    let waits := st = false ∧ x = false ∧ ∃ le ∈ ls, precXT le.lane.prec = true
    let access := fun (accs : List Acc) (b : OpBody) =>
      b = ({} : Terms).body (if st then .store else .load) false (modeEP cx.sp.mode) accs
    Stands s i cx →
      (invalid ≠ [] → Traps i s cx 0x17 8 0 (laneMask invalid)) ∧
      (∀ le t, invalid = [] → past = le :: t → Traps i s cx 0x17 7 (le.x a.toNat).toNat (laneMask past)) ∧
      (∀ le t, invalid = [] → past = [] → st = false → x = true → narrow = le :: t →
        Traps i s cx 0x0D 2 (hP (le.h h) + 256 * hE (le.h h)) (laneMask narrow)) ∧
      (invalid = [] → past = [] → st = true → rounds ≠ [] → Traps i s cx 0x0D 1 0 (laneMask rounds)) ∧
      (fits → match xlateAll s cx.env (unitChecks us (if st then .w else .r)) with
        | .fault c => exec i s = .next (raiseAt s cx.sid c)
        | .park ms ps => Issues s i cx → Parks i k.toNat s cx ms ps
        | .ok pas =>
          let out := us.filter fun u => !regionOk s false false (unitAddrs pas u)
          (out ≠ [] → UnitTrap i s cx 0x04 out fun v => out.head?.map MUnit.va = some v) ∧
          (out = [] → Issues s i cx → ¬waits → ∃ t, exec i s = .next t ∧ Posts s t cx ∧ ∀ u ∈ us, u.sk ∈ cx.sp.keys →
            Posted s t k.toNat u.sk fun b => ∃ accs, access accs b ∧ u.acc (unitAddrs pas u) ∈ accs) ∧
          (out = [] → Issues s i cx → waits → ∃ t, exec i s = .next t ∧
            PostsAs s t cx { cx.sp with wait := .check s.nextOp, passed := [], declined := [], hazard := none, held := none } ∧
            ∀ sk ∈ cx.sp.keys, Posted s t k.toNat sk fun b => access (us.map fun u => u.acc (unitAddrs pas u)) b)))
  ∧ (∀ (s : State) (cx : Iss) (d a : BitVec 8) (k : BitVec 4),
    let i : Instr := .vpah d a k
    let us := sliceUnits a 16 (fun _ u => u) s cx
    let odd := us.filter fun u => decide (u.va % 16 ≠ 0)
    Stands s i cx →
      (odd ≠ [] → UnitTrap i s cx 0x04 odd fun v => odd.head?.map MUnit.va = some v) ∧
      (odd = [] → match xlateAll s cx.env (unitChecks us .r) with
        | .fault c => exec i s = .next (raiseAt s cx.sid c)
        | .park ms ps => Issues s i cx → Parks i k.toNat s cx ms ps
        | .ok pas =>
          let out := us.filter fun u => !regionOk s false false (unitAddrs pas u)
          (out ≠ [] → UnitTrap i s cx 0x04 out fun v => out.head?.map MUnit.va = some v) ∧
          (out = [] → Issues s i cx → ∃ t, exec i s = .next t ∧
            PostsAs s t cx { cx.sp with wait := .check s.nextOp, passed := [], declined := [], hazard := none, held := none } ∧
            ∀ sk ∈ cx.sp.keys, Posted s t k.toNat sk fun b => b = .vpah d.toNat
              (us.map fun u => (u.sk, u.va, (unitAddrs pas u).headD 0)) (modeEP cx.sp.mode))))
  ∧ ∀ va v : Nat, va + 16 < 2 ^ 48 → v < 2 ^ 128 →
      let f := fun (at_ n : Nat) => v / 2 ^ at_ % 2 ^ n
      (headerSub v ≠ 0 → headerCheck va v = .error (headerSub v)) ∧
      (headerSub v = 0 → ∃ h, headerCheck va v = .ok h ∧ hValid h = true ∧ hBase h = va + 16 ∧ hP h = f 24 8 ∧
        hE h = f 32 8 ∧ hB h = f 40 8 ∧ hCount h = f 64 32)

/-- R264: a CMO whose pieces' translations pass posts one operation for each slice on its lines and goes on; a failed translation raises
its cause, one that misses parks the split. R265: PREF is a hint that goes on at once: it changes no register, operation, counter,
team or context. -/
def Obligations.CacheWordsComplete : Prop :=
  (∀ (s : State) (cx : Iss) (d a : BitVec 8) (k : BitVec 4) (l : Bool) (o : BitVec 3),
    let i : Instr := .cmo d a k l o
    let us := (guardedLanes s cx.sp).map fun le =>
      (le, cmoRange (le.xs a.toNat 2) (readG s.tick le.sk le.sl cx.sp.handler d.toNat % 2 ^ 32))
    let need := if o = 0 then Need.r else if o = 1 then .w else .rw
    Stands s i cx → match xlateAll s cx.env
        ((us.filter fun u => u.2.2 ≠ 0).map fun u => chksOf u.1.n (2 ^ u.1.n) u.2.1 u.2.2 need).flatten with
      | .fault c => exec i s = .next (raiseAt s cx.sid c)
      | .park ms ps => Issues s i cx → Parks i k.toNat s cx ms ps
      | .ok pas => Issues s i cx → ∃ t, exec i s = .next t ∧ Posts s t cx ∧
        ∀ sk ∈ cx.sp.keys, Posted s t k.toNat sk fun b => ∃ lines, b = .cmo o.toNat l lines (modeEP cx.sp.mode) ∧
          ∀ p ∈ pas, sliceKey cx.sp.team cx.sp.gang (p.1.unit / 4) = sk → ∀ x ∈ pieceLines s p, x ∈ lines)
  ∧ (∀ (s : State) (cx : Iss) (a : BitVec 8) (l : Bool), Issues s (.pref a l) cx →
      ∃ t, exec (.pref a l) s = .next t ∧ Goes t cx ∧ (∀ sk key, t.reg sk key = s.reg sk key) ∧
        (∀ sk, (t.slice sk).still = (s.slice sk).still) ∧ t.ctxs = s.ctxs ∧
        t.teams = s.teams ∧ t.ops = s.ops ∧ t.ctrs = s.ctrs ∧ t.fe = s.fe)

/-- R204: SPRZ writes NEW × 256 + STATUS to g d of every slice: a request beyond 32 ways gives status 2, one for more ways
while a unit of theirs is allotted gives status 1, each with nothing changed; else L1 has the ways asked for. -/
def Obligations.SprzMovesTheSplit : Prop :=
  ∀ (s : State) (cx : Iss) (d a : BitVec 8), Issues s (.sprz d a) cx →
    let m := cx.g s a.toNat
    let n := (s.core cx.ck).l1w.toNat
    let refused := 32 < m ∨ (n < m ∧ waysAllotted s cx.tm.site cx.tm.core (32 - m) (32 - n) = true)
    ∃ t, exec (.sprz d a) s = .next t ∧
      (32 < m → (t.core cx.ck).l1w.toNat = n) ∧ (refused → t.cores = s.cores) ∧
      (¬refused → (t.core cx.ck).l1w.toNat = m) ∧
      (∀ sk ∈ cx.sp.keys, d.toNat ≠ 0 → ∀ h, h < 2 → t.regG sk cx.sp.handler d.toNat h =
        half ((t.core cx.ck).l1w.toNat * 256 + if 32 < m then 2 else if refused then 1 else 0) h)

/-! ### Tokens, waits, barriers and fences (spec/04, 08, 09, 13, 14) -/

/-- R114 to R117: WAIT t, n goes on when every slice's count of t is at most n and else waits; TKS.drain waits for every
token, TKS.rs for the eight it restores, whose standing counts it then sets from the g register that it read at issue, one byte each; TKS.rd
reads eight counts, one byte each. A wait for tokens whose condition holds when its core looks at it ends, and a TKS.rs sets the
counts there. -/
def Obligations.TokenWords : Prop :=
  (∀ (s : State) (cx : Iss) (d n : BitVec 8), Issues s (.wait d n) cx → remoteFault s cx.sp = none →
    ∃ t, exec (.wait d n) s = .next t ∧ Quiet s t ∧
      if ∀ sk ∈ cx.sp.keys, (s.slice sk).count d.toNat ≤ n.toNat then Goes t cx else Waits t cx (.token d.toNat n.toNat))
  ∧ (∀ (s : State) (cx : Iss), Issues s .tksDrain cx → remoteFault s cx.sp = none →
    ∃ t, exec .tksDrain s = .next t ∧ Quiet s t ∧
      if ∀ sk ∈ cx.sp.keys, (s.slice sk).toks = [] then Goes t cx else Waits t cx .drain)
  ∧ (∀ (s : State) (cx : Iss) (a : BitVec 8) (h : Bool), Issues s (.tksRs a h) cx → remoteFault s cx.sp = none →
    let n := if h then 1 else 0
    ∃ t, exec (.tksRs a h) s = .next t ∧ Quiet s t ∧
      if ∀ sk ∈ cx.sp.keys, ∀ e ∈ (s.slice sk).toks, e.tok / 8 ≠ n then
        Goes t cx ∧ ∀ sk ∈ cx.sp.keys, ∀ j, j < 8 → (t.slice sk).standing (8 * n + j) = cx.gOf s sk a.toNat / 2 ^ (8 * j) % 256
      else Waits t cx (.restore n (cx.sp.keys.map fun sk => (sk, BitVec.ofNat 64 (cx.gOf s sk a.toNat)))))
  ∧ (∀ (s : State) (sid : Nat) (sp : Split) (tm : Team), find sid s.splits = some sp → find sp.team s.teams = some tm →
    remoteFault s sp = none →
    let ends := find sid (pollWait s sid).splits = some { sp with wait := .none, pc := addPc sp.pc 4, passed := [], declined := [], hazard := none, held := none }
    (∀ n k, sp.wait = .token n k → (∀ sk ∈ sp.keys, (s.slice sk).count n ≤ k) → ends) ∧
    (sp.wait = .drain → (∀ sk ∈ sp.keys, (s.slice sk).toks = []) → ends) ∧
    ∀ n vals, sp.wait = .restore n vals → (∀ sk ∈ sp.keys, ∀ e ∈ (s.slice sk).toks, e.tok / 8 ≠ n) → ends ∧
      ((vals.map (·.1)).Nodup → ∀ e ∈ vals, ∀ j, j < 8 →
        ((pollWait s sid).slice e.1).standing (8 * n + j) = e.2.toNat / 2 ^ (8 * j) % 256))
  ∧ (∀ (d : BitVec 8) (h : Bool), SliceWord (.tksRd d h) d (fun s _ sk =>
      ((List.range 8).map fun j => (s.slice sk).count ((if h then 8 else 0) + j) % 256 * 2 ^ (8 * j)).sum))

/-- R211, R212: BARI sets a byte barrier's phase, disarms it and clears its remainder; BARA adds expected bytes and arms
it, and the completion check follows; BARW goes on when the phase differs from the one named, else it waits. R208: BSYNC
with a well-formed operand completes; while the lanes that have arrived, with those of the participating gangs that have
exited, stay below the expected number, the arrivals have grown by the split's live lanes, the first arrival of a phase
has latched the gangs and the number, and the split waits; when they reach it the phase closes, and every split that waits at the barrier goes on
once the accesses of the slices concerned have taken effect (R209). R201: an operand or a barrier out of range raises cause 0x13 with the
barrier's number. R213: MWAIT on an aligned readable word goes on when the word
differs from the expected one, and else arms a monitor on its line and waits; a misaligned address raises cause 0x04. -/
def Obligations.BarrierAndMonitorWords : Prop :=
  (∀ (s : State) (cx : Iss) (a : BitVec 8) (b : BitVec 5), b.toNat < cx.tm.bbs.length →
    let v := cx.g s a.toNat
    let old := cx.tm.bb b.toNat
    let armed : ByteBar := { old with rem := old.rem + BitVec.ofNat 32 v, arm := true }
    (Issues s (.bari a b) cx → v < 2 → ∃ t, exec (.bari a b) s = .next t ∧ Goes t cx ∧
      find cx.sp.team t.teams = some { cx.tm with bbs := cx.tm.bbs.set b.toNat ⟨false, decide (v = 1), 0⟩ })
    ∧ (Issues s (.bara a b) cx → v < 2 ^ 31 → old.rem.toInt + v < 2 ^ 31 → ∃ t, exec (.bara a b) s = .next t ∧ Goes t cx ∧
      find cx.sp.team t.teams = some { cx.tm with bbs := cx.tm.bbs.set b.toNat (if armed.rem = 0 then
        { armed with ph := !old.ph, arm := false } else armed) })
    ∧ (Issues s (.barw a b) cx → v < 2 → ∃ t, exec (.barw a b) s = .next t ∧ Quiet s t ∧
      if old.ph = decide (v = 1) then Waits t cx (.barw b.toNat (decide (v = 1))) else Goes t cx))
  ∧ (∀ (s : State) (cx : Iss) (a : BitVec 8) (b : BitVec 5),
    let v := cx.g s a.toNat
    let out := cx.tm.bbs.length ≤ b.toNat
    (Stands s (.bari a b) cx → out ∨ 2 ≤ v → Traps (.bari a b) s cx 0x13 0 b.toNat (liveMask s cx.sp)) ∧
    (Stands s (.barw a b) cx → out ∨ 2 ≤ v → Traps (.barw a b) s cx 0x13 0 b.toNat (liveMask s cx.sp)) ∧
    (Stands s (.bara a b) cx → out ∨ 2 ^ 31 ≤ v ∨ 2 ^ 31 ≤ (cx.tm.bb b.toNat).rem.toInt + v →
      Traps (.bara a b) s cx 0x13 0 b.toNat (liveMask s cx.sp)))
  ∧ (∀ (s : State) (cx : Iss) (a : BitVec 8) (b : BitVec 6), Stands s (.bsync a b) cx →
    let v := cx.g s a.toNat
    let gs := v / 2 ^ 16 % 2 ^ 16
    cx.tm.bars.length ≤ b.toNat ∨ v / 2 ^ 32 % 2 ^ 32 ≠ 0 ∨ v / 2 ^ 11 % 2 ^ 5 ≠ 0 ∨ 1024 < v % 2 ^ 11 ∨
      2 ^ cx.tm.gangs.length ≤ gs → Traps (.bsync a b) s cx 0x13 0 b.toNat (liveMask s cx.sp))
  ∧ (∀ (s : State) (cx : Iss) (a : BitVec 8) (b : BitVec 6), Issues s (.bsync a b) cx → b.toNat < cx.tm.bars.length →
    bsyncBad cx.tm (cx.g s a.toNat) = false →
    let old := cx.tm.bar b.toNat
    let v := cx.g s a.toNat
    let gm := if old.arr = 0 then BitVec.ofNat 16 (bsyncMask cx.tm v) else old.gm
    let nx := if old.arr = 0 then BitVec.ofNat 11 (bsyncCount cx.tm v) else old.nx
    let arr := old.arr + BitVec.ofNat 11 (liveLanes s cx.sp).length
    let come := arr.toNat + sumNat ((setBits 16 gm.toNat).map fun g => exitedLanes s cx.sp.team g)
    let waiting := fun (e : Nat × Split) => e.2.team = cx.sp.team ∧ e.2.wait = .bsync b.toNat ∧ find e.1 s.splits = some e.2
    ∃ t, exec (.bsync a b) s = .next t ∧
      (come < nx.toNat → Waits t cx (.bsync b.toNat) ∧
        find cx.sp.team t.teams = some { cx.tm with bars := cx.tm.bars.set b.toNat ⟨gm, nx, arr⟩ }) ∧
      (arr ≠ 0 → nx.toNat ≤ come →
        find cx.sp.team t.teams = some { cx.tm with bars := cx.tm.bars.set b.toNat ⟨gm, nx, 0⟩ } ∧
        (rising s.splits = true → (∀ e ∈ s.ops, e.2.body.isAccess = false) →
          find cx.sid t.splits = some { cx.after with busy := cx.sp.busy } ∧
          ∀ e ∈ s.splits, waiting e → find e.1 t.splits =
            some { e.2 with wait := .none, pc := addPc e.2.pc 4, passed := [], declined := [], hazard := none, held := none })))
  ∧ (∀ (s : State) (cx : Iss) (d a : BitVec 8), Stands s (.mwait d a) cx → cx.g s a.toNat % 4 ≠ 0 →
    Traps (.mwait d a) s cx 0x04 0 (cx.g s a.toNat) (liveMask s cx.sp))
  ∧ (∀ (s : State) (cx : Iss) (d a : BitVec 8) (c : Chk) (pa : Nat), Issues s (.mwait d a) cx → cx.g s a.toNat % 4 = 0 →
    xlateAll s cx.env (chksOf 0 (liveMask s cx.sp) (cx.g s a.toNat) 4 .r 1) = .ok [(c, pa)] →
    poisonedAt s [paKey pa] = none →
    ∃ t, exec (.mwait d a) s = .next t ∧ Quiet s t ∧
      if leNat ((List.range 4).map fun k => readByte s.mem (paKey pa + k)) = cx.g s d.toNat / 2 ^ 32 % 2 ^ 32 then
        Waits t cx (.mwait (lineOf (paKey pa)) (cx.g s d.toNat % 2 ^ 32) (s.core cx.ck).cycles
          (BitVec.ofNat 64 (cx.g s a.toNat)) false)
      else Goes t cx)

/-- R229, R300, R313, R314: FENCE goes on when the part its order has is met (release: no store or atomic of the split's
slices outstanding, and from panel scope up no remote operation but RGET unperformed; acquire: no load or atomic
outstanding, and with the engine bit no engine operation), LRFENCE when no store to memory is outstanding, RFENCE when no
remote operation is still to be performed at its target, which for RGET is the reading there; else each waits. Registers are as before. -/
def Obligations.FenceWords : Prop :=
  ∀ (s : State) (cx : Iss),
    let none := fun (f : OpBody → Bool) => opsOf s cx.sp.keys f = []
    (∀ (sc o : BitVec 3) (e : Bool), Issues s (.fence sc o e) cx →
      let scope := if e then max sc.toNat 2 else sc.toNat
      let rel := 2 ≤ o.toNat → none OpBody.isWrite ∧ (3 ≤ scope → none OpBody.isRemoteWrite)
      let acq := (o.toNat = 1 ∨ 3 ≤ o.toNat) → none OpBody.isRead ∧ (e = true → none OpBody.isEngine)
      ∃ t, exec (.fence sc o e) s = .next t ∧ (∀ sk key, t.reg sk key = s.reg sk key) ∧ t.ctxs = s.ctxs ∧ t.ops = s.ops ∧
        ((rel ∧ acq) → Goes t cx) ∧ (¬(rel ∧ acq) → Waits t cx (.fence sc.toNat o.toNat e)))
    ∧ (Issues s .lrfence cx → ∃ t, exec .lrfence s = .next t ∧ (∀ sk key, t.reg sk key = s.reg sk key) ∧ t.ctxs = s.ctxs ∧
        (none OpBody.isMemWrite → Goes t cx ∧ (t.core cx.ck).recs = []) ∧ (¬none OpBody.isMemWrite → Waits t cx .lrfence))
    ∧ (Issues s .rfence cx → remoteFault s cx.sp = Option.none → ∃ t, exec .rfence s = .next t ∧ Quiet s t ∧
        (none OpBody.isAtTarget → Goes t cx) ∧ (¬none OpBody.isAtTarget → Waits t cx .rfence))

/-- R299 and R370: NWAIT of a well-formed designator on the issuing island, and LWAIT, wait while the counter has not
reached its threshold, or a child of a slice runs; then they go on as an acquire at panel scope does. A reserved bit of an operand
of NWAIT raises cause 0x12 subcause 24, an index outside the window 25, another island 26 (Table 13.6). -/
def Obligations.CounterAndChildWaits : Prop :=
  ∀ (s : State) (cx : Iss),
    let quiet := opsOf s cx.sp.keys OpBody.isRead = []
    (∀ d a : BitVec 8, Stands s (.nwait d a) cx → remoteFault s cx.sp = none →
      let des := cx.g s a.toNat
      let thr := cx.g s d.toNat
      let trap := fun (n v : Nat) => Traps (.nwait d a) s cx 0x12 n v (liveMask s cx.sp)
      let inside := des % 4096 < ncount (windowOfCtx s cx.asid)
      (desReserved des = true → trap 24 des) ∧ (desReserved des = false → 2 ^ 32 ≤ thr % 2 ^ 64 → trap 24 thr) ∧
      (desReserved des = false → thr < 2 ^ 32 → ¬inside → trap 25 des) ∧
      (desReserved des = false → thr < 2 ^ 32 → inside → desOwn s cx.tm.site des = false → trap 26 des))
    ∧ (∀ d a : BitVec 8, Issues s (.nwait d a) cx → remoteFault s cx.sp = none →
      let des := cx.g s a.toNat
      let thr := cx.g s d.toNat
      let ctr := 4096 * cx.tm.site + nbase (windowOfCtx s cx.asid) + des % 4096
      desReserved des = false → thr < 2 ^ 32 → des % 4096 < ncount (windowOfCtx s cx.asid) → desOwn s cx.tm.site des = true →
      let past := (s.ctr ctr - BitVec.ofNat 32 thr).toNat < 2 ^ 31
      ∃ t, exec (.nwait d a) s = .next t ∧ (∀ sk key, t.reg sk key = s.reg sk key) ∧ t.ctrs = s.ctrs ∧
        (past → quiet → Goes t cx) ∧ (past → ¬quiet → Waits t cx (.fence 3 1 false)) ∧ (¬past → Waits t cx (.nwait ctr thr)))
    ∧ (Issues s .lwait cx →
      let idle := ∀ sk ∈ cx.sp.keys, (s.slice sk).children = 0
      ∃ t, exec .lwait s = .next t ∧ (∀ sk key, t.reg sk key = s.reg sk key) ∧
        (idle → quiet → Goes t cx) ∧ (idle → ¬quiet → Waits t cx (.fence 3 1 false)) ∧ (¬idle → Waits t cx .lwait))

/-- R328, R368, R369: LAUNCH of an aligned readable header posts one operation, counts a child against the split's lowest slice,
and puts a launch of one depth more than its grid's with the front end; the split goes on once no store, atomic or remote write of its slices is
outstanding, and else waits for that. A misaligned header raises cause 0x04, and a failed translation its cause. -/
def Obligations.LaunchCountsAChild : Prop :=
  (∀ (s : State) (cx : Iss) (a : BitVec 8) (k : BitVec 4), Stands s (.launch a k) cx → cx.g s a.toNat % 128 ≠ 0 →
    Traps (.launch a k) s cx 0x04 0 (cx.g s a.toNat) (liveMask s cx.sp))
  ∧ (∀ (s : State) (cx : Iss) (a : BitVec 8) (k : BitVec 4) (c : CauseRec), Stands s (.launch a k) cx → cx.g s a.toNat % 128 = 0 →
    xlateAll s cx.env (chksOf 0 (liveMask s cx.sp) (cx.g s a.toNat) 128 .r) = .fault c →
    exec (.launch a k) s = .next (raiseAt s cx.sid c))
  ∧ ∀ (s : State) (cx : Iss) (a : BitVec 8) (k : BitVec 4) (pas : List (Chk × Nat)), Issues s (.launch a k) cx →
    cx.g s a.toNat % 128 = 0 → xlateAll s cx.env (chksOf 0 (liveMask s cx.sp) (cx.g s a.toNat) 128 .r) = .ok pas →
    ∃ t l, exec (.launch a k) s = .next t ∧ find s.fe.nextId t.fe.launches = some l ∧ l.asid = cx.asid ∧
      l.header = cx.g s a.toNat ∧ l.parent = some (cx.sp.team, cx.low) ∧ l.pkt = none ∧
      (∀ g, find cx.tm.grid s.fe.grids = some g → l.depth = g.depth + 1 ∧ l.root = g.root) ∧
      (t.slice cx.low).children = (s.slice cx.low).children + 1 ∧
      (∀ sk ∈ cx.sp.keys, Posted s t k.toNat sk fun b => b = .launch s.fe.nextId) ∧
      (∀ sk key, t.reg sk key = s.reg sk key) ∧
      let clear := opsOf t cx.sp.keys OpBody.isWrite = [] ∧ opsOf t cx.sp.keys OpBody.isRemoteWrite = []
      (clear → Goes t cx ∧ l.ready = true) ∧ (¬clear → Waits t cx (.launch s.fe.nextId) ∧ l.ready = false)

/-! ### Control words (spec/03, 05, 15) -/

/-- R78, R79 and R129: BR moves the whole split by 4 × off25; BRG moves each slice by its own g register; CALL moves the
split, shifts every slice's window up by 8k and leaves the link word in g63; where some slice's window cannot move up, it raises cause
0x03 with the old WB of the first such slice (log entry 56, DEDUCED). -/
def Obligations.PlainBranchesAndCall : Prop :=
  (∀ (s : State) (cx : Iss) (o : BitVec 25), Issues s (.br o) cx → ∃ t, exec (.br o) s = .next t ∧
    OnlyRegs s t cx (addPc cx.sp.pc (4 * o.toInt)) 0 ∧ ∀ sk key, t.reg sk key = s.reg sk key)
  ∧ (∀ (s : State) (cx : Iss) (g : BitVec 8) (z : Bool) (o : BitVec 16), Issues s (.brg g z o) cx →
    ∃ t, exec (.brg g z o) s = .next t ∧ Quiet s t ∧ (∀ sk, (t.slice sk).still = (s.slice sk).still) ∧
      ∀ j ∈ cx.sp.slices, GoesTo t cx j (addPc cx.sp.pc
        (if (cx.gOf s (cx.key j) g.toNat = 0) = (z = true) then 4 * o.toInt else 4)))
  ∧ (∀ (s : State) (cx : Iss) (k : BitVec 5) (o : BitVec 20) (sk : Nat), Stands s (.call k o) cx →
    (cx.sp.keys.find? fun x => decide ((s.slice x).size ≤ (s.slice x).wb + 8 * k.toNat)) = some sk →
    Traps (.call k o) s cx 0x03 0 (8 * k.toNat + 2 ^ 16 * (s.slice sk).wb + 2 ^ 25) (liveMask s cx.sp))
  ∧ (∀ (s : State) (cx : Iss) (k : BitVec 5) (o : BitVec 20), Issues s (.call k o) cx →
    (∀ sk ∈ cx.sp.keys, (s.slice sk).wb + 8 * k.toNat < (s.slice sk).size) →
    ∃ t, exec (.call k o) s = .next t ∧
      find cx.sid t.splits = some { cx.after with pc := addPc cx.sp.pc (4 * o.toInt) } ∧
      WritesG s t cx 63 (fun _ => k.toNat * 2 ^ 48 + (addPc cx.sp.pc 4).toNat / 4 * 4) ∧
      (∀ sk ∈ cx.sp.keys, (t.slice sk).still = { (s.slice sk).still with wb := (s.slice sk).wb + 8 * k.toNat }) ∧
      (∀ sk, sk ∉ cx.sp.keys → t.slice sk = s.slice sk) ∧ (∀ a, readByte t.mem a = readByte s.mem a) ∧ t.ctxs = s.ctxs)

/-- R80 to R85: BRF, BRE, JOIN, LPB and BRB change the counters of live lanes and move each slice as their rules say; BRF
and LPB complete when no live lane they would count up stands at 255, and raise cause 0x09 where one does. -/
def Obligations.StructuredBranches : Prop :=
  ∀ (p : BitVec 6) (n : Bool) (o : BitVec 18) (off : BitVec 25),
    let act := fun (l : Lane) => l.e = false ∧ l.c = 0
    let holds := fun (s : State) (cx : Iss) (j i : Nat) => readP s.tick (cx.key j) (s.slice (cx.key j)) p.toNat i ^^ n
    let goes := fun (b : Bool) (cx : Iss) (x : Int) => addPc cx.sp.pc (if b then 4 else 4 * x)
    CounterWord (.brf p n o) (fun _ => true)
      (fun s cx j i l => if l.e then l.c else if l.c = 0 then (if holds s cx j i then 1 else 0) else l.c + 1)
      (fun s cx j => goes ((s.slice (cx.key j)).some fun i l => act l ∧ holds s cx j i = false) cx o.toInt)
    ∧ CounterWord (.bre off) (fun _ => false)
      (fun _ _ _ _ l => if l.e then l.c else if l.c = 0 then 1 else if l.c = 1 then 0 else l.c)
      (fun s cx j => goes ((s.slice (cx.key j)).some fun _ l => l.e = false ∧ l.c = 1) cx off.toInt)
    ∧ CounterWord .join (fun _ => false) (fun _ _ _ _ l => if l.e = false ∧ l.c ≠ 0 then l.c - 1 else l.c)
      (fun _ cx _ => addPc cx.sp.pc 4)
    ∧ CounterWord (.lpb off) (fun sl => sl.lanes.any fun l => act l)
      (fun s cx j _ l =>
        if ((s.slice (cx.key j)).lanes.any fun l => act l) ∧ l.e = false ∧ l.c ≠ 0 then l.c + 1 else l.c)
      (fun s cx j => goes ((s.slice (cx.key j)).lanes.any fun l => act l) cx off.toInt)
    ∧ CounterWord (.brb p n o) (fun _ => false)
      (fun s cx j i l =>
        let again := (s.slice (cx.key j)).some fun i l => act l ∧ holds s cx j i = true
        let c := if act l ∧ holds s cx j i = false then 1 else l.c
        if again = false ∧ l.e = false ∧ c ≠ 0 then c - 1 else c)
      (fun s cx j => addPc cx.sp.pc
        (if (s.slice (cx.key j)).some fun i l => act l ∧ holds s cx j i = true then 4 * o.toInt else 4))

/-- R130, R131: CALLR sends each slice to the one aligned 64-bit target its active lanes hold (its lowest live lane, when none is
active), moves its window up and leaves the link word in g63; a window that cannot move up raises cause 0x03, targets that differ within a
slice 0x0A, a misaligned one 0x04. RET sends each slice to its own g63 and moves its window
down by its own count; a window that cannot move down raises cause 0x03 (TVAL and TLANES: log entry 56, DEDUCED). -/
def Obligations.IndirectCallsAndReturns : Prop :=
  (∀ (s : State) (cx : Iss) (a : BitVec 8) (k : BitVec 5), Stands s (.callr a k) cx →
    let excess := cx.sp.keys.find? fun x => decide ((s.slice x).size ≤ (s.slice x).wb + 8 * k.toNat)
    let ls := fun (j : Nat) => callrLanes (laneEnvs s cx.sp j)
    let torn := (cx.sp.slices.map fun j => if ∃ x ∈ ls j, ∃ y ∈ ls j, x.xs a.toNat 2 ≠ y.xs a.toNat 2 then ls j else []).flatten
    let odd := (cx.sp.slices.map fun j => (ls j).filter fun x => decide (x.xs a.toNat 2 % 4 ≠ 0)).flatten
    (∀ sk, excess = some sk → Traps (.callr a k) s cx 0x03 0 (8 * k.toNat + 2 ^ 16 * (s.slice sk).wb + 2 ^ 25) (liveMask s cx.sp)) ∧
    (excess = none → torn ≠ [] → Traps (.callr a k) s cx 0x0A 0 0 (laneMask torn)) ∧
    (∀ x t, excess = none → torn = [] → odd = x :: t → Traps (.callr a k) s cx 0x04 0 (x.xs a.toNat 2) (laneMask odd)))
  ∧ (∀ (s : State) (cx : Iss) (a : BitVec 8) (k : BitVec 5), Issues s (.callr a k) cx →
    (∀ sk ∈ cx.sp.keys, (s.slice sk).wb + 8 * k.toNat < (s.slice sk).size) →
    (∀ j ∈ cx.sp.slices, ∀ x ∈ callrLanes (laneEnvs s cx.sp j), x.xs a.toNat 2 % 4 = 0 ∧
      ∀ y ∈ callrLanes (laneEnvs s cx.sp j), y.xs a.toNat 2 = x.xs a.toNat 2) →
    ∃ t, exec (.callr a k) s = .next t ∧
      WritesG s t cx 63 (fun _ => k.toNat * 2 ^ 48 + (addPc cx.sp.pc 4).toNat / 4 * 4) ∧
      (∀ sk ∈ cx.sp.keys, (t.slice sk).still = { (s.slice sk).still with wb := (s.slice sk).wb + 8 * k.toNat }) ∧
      (∀ j ∈ cx.sp.slices, ∀ x ∈ callrLanes (laneEnvs s cx.sp j),
        GoesTo t cx j (BitVec.ofNat 48 (x.xs a.toNat 2)) ∧ StandsAt t cx j (x.xs a.toNat 2)) ∧
      (∀ x, readByte t.mem x = readByte s.mem x) ∧ t.ctxs = s.ctxs)
  ∧ (∀ (s : State) (cx : Iss) (sk : Nat), Stands s .ret cx →
    let k := fun (x : Nat) => cx.gOf s x 63 / 2 ^ 48 % 32
    (cx.sp.keys.find? fun x => decide ((s.slice x).wb < 8 * k x)) = some sk →
    Traps .ret s cx 0x03 0 (8 * k sk + 2 ^ 16 * (s.slice sk).wb + 2 ^ 25) (liveMask s cx.sp))
  ∧ (∀ (s : State) (cx : Iss), Issues s .ret cx →
    let link := fun (sk : Nat) => cx.gOf s sk 63
    (∀ sk ∈ cx.sp.keys, 8 * (link sk / 2 ^ 48 % 32) ≤ (s.slice sk).wb) →
    ∃ t, exec .ret s = .next t ∧ Quiet s t ∧
      (∀ sk ∈ cx.sp.keys, (t.slice sk).still = { (s.slice sk).still with wb := (s.slice sk).wb - 8 * (link sk / 2 ^ 48 % 32) }) ∧
      (∀ j ∈ cx.sp.slices, GoesTo t cx j (BitVec.ofNat 48 (link (cx.key j) / 4 % 2 ^ 46 * 4))))

/-- R87: BRX, in every slice fresh with CPC invalid, fresh inside a case, or a re-dispatch at its own address. An index of the lanes
concerned (the active ones, or at a re-dispatch those still parked) that is not below c raises cause 0x0B with the lowest such
lane's index; lanes of a slice inside a case that hold different indices raise 0x0A; a table page that fails raises its cause; a
fresh BRX that would count a lane past 255 raises 0x09. Else, with the table as the fetch path sees it (log entry 16, DEDUCED,
says when it is checked): the lanes that hold the index of the lowest go on to its case: of an outermost region the others park
at 1, the inactive ones count up and CPC takes the address; at a re-dispatch the chosen ones become active; inside a case
nothing changes. A slice without such lanes goes to the join target, which at a re-dispatch ends its region (R88). -/
def Obligations.MultiwayBranchOpens : Prop :=
  ∀ (s : State) (cx : Iss) (a : BitVec 8) (c : BitVec 9), Stands s (.brx a c) cx →
    let i : Instr := .brx a c
    let cpc := fun (j : Nat) => (s.slice (cx.key j)).cpc
    let again := fun (j : Nat) => decide (cpc j = some cx.sp.pc)
    let picks := fun (j : Nat) => (laneEnvs s cx.sp j).filter fun le =>
      if again j then !le.lane.e && le.lane.c == 1 && !le.lane.d else !le.lane.e && le.lane.c == 0
    let idx := fun (le : LaneEnv) => (le.x a.toNat).toNat
    let beyond := (cx.sp.slices.map fun j => (picks j).filter fun le => decide (c.toNat ≤ idx le)).flatten
    let torn := (cx.sp.slices.map fun j =>
      if (cpc j).isSome ∧ again j = false ∧ ∃ x ∈ picks j, ∃ y ∈ picks j, x.x a.toNat ≠ y.x a.toNat then picks j else []).flatten
    let full := (liveLanes s cx.sp).filter fun le => le.sl.cpc.isNone && le.sl.anyActive && le.lane.c == 255
    (∀ le t, beyond = le :: t → Traps i s cx 0x0B 0 (idx le) (laneMask beyond)) ∧
    (beyond = [] → torn ≠ [] → Traps i s cx 0x0A 0 0 (laneMask torn)) ∧
    (beyond = [] → torn = [] →
      match xlateAll s cx.env (chksOf 0 (liveMask s cx.sp) (cx.sp.pc.toNat + 4) (4 * (c.toNat + 1)) .x) with
      | .fault r => exec i s = .next (raiseAt s cx.sid r)
      | .park ms ps => Issues s i cx → ∃ t, exec i s = .next t ∧ find cx.sid t.splits = some { cx.sp with park := some ⟨.instr i, ms, ps, s.tick⟩ }
      | .ok pas =>
        let va := fun (n : Nat) => (addPc cx.sp.pc (4 + 4 * n)).toNat
        let place := fun (n : Nat) => (pas.find? fun p => decide (p.1.va ≤ va n) && decide (va n < p.1.va + p.1.n)).map fun p =>
          p.2 + (va n - p.1.va)
        (full ≠ [] → Traps i s cx 0x09 0 0 (laneMask full)) ∧
        (full = [] → Issues s i cx → (∀ n, n ≤ c.toNat → ∀ pa, place n = some pa → FetchSees s cx.ck pa) →
          ∃ t, exec i s = .next t ∧ Quiet s t ∧ ∀ j ∈ cx.sp.slices,
            let new := t.slice (cx.key j)
            let goes := fun (n : Nat) => ∀ pa, place n = some pa → GoesTo t cx j (tableTarget cx.sp.pc (codeWord s pa))
            let counters := fun (f : LaneEnv → BitVec 8) =>
              ∀ le ∈ laneEnvs s cx.sp j, le.i < le.sl.lanes.length → (new.lane le.i).c = f le
            match (picks j).head? with
            | none => goes c.toNat ∧ (again j = false → new.still = (s.slice (cx.key j)).still) ∧
                (again j = true → new.cpc = none ∧ counters fun le => if le.lane.e ∨ le.lane.c = 0 then le.lane.c else le.lane.c - 1)
            | some lo => goes (idx lo) ∧
                (cpc j = none → new.cpc = some cx.sp.pc ∧ counters fun le =>
                  if le.lane.e then le.lane.c else if le.lane.c = 0 then (if le.x a.toNat = lo.x a.toNat then 0 else 1)
                  else le.lane.c + 1) ∧
                (again j = true → new.cpc = cpc j ∧ counters fun le =>
                  if !le.lane.e ∧ le.lane.c = 1 ∧ le.lane.d = false ∧ le.x a.toNat = lo.x a.toNat then 0 else le.lane.c) ∧
                ((cpc j).isSome → again j = false → new.still = (s.slice (cx.key j)).still)))

/-- R88: JOINX with CPC invalid in some slice raises cause 0x0A, whose TLANES the model takes as the live lanes of those slices
(log entry 55, DEDUCED). Else it marks the active lanes done and parks them. A slice with a lane still waiting goes back to its BRX; a slice
at its last case counts its live lanes down, clears their D and its CPC, and goes to the join word of
that BRX, as the fetch path sees the words (the case count is that of the BRX word at CPC: log entry 15, DEDUCED). -/
def Obligations.JoinxEndsACase : Prop :=
  (∀ (s : State) (cx : Iss), Stands s .joinx cx → (∃ j ∈ cx.sp.slices, (s.slice (cx.key j)).cpc = none) →
    Traps .joinx s cx 0x0A 0 0 (laneMask ((liveLanes s cx.sp).filter fun le => le.sl.cpc.isNone)))
  ∧ (∀ (s : State) (cx : Iss), Stands s .joinx cx → (∀ j ∈ cx.sp.slices, (s.slice (cx.key j)).cpc.isSome) →
    let left := fun (j : Nat) => (s.slice (cx.key j)).some fun _ l => l.e = false ∧ l.c = 1 ∧ l.d = false
    let back := fun (t : State) (j : Nat) => ∀ p, (s.slice (cx.key j)).cpc = some p →
      GoesTo t cx j p ∧ (t.slice (cx.key j)).cpc = some p ∧ ∀ n, n < 4 → n < (s.slice (cx.key j)).lanes.length →
        let l := (s.slice (cx.key j)).lane n
        ((t.slice (cx.key j)).lane n).c = (if l.e = false ∧ l.c = 0 then 1 else l.c) ∧
        ((t.slice (cx.key j)).lane n).d = (if l.e = false ∧ l.c = 0 then true else l.d)
    let ends := fun (t : State) (j : Nat) (dest : BitVec 48) => GoesTo t cx j dest ∧
      (t.slice (cx.key j)).cpc = none ∧ ∀ n, n < 4 → n < (s.slice (cx.key j)).lanes.length →
        let l := (s.slice (cx.key j)).lane n
        ((t.slice (cx.key j)).lane n).c = (if l.e then l.c else if l.c = 0 then 0 else l.c - 1) ∧
        ((t.slice (cx.key j)).lane n).d = (if l.e then l.d else false)
    ((∀ j ∈ cx.sp.slices, left j = true) → Issues s .joinx cx →
      ∃ t, exec .joinx s = .next t ∧ Quiet s t ∧ ∀ j ∈ cx.sp.slices, back t j) ∧
    ∀ p : BitVec 48, (∃ j ∈ cx.sp.slices, left j = false) →
      (∀ j ∈ cx.sp.slices, left j = false → (s.slice (cx.key j)).cpc = some p) →
      match xlateAll s cx.env (chksOf 0 (liveMask s cx.sp) p.toNat 4 .x) with
      | .fault r => exec .joinx s = .next (raiseAt s cx.sid r)
      | .ok [(_, w₁)] =>
        let n := (codeWord s w₁).toNat % 512
        ∀ (c₂ : Chk) (w₂ : Nat), Issues s .joinx cx → FetchSees s cx.ck w₁ → FetchSees s cx.ck w₂ →
          xlateAll s cx.env (chksOf 0 (liveMask s cx.sp) (p.toNat + 4 + 4 * n) 4 .x) = .ok [(c₂, w₂)] →
          (addPc p (4 + 4 * (n : Nat))).toNat = p.toNat + 4 + 4 * n →
          ∃ t, exec .joinx s = .next t ∧ Quiet s t ∧ ∀ j ∈ cx.sp.slices,
            (left j = true → back t j) ∧ (left j = false → ends t j (tableTarget p (codeWord s w₂)))
      | _ => True)

/-- The team of the issuing split does not retire with it: another of its slices, in a gang that has not retired, has a live lane. -/
def Sys2Proof.Machine.TeamStays (s : State) (cx : Iss) : Prop :=
  cx.sp.gang < 16 ∧ (∀ j ∈ cx.sp.slices, j < 16) ∧ rising s.splits = true ∧
    ∃ e ∈ s.slices, find e.1 s.slices = some e.2 ∧ e.1 / 256 = cx.sp.team ∧ e.1 ∉ cx.sp.keys ∧ e.2.anyLive = true
      ∧ e.2.retired = false ∧ (cx.tm.gangs[e.1 / 16 % 16]?).any (fun g => !g.retired) = true

/-- R65, R89 to R91: EXIT sets E in the active lanes. A slice that keeps a live lane goes on in its split; one that keeps none
leaves it and, with no operation outstanding and no standing count, retires; a split left without slices ends. RGANG of a
program-mode split waits while some split of its gang is not at the same RGANG; with the last of them the gang becomes one split
of all their slices, under the number and with the MODE of the split that held the lowest, which goes on behind the RGANG once
the accesses of the slices have taken effect (R317). In handler mode it only goes on (R90). -/
def Obligations.ExitAndRgang : Prop :=
  (∀ (s : State) (cx : Iss), Issues s .exit cx → ∃ t, exec .exit s = .next t ∧
    let keeps := fun (sk : Nat) => (s.slice sk).some fun _ l => l.e = false ∧ l.c ≠ 0
    let lanes := ∀ sk ∈ cx.sp.keys, ∀ n, n < 4 → n < (s.slice sk).lanes.length →
      ((t.slice sk).lane n).e = (((s.slice sk).lane n).e || ((s.slice sk).lane n).c == 0) ∧
      ((t.slice sk).lane n).c = ((s.slice sk).lane n).c
    ((∀ sk ∈ cx.sp.keys, keeps sk = true) → lanes) ∧
    (TeamStays s cx →
      let left := cx.sp.slices.filter fun j => keeps (cx.key j)
      lanes ∧ (left = [] → find cx.sid t.splits = none) ∧
      (left ≠ [] → find cx.sid t.splits = some { cx.after with slices := left }) ∧
      ∀ j ∈ cx.sp.slices, keeps (cx.key j) = false → (find (cx.key j) s.slices).isSome → (s.slice (cx.key j)).toks = [] →
        (s.slice (cx.key j)).stand = [] → (t.slice (cx.key j)).retired = true))
  ∧ (∀ (s : State) (cx : Iss), Issues s .rgang cx → ∃ t, exec .rgang s = .next t ∧
    (cx.sp.handler = true → NextWord s t cx) ∧
    (cx.sp.handler = false → (∃ e ∈ s.splits, e.1 ≠ cx.sid ∧ find e.1 s.splits = some e.2 ∧ e.2.team = cx.sp.team ∧
        e.2.gang = cx.sp.gang ∧ ¬(e.2.wait = .rgang ∧ e.2.pc = cx.sp.pc)) → Waits t cx .rgang ∧ Quiet s t) ∧
    (cx.sp.handler = false → rising s.splits = true → (∀ e ∈ s.splits, e.1 ≠ cx.sid → e.2.team = cx.sp.team →
        e.2.gang = cx.sp.gang → e.2.wait = .rgang ∧ e.2.pc = cx.sp.pc) → (∀ e ∈ s.ops, e.2.body.isAccess = false) →
      let g := gangSplits s cx.sp.team cx.sp.gang
      Quiet s t ∧ ∃ low ∈ g, (∀ e ∈ g, low.2.slices.headD 0 ≤ e.2.slices.headD 0) ∧
        (∀ e ∈ t.splits, e.2.team = cx.sp.team → e.2.gang = cx.sp.gang → e.1 = low.1) ∧
        ∃ p, find low.1 t.splits = some p ∧ p.mode = low.2.mode ∧ p.pc = addPc cx.sp.pc 4 ∧ p.wait = .none ∧
          p.slices.Pairwise (· ≤ ·) ∧ ∀ j, j ∈ p.slices ↔ ∃ e ∈ g, j ∈ e.2.slices))

/-- R92 to R94: GWID, VOTE and BALLOT. -/
def Obligations.SplitQueries : Prop :=
  (∀ d : BitVec 8, LaneWord (.gwid d) d 1 (fun s cx _ => 4 * cx.sp.slices.length + 2 ^ 8 * (activeLanes s cx.sp).length
      + 2 ^ 16 * cx.gang.width + 2 ^ 24 * (4 * cx.sp.slices.headD 0)))
  ∧ (∀ (d a : BitVec 6) (k : BitVec 4), PredWord (.vote d a k) d.toNat (fun s cx _ =>
      let yes := (activeLanes s cx.sp).all fun le => le.p a.toNat
      let no := (activeLanes s cx.sp).all fun le => !le.p a.toNat
      match k.toNat with | 0 => yes | 1 => !no | 2 => yes || no | _ => no))
  ∧ (∀ (s : State) (cx : Iss) (d a : BitVec 8), Issues s (.ballot d a) cx → ∃ t, exec (.ballot d a) s = .next t ∧
      NextWord s t cx ∧ LeavesX s t cx d.toNat 2 ∧ ∀ le ∈ guardedLanes s cx.sp, ∀ n, n < 64 →
        (t.reg le.sk (le.key (d.toNat + n / 32))).getLsbD (n % 32)
          = (activeLanes s cx.sp).any fun x => x.n == n && x.p a.toNat)

/-- R95, R96: SHFL and SHFX give each active guarded lane the slot of its source lane when that lane is in the split and
active, and leave it else; the side predicate p[MODE.SP], unless it is p0, says which. Every source is read before the
word. -/
def Obligations.ShufflesMoveSlots : Prop :=
  ∀ (s : State) (cx : Iss) (d a b : BitVec 8) (m : BitVec 2) (k : BitVec 6) (form : Fin 3),
    let i : Instr := match form with | 0 => .shfl d a b | 1 => .shflImm d a b | _ => .shfx d a m k
    let src := fun (le : LaneEnv) => match form with
      | 0 => ((le.x b.toNat).toNat : Int)
      | 1 => (b.toNat : Int)
      | _ => if m = 0 then ((le.n ^^^ k.toNat : Nat) : Int) else if m = 1 then (le.n : Int) - k.toNat else (le.n : Int) + k.toNat
    let sp := modeSP cx.sp.mode
    Issues s i cx → ∃ t, exec i s = .next t ∧ NextWord s t cx ∧
      (∀ le ∈ guardedLanes s cx.sp, t.reg le.sk (le.key d.toNat) =
        match (activeLanes s cx.sp).find? fun o => decide ((o.n : Int) = src le) with
        | some o => o.x a.toNat
        | none => s.reg le.sk (le.key d.toNat)) ∧
      (∀ le ∈ guardedLanes s cx.sp, sp ≠ 0 → t.reg le.sk (keyP sp le.i) =
        w32 (ofBool ((activeLanes s cx.sp).any fun o => decide ((o.n : Int) = src le)))) ∧
      ∀ sk key, (∀ le ∈ guardedLanes s cx.sp, ¬(le.sk = sk ∧ (le.key d.toNat = key ∨ (sp ≠ 0 ∧ keyP sp le.i = key)))) →
        t.reg sk key = s.reg sk key

/-- R97, R98: RSORT runs in program mode when every slice of the gang with a live lane is in the split and has no operation
outstanding, no standing count and CPC invalid; else it raises cause 0x0C (TLANES, the live lanes, is log entry 55, DEDUCED). It
sorts: the lane at each place takes LID, PREC, C, E, D, p1 to p63 and slots d to d + c − 1 from the lane that the stable order
by the low 16 bits of x a gives that place, exited lanes last. Every other register unit, TPREC, the g registers, windows and
tokens stay, and so do memory and the slices outside the split. The split occupies issue for 16 + c cycles and goes on with the
slices that hold a live lane (log entry 17, DEDUCED); stated where each does, or the team does not retire with one that does
not, and no user cause is pending in the gang. -/
def Obligations.SortMovesLanes : Prop :=
  ∀ (s : State) (cx : Iss) (d a c : BitVec 8), Stands s (.rsort d a c) cx →
    let ready := cx.sp.handler = false ∧ ∀ e ∈ s.slices, e.1 / 16 = cx.sp.team * 16 + cx.sp.gang → e.2.anyLive = true →
      e.1 ∈ cx.sp.keys ∧ e.2.toks = [] ∧ e.2.stand = [] ∧ e.2.cpc = none
    let all := splitLanes s cx.sp
    let order := sortOrder a all
    (¬ready → Traps (.rsort d a c) s cx 0x0C 0 0 (liveMask s cx.sp)) ∧
    (ready → Issues s (.rsort d a c) cx → ∃ t, exec (.rsort d a c) s = .next t ∧
      (rising s.splits = true → (∀ e ∈ s.splits, e.2.team = cx.sp.team → e.2.gang = cx.sp.gang → e.2.pending = none) → cx.sp.slices ≠ [] → cx.sp.slices.Nodup →
       (∀ sk ∈ cx.sp.keys, (s.slice sk).lanes.length = 4) →
       (TeamStays s cx ∨ ∀ q, q < cx.sp.slices.length → ∃ i, i < 4 ∧ ∃ le, order[4 * q + i]? = some le ∧ le.lane.e = false) →
        (∀ (n : Nat) (x y : LaneEnv), all[n]? = some x → order[n]? = some y →
          let l := (t.slice x.sk).lane x.i
          l.lid = y.lane.lid ∧ l.c = y.lane.c ∧ l.e = y.lane.e ∧ l.d = y.lane.d ∧ l.tprec = x.lane.tprec ∧
          (y.sl.pendF = [] → l.prec = y.lane.prec) ∧
          (∀ j, j < c.toNat → t.reg x.sk (x.key (d.toNat + j)) = y.x (d.toNat + j)) ∧
          ∀ r, 0 < r → r < 64 → t.reg x.sk (keyP r x.i) = w32 (ofBool (y.p r))) ∧
        (∀ sk key, (∀ x ∈ all, ∀ j, j < c.toNat → ¬(x.sk = sk ∧ x.key (d.toNat + j) = key)) →
          (∀ x ∈ all, ∀ r, 0 < r → r < 64 → ¬(x.sk = sk ∧ keyP r x.i = key)) → t.reg sk key = s.reg sk key) ∧
        (∀ sk, sk ∉ cx.sp.keys → { (t.slice sk).still with synced := 0 } = { (s.slice sk).still with synced := 0 }) ∧
        (∀ sk ∈ cx.sp.keys, (t.slice sk).retired = (s.slice sk).retired →
          { (t.slice sk).still with lanes := [], children := 0, rfault := none, synced := 0 } =
            { (s.slice sk).still with lanes := [], children := 0, rfault := none, synced := 0 }) ∧
        (∀ x, readByte t.mem x = readByte s.mem x) ∧ t.ctxs = s.ctxs ∧ t.ops = s.ops ∧
        let left := cx.sp.slices.filter fun j => (t.slice (cx.key j)).anyLive
        find cx.sid t.splits = if left = [] then none else some { cx.after with slices := left, busy := 15 + c.toNat }))

/-! ### MODE, PREC, state registers and traps (spec/02, 05, 06, 15) -/

/-- The field of MODE a code names: position and width (Tables 2.8 and 5.3). -/
def Sys2Proof.Machine.modeFieldAt (f : BitVec 4) : Nat × Nat :=
  match f.toNat with
  | 0 => (0, 6) | 1 => (6, 1) | 2 => (7, 6) | 3 => (13, 3) | 4 => (16, 1) | 5 => (17, 2) | 6 => (20, 3) | _ => (23, 3)

/-- R40, R108, R136, R137: SETM replaces MODE by a valid value of g a of the lowest slice, or one field of it; GETM copies
MODE to g d of every slice; DLY n lets n + 1 issue slots pass. No SETM or DLY changes a register unit. -/
def Obligations.ModeWords : Prop :=
  (∀ (s : State) (cx : Iss) (a : BitVec 8), Issues s (.setm a) cx → modeValid (w32 (cx.g s a.toNat)) = true →
    ∃ t, exec (.setm a) s = .next t ∧ Quiet s t ∧ (∀ sk, (t.slice sk).still = (s.slice sk).still) ∧
      find cx.sid t.splits = some { cx.after with mode := w32 (cx.g s a.toNat) })
  ∧ (∀ (s : State) (cx : Iss) (i : BitVec 8) (f : BitVec 4), Issues s (.setmField i f) cx →
    let p := modeFieldAt f
    ∃ t m, exec (.setmField i f) s = .next t ∧ Quiet s t ∧ (∀ sk, (t.slice sk).still = (s.slice sk).still) ∧
      find cx.sid t.splits = some { cx.after with mode := m } ∧ m.toNat / 2 ^ p.1 % 2 ^ p.2 = i.toNat % 2 ^ p.2 ∧
      ∀ k, k < p.1 ∨ p.1 + p.2 ≤ k → m.getLsbD k = cx.sp.mode.getLsbD k)
  ∧ (∀ d : BitVec 8, SliceWord (.getm d) d (fun _ cx _ => cx.sp.mode.toNat))
  ∧ (∀ (s : State) (cx : Iss) (n : BitVec 16), Issues s (.dly n) cx → ∃ t, exec (.dly n) s = .next t ∧
      OnlyRegs s t cx (addPc cx.sp.pc 4) n.toNat ∧ (∀ sk key, t.reg sk key = s.reg sk key) ∧
      ∀ sk ∈ cx.sp.keys, (t.slice sk).slot = (s.slice sk).slot + (n.toNat + 1))

/-- The field of PREC a code names (Tables 2.8 and 6.1). -/
def Sys2Proof.Machine.precFieldAt (f : BitVec 4) : Nat × Nat :=
  match f.toNat with | 0 => (0, 7) | 1 => (7, 2) | 2 => (9, 2) | 3 => (11, 1) | 4 => (12, 1) | _ => (24, 5)

/-- PREC of each active guarded lane is what `new` gives, and nothing else of the machine has changed: no other field of those lanes,
no lane besides them, no other field of a slice, no register unit and no byte (flags outstanding count as set). -/
def Sys2Proof.Machine.SetsPrec (s t : State) (cx : Iss) (new : LaneEnv → Word) : Prop :=
  Quiet s t ∧ Goes t cx ∧
    (∀ le ∈ guardedLanes s cx.sp, le.i < le.sl.lanes.length → (t.slice le.sk).lane le.i = { le.lane with prec := new le }) ∧
    (∀ sk n, (∀ le ∈ guardedLanes s cx.sp, ¬(le.sk = sk ∧ le.i = n)) → (t.slice sk).still.lane n = (s.slice sk).still.lane n) ∧
    ∀ sk, { (t.slice sk).still with lanes := [] } = { (s.slice sk).still with lanes := [] }

/-- R166, R167: PRSET gives each active guarded lane that value as PREC when the value of each such lane is valid, and changes no
other lane and nothing else; where some are not valid it raises cause 0x18 with those lanes, TVAL the value of the lowest, and in
TVAL[39:32] the whole immediate of a field-form P of 114 to 255, which is invalid in every lane. PRGET copies PREC to a slot. What
PRSET leaves and PRGET reads is stated where no flag write is outstanding in the lane's slice, since one that is may or may not be
seen (R177). -/
def Obligations.PrecWords : Prop :=
  (∀ (s : State) (cx : Iss) (a : BitVec 8),
    let bad := (guardedLanes s cx.sp).filter fun le => !precValid (le.x a.toNat)
    (∀ le t, Stands s (.prset a) cx → bad = le :: t → Traps (.prset a) s cx 0x18 0 (le.x a.toNat).toNat (laneMask bad)) ∧
    (Issues s (.prset a) cx → bad = [] → (∀ le ∈ guardedLanes s cx.sp, le.sl.pendF = []) →
      ∃ t, exec (.prset a) s = .next t ∧ SetsPrec s t cx fun le => le.x a.toNat))
  ∧ (∀ (s : State) (cx : Iss) (i : BitVec 8) (f : BitVec 4),
    let p := precFieldAt f
    let new := fun (le : LaneEnv) => w32 (setField le.lane.prec.toNat p.1 p.2 i.toNat)
    let wide := f = 0 ∧ 114 ≤ i.toNat
    let bad := (guardedLanes s cx.sp).filter fun le => decide wide || !precValid (new le)
    (∀ le t, Stands s (.prsetField i f) cx → bad = le :: t →
      Traps (.prsetField i f) s cx 0x18 0 ((new le).toNat + if wide then 2 ^ 32 * i.toNat else 0) (laneMask bad)) ∧
    (Issues s (.prsetField i f) cx → bad = [] → (∀ le ∈ guardedLanes s cx.sp, le.sl.pendF = []) →
      ∃ t, exec (.prsetField i f) s = .next t ∧ SetsPrec s t cx new))
  ∧ (∀ (s : State) (cx : Iss) (d : BitVec 8), Issues s (.prget d) cx → ∃ t, exec (.prget d) s = .next t ∧ NextWord s t cx ∧
    LeavesX s t cx d.toNat 1 ∧ ∀ le ∈ guardedLanes s cx.sp, le.sl.pendF = [] → t.reg le.sk (le.key d.toNat) = le.lane.prec)

/-- The value of a state register of slice or wider scope (Table 2.14). -/
def Sys2Proof.Machine.stateValue (s : State) (cx : Iss) (sl : Slice) (idx : Nat) : Nat :=
  match idx with
  | 0x01 => cx.sp.gang + 16 * cx.gang.role | 0x02 => cx.tm.idx.toNat
  | 0x03 => cx.tm.x.toNat + 2 ^ 32 * (cx.tm.y.toNat + 2 ^ 16 * cx.tm.z.toNat)
  | 0x08 => cx.tm.core | 0x09 => cx.tm.site | 0x0A => s.fe.panel.toNat | 0x10 => sl.size + 2 ^ 16 * sl.wb
  | 0x12 => (s.island cx.tm.site).cycle % 2 ^ 64 | 0x13 => sl.cycleh.toNat
  | 0x21 => cx.sp.tcause.toNat | 0x22 => cx.sp.tpc.toNat | 0x23 => cx.sp.tval.toNat | 0x24 => cx.sp.tlanes.toNat
  | 0x25 => cx.sp.tsave.toNat
  | i => match find cx.asid s.ctxs with
    | none => 0
    | some c => if i = 0x20 then c.tvec.toNat else if i = 0x30 then c.dbg.toNat else if i = 0x40 then c.pid.toNat else 0

/-- R50 to R52, R138, Table 2.14: MFS copies a state register to a slot of each active guarded lane, or to g d of each
slice; in program mode all but PID. The x form of CYCLE also latches its high half in every slice. -/
def Obligations.StateRegisterReads : Prop :=
  (∀ (s : State) (cx : Iss) (d i : BitVec 8), Issues s (.mfs d true i) cx → (i.toNat = 0x40 → cx.sp.handler = true) →
    ∃ t, exec (.mfs d true i) s = .next t ∧ NextWord s t cx ∧
      WritesG s t cx d.toNat (fun sk => stateValue s cx (s.slice sk) i.toNat))
  ∧ (∀ (s : State) (cx : Iss) (d i : BitVec 8), Issues s (.mfs d false i) cx → (i.toNat = 0x40 → cx.sp.handler = true) →
    ∃ t, exec (.mfs d false i) s = .next t ∧ find cx.sid t.splits = some cx.after ∧ t.ctxs = s.ctxs ∧
      (∀ x, readByte t.mem x = readByte s.mem x) ∧
      WritesX s t cx d.toNat 1 (fun le =>
        if i.toNat = 0 then le.lane.lid.toNat
        else if i.toNat = 0x11 then le.lane.c.toNat + (if le.lane.e then 256 else 0) + (if le.lane.d then 512 else 0)
        else if i.toNat = 0x26 then le.lane.tprec.toNat else stateValue s cx le.sl i.toNat % 2 ^ 32) ∧
      ∀ sk ∈ cx.sp.keys, (t.slice sk).cycleh =
        if i.toNat = 0x12 then half ((s.island cx.tm.site).cycle % 2 ^ 64) 1 else (s.slice sk).cycleh)

/-- R50, R51, R138, Table 15.3: MTS writes TVEC of the context in either mode, and the handler registers in handler mode, with the
bits of their layout alone. The g form takes g a of the highest slice, the x form replaces bits [31:0] by x a of the highest
active guarded lane (which of several writers wins is log entry 21, DESIGN CHOICE), and with no such lane writes nothing. TPREC
takes, in each active guarded lane, that lane's x a. Registers, PREC and memory stay. -/
def Obligations.StateRegisterWrites : Prop :=
  (∀ (s : State) (cx : Iss) (a i : BitVec 8) (g : Bool) (v : Nat), Issues s (.mts a g i) cx →
    let old := match i.toNat with
      | 0x20 => match find cx.asid s.ctxs with | some c => c.tvec.toNat | none => 0
      | 0x21 => cx.sp.tcause.toNat | 0x22 => cx.sp.tpc.toNat | 0x23 => cx.sp.tval.toNat | 0x24 => cx.sp.tlanes.toNat
      | _ => cx.sp.tsave.toNat
    let new := if g then cx.sp.keys.getLast?.map fun k => cx.gOf s k a.toNat
      else (guardedLanes s cx.sp).getLast?.map fun le => old / 2 ^ 32 * 2 ^ 32 + (le.x a.toNat).toNat
    let w := BitVec.ofNat 64 v
    (new = some v → i.toNat = 0x20 → ∃ t, exec (.mts a g i) s = .next t ∧ (∀ sk key, t.reg sk key = s.reg sk key) ∧ Goes t cx ∧
      (∀ x, readByte t.mem x = readByte s.mem x) ∧
      ∀ c, find cx.asid s.ctxs = some c → find cx.asid t.ctxs = some { c with tvec := w &&& 0x0000FFFFFFFFFFFC#64 })
    ∧ (new = some v → cx.sp.handler = true → 0x21 ≤ i.toNat → i.toNat ≤ 0x25 → ∃ t, exec (.mts a g i) s = .next t ∧ Quiet s t ∧
      find cx.sid t.splits = some (match i.toNat with
        | 0x21 => { cx.after with tcause := (w &&& 0xFFFF#64).setWidth 32 }
        | 0x22 => { cx.after with tpc := w &&& 0x0000FFFFFFFFFFFC#64 }
        | 0x23 => { cx.after with tval := w }
        | 0x24 => { cx.after with tlanes := w }
        | _ => { cx.after with tsave := w.setWidth 32 }))
    ∧ (new = none → (i.toNat = 0x20 ∨ (cx.sp.handler = true ∧ 0x21 ≤ i.toNat ∧ i.toNat ≤ 0x25)) →
      ∃ t, exec (.mts a g i) s = .next t ∧ NextWord s t cx))
  ∧ ∀ (s : State) (cx : Iss) (a : BitVec 8), Issues s (.mts a false 0x26) cx → cx.sp.handler = true →
    ∃ t, exec (.mts a false 0x26) s = .next t ∧ Quiet s t ∧ Goes t cx ∧
      (∀ le ∈ guardedLanes s cx.sp, le.i < le.sl.lanes.length → ((t.slice le.sk).lane le.i).tprec = le.x a.toNat) ∧
      (∀ sk n, (∀ le ∈ guardedLanes s cx.sp, ¬(le.sk = sk ∧ le.i = n)) → ((t.slice sk).lane n).tprec = ((s.slice sk).lane n).tprec) ∧
      ∀ sk n, ((t.slice sk).lane n).c = ((s.slice sk).lane n).c ∧ ((t.slice sk).lane n).e = ((s.slice sk).lane n).e ∧
        (nth {} (t.slice sk).lanesNow n).prec = (nth {} (s.slice sk).lanesNow n).prec

/-- The words with a register operand that raise no cause of their own beyond the checks that every word shares. -/
def Sys2Proof.Machine.raisesNothing : Instr → Bool
  | .add .. | .sub .. | .mul .. | .mulh .. | .mad .. | .min .. | .max .. | .and .. | .or .. | .xor .. | .andn .. | .shl ..
  | .shr .. | .rot .. | .absd .. | .div .. | .rem .. | .bfx .. | .bfi .. | .prmb .. | .sel .. | .clz .. | .ctz .. | .popc ..
  | .brev .. | .not .. | .neg .. | .abs .. | .sex8 .. | .sex16 .. | .movg .. | .movl .. | .addi .. | .andi .. | .ori ..
  | .xori .. | .muli .. | .shli .. | .shri .. | .roti .. | .gaddi .. | .ldh .. | .ldl .. | .ldhg .. | .ldlg .. | .icmp ..
  | .icmpi .. | .pmovP2x .. | .pmovX2p .. | .pmovLsb .. | .getm .. | .prget .. | .brg .. | .gwid .. | .ballot .. | .shfl ..
  | .shflImm .. | .shfx .. | .tksRd .. | .sprz .. | .pref .. => true
  | _ => false

/-- R48, R51, R126, Table 15.1: the checks that come before a word's effect, each with the split's state as the word found it. An
MTS to a read-only register in either mode, an MTS to a handler register in program mode, and an MFS of PID in program mode
raise cause 0x02, TVAL the word; an invalid MODE value of SETM raises cause 0x01; an invalid PREC value of PRSET raises 0x18
with that value (TLANES of the two causes of the word: log entry 47, DEDUCED). A word of any kind with an operand that leaves a
window raises cause 0x03 with what the first such operand reports: an x operand for every lane of the split, TLANES its live
lanes; an f operand by each live lane's class, or by the class that FCVT.cls names, TLANES those in which it overflows; TVAL the
lowest slot beyond, modulo 512, and WB (log entry 56, DEDUCED). With token checking off no word meets a token hazard; with it on
a word meets one exactly when a register it reads or writes in a lane concerned is pending for an operation on a token (R118,
R119). Such a word, whatever it is, has no effect: a word that raises nothing else raises cause 0x0F; of any other word either a
cause is raised, or its checks go on with the hazard kept for their end, or it is about to raise cause 0x0D. -/
def Obligations.ChecksComeBeforeEffects : Prop :=
  (∀ (s : State) (cx : Iss) (a i : BitVec 8) (g : Bool), issuing s = some cx →
    ((i.toNat < 0x20 ∨ 0x26 < i.toNat ∨ (i.toNat ≠ 0x20 ∧ cx.sp.handler = false)) →
      Traps (.mts a g i) s cx 0x02 0 ((encodeNat (.mts a g i)).getD 0) (liveMask s cx.sp))
    ∧ (cx.sp.handler = false → i.toNat = 0x40 →
      Traps (.mfs a g i) s cx 0x02 0 ((encodeNat (.mfs a g i)).getD 0) (liveMask s cx.sp)))
  ∧ (∀ (s : State) (cx : Iss) (a : BitVec 8), Stands s (.setm a) cx → modeValid (w32 (cx.g s a.toNat)) = false →
    Traps (.setm a) s cx 0x01 0 ((encodeNat (.setm a)).getD 0) (liveMask s cx.sp))
  ∧ (∀ (s : State) (cx : Iss) (a : BitVec 8) (le : LaneEnv) (t : List LaneEnv), Stands s (.prset a) cx →
    ((guardedLanes s cx.sp).filter fun le => !precValid (le.x a.toNat)) = le :: t →
    Traps (.prset a) s cx 0x18 0 (le.x a.toNat).toNat (laneMask (le :: t)))
  ∧ (∀ (s : State) (cx : Iss) (i : Instr) (r : CauseRec), issuing s = some cx → windowCheck s cx (operands i) = some r →
    (∀ a g n, i = .mts a g n → n.toNat = 0x20 ∨ (cx.sp.handler = true ∧ 0x21 ≤ n.toNat ∧ n.toNat ≤ 0x26)) →
    (∀ d g n, i = .mfs d g n → n.toNat = 0x40 → cx.sp.handler = true) → exec i s = .next (raiseAt s cx.sid r))
  ∧ (∀ (s : State) (sp : Split) (n cnt cls : Nat) (rd wr : Bool), 0 < cnt →
    let room := fun (le : LaneEnv) => le.sl.size - le.sl.wb
    let report := fun (bad : List LaneEnv) (n : LaneEnv → Nat) (lanes : Nat) (o : Option CauseRec) =>
      ∀ le t, bad = le :: t → o = some (cause 0x03 0 (max (n le) (room le) % 512 + 2 ^ 16 * le.sl.wb) lanes)
    let badX := (splitLanes s sp).filter fun le => decide (room le < n + cnt)
    let slots := fun (le : LaneEnv) => classSlots le.cls
    let badF := (liveLanes s sp).filter fun le => decide (room le < slots le * n + slots le)
    let badC := (liveLanes s sp).filter fun le => decide (room le < classSlots cls * n + classSlots cls)
    (badX = [] → windowOf s sp ⟨.x n cnt, rd, wr⟩ = none) ∧
    report badX (fun _ => n) (liveMask s sp) (windowOf s sp ⟨.x n cnt, rd, wr⟩) ∧
    (badF = [] → windowOf s sp ⟨.f n, rd, wr⟩ = none) ∧
    report badF (fun le => slots le * n) (laneMask badF) (windowOf s sp ⟨.f n, rd, wr⟩) ∧
    (badC = [] → windowOf s sp ⟨.fOf n cls, rd, wr⟩ = none) ∧
    report badC (fun _ => classSlots cls * n) (laneMask badC) (windowOf s sp ⟨.fOf n cls, rd, wr⟩))
  ∧ ∀ (s : State) (cx : Iss) (i : Instr), cx.sp.hazard = none →
    let clean := ∀ o ∈ operands i, ∀ le ∈ opdLanes s cx i o, ∀ u ∈ touched cx le o, ∀ e ∈ s.ops, e.2.tok ≠ none →
      (le.sk, u.1) ∉ e.2.record
    ((∀ c, find cx.asid s.ctxs = some c → c.dbg.getLsbD 1 = false) → hazardCheck s cx i = none) ∧
    (∀ c, find cx.asid s.ctxs = some c → c.dbg.getLsbD 1 = true → (hazardCheck s cx i = none ↔ clean)) ∧
    ∀ r, hazardCheck s cx i = some r → r.code = 0x0F#8 ∧ r.sub = 0 ∧ (Stands s i cx →
      (raisesNothing i = true → cx.sp.wait = .none → cx.sp.park = none → exec i s = .next (raiseAt s cx.sid r)) ∧
      (remoteFault s cx.sp = none → (∃ c, exec i s = .next (raiseAt s cx.sid c)) ∨ ∃ t p, exec i s = .next t ∧
        find cx.sid t.splits = some p ∧ (p.hazard = some r ∨ ∃ ids bad, p.wait = .exact ids bad ∧ bad ≠ 0)))

/-- The state after the delivery of a user cause at split `sid` (R330): the handler registers hold the cause, MODE is
saved and 0, the mode is handler mode, the PC is TVEC, and each live lane's PREC is saved in TPREC, with the flags that completed operations have
set (R177); no register unit and no byte of memory changes. -/
def Sys2Proof.Machine.Delivered (s t : State) (sid : Nat) (sp : Split) (tvec : DWord) (code sub tval tlanes : Nat) : Prop :=
  (∃ p, find sid t.splits = some p ∧ p.slices = sp.slices ∧ p.tcause = BitVec.ofNat 32 (code + 256 * sub)
    ∧ p.tpc = sp.pc.setWidth 64 ∧ p.tval = BitVec.ofNat 64 tval ∧ p.tlanes = BitVec.ofNat 64 tlanes ∧ p.tsave = sp.mode
    ∧ p.mode = 0 ∧ p.handler = true ∧ p.pc = tvec.setWidth 48 ∧ p.wait = .none ∧ p.park = none ∧ p.pending = none)
  ∧ (∀ sk key, t.reg sk key = s.reg sk key) ∧ (∀ a, readByte t.mem a = readByte s.mem a) ∧ t.ctxs = s.ctxs ∧ t.ops = s.ops
  ∧ ∀ sk ∈ sp.keys, ∀ n, n < 4 → n < (s.slice sk).lanes.length → ((s.slice sk).lane n).e = false →
      ((t.slice sk).lane n).tprec = (nth {} (t.slice sk).lanesNow n).prec

/-- The context of the split of `cx` has a handler, and no split of its gang is in handler mode. -/
def Sys2Proof.Machine.CanDeliver (s : State) (cx : Iss) (tvec : DWord) : Prop :=
  (∃ c, find cx.asid s.ctxs = some c ∧ c.tvec = tvec) ∧ tvec ≠ 0 ∧ cx.sp.handler = false ∧
    ∀ e ∈ s.splits, e.2.team = cx.sp.team → e.2.gang = cx.sp.gang → e.2.handler = false

/-- R330, R333: TRAP with an active guarded lane takes cause 0x10 to the handler, TVAL its code and TLANES its lanes; with
none it goes on. BRK in a context under a debugger halts the context at the word, with cause 0x11 subcause 1. -/
def Obligations.TrapAndBreakpoint : Prop :=
  (∀ (s : State) (cx : Iss) (c : BitVec 9) (tvec : DWord), Issues s (.trap c) cx → CanDeliver s cx tvec →
    guardedLanes s cx.sp ≠ [] → ∃ t, exec (.trap c) s = .next t ∧
      Delivered s t cx.sid cx.sp tvec 0x10 0 c.toNat (laneMask (guardedLanes s cx.sp)))
  ∧ (∀ (s : State) (cx : Iss) (c : BitVec 9), Issues s (.trap c) cx → guardedLanes s cx.sp = [] →
    ∃ t, exec (.trap c) s = .next t ∧ NextWord s t cx)
  ∧ (∀ (s : State) (cx : Iss) (c : BitVec 9) (x : Ctx), Issues s (.brk c) cx → find cx.asid s.ctxs = some x →
    x.dbg.getLsbD 0 = true → x.pre = .none → ∃ t y, exec (.brk c) s = .next t ∧ find cx.asid t.ctxs = some y ∧
      y.halted = true ∧ (∃ r, y.haltAt = x.haltAt ++ [(cx.sid, r)] ∧ r.code = 0x11#8 ∧ r.sub = 1 ∧ r.tval = c.toNat ∧
        r.tlanes = liveMask s cx.sp ∧ r.pc = cx.sp.pc) ∧
      (∀ sk key, t.reg sk key = s.reg sk key) ∧ (∀ a, readByte t.mem a = readByte s.mem a) ∧
      ∃ p, find cx.sid t.splits = some p ∧ p.pc = cx.sp.pc ∧ p.mode = cx.sp.mode)

/-- R334: RFT.again and RFT.next in handler mode, with a valid TSAVE and valid TPREC in every live lane, and no cause
pending in the gang, return: MODE from TSAVE, PREC from TPREC in live lanes, the PC from TPC or the word after it. In program
mode RFT raises cause 0x02, with an invalid TSAVE 0x01, with an invalid TPREC in a live lane 0x18 (TLANES of the first two: log
entry 47, DEDUCED). -/
def Obligations.ReturnFromTrap : Prop :=
  ∀ (s : State) (cx : Iss) (next : Bool),
    let i : Instr := if next then .rftNext else .rftAgain
    let bad := (liveLanes s cx.sp).filter fun le => !precValid le.lane.tprec
    (issuing s = some cx → cx.sp.handler = false → Traps i s cx 0x02 0 ((encodeNat i).getD 0) (liveMask s cx.sp)) ∧
    (issuing s = some cx → cx.sp.handler = true → modeValid cx.sp.tsave = false →
      Traps i s cx 0x01 0 ((encodeNat i).getD 0) (liveMask s cx.sp)) ∧
    (∀ le t, issuing s = some cx → cx.sp.handler = true → modeValid cx.sp.tsave = true → bad = le :: t →
      Traps i s cx 0x18 0 le.lane.tprec.toNat (laneMask bad)) ∧
    (Issues s i cx → cx.sp.handler = true → modeValid cx.sp.tsave = true →
    (∀ le ∈ liveLanes s cx.sp, precValid le.lane.tprec = true) →
    (∀ e ∈ s.splits, e.2.team = cx.sp.team → e.2.gang = cx.sp.gang → e.2.pending = none) →
    ∃ t p, exec i s = .next t ∧ (∀ sk key, t.reg sk key = s.reg sk key) ∧ (∀ a, readByte t.mem a = readByte s.mem a) ∧
      t.ctxs = s.ctxs ∧ find cx.sid t.splits = some p ∧ p.handler = false ∧ p.mode = cx.sp.tsave ∧
      p.pc = addPc (cx.sp.tpc.setWidth 48) (if next then 4 else 0) ∧ p.tcause = cx.sp.tcause ∧ p.tval = cx.sp.tval ∧
      ∀ sk ∈ cx.sp.keys, (s.slice sk).pendF = [] → ∀ n, n < 4 → n < (s.slice sk).lanes.length →
        ((s.slice sk).lane n).e = false → ((t.slice sk).lane n).prec = ((s.slice sk).lane n).tprec)

/-- R324, R325, R335, Tables 15.1 and 15.2: a cause of every code but those of a user or debugger cause is fatal. Raised at a split
whose context is not ending yet, it marks the context as ending and keeps no effect of the word; its record, for the queue of
the grid's root, waits for the drain: CAUSE, the subcode, the split's place, TPC the address of the instruction, TVAL, TLANES
and PID. A word that decodes to nothing raises cause 0x01, TVAL the word (TLANES: log entry 47, DEDUCED). -/
def Obligations.FatalCauseEndsContext : Prop :=
  (∀ code : BitVec 8, causeClass code = .fatal ↔ code.toNat ∉ [0x03, 0x07, 0x08, 0x0B, 0x0D, 0x0E, 0x0F, 0x10, 0x11, 0x17])
  ∧ (∀ (s : State) (sid : Nat) (sp : Split) (tm : Team) (x : Ctx) (c : CauseRec), find sid s.splits = some sp →
    find sp.team s.teams = some tm → find tm.asid s.ctxs = some x → x.ending = false → causeClass c.code = .fatal →
    let t := raiseAt s sid c
    (∃ y, find tm.asid t.ctxs = some y ∧ y.ending = true ∧ ∀ g, find tm.grid s.fe.grids = some g →
      ∃ r, y.endRec = some (g.root, r) ∧ r.length = 64 ∧ fieldAt r 0 1 = c.code.toNat ∧ fieldAt r 1 1 = c.sub % 256 ∧
        fieldAt r 2 1 = 0 ∧ fieldAt r 3 1 = (if sp.handler then 1 else 0) ∧ fieldAt r 4 1 = tm.site % 256 ∧
        fieldAt r 5 1 = tm.core % 256 ∧ fieldAt r 8 4 = tm.idx.toNat ∧
        fieldAt r 16 8 = sp.pc.toNat + 2 ^ 48 * sp.pcHi.toNat ∧ fieldAt r 24 8 = c.tval % 2 ^ 64 ∧
        fieldAt r 32 8 = c.tlanes % 2 ^ 64 ∧ fieldAt r 40 4 = x.pid.toNat) ∧
    (∀ sk key, t.reg sk key = s.reg sk key) ∧ (∀ a, readByte t.mem a = readByte s.mem a) ∧ t.teams = s.teams ∧ t.fe = s.fe ∧
    t.ops = s.ops ∧ ∃ p, find sid t.splits = some p ∧ p.pc = sp.pc ∧ p.mode = sp.mode ∧ p.handler = sp.handler)
  ∧ ∀ (s : State) (cx : Iss) (w : BitVec 32), issuing s = some cx →
    Traps (.illegalEncoding w) s cx 0x01 0 w.toNat (liveMask s cx.sp)

/-! ### Floating-point words (spec/06, 07) -/

/-- The end of a floating-point word that changes registers and PREC flags alone: in each active guarded lane the flags
`fl` are set and none is cleared (R163), issue stays occupied as the class groups of the active lanes say (R176), and the
split goes on at the next word. -/
def Sys2Proof.Machine.FloatEnd (s t : State) (cx : Iss) (fl : LaneEnv → Nat) : Prop :=
  let prec := fun (u : State) (sk n : Nat) => (nth {} (u.slice sk).lanesNow n).prec
  let rest : State → Nat → Slice := fun u sk => { (u.slice sk).still with lanes := (u.slice sk).lanesNow.map fun l => { l with prec := 0 } }
  t = { s with slices := t.slices, splits := upd cx.sid (fun _ => { cx.after with busy := fpBusy s cx.sp - 1 }) s.splits }
    ∧ (∀ sk, rest t sk = rest s sk) ∧ (∀ a, readByte t.mem a = readByte s.mem a)
    ∧ (∀ le ∈ guardedLanes s cx.sp, le.i < le.sl.lanes.length → prec t le.sk le.i = prec s le.sk le.i ||| w32 (fl le * 2 ^ 24))
    ∧ ∀ sk n, (∀ le ∈ guardedLanes s cx.sp, ¬(le.sk = sk ∧ le.i = n)) → prec t sk n = prec s sk n

/-- The lanes that trap in exact mode: XT = 1 and an inexact result (R164, R178). -/
def Sys2Proof.Machine.inexact (s : State) (cx : Iss) (f : LaneEnv → FRes) : List LaneEnv :=
  (guardedLanes s cx.sp).filter fun le => precXT le.lane.prec && bitAt (f le).flags 0

/-- The floating-point word `i`: in each active guarded lane the x slots `dst` names (the first, and how many) take the
words of the result `f`, and PREC its flags, unless a lane in exact mode has an inexact result: then cause 0x0D subcause 1
is raised with those lanes, and nothing is written. With a lane in exact mode and no inexact result the split goes on with every
fixed-latency result of its slices in place, the word's own among them (R107, R178); FCLASS and FEXPO are never inexact. -/
def Sys2Proof.Machine.FloatWord (i : Instr) (dst : LaneEnv → Nat × Nat) (f : LaneEnv → FRes) : Prop :=
  ∀ (s : State) (cx : Iss), Issues s i cx →
    (inexact s cx f = [] → ∃ t, exec i s = .next t ∧ FloatEnd s t cx (fun le => (f le).flags) ∧
      (∀ le ∈ guardedLanes s cx.sp, ∀ j, j < (dst le).2 → t.reg le.sk (le.key ((dst le).1 + j)) = half (f le).v j) ∧
      (∀ sk key, (∀ le ∈ guardedLanes s cx.sp, ∀ j, j < (dst le).2 → ¬(le.sk = sk ∧ le.key ((dst le).1 + j) = key)) →
        t.reg sk key = s.reg sk key) ∧
      ((∃ le ∈ guardedLanes s cx.sp, precXT le.lane.prec = true) → (∀ d a, i ≠ .fclass d a ∧ i ≠ .fexpo d a) →
        ∀ sk ∈ cx.sp.keys, ∀ p ∈ (t.slice sk).pend, ∃ tok seq, p.ripe = .cov tok seq))
    ∧ (inexact s cx f ≠ [] → ∃ r, exec i s = .next (raiseAt s cx.sid r) ∧ r.code = 0x0D#8 ∧ r.sub = 1
        ∧ r.tlanes = laneMask (inexact s cx f))

/-- R177 to R198: the arithmetic of Table 7.2, FRND, FRSP and the conversions round the exact result of their operands
once and write f d, or d of the class FCVT.cls names; FCLASS, FEXPO and the conversions to integers and CE16 write x
slots. -/
def Obligations.FloatWordsRoundOnce : Prop :=
  ∀ (d a b : BitVec 8) (m c : BitVec 2),
    let toF := fun (le : LaneEnv) => (classSlots le.cls * d.toNat, classSlots le.cls)
    let toX := fun (k : Nat) (_ : LaneEnv) => (d.toNat, k)
    let A := fun (le : LaneEnv) => le.f a.toNat
    let B := fun (le : LaneEnv) => le.f b.toNat
    let D := fun (le : LaneEnv) => le.f d.toNat
    let rm := fun (le : LaneEnv) => precRM le.lane.prec
    let rounded := fun (x : LaneEnv → XVal) (le : LaneEnv) => roundX le.rnd (x le)
    FloatWord (.fadd d a b) toF (rounded fun le => addX (rm le) false (A le) (B le))
    ∧ FloatWord (.fsub d a b) toF (rounded fun le => addX (rm le) false (A le) (B le).negate)
    ∧ FloatWord (.fmul d a b) toF (rounded fun le => (mulV (A le) (B le)).1.exact)
    ∧ FloatWord (.fma d a b) toF (rounded fun le => fmaX (rm le) (A le) (B le) (D le))
    ∧ FloatWord (.fms d a b) toF (rounded fun le => fmaX (rm le) (A le) (B le) (D le).negate)
    ∧ FloatWord (.fnma d a b) toF (rounded fun le => fmaX (rm le) (A le).negate (B le) (D le))
    ∧ FloatWord (.fmin d a b) toF (rounded fun le => minMax false (A le) (B le))
    ∧ FloatWord (.fmax d a b) toF (rounded fun le => minMax true (A le) (B le))
    ∧ FloatWord (.frnd d a m) toF (rounded fun le => integralX m.toNat (A le))
    ∧ FloatWord (.frsp d a) toF (rounded fun le => (A le).exact)
    ∧ FloatWord (.fcvtCls d a c) (fun _ => (classSlots c.toNat * d.toNat, classSlots c.toNat)) (fun le =>
        roundX (le.rndAt (min (precP le.lane.prec) (classMaxP c.toNat)) c.toNat) (A le).exact)
    ∧ FloatWord (.fclass d a) (toX 1) (fun le => ⟨fclassOf le.rnd (le.fstored a.toNat), 0⟩)
    ∧ FloatWord (.fexpo d a) (toX 1) (fun le => ⟨fexpoOf (le.fstored a.toNat), 0⟩)
    ∧ FloatWord (.fcvtF2s32 d a) (toX 1) (fun le => toIntRes (rm le) true 32 (A le))
    ∧ FloatWord (.fcvtF2n32 d a) (toX 1) (fun le => toIntRes (rm le) false 32 (A le))
    ∧ FloatWord (.fcvtF2s64 d a) (toX 2) (fun le => toIntRes (rm le) true 64 (A le))
    ∧ FloatWord (.fcvtF2n64 d a) (toX 2) (fun le => toIntRes (rm le) false 64 (A le))
    ∧ FloatWord (.fcvtS32f d a) toF (fun le => ofIntRes le.rnd (le.x a.toNat).toInt)
    ∧ FloatWord (.fcvtN32f d a) toF (fun le => ofIntRes le.rnd (le.x a.toNat).toNat)
    ∧ FloatWord (.fcvtS64f d a) toF (fun le => ofIntRes le.rnd (le.x (a.toNat + 1) ++ le.x a.toNat).toInt)
    ∧ FloatWord (.fcvtN64f d a) toF (fun le => ofIntRes le.rnd (le.x (a.toNat + 1) ++ le.x a.toNat).toNat)
    ∧ FloatWord (.fcvtF2ce d a) (toX 1) (fun le =>
        let r := roundX (le.rndAt 8 1) (A le).exact
        ⟨r.v / 2 ^ 16, r.flags⟩)
    ∧ FloatWord (.fcvtCef d a) toF (rounded fun le => (ce16 (le.x a.toNat).toNat).exact)

/-- R184, R185: FABS, FNEG, FMOV and FCPYS act on the container's bits and set no flag; FCMP writes the condition on the
values and sets NV as R185 says. -/
def Obligations.FloatSignsAndComparison : Prop :=
  ∀ (d a b : BitVec 8) (p : BitVec 6) (c : BitVec 3),
    let top := fun (le : LaneEnv) => 2 ^ (32 * classSlots le.cls - 1)
    let sign := fun (i : Instr) (f : LaneEnv → Nat) => ∀ (s : State) (cx : Iss), Issues s i cx → ∃ t, exec i s = .next t ∧
      OnlyRegs s t cx (addPc cx.sp.pc 4) (fpBusy s cx.sp - 1) ∧
      (∀ le ∈ guardedLanes s cx.sp, ∀ j, j < classSlots le.cls →
        t.reg le.sk (le.key (classSlots le.cls * d.toNat + j)) = half (f le) j) ∧
      ∀ sk key, (∀ le ∈ guardedLanes s cx.sp, ∀ j, j < classSlots le.cls →
        ¬(le.sk = sk ∧ le.key (classSlots le.cls * d.toNat + j) = key)) → t.reg sk key = s.reg sk key
    sign (.fabs d a) (fun le => le.fraw a.toNat % top le)
    ∧ sign (.fneg d a) (fun le => (le.fraw a.toNat + top le) % (2 * top le))
    ∧ sign (.fmov d a) (fun le => le.fraw a.toNat)
    ∧ sign (.fcpys d a b) (fun le => le.fraw a.toNat % top le + le.fraw b.toNat / top le * top le)
    ∧ ∀ (s : State) (cx : Iss), Issues s (.fcmp p a b c) cx → ∃ t, exec (.fcmp p a b c) s = .next t ∧
        FloatEnd s t cx (fun le => if fcmpNv c.toNat (le.f a.toNat) (le.f b.toNat) then 16 else 0) ∧
        WritesP s t cx p.toNat fun le => fcmpCond c.toNat (le.f a.toNat) (le.f b.toNat)

/-- R177, R178, R182, R191: FDIV (to t8) and the special functions (to the token they name) hold, for each active guarded
lane, the words of the result and its flags, and change no register at issue. With no lane in exact mode the split goes on; with
one it waits until the operations have completed, and then goes on, or, where a lane in exact mode has an inexact result, nothing
is written and the wait ends at cause 0x0D subcause 1 with those lanes (log entry 49, DEDUCED). A faithful function with P above 24 in some
guarded lane raises subcause 3 with its code. Which of the two adjacent members a faithful function returns is the model's
free value (log entry 9, DESIGN CHOICE). -/
def Obligations.DivisionAndFunctionsPost : Prop :=
  ∀ (s : State) (cx : Iss) (d a b : BitVec 8) (k : BitVec 4),
    let exacts := (guardedLanes s cx.sp).filter fun le => precXT le.lane.prec
    let busy := fpBusy s cx.sp - 1
    let posts := fun (i : Instr) (tok : Nat) (f : LaneEnv → FRes) => Issues s i cx →
      let bad := inexact s cx f
      let w : Wait := .exact (upFrom s.nextOp cx.sp.keys.length) (laneMask bad)
      let sp := if exacts = [] then { cx.after with busy := busy } else
        { cx.sp with wait := w, busy := busy, passed := [], declined := [], hazard := none, held := none }
      ∃ t, exec i s = .next t ∧ PostsAs s t cx sp ∧
        (bad = [] → ∀ le ∈ guardedLanes s cx.sp, Posted s t tok le.sk fun body => ∃ ls fl, body = .result ls fl ∧
          (le.sk, le.i, w32 ((f le).flags * 2 ^ 24)) ∈ fl ∧ ∀ j, j < classSlots le.cls →
            (⟨le.sk, le.key (classSlots le.cls * d.toNat + j), half (f le).v j⟩ : Land) ∈ ls) ∧
        (bad ≠ [] → ∀ sk ∈ cx.sp.keys, Posted s t tok sk fun body => body = .result [] [])
    let ends := ∀ (t : State) (sid : Nat) (sp : Split) (tm : Team) (ids : List Nat) (bad : Nat), find sid t.splits = some sp →
      find sp.team t.teams = some tm → sp.wait = .exact ids bad →
      ((∃ k ∈ ids, (find k t.ops).isSome = true) → pollWait t sid = t) ∧
      ((∀ k ∈ ids, find k t.ops = none) → (bad ≠ 0 → pollWait t sid = raiseAt t sid (cause 0x0D 1 0 bad)) ∧
        (bad = 0 → find sid (pollWait t sid).splits =
          some { sp with wait := .none, pc := addPc sp.pc 4, passed := [], declined := [], hazard := none, held := none }))
    let narrow := ∀ le ∈ guardedLanes s cx.sp, precP le.lane.prec ≤ 24
    let wide := fun (i : Instr) (n : Nat) => Issues s i cx → ¬narrow → ∃ r, exec i s = .next (raiseAt s cx.sid r)
      ∧ r.code = 0x0D#8 ∧ r.sub = 3 ∧ r.tval = n
    let faithful := fun (i : Instr) (fn : Sfu) (n : Nat) =>
      (narrow → posts i k.toNat fun le => fn.result le a.toNat) ∧ wide i n
    ends ∧ posts (.fdiv d a b) 8 (fun le => divRes le.rnd (le.f a.toNat) (le.f b.toNat))
    ∧ posts (.fsqrt d a k) k.toNat (fun le => Sfu.result .sqrt le a.toNat)
    ∧ faithful (.frcp d a k) .rcp 1 ∧ faithful (.frsq d a k) .rsq 2 ∧ faithful (.fexp2 d a k) .exp2 3
    ∧ faithful (.flog2 d a k) .log2 4 ∧ faithful (.fsin d a k) .sin 5 ∧ faithful (.fcos d a k) .cos 6
    ∧ faithful (.ftanh d a k) .tanh 7

/-- The number a sign, a quotient and a power of two stand for. -/
def Sys2Proof.Machine.signedRat (neg : Bool) (n d : Nat) (e : Int) : Rat := (if neg then -1 else 1) * ((n : Rat) / (d : Rat)) * (2 : Rat) ^ e
/-- A finite value as a number. -/
def Sys2Proof.Machine.FVal.Is (v : FVal) (r : Rat) : Prop := ∃ neg m e, v = .fin neg m e ∧ signedRat neg m 1 e = r
/-- An exact result as a number. -/
def Sys2Proof.Machine.XVal.Is (v : XVal) (r : Rat) : Prop := ∃ neg n d e, v = .num neg n d e ∧ 0 < d ∧ signedRat neg n d e = r
/-- The finite members of the value set of a target (R159). -/
def Sys2Proof.Machine.Member (x : Rnd) (r : Rat) : Prop :=
  ∃ (neg : Bool) (m : Nat) (e : Int), m < 2 ^ x.p ∧ eminOf x.eb - x.p + 1 ≤ e ∧ e ≤ emaxOf x.eb - x.p + 1 ∧ signedRat neg m 1 e = r

/-- An integer to which a number rounds in a direction: to nearest with ties to even, toward zero, up, or down (R160, R188). -/
def Sys2Proof.Machine.RoundsTo (rm : Nat) (r : Rat) (y : Int) : Prop :=
  (rm = 0 → 2 * (r - y).abs ≤ 1 ∧ (2 * (r - y).abs = 1 → y % 2 = 0)) ∧ (rm = 1 → (y : Rat).abs ≤ r.abs ∧ (r - y).abs < 1) ∧
    (rm = 2 → r ≤ y ∧ (y : Rat) < r + 1) ∧ (rm = 3 → (y : Rat) ≤ r ∧ r < y + 1)

/-- Tables 7.4 and 7.6, R183, R187 to R189, R195 to R197: FCLASS names the kind of its operand, and whether it lies outside the
value set; FEXPO gives the exponent of the leading one bit; FRND rounds to an integer in the direction named, and keeps the sign
of a zero; FMIN and FMAX pick the lesser and the greater, −0 below +0; a conversion to an integer rounds, then keeps to the
type's range; integers and CE16 codes stand for the numbers they encode. -/
def Sys2Proof.Machine.QueriesAndConversions : Prop :=
  (∀ (x : Rnd) (neg sig : Bool) (m : Nat) (e : Int), 2 ≤ x.p → (x.eb, x.t) ∈ [(8, 23), (11, 52), (15, 112)] →
      let v := signedRat neg m 1 e
      let kind : Nat := if v.abs < (2 : Rat) ^ eminOf x.eb then (if neg then 2 ^ 2 else 2 ^ 5) else (if neg then 2 ^ 1 else 2 ^ 6)
      (fclassOf x (.nan sig) = if sig then 2 ^ 8 else 2 ^ 9) ∧ (fclassOf x (.inf neg) = if neg then 2 ^ 0 else 2 ^ 7) ∧
      (fclassOf x (.fin neg 0 e) = if neg then 2 ^ 3 else 2 ^ 4) ∧
      (0 < m → v.abs < (2 : Rat) ^ (emaxOf x.eb + 1) → (Member x v → fclassOf x (.fin neg m e) = kind) ∧
        (¬Member x v → fclassOf x (.fin neg m e) = kind + 2 ^ 10)))
  ∧ (∀ (neg : Bool) (m : Nat) (e k : Int), fexpoOf (.nan neg) = 0x7FFFFFFF ∧ fexpoOf (.inf neg) = 0x7FFFFFFE ∧
      fexpoOf (.fin neg 0 e) = 0x80000000 ∧ ((2 : Rat) ^ k ≤ (signedRat neg m 1 e).abs → (signedRat neg m 1 e).abs < (2 : Rat) ^ (k + 1) →
        fexpoOf (.fin neg m e) = (BitVec.ofInt 32 k).toNat))
  ∧ (∀ (rm : Nat) (neg : Bool) (m : Nat) (e : Int), rm < 4 → ∃ n d e', integralX rm (.fin neg m e) = .num neg n d e' ∧ 0 < d ∧
      ∃ y : Int, signedRat neg n d e' = y ∧ RoundsTo rm (signedRat neg m 1 e) y)
  ∧ (∀ (a b : FVal) (ra rb : Rat) (big : Bool) (e f : Int), a.Is ra → b.Is rb →
      (ra ≤ rb → (minMax false a b).Is ra ∧ (minMax true a b).Is rb) ∧ (rb ≤ ra → (minMax false a b).Is rb ∧ (minMax true a b).Is ra) ∧
      (∃ e', minMax false (.fin false 0 e) (.fin true 0 f) = .num true 0 1 e') ∧ (∃ e', minMax true (.fin true 0 e) (.fin false 0 f) = .num false 0 1 e') ∧
      minMax big a (.inf true) = (if big then a.exact else .inf true) ∧ minMax big (.inf false) b = if big then .inf false else b.exact)
  ∧ (∀ (a b : FVal) (big : Bool), a.isNan = true ∨ b.isNan = true → minMax big a b = .nan (a.isSnan || b.isSnan))
  ∧ (∀ (rm w : Nat) (sgn sig neg : Bool) (v : FVal) (r : Rat) (y : Int), rm < 4 → w = 32 ∨ w = 64 → v.Is r → RoundsTo rm r y →
      let lo : Int := if sgn then -2 ^ (w - 1) else 0
      let hi : Int := if sgn then 2 ^ (w - 1) - 1 else 2 ^ w - 1
      let res := fun (k : Int) => (BitVec.ofInt w k).toNat
      toIntRes rm sgn w (.nan sig) = ⟨0, 16⟩ ∧ toIntRes rm sgn w (.inf neg) = ⟨res (if neg then lo else hi), 16⟩ ∧
      (hi < y → toIntRes rm sgn w v = ⟨res hi, 16⟩) ∧ (y < lo → toIntRes rm sgn w v = ⟨res lo, 16⟩) ∧
      (lo ≤ y → y ≤ hi → ∃ f, toIntRes rm sgn w v = ⟨res y, f⟩ ∧ (f = if r = y then 0 else 1)))
  ∧ (∀ (x : Rnd) (k : Int), ∃ z : XVal, z.Is k ∧ ofIntRes x k = roundX x z)
  ∧ ∀ v : Nat, v < 2 ^ 16 → ((∃ sig, decodeF 8 7 v = .nan sig) → ce16 v = .nan false) ∧ ((decodeF 8 7 v).isNan = false → ce16 v = decodeF 8 7 v)

/-- Tables 9.1, 9.2 and 9.4, R215 to R221: a storage element stands for the number its code gives; toward scratchpad that number
times its block's scale rounds to the nearest CE16 value, and toward memory its quotient by the scale rounds once as RND says,
with the overflow rule of R220; a computed scale is the least that takes the greatest magnitude of its block. -/
def Sys2Proof.Machine.StorageConversions : Prop :=
  let scaled := fun (r : Rat) (scale : Option Nat) (k : Int) => match scale with | some v => r * (2 : Rat) ^ (k * ((v : Int) - 127)) | none => r
  (∀ (g : B8) (v : Nat), 1 ≤ g.p → g.p ≤ 7 → v < 256 →
      let neg := !g.uns && decide (128 ≤ v)
      let c := if g.uns then v else v % 128
      let x := c / 2 ^ (g.p - 1)
      let t := c % 2 ^ (g.p - 1)
      let bias : Int := if g.uns then 2 ^ (8 - g.p) else 2 ^ (7 - g.p)
      let nan := if g.uns then 0xFF else 0x80
      let inf := g.fin = false ∧ (if g.uns then v = 0xFE else v = 0x7F ∨ v = 0xFF)
      (v = nan → g.decode v = .nan false) ∧ (inf → g.decode v = .inf neg) ∧
      (v ≠ nan → ¬inf → (g.decode v).Is (signedRat neg (if x = 0 then t else 2 ^ (g.p - 1) + t) 1 ((if x = 0 then 1 - bias else x - bias) - g.p + 1))))
  ∧ (∀ v : Nat, (SFmt.decode .int8 v).Is (BitVec.ofNat 8 v).toInt ∧ (SFmt.decode .int4 v).Is (BitVec.ofNat 4 v).toInt ∧
      SFmt.decode .bf16 v = decodeF 8 7 v ∧ SFmt.decode .fp16 v = decodeF 5 10 v ∧ SFmt.decode .fp32 v = decodeF 8 23 v)
  ∧ (∀ (sat neg sig : Bool) (x : FVal) (r : Rat) (scale : Option Nat) (e : Int), expandCE16 sat x (some 0xFF) = 0x7FC0 ∧ (scale ≠ some 0xFF →
      expandCE16 sat (.nan sig) scale = 0x7FC0 ∧ (expandCE16 sat (.inf neg) scale = if neg then 0xFF80 else 0x7F80) ∧
      (expandCE16 sat (.fin neg 0 e) scale = if neg then 0x8000 else 0) ∧ (x.Is r → r ≠ 0 → ∃ z : XVal, z.Is (scaled r scale 1) ∧
        let q := roundX ⟨8, 8, 7, 0, true⟩ z
        expandCE16 sat x scale = if sat ∧ bitAt q.flags 2 = true then (if r < 0 then 0xFF7F else 0x7F7F) else q.v)))
  ∧ (∀ (f : SFmt) (eb t : Nat) (sat sig neg : Bool) (rnd : Nat) (x : FVal) (r : Rat) (scale : Option Nat) (e : Int), rnd < 4 →
      (f, eb, t) ∈ [(.bf16, 8, 7), (.fp16, 5, 10), (.fp32, 8, 23)] →
      let nan := (2 ^ eb - 1) * 2 ^ t + 2 ^ (t - 1)
      let most := fun (n : Bool) => (2 ^ eb - 2) * 2 ^ t + (2 ^ t - 1) + if n then 2 ^ (eb + t) else 0
      let zero := rnd = 1 ∨ (rnd = 2 ∧ neg = true) ∨ (rnd = 3 ∧ neg = false)
      f.store sat rnd x (some 0xFF) = nan ∧ f.store sat rnd (.nan sig) scale = nan ∧ (scale ≠ some 0xFF →
      (f.store sat rnd (.inf neg) scale = if sat ∨ zero then most neg else encInf eb t neg) ∧
      (f.store sat rnd (.fin neg 0 e) scale = if neg then 2 ^ (eb + t) else 0) ∧ (x.Is r → r ≠ 0 → ∃ z : XVal, z.Is (scaled r scale (-1)) ∧
        let q := roundX ⟨t + 1, eb, t, rnd, true⟩ z
        f.store sat rnd x scale = if sat ∧ bitAt q.flags 2 = true then most (decide (r < 0)) else q.v)))
  ∧ (∀ (f : SFmt) (w : Nat) (sat sig neg : Bool) (rnd : Nat) (x : FVal) (r : Rat) (y : Int) (scale : Option Nat), rnd < 4 →
      (f, w) ∈ [(SFmt.int8, 8), (.int4, 4)] →
      let res := fun (k : Int) => (BitVec.ofInt w (max (-2 ^ (w - 1)) (min (2 ^ (w - 1) - 1) k))).toNat
      f.store sat rnd x (some 0xFF) = 0 ∧ f.store sat rnd (.nan sig) scale = 0 ∧ (scale ≠ some 0xFF →
      f.store sat rnd (.inf neg) scale = res (if neg then -2 ^ w else 2 ^ w) ∧
      (x.Is r → RoundsTo rnd (scaled r scale (-1)) y → f.store sat rnd x scale = res y)))
  ∧ (∀ (g : B8) (sat sig : Bool) (rnd : Nat) (x : FVal) (r big : Rat) (scale : Option Nat), 1 ≤ g.p → g.p ≤ 7 → rnd < 4 → x.Is r →
      (g.decode g.maxCode).Is big →
      let f : SFmt := .b8 g
      let v := scaled r scale (-1)
      let y := f.store sat rnd x scale
      let nan := if g.uns then 0xFF else 0x80
      let member := fun (q : Rat) => ∃ c, c < 256 ∧ (g.decode c).Is q
      let neg := decide (v < 0)
      f.store sat rnd x (some 0xFF) = nan ∧ f.store sat rnd (.nan sig) scale = nan ∧ (scale ≠ some 0xFF → (g.uns = true → v < 0 → y = nan) ∧
      (g.uns = false ∨ 0 ≤ v → v.abs ≤ big → y < 256 ∧ ∃ q, (g.decode y).Is q ∧
        (rnd = 0 → ∀ z, member z → (v - q).abs ≤ (v - z).abs) ∧ (rnd = 1 → q.abs ≤ v.abs ∧ ∀ z, member z → z.abs ≤ v.abs → z.abs ≤ q.abs) ∧
        (rnd = 2 → v ≤ q ∧ ∀ z, member z → v ≤ z → q ≤ z) ∧ (rnd = 3 → q ≤ v ∧ ∀ z, member z → z ≤ v → z ≤ q)) ∧
      (g.uns = false ∨ 0 ≤ v → 2 * big ≤ v.abs → y = if sat ∨ rnd = 1 ∨ (rnd = 2 ∧ neg) ∨ (rnd = 3 ∧ !neg) then g.maxCode + (if neg then 128 else 0)
        else if g.fin then nan else if g.uns then 0xFE else if neg then 0xFF else 0x7F)))
  ∧ ∀ (f : SFmt) (xs : List FVal) (rs : List Rat) (big : Rat), f.scales = true → (∀ g, f = .b8 g → 1 ≤ g.p ∧ g.p ≤ 7) →
      (match f with | .b8 g => (g.decode g.maxCode).Is big | .int8 => big = 127 | _ => big = 7) →
      ((∃ x ∈ xs, x.isNan = true) → blockScale f xs = 0xFF) ∧
      ((∀ x ∈ xs, x.isNan = false) → (∀ r, r ∈ rs ↔ ∃ x ∈ xs, x.Is r) → let v := blockScale f xs
        ((∀ r ∈ rs, r = 0) → v = 0) ∧ v ≤ 254 ∧ (v < 254 → ∀ r ∈ rs, r.abs ≤ big * (2 : Rat) ^ ((v : Int) - 127)) ∧
        ∀ k, k < v → ∃ r ∈ rs, big * (2 : Rat) ^ ((k : Int) - 127) < r.abs)

/-- R243 to R245: an element of a matrix product is a NaN when an input or a product is, or infinities of both signs meet; it is the
infinity that its terms hold; else each nonzero term is cut toward zero to whole quanta 40 binary places below the greatest, and
their exact sum rounds once to FP32. A product of matrices is that element for every row and column. -/
def Sys2Proof.Machine.DotProducts : Prop :=
  (∀ v w : FVal, (mulV v w).1.isNan = true ↔ v.isNan = true ∨ w.isNan = true ∨ (v.isInf = true ∧ w.isZero = true) ∨ (v.isZero = true ∧ w.isInf = true))
  ∧ (∀ (as bs : List Nat) (c : Option Nat) (ts : List Rat) (ns : List Int) (em : Int) (neg : Bool), as.length = bs.length →
      let vals := ((as.zip bs).map fun e => (mulV (decodeF 8 7 e.1) (decodeF 8 7 e.2)).1) ++ c.toList.map (decodeF 8 23)
      ((∃ v ∈ vals, v.isNan = true) → dot as bs c = 0x7FC00000) ∧
      ((∀ v ∈ vals, v.isNan = false) → .inf neg ∈ vals → dot as bs c = if FVal.inf (!neg) ∈ vals then 0x7FC00000
        else if neg then 0xFF800000 else 0x7F800000) ∧
      ((∀ v ∈ vals, v.Is 0) → dot as bs c = 0) ∧
      (ts.length = vals.length → ns.length = vals.length → (∀ k, k < vals.length → (nth (.nan true) vals k).Is (nth 0 ts k) ∧
          (nth 0 ts k).abs < (2 : Rat) ^ (em + 1) ∧ RoundsTo 1 (nth 0 ts k * (2 : Rat) ^ (40 - em)) (nth 0 ns k)) →
        (∃ t ∈ ts, (2 : Rat) ^ em ≤ t.abs) → (ns.sum = 0 → dot as bs c = 0) ∧
          (ns.sum ≠ 0 → ∃ z : XVal, z.Is (ns.sum * (2 : Rat) ^ (em - 40)) ∧ dot as bs c = (roundX ⟨24, 8, 23, 0, true⟩ z).v)))
  ∧ ∀ (as bs : List Nat) (old : Option (List Nat)) (i j : Nat), as.length = 2048 → bs.length = 2048 → (∀ o, old = some o → o.length = 4096) →
      i < 64 → j < 64 → nth 0 (matmul as bs old) (64 * i + j) =
        dot ((upFrom 0 32).map fun k => nth 0 as (32 * i + k)) ((upFrom 0 32).map fun k => nth 0 bs (64 * k + j)) (old.map fun o => nth 0 o (64 * i + j))

/-- R159 to R163, R180: an encoding stands for the number its fields give; sums, products, quotients and fused products are exact
before rounding; with SUB = 1 a result that does not overflow is the member of the value set that RM names, NX says whether
it differs from the exact result, and UF whether it does so below the normal range; one that overflows is the infinity or the largest
finite value that RM names, with OF and NX. A result overflows from (2 − 2^−P) × 2^emax up, or, where RM goes away from zero, above the
largest finite value (that RTZ does so too is log entry 83, DEDUCED). With SUB = 0 a subnormal operand reads as zero of its sign, and
a result is the same unless it is tiny: then it sets UF and NX and is zero of its sign, or, where its rounding to P bits reaches the
least normal value, that value. NaNs, infinities and zeros round to themselves. -/
def Obligations.ResultsAreExactThenRounded : Prop :=
  QueriesAndConversions ∧ StorageConversions ∧ DotProducts ∧
  (∀ (a b c : FVal) (ra rb rc : Rat) (rm : Nat) (nv : Bool), a.Is ra → b.Is rb → c.Is rc →
    (addX rm nv a b).Is (ra + rb) ∧ (mulV a b).1.exact.Is (ra * rb) ∧ (fmaX rm a b c).Is (ra * rb + rc)
    ∧ (rb ≠ 0 → (divX a b).1.Is (ra / rb)) ∧ (ltF a b = true ↔ ra < rb))
  ∧ (∀ (eb t v : Nat), (eb, t) ∈ [(8, 7), (5, 10), (8, 23), (11, 52), (15, 112)] → v < 2 ^ (eb + t + 1) →
      let neg := bitAt v (eb + t)
      let ex := v / 2 ^ t % 2 ^ eb
      let fr := v % 2 ^ t
      (ex = 0 → (decodeF eb t v).Is (signedRat neg fr 1 (2 - 2 ^ (eb - 1) - t))) ∧
      (0 < ex → ex < 2 ^ eb - 1 → (decodeF eb t v).Is (signedRat neg (2 ^ t + fr) 1 (ex + 1 - 2 ^ (eb - 1) - t))) ∧
      (ex = 2 ^ eb - 1 → decodeF eb t v = if fr = 0 then .inf neg else .nan (decide (fr < 2 ^ (t - 1)))))
  ∧ (∀ (sub : Bool) (eb t v : Nat), (eb, t) ∈ [(8, 7), (5, 10), (8, 23), (11, 52), (15, 112)] → v < 2 ^ (eb + t + 1) →
      flushOperand sub eb t (decodeF eb t v) = if sub = false ∧ v / 2 ^ t % 2 ^ eb = 0 then .fin (bitAt v (eb + t)) 0 0 else decodeF eb t v)
  ∧ (∀ (x : Rnd) (neg nv : Bool) (d : Nat) (e : Int), let top := (2 ^ x.eb - 1) * 2 ^ x.t
      let sign := if neg then 2 ^ (x.eb + x.t) else 0
      roundX x (.nan nv) = ⟨top + 2 ^ (x.t - 1), if nv then 16 else 0⟩ ∧ roundX x (.inf neg) = ⟨top + sign, 0⟩ ∧
      roundX x (.num neg 0 d e) = ⟨sign, 0⟩)
  ∧ (∀ (x : Rnd) (neg : Bool) (n d : Nat) (e : Int), 0 < n → 0 < d → 2 ≤ x.p → x.p ≤ x.t + 1 → x.rm < 4 → x.sub = false →
      (x.eb, x.t) ∈ [(8, 7), (8, 23), (11, 52), (15, 112)] →
      let v := (signedRat neg n d e).abs
      let least := (2 : Rat) ^ eminOf x.eb
      let r := roundX x (.num neg n d e)
      let sign := if neg then 2 ^ (x.eb + x.t) else 0
      let reach := (x.rm = 0 ∧ (1 - (2 : Rat) ^ (-(x.p : Int) - 1)) * least ≤ v) ∨
        (((x.rm = 2 ∧ neg = false) ∨ (x.rm = 3 ∧ neg = true)) ∧ (1 - (2 : Rat) ^ (-(x.p : Int))) * least < v)
      (least ≤ v → r = roundX { x with sub := true } (.num neg n d e)) ∧
      (v < least → r.flags = 3 ∧ (reach → r.v = sign + 2 ^ x.t) ∧ (¬reach → r.v = sign)))
  ∧ ∀ (x : Rnd) (neg : Bool) (n d : Nat) (e : Int), 0 < n → 0 < d → 2 ≤ x.p → x.p ≤ x.t + 1 → x.rm < 4 → x.sub = true →
      (x.eb, x.t) ∈ [(8, 7), (8, 23), (11, 52), (15, 112)] →
      let v := signedRat neg n d e
      let r := roundX x (.num neg n d e)
      let away := (x.rm = 2 ∧ neg = false) ∨ (x.rm = 3 ∧ neg = true)
      (bitAt r.flags 2 = true ↔ if away then (2 - (2 : Rat) ^ (1 - (x.p : Int))) * (2 : Rat) ^ emaxOf x.eb < v.abs
        else (2 - (2 : Rat) ^ (-(x.p : Int))) * (2 : Rat) ^ emaxOf x.eb ≤ v.abs) ∧
      (bitAt r.flags 2 = true → r.flags = 5 ∧
        if x.rm = 0 ∨ away then decodeF x.eb x.t r.v = .inf neg
        else (decodeF x.eb x.t r.v).Is (signedRat neg (2 ^ x.p - 1) 1 (emaxOf x.eb - x.p + 1))) ∧
      (bitAt r.flags 2 = false → ∃ y, (decodeF x.eb x.t r.v).Is y ∧ Member x y ∧
        (x.rm = 0 → ∀ z, Member x z → (v - y).abs ≤ (v - z).abs) ∧
        (x.rm = 1 → y.abs ≤ v.abs ∧ ∀ z, Member x z → z.abs ≤ v.abs → z.abs ≤ y.abs) ∧
        (x.rm = 2 → v ≤ y ∧ ∀ z, Member x z → v ≤ z → y ≤ z) ∧
        (x.rm = 3 → y ≤ v ∧ ∀ z, Member x z → z ≤ v → z ≤ y) ∧
        (bitAt r.flags 0 = true ↔ y ≠ v) ∧
        (bitAt r.flags 1 = true ↔ y ≠ v ∧ v.abs < (2 : Rat) ^ eminOf x.eb))

/-! ### Engine words and remote words (spec/09, 10, 13) -/

/-- The engine word `i` completes its issue: one operation with the body `p` describes is posted to the token `tok` gives,
if any, and the split waits for its acceptance (R231, R239), with nothing else changed. -/
def Sys2Proof.Machine.EngineWord (i : Instr) (tok : State → Iss → Option Nat) (p : State → Iss → OpBody → Prop) : Prop :=
  ∀ (s : State) (cx : Iss), Issues s i cx → ∃ t o, exec i s = .next t ∧
    PostsAs s t cx { cx.sp with wait := .accept s.nextOp, passed := [], declined := [], hazard := none, held := none } ∧
    find s.nextOp t.ops = some o ∧ o.tok = tok s cx ∧ o.slices = cx.sp.keys ∧ o.pc = cx.sp.pc ∧ p s cx o.body ∧
    ∀ k, tok s cx = some k → ∀ sk ∈ cx.sp.keys, (⟨k, s.nextOp, false⟩ : TokE) ∈ (t.slice sk).toks

/-- R230, R239, R245 to R251: TCOPY, MMA, MMAG, MMAS, ACCZ, ACCRD, ACCWR and ACCST take their operands at issue, TCOPY and
ACCST post to the token their control word names when its bit 4 asks for one, and the split waits for acceptance. -/
def Obligations.EngineWordsWaitForAcceptance : Prop :=
  ∀ (d a b : BitVec 8) (k : BitVec 4) (p : BitVec 3) (e : Bool),
    let ctl := fun (s : State) (cx : Iss) => if cx.g s d.toNat / 16 % 2 = 1 then some (cx.g s d.toNat % 16) else none
    let named := fun (_ : State) (_ : Iss) => some k.toNat
    let tcopy := fun (st : Bool) (s : State) (cx : Iss) (body : OpBody) => ∃ x, body = .tcopy x ∧ x.store = st ∧
      x.accepted = false ∧ x.ctl = BitVec.ofNat 64 (cx.g s d.toNat) ∧ x.recAddr = BitVec.ofNat 64 (cx.g s a.toNat) ∧
      x.coord = BitVec.ofNat 64 (cx.g s b.toNat)
    let matrix := fun (kind : MatKind) (q : State → Iss → MatOp → Prop) (s : State) (cx : Iss) (body : OpBody) =>
      ∃ m, body = .matrix m ∧ m.kind = kind ∧ m.accepted = false ∧ q s cx m
    let mul := fun (s : State) (cx : Iss) (m : MatOp) => m.tile = p.toNat ∧ m.ga = BitVec.ofNat 64 (cx.g s a.toNat) ∧
      m.gb = BitVec.ofNat 64 (cx.g s b.toNat)
    let row := fun (v : Nat) (m : MatOp) => m.row = v % 64 ∧ m.tile = v / 2 ^ 8 % 8
    let col := fun (v : Nat) (le : LaneEnv) => (v / 2 ^ 16 % 64 + le.n) % 64
    EngineWord (.tcopyLd d a b) ctl (tcopy false)
    ∧ EngineWord (.tcopySt d a b) ctl (tcopy true)
    ∧ EngineWord (.mma k p a b e) named (matrix (.mma e) mul)
    ∧ EngineWord (.mmag k p a b e) named (matrix (.mmag e) mul)
    ∧ EngineWord (.mmas k p a b e) named (matrix (.mmas e) mul)
    ∧ EngineWord (.accz p k) named (matrix .accz fun _ _ m => m.tile = p.toNat)
    ∧ EngineWord (.accrd d a k) named (matrix .accrd fun s cx m => row (cx.g s a.toNat) m ∧
        m.cols = (guardedLanes s cx.sp).map fun le => (le.sk, col (cx.g s a.toNat) le, le.key d.toNat))
    ∧ EngineWord (.accwr d a k) named (matrix .accwr fun s cx m => row (cx.g s d.toNat) m ∧
        m.cols.map (·.2.1) = (guardedLanes s cx.sp).map (col (cx.g s d.toNat)) ∧
        m.vals = (guardedLanes s cx.sp).map fun le => le.x a.toNat)
    ∧ EngineWord (.accst d p) ctl (matrix .accst fun s cx m => m.tile = p.toNat ∧ m.ga = BitVec.ofNat 64 (cx.g s d.toNat))

/-- Whether a packet of the issuing island can be sent toward an island: a route leads there, and an island of this panel
is live (R20, R284, R290). -/
def Sys2Proof.Machine.Reachable (s : State) (site panel dst : Nat) : Prop :=
  (routeTo s site panel dst).isSome = true ∧ (isLoop s site panel dst = true ∨ panel ≠ s.fe.panel.toNat ∨ s.live dst = true)

/-- R293 to R298, Tables 13.6 and 13.7: an RPUT, RGET, RATOM or NADD whose operands pass their checks, whose remote pieces lie on
one island that can be reached, and whose local bytes are not poisoned, posts its operation toward that island and goes on at
the next word with no register changed. A malformed control word, descriptor or value raises cause 0x12 subcause 24, a counter
beyond the window subcause 25; a misaligned lane, or a 64-bit atomic on a counter, cause 0x04; pieces on two islands and every
other failed check the cause that translation gives; an island to which no route leads cause 0x07. A missing translation parks
the split (the rank of subcauses: log entry 63, DEDUCED). -/
def Obligations.RemoteWordsPostOperations : Prop :=
  ∀ (s : State) (cx : Iss) (d a b : BitVec 8) (k : BitVec 4) (o : BitVec 3) (sg w put : Bool) (pas : List (Chk × Nat)) (pa : Nat)
    (ms : List Miss) (ps : List (Nat × Need × Nat)) (c : CauseRec),
    let goesOn := fun (t : State) => Goes t cx ∧ (∀ sk key, t.reg sk key = s.reg sk key) ∧ t.ctxs = s.ctxs ∧ t.teams = s.teams
    let island := fun (r : Remote) => r.dstPanel = pa / 2 ^ 48 % 256 ∧ r.dst = pa / 2 ^ 44 % 16
    let reachable := Reachable s cx.tm.site (pa / 2 ^ 48 % 256) (pa / 2 ^ 44 % 16)
    let noRoute := routeTo s cx.tm.site (pa / 2 ^ 48 % 256) (pa / 2 ^ 44 % 16) = none
    let live := liveMask s cx.sp
    (let i : Instr := if put then .rput d a b else .rget d a b
     let v := cx.g s d.toNat
     let len := v % 2 ^ 25
     let reserved := v / 2 ^ 60 % 4 ≠ 0 ∨ v / 2 ^ 40 % 2 ^ 8 ≠ 0 ∨ v / 2 ^ 25 % 2 ^ 11 ≠ 0 ∨ 2 ^ 24 < len ∨ (put = false ∧ v / 2 ^ 62 % 4 ≠ 0)
     let beyond := put = true ∧ v / 2 ^ 62 % 2 = 1 ∧ ncount (windowOfCtx s cx.asid) ≤ v / 2 ^ 48 % 2 ^ 12
     let loc := if len = 0 then [] else chksOf 0 live (cx.g s a.toNat) len (if put then .r else .w) 1
     let rem := chksOf 1 live (cx.g s b.toNat) (if len = 0 then 1 else len) (if put then .w else .r) 2
     let checks := xlateAll s cx.env (loc ++ rem) (farRange live)
     let rs := pas.filter fun p => p.1.unit = 1
     Stands s i cx → (reserved → Traps i s cx 0x12 24 v live) ∧ (¬reserved → beyond → Traps i s cx 0x12 25 v live) ∧
       (¬reserved → ¬beyond →
         (checks = .fault c → exec i s = .next (raiseAt s cx.sid c)) ∧
         (checks = .park ms ps → Issues s i cx → Parks i (v / 2 ^ 36 % 16) s cx ms ps) ∧
         (checks = .ok pas → rs.head?.map (·.2) = some pa → noRoute → Traps i s cx 0x07 0 pa live) ∧
         (checks = .ok pas → rs.head?.map (·.2) = some pa → reachable → (∀ l, (find l s.poison).isSome = false) → Issues s i cx →
           ∃ t, exec i s = .next t ∧ goesOn t ∧ ∀ sk ∈ cx.sp.keys, Posted s t (v / 2 ^ 36 % 16) sk fun body => ∃ r, body = .remote r ∧
             r.kind = (if put then .put else .get) ∧ island r ∧ r.len = len ∧ r.rva = cx.g s b.toNat ∧
             r.rem = (rs.map fun p => (p.2 % 2 ^ 44, p.1.n)) ∧
             r.loc = ((pas.filter fun p => p.1.unit = 0).map fun p => (p.2 % 2 ^ 48, p.1.n)) ∧
             r.notify = (if put ∧ v / 2 ^ 62 % 2 = 1 then
               some ((windowOfCtx s cx.asid).toNat % 2 ^ 12 + v / 2 ^ 48 % 2 ^ 12) else none) ∧
             r.fenced = (put && v / 2 ^ 63 % 2 == 1))))
    ∧ (let i : Instr := .ratom d a k o sg w
       let us := (guardedLanes s cx.sp).map fun le => le.atomUnit d o w (le.xs a.toNat 2)
       let odd := us.filter fun u => decide (u.va % u.bytes ≠ 0)
       let counters := us.filter fun u => w && onCounter pas u
       let first := fun (vs : List MUnit) (v : Nat) => vs.head?.map MUnit.va = some v
       let checks := xlateAll s cx.env ((us.map fun u => chksOf u.n u.mask u.va u.bytes .rw 3).flatten) (farLanes us)
       Stands s i cx → (odd ≠ [] → UnitTrap i s cx 0x04 odd (first odd)) ∧ (odd = [] →
         (checks = .fault c → exec i s = .next (raiseAt s cx.sid c)) ∧
         (checks = .park ms ps → Issues s i cx → Parks i k.toNat s cx ms ps) ∧
         (checks = .ok pas → counters ≠ [] → UnitTrap i s cx 0x04 counters (first counters)) ∧
         (checks = .ok pas → counters = [] → pas.head?.map (·.2) = some pa → noRoute → UnitTrap i s cx 0x07 us fun v => v = pa) ∧
         (checks = .ok pas → counters = [] → pas.head?.map (·.2) = some pa → reachable → (∀ sk ∈ cx.sp.keys, ∃ u ∈ us, u.sk = sk) →
           Issues s i cx → ∃ t, exec i s = .next t ∧ goesOn t ∧ ∀ sk ∈ cx.sp.keys, Posted s t k.toNat sk fun body =>
             ∃ r, body = .remote r ∧ r.kind = .atom ∧ island r ∧ r.aop = o ∧ r.sgn = sg ∧ r.wide = w ∧
               r.relScope = (if 2 ≤ modeORD cx.sp.mode then some (modeSCP cx.sp.mode) else none) ∧
               r.acq = decide (modeORD cx.sp.mode = 1 ∨ 3 ≤ modeORD cx.sp.mode) ∧ r.scope = modeSCP cx.sp.mode ∧
               r.accs = (us.filter fun u => u.sk = sk).map fun u =>
                 u.acc ((pas.filter fun p => p.1.unit = u.n).map fun p => p.2 % 2 ^ 44))))
    ∧ (let i : Instr := .nadd d a
       let des := cx.g s a.toNat
       let v := cx.g s d.toNat
       let own := desOwn s cx.tm.site des
       let panel := if own then s.fe.panel.toNat else des / 2 ^ 16 % 256
       let dst := if own then cx.tm.site else des / 2 ^ 12 % 16
       let beyond := ncount (windowOfCtx s cx.asid) ≤ des % 4096
       let off := 0xC0000000000 + 4 * (nbase (windowOfCtx s cx.asid) + des % 4096)
       Stands s i cx → (desReserved des = true → Traps i s cx 0x12 24 des live) ∧ (desReserved des = false →
         (2 ^ 32 ≤ v → v < 2 ^ 64 → Traps i s cx 0x12 24 v live) ∧ (v < 2 ^ 32 → (beyond → Traps i s cx 0x12 25 des live) ∧ (¬beyond →
           (routeTo s cx.tm.site panel dst = none → Traps i s cx 0x07 0 (panel * 2 ^ 48 + dst * 2 ^ 44 + off) live) ∧
           (Reachable s cx.tm.site panel dst → Issues s i cx → ∃ t id q r, exec i s = .next t ∧ goesOn t ∧ s.nextOp ≤ id ∧
             find id t.ops = some q ∧ q.tok = none ∧ q.slices = cx.sp.keys ∧ q.body = .remote r ∧ r.kind = .add ∧ r.dstPanel = panel ∧
             r.dst = dst ∧ r.val = w32 v ∧ r.rem = [(off, 4)])))))

/-! ### Memory as a core and its scratchpad hold it (spec/08, 11, 14) -/

/-- The lines of a core's L1 are listed once each, and so are their bytes, at offsets within a line (R202). -/
def Sys2Proof.Machine.L1Sound (s : State) (ck : Nat) : Prop :=
  rising (s.core ck).l1 = true ∧ ∀ e ∈ (s.core ck).l1, rising e.2 = true ∧ ∀ b ∈ e.2, b.1 < 128

/-- R202, R206, R263, R308, R314: a core's loads see its own stores, whatever lines its L1 holds or evicts; after the
clean of a release every dirty byte of its L1 stands at its point of coherence; a write there changes the bytes written
and no other; scratchpad reads give what was written, and a scratchpad atomic answers the old value and stores the new one. An ATOM acts at
the point of coherence: it answers what the core's dirty byte, or else memory, holds there, leaves the new value in memory and no copy in the
core's L1, and changes no other byte. -/
def Obligations.StoredBytesAreRead : Prop :=
  (∀ (s : State) (ck part ep ep' : Nat) (as : List Nat) (data : List Byte), L1Sound s ck → as.Nodup → as.length = data.length →
    (loadBytes (storeBytes s ck part ep (as.zip data)) ck part ep' as).1 = data)
  ∧ (∀ (s : State) (ck part ret line o : Nat) (l : L1Line) (b : Byte), L1Sound s ck → find line (s.core ck).l1 = some l →
    find o l = some (b, true) → readByte (l1CleanAll s ck part ret).mem (128 * line + o) = b)
  ∧ (∀ (s : State) (part ret : Nat) (bs : List (Nat × Byte)), (bs.map (·.1)).Nodup →
    (∀ e ∈ bs, readByte (pocWrite s part ret bs).mem e.1 = e.2) ∧
    ∀ a, a ∉ bs.map (·.1) → readByte (pocWrite s part ret bs).mem a = readByte s.mem a)
  ∧ (∀ (s : State) (o : Op) (ep : Nat) (lu sg w : Bool) (p : BitVec 3) (a : Acc), a.addrs.Nodup →
    accRegion s a = .hbm ∨ accRegion s a = .vault →
    let ck := coreKey o.site o.core
    let seen := a.addrs.map fun x => match (find (lineOf x) (s.core ck).l1).bind (find (x % 128)) with
      | some (b, true) => b
      | _ => readByte s.mem x
    let t := (performAcc s o .atom false ep lu p sg w a).2
    (performAcc s o .atom false ep lu p sg w a).1 = seen
    ∧ a.addrs.map (readByte t.mem) = leBytes a.addrs.length (atomNew p sg (if w then 64 else 32) (leNat seen) a.opV a.opE)
    ∧ (∀ x, x ∉ a.addrs → readByte t.mem x = readByte s.mem x)
    ∧ ∀ x ∈ a.addrs, ∀ l, find (lineOf x) (t.core ck).l1 = some l → find (x % 128) l = none)
  ∧ (∀ (s : State) (o : Op) (ep : Nat) (lu sg w : Bool) (p : BitVec 3) (a : Acc), a.addrs.Nodup →
    let n := if w then 64 else 32
    let old := leNat (performAcc s o .load true ep lu p sg w a).1
    let t := (performAcc s o .atom true ep lu p sg w a).2
    (a.data.length = a.addrs.length →
      (performAcc (performAcc s o .store true ep lu p sg w a).2 o .load true ep lu p sg w a).1 = a.data)
    ∧ leNat (performAcc s o .atom true ep lu p sg w a).1 = old
    ∧ (performAcc t o .load true ep lu p sg w a).1 = leBytes a.addrs.length (atomNew p sg n old a.opV a.opE))

/-! ### Operations complete, and cores go on (spec/03, 04, 08, 09, 10, 13) -/

/-- The step `i` answers a next state of which `p` holds. -/
def Sys2Proof.Machine.Moves (s : State) (i : Instr) (p : State → Prop) : Prop := ∃ t, exec i s = .next t ∧ p t

/-- A step of operation `id` that has nothing left to come after. -/
def Sys2Proof.Machine.Due (s : State) (o : Op) : Prop := ∀ k ∈ o.after, find k s.ops = none

/-- Nothing but operation `o` stands before its end: its slices have live lanes, as every slice has, no grid waits to end, and every remote
operation has been sent and awaits an answer. -/
def Sys2Proof.Machine.Calm (s : State) (o : Op) : Prop :=
  (∀ e ∈ s.slices, e.2.anyLive = true) ∧ (∀ e ∈ s.fe.grids, e.2.unretired ≠ 0) ∧ (∀ k ∈ o.slices, (find k s.slices).isSome = true) ∧
    ∀ e ∈ s.ops, ∀ r, e.2.body = .remote r → r.sent = true ∧ r.partsLeft ≠ []

/-- Units of slice `sk` take the values of an operation: no later fixed-latency write of one has issued, and no operation's write has landed
since the slice's tokens were last all clear (R116). -/
def Sys2Proof.Machine.Lands (s t : State) (o : Op) (sk : Nat) (ls : List (Nat × Word)) : Prop :=
  (find sk s.slices).isSome = true → (s.slice sk).tokW = [] → (∀ l ∈ ls, getD 0 l.1 (s.slice sk).lastW ≤ o.slot sk) →
    (∀ l ∈ ls, ∀ l' ∈ ls, l.1 = l'.1 → l = l') → ∀ l ∈ ls, t.reg sk l.1 = l.2

/-- R110, R111, R173, R202, R262 to R264: results and accesses. A result lands its units; an access performs at least one byte at
each step until it is over, and one of a single unit leaves the values it read in its registers, and memory, scratchpad, L1 and
counters as the access does; a CMO acts on its line; a VPAH takes the descriptor of its header, or raises its subcause of 0x17. -/
def Sys2Proof.Machine.AccessesEnd (s : State) (id : Nat) (o : Op) : Prop :=
  let gone := fun (t : State) => find id t.ops = none
  let ck := coreKey o.site o.core
  (∀ ls fl, o.body = .result ls fl → Moves s (.operationComplete id) fun t => gone t ∧
      (Calm s o → ∀ sk, Lands s t o sk ((ls.filter fun l => l.sk == sk).map fun l => (l.key, l.val))))
  ∧ (∀ k scr accs ep lu aop sg w rel acq sc, o.body = .access k scr accs ep lu aop sg w rel acq sc →
      let left := fun (as : List Acc) (q : Bool) => (as.map fun a => a.missing.length + 1).sum + if q then 1 else 0
      accs ≠ [] ∨ (∀ k ∈ o.reads, find k s.ops = none) →
      Moves s (.operationComplete id) fun t => gone t ∨ ∃ q k' scr' rest ep' lu' aop' sg' w' rel' acq' sc',
        find id t.ops = some q ∧ q.body = .access k' scr' rest ep' lu' aop' sg' w' rel' acq' sc' ∧ left rest acq' < left accs acq)
  ∧ (∀ k scr a ep lu aop sg w sc, o.body = .access k scr [a] ep lu aop sg w false false sc → a.whole = true → a.got = [] →
      checkWaiter s id = none → accPoison s o k scr a = none → (∀ k ∈ o.reads, find k s.ops = none) → Calm s o →
      let p := performAcc s o k scr ep lu aop sg w a
      Moves s (.operationComplete id) fun t => gone t ∧ t.mem = p.2.mem ∧ (t.core ck).scratch = (p.2.core ck).scratch ∧
        (t.core ck).l1 = (p.2.core ck).l1 ∧ t.ctrs = p.2.ctrs ∧ (k ≠ .store → p.1.length = a.addrs.length →
          Lands s t o a.sk ((upFrom 0 a.dst.length).map fun n => (nth 0 a.dst n, half (a.conv.apply p.1).v n))))
  ∧ (∀ c l line ep, o.body = .cmo c l [line] ep → c < 3 → L1Sound s ck → Calm s o → Moves s (.operationComplete id) fun t => gone t ∧
      let mine := (find line (s.core ck).l1).getD []
      let hbm := s.region (siteOf (128 * line)) (offOf (128 * line)) = .hbm
      let base := l2Base (siteOf (128 * line)) (l2Slice (offOf (128 * line))) (l2Set (offOf (128 * line)))
      -- cln and cinv write the dirty bytes back; cln keeps the line, clean; inv and cinv drop it
      (c ≠ 1 → ∀ i, i < 128 → readByte t.mem (128 * line + i) = match find i mine with
        | some (b, true) => b
        | _ => readByte s.mem (128 * line + i)) ∧
      (∀ x, x / 128 ≠ line → readByte t.mem x = readByte s.mem x) ∧
      (∀ k, k ≠ line → find k (t.core ck).l1 = find k (s.core ck).l1) ∧
      (c = 0 → ∀ i, (find i ((find line (t.core ck).l1).getD [])) = (find i mine).map fun e => (e.1, false)) ∧
      (c ≠ 0 → find line (t.core ck).l1 = none) ∧
      (l = false ∨ ¬hbm → c = 1 → ∀ i, i < 128 → readByte t.mem (128 * line + i) = readByte s.mem (128 * line + i)) ∧
      -- at level 1 the line reaches HBM4E, or a byte that the L2 held dirty may fall back to HBM4E's own
      (l = true → hbm → c ≠ 1 → ∀ i, i < 128 → find (128 * line + i) t.stale = none) ∧
      (l = true → hbm → c = 1 → rising s.stale = true → ∀ i, i < 128 → readByte t.mem (128 * line + i) = readByte s.mem (128 * line + i) ∨
        find (128 * line + i) s.stale = some (readByte t.mem (128 * line + i))) ∧
      (l = true → hbm → c ≠ 0 → (∀ n m w x, n < 16 → m < 16 → find (base + n) s.l2 = some w → find (base + m) s.l2 = some x →
        w.lv ≠ 0 → x.lv ≠ 0 → w.tag = x.tag → n = m) → l2Holds t (128 * line) = false))
  ∧ ∀ d rs ep, o.body = .vpah d rs ep → (Moves s (.operationComplete id) gone) ∧
      ∀ k va pa, rs = [(k, va, pa)] → va + 16 < 2 ^ 48 → accPoison s o .load false (headerAcc (k, va, pa)) = none → Calm s o →
        (find k s.slices).isSome = true →
        let v := leNat (loadBytes s ck o.part ep (span pa 16)).1
        (headerSub v = 0 → Moves s (.operationComplete id) fun t => gone t ∧ ∃ h, headerCheck va v = .ok h ∧ getD 0 d (t.slice k).hs = h) ∧
        (∀ w, headerSub v ≠ 0 → checkWaiter s id = some w → ∃ u, exec (.operationComplete id) s = .next (raiseAt u w.1
          (cause 0x17 (headerSub v) va (laneMask ((liveLanes s w.2).filter fun le => decide (le.sk = k))))) ∧
          (∀ sk key, u.reg sk key = s.reg sk key) ∧ find id u.ops = none)

/-- R211, R218 to R221, R232, R233, R240 to R251: engine operations. A TCOPY that completes has left in scratchpad the CE16 value of each element left
to move, in memory the storage element of each; one from the matrix engine has had its effect on its tile, its registers or
its bytes, when none before it stands on the tile and it met no soft error; with one it ends its context with cause 0x15 (R242). -/
def Sys2Proof.Machine.EnginesEnd (s : State) (id : Nat) (o : Op) : Prop :=
  let gone := fun (t : State) => find id t.ops = none
  let ck := coreKey o.site o.core
  let sram := fun (u : State) (a n : Nat) => leNat ((upFrom a n).map fun k => getD 0 k (u.core ck).scratch)
  (∀ x r, o.body = .tcopy x → x.lrec = some r →
      let ctl := x.ctl.toNat
      let at_ := fun (es n : Nat) => x.scr + ctl / 2 ^ 32 % 2 ^ 18 + place r es n
      let es := elemScratch x.store ctl
      Moves s (.tcopyComplete id) gone ∧
      (x.store = false → x.outs = [] → (s.core ck).sramPast = [] → s.poison = [] → (∀ k ∈ o.slices, (s.slice k).unseen = []) → Calm s o →
        (∀ n ∈ x.left, ∀ n' ∈ x.left, n ≠ n' → at_ 2 n + 2 ≤ at_ 2 n' ∨ at_ 2 n' + 2 ≤ at_ 2 n) →
        Moves s (.tcopyComplete id) fun t => ∀ n ∈ x.left, sram t (at_ 2 n) 2 = match tensorPos r x.origin n with
          | none => if r.oob = 1 then 0x7FC0 else 0
          | some i => expandCE16 (r.sat == 1) (r.format.decode (elemCode r i ((elemBytes x r i).map (readByte s.mem))))
              (if r.sfmt = 1 then some (readByte s.mem (pageOf x (scaleAddr r i))).toNat else none)) ∧
      (x.store = true → r.sfmt = 0 → r.format ≠ .int4 → x.srcs = [] → x.scales = [] → x.outs = [] → (s.core ck).sramPast = [] → Calm s o →
        x.left.Nodup → (∀ n ∈ x.left, ∀ i, tensorPos r x.origin n = some i → (elemBytes x r i).Nodup ∧
          ∀ n' ∈ x.left, n' ≠ n → ∀ i', tensorPos r x.origin n' = some i' → ∀ a ∈ elemBytes x r i, a ∉ elemBytes x r i') →
        Moves s (.tcopyComplete id) fun t => ∀ n ∈ x.left, ∀ i, tensorPos r x.origin n = some i →
          (elemBytes x r i).map (readByte t.mem) = leBytes r.format.bytes (r.format.store (r.sat == 1) r.rnd
            (let v := sram s (at_ es n) es
             if es = 4 then decodeF 8 23 v else decodeF 8 7 v) none)))
  ∧ ∀ m, o.body = .matrix m → m.accepted = true →
      (∀ e ∈ s.ops, ∀ m', e.2.body = .matrix m' → m'.accepted = true → m'.phys = m.phys →
        coreKey e.2.site e.2.core = ck → id ≤ e.1) →
      (matrixBad s o m = true → Moves s (.matrixComplete id) fun t => gone t ∧ ∀ x, find o.asid s.ctxs = some x →
        ∃ y, find o.asid t.ctxs = some y ∧ y.ending = true) ∧
      (matrixBad s o m = false → Moves s (.matrixComplete id) fun t =>
        let tile := fun (u : State) => tileElems (u.core ck) m.phys
        gone t ∧
        (∀ ow, m.kind = .mma ow ∨ m.kind = .mmag ow ∨ m.kind = .mmas ow →
          tile t = (matmul m.amat m.bmat (if ow then none else some (tile s))).map fun v => v % 2 ^ 32) ∧
        (m.kind = .accz → tile t = List.replicate 4096 0) ∧
        (m.kind = .accrd → Calm s o → ∀ sk, Lands s t o sk ((m.cols.filter fun c => c.1 == sk).map fun c =>
          (c.2.2, getD 0 (4096 * m.phys + 64 * m.row + c.2.1) (s.core ck).tiles))) ∧
        (m.kind = .accwr → m.cols.length = m.vals.length → (m.cols.map (·.2.1)).Nodup → ∀ n, n < m.cols.length →
          getD 0 (4096 * m.phys + 64 * m.row + (nth (0, 0, 0) m.cols n).2.1) (t.core ck).tiles = nth 0 m.vals n) ∧
        (m.kind = .accst → m.outs = none → (s.core ck).sramPast = [] → Calm s o → ∀ n, n < 4096 →
          let v := nth 0 (tile s) n
          let dst := m.scr + m.ga.toNat / 2 ^ 32 % 2 ^ 18
          if m.ga.toNat / 2 ^ 50 % 2 = 1 then sram t (dst + 2 * n) 2 = (roundX ⟨8, 8, 7, 0, true⟩ (decodeF 8 23 v).exact).v
          else sram t (dst + 4 * n) 4 = v))

/-- R67, R110, R111, R213, R233, R242, R301: a core with a split selects a group; an operation that comes after nothing
outstanding completes with its effect, and no longer stands among those outstanding; a remote operation fails when its time
has passed; MWAIT ends with a write to its line, or raises cause 0x0E when its time has passed (log entry 30, DEDUCED). Which of two
outstanding writes stays is log entry 54 (DEDUCED), what meets a soft error log entry 66 (DESIGN CHOICE), and that a VPAH whose header
fails completes log entry 62 (DEDUCED). -/
def Obligations.OperationsComplete : Prop :=
  (∀ (s : State) (ck : Nat), s.turn = .idle → (s.island (ck / 128)).underReset = false → coreSplits s ck ≠ [] →
    Moves s (.issueGroup ck) fun t => t.turn = .idle ∨ ∃ sid todo, t.turn = .issue ck (sid :: todo) [])
  ∧ (∀ (s : State) (id : Nat) (o : Op), find id s.ops = some o →
    let gone := fun (t : State) => find id t.ops = none
    (Due s o → AccessesEnd s id o ∧ EnginesEnd s id o ∧
      ∀ lid l, o.body = .launch lid → find lid s.fe.launches = some l → l.hdr.isSome → Moves s (.operationComplete id) gone)
    ∧ (∀ r, o.body = .remote r → r.since + 2 ^ 24 ≤ s.cycleOf o.site o.core → r.sent = false ∨ r.partsLeft ≠ [] →
        Moves s (.remoteTimeout id) gone))
  ∧ (∀ (s : State) (sid line tmo since : Nat) (ga : DWord) (w : Bool) (sp : Split) (tm : Team), find sid s.splits = some sp →
    find sp.team s.teams = some tm → sp.wait = .mwait line tmo since ga w →
    (w = true → Moves s (.mwaitWake sid) fun t =>
      find sid t.splits = some { sp with wait := .none, pc := addPc sp.pc 4, passed := [], declined := [], hazard := none, held := none }) ∧
    (w = false → tmo ≠ 0 → since + tmo ≤ s.cycleOf tm.site tm.core →
      exec (.monitorTimeout sid) s = .next (raiseAt s sid (cause 0x0E 0 ga.toNat (liveMask s sp)))))

/-- Tables 10.1, 10.2 and 10.5, R201, R237, R239, R245, R249 to R251: an accepted matrix operation holds its physical tile, and for
MMA the matrices read from the team's scratchpad; one whose tile its role does not own, whose operands are malformed, or whose
ranges leave the scratchpad, has a cause, in this order. -/
def Sys2Proof.Machine.MatrixChecks : Prop :=
  ∀ (s : State) (o : Op) (tm : Team) (m : MatOp),
    let r := acceptMatrix s o tm m
    let v := m.ga.toNat
    let w := m.gb.toNat
    let past := fun (off n : Nat) => tm.scratch < off + n
    let halves := fun (off : Nat) => (upFrom 0 2048).map fun k => scratchRead s o tm (off + 2 * k) 2
    let fails := fun (c : CauseRec) => r = .error c
    let beyond := fun (off : Nat) => fails (cause 0x13 0 (max off tm.scratch))
    (ownedTile tm o.gang m.tile = none → fails (cause 0x14 0 m.tile)) ∧ ∀ p, ownedTile tm o.gang m.tile = some p →
      let takes := fun (f : MatOp → Prop) => ∃ q, r = .ok q ∧ q.phys = p ∧ q.accepted = true ∧ q.kind = m.kind ∧ f q
      (∀ ow, m.kind = .mma ow → (2 ^ 18 ≤ v → fails (cause 0x12 16 v)) ∧ (v < 2 ^ 18 → 2 ^ 18 ≤ w → fails (cause 0x12 16 w)) ∧
        (v < 2 ^ 18 → w < 2 ^ 18 → (v % 64 ≠ 0 → fails (cause 0x12 17 v)) ∧ (v % 64 = 0 → w % 64 ≠ 0 → fails (cause 0x12 17 w)) ∧
          (v % 64 = 0 → w % 64 = 0 → (past v 4096 → beyond v) ∧ (¬past v 4096 → past w 4096 → beyond w) ∧
            (¬past v 4096 → ¬past w 4096 → takes fun q => q.amat = halves v ∧ q.bmat = halves w)))) ∧
      (m.kind = .accz → takes fun _ => True) ∧
      (m.kind = .accrd ∨ m.kind = .accwr → let bad := 2 ^ 22 ≤ v ∨ v / 2 ^ 11 % 2 ^ 5 ≠ 0 ∨ v / 2 ^ 6 % 2 ^ 2 ≠ 0
        (bad → fails (cause 0x12 21 v)) ∧ (¬bad → takes fun q => q.cols = m.cols ∧ q.vals = m.vals ∧ q.row = m.row)) ∧
      (m.kind = .accst → let bytes := if v / 2 ^ 50 % 2 = 1 then 8192 else 16384
        let off := v / 2 ^ 32 % 2 ^ 18
        let bar := v / 2 ^ 5 % 2 ^ 5
        let bad := 2 ^ 51 ≤ v ∨ v / 2 ^ 11 % 2 ^ 21 ≠ 0
        let noBar := v / 2 ^ 10 % 2 = 1 ∧ tm.bbs.length ≤ bar
        (bad → fails (cause 0x12 1 v)) ∧ (¬bad → off % 64 ≠ 0 → fails (cause 0x12 17 v)) ∧ (¬bad → off % 64 = 0 → (past off bytes → beyond off) ∧
          (¬past off bytes → noBar → fails (cause 0x13 0 bar)) ∧ (¬past off bytes → ¬noBar → takes fun _ => True)))

/-- Tables 10.1, 10.3 and 10.4, R239, R246, R247: MMAG takes the rows of A from the row table, as its index vector says, and MMAS
assembles B from the entries of its compressed rows. What their operands break is raised in the order of R239: the descriptors,
then the index vector or the row pointers and what they hold, then the arrays, then the other ranges; of several bad indices or
entries the first is reported (log entry 78, DESIGN CHOICE). -/
def Sys2Proof.Machine.GatherChecks : Prop :=
  ∀ (s : State) (o : Op) (tm : Team) (m : MatOp) (p : Nat), ownedTile tm o.gang m.tile = some p →
    let r := acceptMatrix s o tm m
    let v := m.ga.toNat
    let w := m.gb.toNat
    let past := fun (off n : Nat) => n ≠ 0 ∧ tm.scratch < off + n
    let fails := fun (c : CauseRec) => r = .error c
    let beyond := fun (off : Nat) => fails (cause 0x13 0 (max off tm.scratch))
    let half := fun (off : Nat) => scratchRead s o tm off 2
    let takes := fun (f : MatOp → Prop) => ∃ q, r = .ok q ∧ q.phys = p ∧ q.accepted = true ∧ q.kind = m.kind ∧ f q
    (∀ ow, m.kind = .mmag ow →
      let ioff := v / 2 ^ 32 % 2 ^ 18
      let rows := v / 2 ^ 18 % 2 ^ 13
      let toff := v % 2 ^ 18
      let reserved := 2 ^ 50 ≤ v ∨ v / 2 ^ 31 % 2 = 1 ∨ rows = 0 ∨ 4096 < rows
      let skew := ioff % 128 ≠ 0 ∨ toff % 64 ≠ 0
      let index := fun (k : Nat) => half (ioff + 2 * k)
      let bad := fun (k : Nat) => index k ≠ 0xFFFF ∧ rows ≤ index k
      (reserved → fails (cause 0x12 16 v)) ∧ (¬reserved → 2 ^ 18 ≤ w → fails (cause 0x12 16 w)) ∧ (¬reserved → w < 2 ^ 18 →
        (skew → fails (cause 0x12 17 v)) ∧ (¬skew → w % 64 ≠ 0 → fails (cause 0x12 17 w)) ∧ (¬skew → w % 64 = 0 →
          (past ioff 128 → beyond ioff) ∧ (¬past ioff 128 →
            (∀ k, k < 64 → bad k → (∀ j, j < k → ¬bad j) → fails (cause 0x12 18 (index k + 2 ^ 16 * k))) ∧
            ((∀ k, k < 64 → ¬bad k) → (past w 4096 → beyond w) ∧ (¬past w 4096 → past toff (64 * rows) → beyond toff) ∧
              (¬past w 4096 → ¬past toff (64 * rows) → takes fun q => q.bmat = (upFrom 0 2048).map (fun k => half (w + 2 * k)) ∧
                q.amat.length = 2048 ∧ ∀ i k, i < 64 → k < 32 →
                  nth 0 q.amat (32 * i + k) = if index i = 0xFFFF then 0 else half (toff + 64 * index i + 2 * k)))))))
    ∧ ∀ ow, m.kind = .mmas ow →
      let poff := w % 2 ^ 18
      let coff := w / 2 ^ 18 % 2 ^ 18
      let voff := w / 2 ^ 36 % 2 ^ 18
      let skew := poff % 2 ≠ 0 ∨ coff % 2 ≠ 0 ∨ voff % 2 ≠ 0
      let ptr := fun (k : Nat) => half (poff + 2 * k)
      let falls := fun (k : Nat) => 0 < k ∧ k ≤ 32 ∧ ptr k < ptr (k - 1)
      let badPtr := fun (k : Nat) => falls k ∨ (k = 32 ∧ 2048 < ptr 32)
      let n := ptr 32 - ptr 0
      let col := fun (e : Nat) => half (coff + 2 * e)
      let inRow := fun (k e : Nat) => k < 32 ∧ ptr k ≤ e ∧ e < ptr (k + 1)
      let bad := fun (e : Nat) => ptr 0 ≤ e ∧ e < ptr 32 ∧ (64 ≤ col e ∨ ∃ k f, inRow k e ∧ inRow k f ∧ f < e ∧ col f = col e)
      (2 ^ 18 ≤ v → fails (cause 0x12 16 v)) ∧ (v < 2 ^ 18 → 2 ^ 54 ≤ w → fails (cause 0x12 16 w)) ∧ (v < 2 ^ 18 → w < 2 ^ 54 →
        (v % 64 ≠ 0 → fails (cause 0x12 17 v)) ∧ (v % 64 = 0 → skew → fails (cause 0x12 17 w)) ∧ (v % 64 = 0 → ¬skew →
          (past poff 66 → beyond poff) ∧ (¬past poff 66 →
            (∀ k, badPtr k → (∀ j, j < k → ¬badPtr j) → fails (cause 0x12 19 k)) ∧
            ((∀ k, ¬badPtr k) → (past (coff + 2 * ptr 0) (2 * n) → beyond (coff + 2 * ptr 0)) ∧
              (¬past (coff + 2 * ptr 0) (2 * n) → past (voff + 2 * ptr 0) (2 * n) → beyond (voff + 2 * ptr 0)) ∧
              (¬past (coff + 2 * ptr 0) (2 * n) → ¬past (voff + 2 * ptr 0) (2 * n) →
                (∀ e, bad e → (∀ f, f < e → ¬bad f) → fails (cause 0x12 20 e)) ∧
                ((∀ e, ¬bad e) → (past v 4096 → beyond v) ∧
                  (¬past v 4096 → takes fun q => q.amat = (upFrom 0 2048).map (fun k => half (v + 2 * k)) ∧
                    q.bmat.length = 2048 ∧ ∀ k c, k < 32 → c < 64 →
                      (∀ e, inRow k e → col e = c → nth 0 q.bmat (64 * k + c) = half (voff + 2 * e)) ∧
                      ((∀ e, inRow k e → col e ≠ c) → nth 0 q.bmat (64 * k + c) = 0))))))))

/-- Tables 9.7 to 9.9, R222, R230, R231: the causes of an acceptance of TCOPY: the control word and the record's address, then an
indirect coordinate operand and its bytes, then the record itself, then the range in the team's scratchpad and its byte barrier;
the order of the stages is that of R231 (log entry 26, DEDUCED). -/
def Sys2Proof.Machine.TcopyChecks : Prop :=
  ∀ (s : State) (o : Op) (sp : Split) (tm : Team) (x : TCopy),
    let ctl := x.ctl.toNat
    let c := x.coord.toNat
    let fails := fun (r : Accept) (code sub tval : Nat) => r = .fault (cause code sub tval o.lanes)
    let reserved := ctl / 2 ^ 52 % 2 ^ 12 ≠ 0 ∨ ctl / 2 ^ 11 % 2 ^ 21 ≠ 0 ∨ (x.store = false ∧ ctl / 2 ^ 50 % 2 ^ 2 ≠ 0)
    let off := c % 2 ^ 18
    (x.coords = none → let r := acceptTcopy s o sp tm x
      (reserved → fails r 0x12 1 ctl) ∧ (¬reserved → x.recAddr.toNat % 128 ≠ 0 → fails r 0x12 2 x.recAddr.toNat) ∧
      (¬reserved → x.recAddr.toNat % 128 = 0 → 2 ^ 63 ≤ c → (c / 2 ^ 18 % 2 ^ 45 ≠ 0 ∨ off % 4 ≠ 0 → fails r 0x12 9 c) ∧
        (c / 2 ^ 18 % 2 ^ 45 = 0 → off % 4 = 0 → tm.scratch < off + 32 → fails r 0x13 0 (max off tm.scratch))))
    ∧ ∀ (origin : List Int) (b : List Byte), let r := parseRec b
      let q := acceptRecord s o sp tm x origin b
      let noScale := x.store = true ∧ ctl / 2 ^ 51 % 2 = 1 ∧ r.sfmt = 0
      let bytes := (r.boxes.take r.rank).foldl (· * ·) 1 * elemScratch x.store ctl
      let at_ := ctl / 2 ^ 32 % 2 ^ 18
      let es := elemScratch x.store ctl
      let size := fun (d : Nat) => nth 0 r.sizes d
      let stride := fun (d : Nat) => nth 0 r.strides d
      let box := fun (d : Nat) => nth 0 r.boxes d
      let eb := r.format.bytes
      let block := if r.blk = 1 then 16 else 32
      let bad3 := fmtOf r.fmt = none ∨ 1 < r.sfmt ∨ 2 < r.blk ∨ ¬(r.blk = 0 ↔ r.sfmt = 0) ∨ (r.sfmt = 0 ∧ r.sbase ≠ 0) ∨
        (r.sfmt = 1 ∧ r.format ∈ [SFmt.bf16, .fp16, .fp32])
      let bad4 := r.rank = 0 ∨ 7 < r.rank ∨ ∃ d, d < 7 ∧ ((d < r.rank ∧ (size d = 0 ∨ box d = 0)) ∨
        (r.rank ≤ d ∧ (size d ≠ 0 ∨ stride d ≠ 0 ∨ box d ≠ 0)))
      let bad5 := r.base % eb ≠ 0 ∨ stride 0 % eb ≠ 0 ∨ (stride 0 ≠ 0 ∧ (r.format = .int4 ∨ r.sfmt = 1))
      let bad6 := 1 < r.oob ∨ 1 < r.sat ∨ 3 < r.rnd ∨ 2 < r.tgt ∨ ∃ k, 108 ≤ k ∧ k < 128 ∧ nth 0 b k ≠ 0
      let shape := fun (i j : Nat) => r.rank < 2 ∨ box 0 ≠ i ∨ box 1 ≠ j ∨ (∃ d, 2 ≤ d ∧ d < r.rank ∧ box d ≠ 1) ∨ at_ % 64 ≠ 0 ∨ es ≠ 2
      let bad7 := (r.tgt = 0 ∧ shape 32 64) ∨ (r.tgt = 1 ∧ shape 64 32) ∨ (r.tgt = 2 ∧ at_ % es ≠ 0)
      let bad8 := x.store = true ∧ ctl / 2 ^ 51 % 2 = 1 ∧ (origin.headD 0 % (block : Int) ≠ 0 ∨ box 0 % block ≠ 0)
      let sub := fun (n : Nat) => fails q 0x12 n x.recAddr.toNat
      (noScale → fails q 0x12 1 ctl) ∧ (¬noScale → (bad3 → sub 3) ∧ (¬bad3 → (bad4 → sub 4) ∧ (¬bad4 → (bad5 → sub 5) ∧
        (¬bad5 → (bad6 → sub 6) ∧ (¬bad6 → (bad7 → sub 7) ∧ (¬bad7 → (bad8 → sub 8) ∧ (¬bad8 →
          (tm.scratch < at_ + bytes → fails q 0x13 0 (max at_ tm.scratch)) ∧
          (¬tm.scratch < at_ + bytes → ctl / 2 ^ 10 % 2 = 1 → tm.bbs.length ≤ ctl / 2 ^ 5 % 2 ^ 5 →
            fails q 0x13 0 (ctl / 2 ^ 5 % 2 ^ 5)))))))))

/-- R110, R119, R231, R239, R277: the first operation of an engine's queue of unaccepted ones is accepted when the queue has a free
entry (64 for the copy engine, 16 for the matrix engine): the split that waited goes on, unless its word met a token hazard,
whose cause 0x0F comes last; it parks on the pages that miss; or it takes the cause of the check that failed, with the operation
withdrawn and its increments with it (log entries 26 and 57, DEDUCED, for the order of these; which of several bad indices or
entries is reported is log entry 78, DESIGN CHOICE). -/
def Obligations.EnginesAccept : Prop :=
  MatrixChecks ∧ GatherChecks ∧ TcopyChecks ∧
  (∀ (s : State) (id : Nat) (o : Op), find id (withdrawOp s id o).ops = none ∧ ∀ tok, o.tok = some tok → ∀ k ∈ o.slices,
    ∀ e ∈ ((withdrawOp s id o).slice k).toks, e.op ≠ id) ∧
  ∀ (s : State) (id sid : Nat) (o : Op) (sp : Split) (tm : Team), find id s.ops = some o → find sid s.splits = some sp →
    acceptWaiter s id = some (sid, sp) → find o.team s.teams = some tm →
    let ck := coreKey o.site o.core
    let ends := fun (i : Instr) (r : Accept) => match r with
      | .ok u body => (sp.hazard = none → Moves s i fun t => (∃ q, find id t.ops = some q ∧ q.body = body ∧ q.tok = o.tok) ∧
          find sid t.splits = some { sp with wait := .none, pc := addPc sp.pc 4, passed := [], declined := [], hazard := none, held := none }) ∧
          ∀ c, sp.hazard = some c → exec i s = .next (raiseAt (withdrawOp u id o) sid c)
      | .park _ body ms ps => Moves s i fun t => find sid t.splits = some { sp with park := some ⟨.engine id, ms, ps, s.tick⟩ } ∧
          ∃ q, find id t.ops = some q ∧ q.body = body ∧ q.tok = o.tok
      | .fault c => exec i s = .next (raiseAt (withdrawOp s id o) sid c)
    (∀ x, o.body = .tcopy x → x.accepted = false → (∀ j ∈ tcopies s ck false, id ≤ j) → (tcopies s ck true).length < 64 →
      ends (.tcopyAccept id) (acceptTcopy s o sp tm x))
    ∧ (∀ m, o.body = .matrix m → m.accepted = false → (∀ j ∈ matrixOps s ck (fun x => !x.accepted), id ≤ j) →
      (matrixOps s ck fun x => x.accepted).length < 16 → Due s o →
      ends (.matrixAccept id) (match acceptMatrix s o tm m with
        | .ok m => .ok s (.matrix m)
        | .error c => .fault { c with tlanes := o.lanes }))

/-! ### Walks, services and replay (spec/12) -/

/-- R20, R48, R271, R272, R274, R275, Tables 12.3 to 12.5: a step of a walk reads one entry of a table: one not valid is a miss, one
with a reserved bit, a frame off its alignment, a leaf at level 0 or a table beyond level 2 or on another island is malformed, a
leaf ends the walk. A leaf gives its frame and the offset in its page; an access to another island has cause 0x06 subcause 4,
one without a permission subcause 1, 2 or 3, one to a region its form may not reach subcause 6, and a hole is a miss. An address
of 2^48 or more has cause 0x05 subcause 1; else what has passed or was declined stands, then the core's TLB, then the island's.
Of the causes that the pieces of one access meet, the one that ranks first is raised, with the lanes that meet it and the
address of the lowest (the rank of subcauses 5 and 6: log entry 63, DEDUCED). -/
def Sys2Proof.Machine.TranslationRules : Prop :=
  (∀ (s : State) (site va fuel level table : Nat), level ≤ 3 →
      let index := match level with | 0 => va / 2 ^ 39 % 2 ^ 9 | 1 => va / 2 ^ 30 % 2 ^ 9 | 2 => va / 2 ^ 21 % 2 ^ 9 | _ => va / 2 ^ 16 % 2 ^ 5
      let e := readEntry s (table + 8 * index)
      let next := e / 2 ^ 8 % 2 ^ 48 * 2 ^ 8
      let page := match level with | 1 => 2 ^ 30 | 2 => 2 ^ 21 | _ => 2 ^ 16
      let r := walkFrom s site va (fuel + 1) level table
      let leaf := e / 2 % 2 = 1
      let bad := e / 2 ^ 56 % 2 ^ 8 ≠ 0 ∨ e / 2 ^ 5 % 2 ^ 3 ≠ 0 ∨ (leaf ∧ (level = 0 ∨ next % page ≠ 0)) ∨ (¬leaf ∧ (level = 3 ∨ e / 2 ^ 2 % 2 ^ 3 ≠ 0 ∨
        e / 2 ^ 48 % 2 ^ 8 ≠ s.fe.panel.toNat ∨ e / 2 ^ 44 % 2 ^ 4 ≠ site ∨ next % (if level = 2 then 256 else 4096) ≠ 0))
      (e % 2 = 0 → r = .miss level) ∧ (e % 2 = 1 → bad → r = .malformed level) ∧ (e % 2 = 1 → ¬bad → leaf → r = .leaf level e) ∧
      (e % 2 = 1 → ¬bad → ¬leaf → r = walkFrom s site va fuel (level + 1) next))
  ∧ (∀ (s : State) (site cls va level e : Nat) (need : Need), cls < 4 → site < 16 →
      let page := match level with | 1 => 2 ^ 30 | 2 => 2 ^ 21 | _ => 2 ^ 16
      let pa := e / 2 ^ 8 % 2 ^ 48 * 2 ^ 8 + va % page
      let own := pa / 2 ^ 48 % 2 ^ 8 = s.fe.panel.toNat ∧ pa / 2 ^ 44 % 2 ^ 4 = site
      let region := if own then s.region site (pa % 2 ^ 44) else tableRegion (pa % 2 ^ 44)
      let lacks := fun (k : Nat) => e / 2 ^ k % 2 = 0
      let denied := fun (n : Nat) => (n = 1 ∧ need ∈ [.r, .rw] ∧ lacks 2) ∨ (n = 2 ∧ need ∈ [.w, .rw] ∧ lacks 3 ∧ ¬(need = .rw ∧ lacks 2)) ∨
        (n = 3 ∧ need = .x ∧ lacks 4)
      let far := cls < 2 ∧ ¬own
      let j := judge s site cls need va level e
      (far → j = .fault 0x06 4) ∧ (¬far → (∀ n, denied n → j = .fault 0x06 n) ∧ ((∀ n, ¬denied n) → (region = .hole → j = .miss level true) ∧
        (region ≠ .hole → j = if cls = 0 ∨ region = .hbm ∨ region = .vault ∨ (cls = 3 ∧ region = .counter) then .ok pa else .fault 0x06 6))))
  ∧ (∀ (s : State) (env : XEnv) (need : Need) (va : Nat), (2 ^ 48 ≤ va → xlateOne s env need va = .fault 0x05 1) ∧
      (va < 2 ^ 48 → (∀ e ∈ env.passed, ¬(e.1 = va ∧ e.2.1 = need)) → (∀ e ∈ env.declined, ¬(e.1 = va ∧ e.2.1 = need)) →
        xlateOne s env need va = match (tlbFind env.asid va (s.core env.ck).tlb).or (tlbFind env.asid va (s.island env.site).tlb) with
          | some l => judge s env.site env.cls need va l.level l.leaf.toNat
          | none => .unknown) ∧
      ∀ p q, va < 2 ^ 48 → env.passed = (va, need, p) :: q → xlateOne s env need va = .ok p)
  ∧ ∀ (s : State) (env : XEnv) (cs : List Chk),
      let res := fun (k : Chk) => xlateOne s { env with cls := k.cls } k.need k.va
      let faults := fun (k : Chk) (c n : Nat) => k ∈ cs ∧ res k = .fault c n
      let waits := ∃ k ∈ cs, res k = .unknown ∨ ∃ l h, res k = .miss l h
      (waits → ∃ ms ps, xlateAll s env cs = .park ms ps ∧ ∀ k ∈ cs, (res k = .unknown → (⟨k.va, k.need, .walk, k.cls⟩ : Miss) ∈ ms) ∧
        (∀ l h, res k = .miss l h → (⟨k.va, k.need, .missed l h, k.cls⟩ : Miss) ∈ ms) ∧ ∀ pa, res k = .ok pa → (k.va, k.need, pa) ∈ ps) ∧
      (¬waits → (∃ k c n, faults k c n) → ∃ k c n r, faults k c n ∧ xlateAll s env cs = .fault r ∧ r.code = BitVec.ofNat 8 c ∧ r.sub = n ∧
        r.tval = k.va ∧ (∀ k' c' n', faults k' c' n' → xlateRank c n < xlateRank c' n' ∨ (xlateRank c n = xlateRank c' n' ∧ k.unit ≤ k'.unit)) ∧
        ∀ b, b < 64 → (bitAt r.tlanes b = true ↔ ∃ k' c' n', faults k' c' n' ∧ xlateRank c' n' = xlateRank c n ∧ bitAt k'.lanes b = true)) ∧
      (¬waits → (¬∃ k c n, faults k c n) → ∃ ps, xlateAll s env cs = .ok ps ∧ ps.map (·.1) = cs ∧ ∀ p ∈ ps, res p.1 = .ok p.2)

/-- R49, R274 to R278, R281: a walk settles, for every access of its split that waits for the page, what the walk and the checks of
the leaf say; a miss is joined to the service of its page, put to the host, declined, filled, or walked again where its page has
been mapped meanwhile; a requester whose pages are settled replays, and keeps what passed before (log entries 33 and 80, DEDUCED); a
fetch fills the buffer with the word at the PC, parks the split, or raises the cause (log entry 35, DEDUCED); the host's data
move every miss that waited for them; a shootdown is acknowledged when no operation and no split holds a check of its range (log
entry 33, DEDUCED). -/
def Obligations.MissesAreServed : Prop :=
  TranslationRules ∧
  (∀ (s : State) (sid : Nat) (sp : Split) (k : Park) (tm : Team), find sid s.splits = some sp → sp.park = some k →
    find sp.team s.teams = some tm →
    let now := fun (t : State) (f : Miss → Miss) => ∃ p k', find sid t.splits = some p ∧ p.pc = sp.pc ∧
      p.park = some k' ∧ k'.misses = k.misses.map f
    let stands := fun (t : State) (m : Miss) (st : MissSt) => now t fun x => if x = m then { x with st := st } else x
    let hole := fun (h : Bool) => if h then 2 else 1
    let judged := fun (r : WalkRes) (x : Miss) => match r with
      | .miss l => MissSt.missed l false
      | .malformed _ => .declined 0x05 3
      | .leaf l e => match judge s tm.site x.cls x.need x.va l e with
        | .ok pa => .passed pa
        | .miss l h => .missed l h
        | .fault c n => .declined c n
        | .unknown => .walk
    (∀ m, (k.misses.find? fun x => decide (x.st = .walk)) = some m → Moves s (.pageWalk (.split sid)) fun t =>
      (∀ a, readByte t.mem a = readByte s.mem a) ∧
      let r := walk s tm.asid tm.site m.va
      let page := match r with | .leaf l _ => pageBytes l | _ => 2 ^ 16
      now t fun x => if x.st = .walk ∧ m.va / page = x.va / page then { x with st := judged r x } else x)
    ∧ (∀ m l h, (k.misses.findSome? fun x => match x.st with | .missed l h => some (x, l, h) | _ => none) = some (m, l, h) →
      let same := s.fe.svcs.find? fun e => samePage tm.asid tm.site m.va e.2.kind
      let still := ∃ l' h', judged (walk s tm.asid tm.site m.va) m = .missed l' h'
      let fill := fun (c : Ctx) => c.fills.find? fun f => decide (f.first ≤ m.va) && decide (m.va < f.first + f.bytes)
      (∀ e, same = some e → Moves s (.faultService (.split sid)) fun t => stands t m (.service e.1 h)) ∧
      (same = none → svcsFull s = false → Moves s (.faultService (.split sid)) fun t =>
        (fmode s tm.asid tm.site = 1 → ∃ n v, stands t m (.service n h) ∧ find n t.fe.svcs = some v ∧ v.kind = .fault tm.asid tm.site m.va) ∧
        (fmode s tm.asid tm.site ≠ 1 → (¬still → stands t m .walk) ∧
          (still → (∀ c, find tm.asid s.ctxs = some c → fill c = none) → stands t m (.declined 0x05 (hole h))) ∧
          ∀ c f off u v, still → find tm.asid s.ctxs = some c → fill c = some f →
            takePool s tm.site (pageBytes f.level) = some (off, u) →
            (f.copy = none → installLeaf (zeroRange u (2 ^ 44 * tm.site + off) (pageBytes f.level)) tm.asid m.va f.level
                (fillLeaf u tm.site off f) = some v → t.mem = v.mem ∧ ∃ p k', find sid t.splits = some p ∧ p.park = some k' ∧
                ∀ x ∈ k.misses, ∀ l' h', x.st = .missed l' h' → x.va / pageBytes f.level = m.va / pageBytes f.level →
                  { x with st := .walk } ∈ k'.misses) ∧
            (f.copy ≠ none → ∃ n w, stands t m (.service n h) ∧ find n t.fe.svcs = some w ∧ ∃ co ki le,
              w.kind = .fillRead tm.asid tm.site m.va [(off, pageBytes f.level)] f co ki le))))
    ∧ ((∀ m ∈ k.misses, m.st.settled = true) → Moves s (.translationReplay (.split sid)) fun t => ∃ ps ds,
        find sid t.splits = some { sp with
          park := none, passed := sp.passed ++ k.passed ++ ps, declined := sp.declined ++ ds
          -- an instruction that parked issues again, with the free choices of its first issue (log entry 80, DEDUCED)
          held := match k.what with | .instr i => some ⟨i, k.step⟩ | _ => sp.held } ∧
        (∀ m ∈ k.misses, ∀ pa, m.st = .passed pa → (m.va, m.need, pa) ∈ ps) ∧
        ∀ m ∈ k.misses, ∀ c n, m.st = .declined c n → (m.va, m.need, c, n) ∈ ds))
  ∧ (∀ (s : State) (ck sid : Nat) (sp : Split) (tm : Team), find sid s.splits = some sp → find sp.team s.teams = some tm →
    coreKey tm.site tm.core = ck → sp.park = none →
    match xlateAll s { asid := tm.asid, site := tm.site, ck := ck, passed := sp.passed, declined := sp.declined }
        [⟨0, liveMask s sp, sp.va, 4, .x, 0⟩] with
    | .ok ((_, pa) :: _) => Moves s (.instructionFetch ck sid) fun t => ∃ w, find (paKey pa) (t.core ck).fetch = some w ∧
        (FetchSees s ck pa → w = codeWord s pa)
    | .ok [] => Moves s (.instructionFetch ck sid) fun _ => True
    | .park ms ps => Moves s (.instructionFetch ck sid) fun t => find sid t.splits = some { sp with park := some ⟨.fetch, ms, ps, s.tick⟩ }
    | .fault c => exec (.instructionFetch ck sid) s = .next (raiseAt s sid c))
  ∧ (∀ (s : State) (svc asid site va off n core kind level : Nat) (f : FillRange) (v : Svc) (data : List Byte), svc ≠ 0 →
    find svc s.fe.svcs = some v → v.kind = .fillRead asid site va [(off, n)] f core kind level → data.length = n →
    Moves s (.fillReadResponse svc data) fun t =>
      ∀ sid sp k m h, find sid s.splits = some sp → (find sp.team s.teams).isSome = true → sp.park = some k → m ∈ k.misses → m.st = .service svc h →
        ∃ p k', find sid t.splits = some p ∧ p.park = some k' ∧ ({ m with st := .walk } ∈ k'.misses ∨
          ∃ j, (find j t.fe.svcs).isSome ∧ { m with st := .service j h } ∈ k'.misses))
  ∧ ∀ (s : State) (sd : Nat) (h : Shoot), find sd s.fe.shoots = some h → (∀ o ∈ h.ops, find o s.ops = none) →
    (∀ sid ∈ h.splits, ∀ p, find sid s.splits = some p → ∀ e ∈ p.holds, ¬(h.first ≤ e.1 ∧ e.1 ≤ h.last)) → Moves s (.shootdownAck sd) fun t =>
      find sd t.fe.shoots = none ∧
      ((∀ e ∈ s.fe.shoots, e.1 ≠ sd → e.2.pos ≠ h.pos) → getD 0 (h.pos % 64) t.fe.cres = BitVec.ofNat 64 (2 ^ 63))

/-! ### HBM4E and the fabric (spec/11, 13) -/

/-- R24, R266 to R268: a refresh of a bank can be postponed eight times in a row and no more; an uncorrectable error poisons
its line, or marks the byte of core SRAM or the tile element it strikes; a failing die starts a map-out, firmware vacates its range once
nothing of it is in use (log entry 38, DEDUCED), and after the copy the commit makes the range a hole whose bytes are unlisted (log
entries 5 and 22, DESIGN CHOICE), counts IGEN and ends the map-out. -/
def Obligations.MemoryEvents : Prop :=
  ∀ (s : State) (site : Nat), s.populated site = true →
    let maps := fun (t : State) => (t.island site).mapouts
    (∀ ch bank p, ch < 128 → bank < 4096 →
      let k := 4096 * ch + bank
      let n := getD 0 k (s.island site).postponed
      (p = true → 8 ≤ n → exec (.hbmRefresh site ch bank p) s = .fault (.notEnabled "HBM_REFRESH")) ∧
      (p = false ∨ n < 8 → Moves s (.hbmRefresh site ch bank p) fun t => t.mem = s.mem ∧
        getD 0 k (t.island site).postponed = if p then n + 1 else 0))
    ∧ (∀ line, (s.region (siteOf (128 * line)) (offOf (128 * line)) = .hbm ∨
        s.region (siteOf (128 * line)) (offOf (128 * line)) = .vault) →
        Moves s (.uncorrectableError (.line line)) fun t => t.mem = s.mem ∧ ∀ a, lineOf a = line → (poisonedAt t [a]).isSome = true)
    ∧ (∀ ck a, ck / 128 = site → ck < 2048 → a < 32 * Config.wayBytes → Moves s (.uncorrectableError (.sram ck a)) fun t =>
        t = s.setCore ck { s.core ck with badSram := a :: (s.core ck).badSram })
    ∧ (∀ ck k, ck / 128 = site → ck < 2048 → k < 8 * 4096 → Moves s (.uncorrectableError (.tile ck k)) fun t =>
        t = s.setCore ck { s.core ck with badTiles := k :: (s.core ck).badTiles })
    ∧ (∀ die, maps s = [] → svcsFull s = false → die < 64 → (s.island site).hdie.getLsbD die = true →
        let host := (holders s site).any fun a => modeBit s a 1
        Moves s (.layerMapOut site die) fun t => ∃ svc, maps t = [⟨die, 2, host, svc⟩] ∧ svc.isSome = host)
    ∧ (∀ m rest, maps s = m :: rest → svcsFull s = false → m.step = 2 → m.host = false →
        rangeBusy s (withdrawn s site).1 (withdrawn s site).2 = false →
        (∀ u, vacate s site = some u → Moves s (.layerMapOut site m.die) fun t => t.mem = u.mem ∧ { m with step := 3 } ∈ maps t) ∧
        (vacate s site = none → Moves s (.layerMapOut site m.die) fun t => t.mem = s.mem ∧ ∃ svc, ⟨m.die, 2, true, some svc⟩ ∈ maps t))
    ∧ (∀ die m, (maps s).find? (fun m => m.die == die && m.step == 3) = some m →
        Moves s (.mapoutCopy site die) fun t => t.mem = s.mem ∧ ({ m with step := 4 } : MapOut) ∈ maps t)
    ∧ ∀ die m, (maps s).find? (fun m => m.die == die && m.step == 4) = some m →
        rangeBusy s (withdrawn s site).1 (withdrawn s site).2 = false →
        Moves s (.mapoutCommit site die) fun t =>
          (∀ a, (withdrawn s site).1 ≤ a → a < (withdrawn s site).2 → readByte t.mem a = 0) ∧
          (t.island site).hdie.getLsbD die = false ∧ (t.island site).igen = (s.island site).igen + 1 ∧
          (∀ x ∈ maps t, x.die ≠ die) ∧
          ∀ o, (t.island site).hcap ≤ o → o < (s.island site).hcap → t.region site o = .hole

/-- R285, R287: a sender with a flit, a credit and the slot numbers the next new flit of a channel; one that hears of a report goes
back to that number. A flit that is good, in sequence and finds a free buffer is accepted, and the last one brings its packet to the
next site; every other one is discarded and the number expected reported. When the sender hears is log entry 69 (DESIGN CHOICE); the
size of a buffer and when it is freed is log entry 10 (DESIGN CHOICE). -/
def Sys2Proof.Machine.FlitsGoInOrder : Prop :=
  (∀ (s : State) (lk vc pk : Nat) (p : PktSt),
    let l := s.link lk
    let c := l.chan vc
    let f : Flit := ⟨vc, pk, decide (c.left ≤ 1)⟩
    headPkt s c = some (pk, p) → vc ≤ 2 → 0 < c.credits vc → (controlDue l = true → vc = 2) → l.window.length < 4095 →
    l.report = none → l.next = l.window.length →
    ∃ l', arriving s lk vc = some (f, l') ∧ l'.seq = l.seq + 1 ∧ l'.window = l.window ++ [f] ∧ l'.expect = l.expect ∧
      (l'.chan vc).sent = c.sent + 1 ∧ (l'.chan vc).queue = if c.left ≤ 1 then c.queue.drop 1 else c.queue)
  ∧ (∀ (s : State) (lk vc : Nat) (r : BitVec 12) (f : Flit),
    let l := s.link lk
    l.report = some r → l.window.length ≤ l.next → newFlit s l vc = none →
    l.window[(r - (l.seq - BitVec.ofNat 12 l.window.length)).toNat]? = some f → f.vc = vc →
    ∃ l', arriving s lk vc = some (f, l') ∧ l'.report = none ∧ l'.seq = l.seq ∧ l'.window = l.window)
  ∧ ∀ (s : State) (lk vc : Nat) (good : Bool) (f : Flit) (l : Link), arriving s lk vc = some (f, l) →
    linkExists s (linkSite lk) (linkPort lk) = true → l.lanes ≠ 0 → l.tries < Config.linkTries →
    let c := l.chan vc
    let due := l.seq - BitVec.ofNat 12 l.window.length + BitVec.ofNat 12 l.next = l.expect
    let taken := good = true ∧ due ∧ c.got - c.freed < Config.vcBuffer vc
    (¬taken → Moves s (.flitReceive lk vc good) fun t => t.pkts = s.pkts ∧ (t.link lk).report = some l.expect ∧
      (t.link lk).expect = l.expect ∧ (t.link lk).window = l.window ∧ (t.link lk).next = l.next + 1 ∧
      (due → (t.link lk).tries = l.tries + 1) ∧ (¬due → (t.link lk).tries = l.tries)) ∧
    (taken → Moves s (.flitReceive lk vc good) fun t => (t.link lk).expect = l.expect + 1 ∧ (t.link lk).window = l.window.drop 1 ∧
      (t.link lk).report = none ∧ (t.link lk).tries = 0 ∧ (t.link lk).accepted = l.accepted + 1 ∧
      (f.last = false → t.pkts = s.pkts) ∧
      ∀ p, f.last = true → find f.pk s.pkts = some p →
        (linkPort lk < 16 → p.pkt.poisoned = false →
          find f.pk t.pkts = some { p with site := linkPort lk, onLink := none, buf := some (lk, vc) }) ∧
        (p.pkt.poisoned = true ∨ 16 ≤ linkPort lk → find f.pk t.pkts = none) ∧
        (16 ≤ linkPort lk → t.extOut = s.extOut ++ [(linkSite lk, linkPort lk, { p.pkt with hops := p.hops })]))

/-- R286, R288: the receiver of a link sends its FREED counts, within the panel as a packet of the control channel back (log entry 71,
DESIGN CHOICE), and the sender sets FREED′ to them; a sender stuck for 4,096 flit times asks; a soft error moves FREED′. -/
def Sys2Proof.Machine.CreditsAreAudited : Prop :=
  ∀ (s : State) (lk : Nat),
    let l := s.link lk
    let right := fun (t : State) => ∀ vc, vc ≤ 2 → ((t.link lk).chan vc).freedView = (((t.link lk).chan vc).freed : Int)
    (l.lanes ≠ 0 → (4096 ≤ l.accepted ∨ l.auditAsked = true) →
      (16 ≤ linkPort lk → Moves s (.creditAuditSend lk) fun t => (t.link lk).auditAsked = false ∧
        (t.link lk).audits = l.audits ++ [(l.request.freed, l.response.freed, l.control.freed)]) ∧
      (linkPort lk < 16 → queueTakes s (linkBack lk) 2 1 = true → Moves s (.creditAuditSend lk) fun t =>
        (t.link lk).auditAsked = false ∧ (t.link (linkBack lk)).control.queue = (s.link (linkBack lk)).control.queue ++ [s.nextPkt] ∧
        ∃ p, find s.nextPkt t.pkts = some p ∧ p.onLink = some (linkSite lk, 2) ∧ p.pkt.kind =
          .audit [BitVec.ofNat 32 l.request.freed, BitVec.ofNat 32 l.response.freed, BitVec.ofNat 32 l.control.freed]))
    ∧ (∀ vc, (l.chan vc).stuck vc = true → 4096 * (3 - l.lanes) ≤ (l.chan vc).stall → l.lanes ≠ 0 → vc ≤ 2 → l.auditAsked = false →
      Moves s (.creditAuditRequest lk vc) fun t => (t.link lk).auditAsked = true)
    ∧ (∀ a as, 16 ≤ linkPort lk → l.audits = a :: as → Moves s (.creditAuditReceive lk) fun t => (t.link lk).audits = as ∧ right t)
    ∧ (∀ k p f, linkPort lk < 16 → arrivedAudit s lk = some (k, p, f) → Moves s (.creditAuditReceive lk) fun t =>
      find k t.pkts = none ∧ right t)
    ∧ ∀ vc d, vc ≤ 2 → lk < 384 → Moves s (.creditSoftError lk vc d) fun t =>
      ((t.link lk).chan vc).freedView = (l.chan vc).freedView + d

/-- R283, R285 to R289, R294, R301, R303: a packet takes one hop into the queue of its output; a flit takes the next number, is
accepted in sequence and else discarded and sent again (log entries 10 and 69, DESIGN CHOICE), and the last one brings its
packet to the next site; audits are sent, asked for and taken (log entry 71, DESIGN CHOICE); a retrained link runs with the
lanes it is left (log entry 70, DEDUCED, for the routes then rewritten); a request at its target is performed and leaves the
fabric, a put with its bytes written; the last answer of an operation completes it, a get's with its bytes written; a packet of
another panel goes on its way (the flits of an atomic are log entry 24, DESIGN CHOICE). -/
def Obligations.FabricMoves : Prop :=
  FlitsGoInOrder ∧ CreditsAreAudited
  ∧ (∀ (s : State) (pk h : Nat) (hs : List Nat) (p : PktSt), find pk s.pkts = some p → p.hops = h :: hs → p.onLink = none →
    behind s pk p = false → linkExists s p.site h = true →
    let lk := linkKey p.site h
    let vc := pktChan p.pkt
    let q := fun (t : State) => ((t.link lk).chan vc).queue
    (vc = 2 → sumNat ((q s).map fun k => match find k s.pkts with | some x => pktFlits x.pkt | none => 0) + pktFlits p.pkt ≤ 64) →
    Moves s (.packetForward pk) fun t =>
      find pk t.pkts = some { p with hops := hs, onLink := some (h, vc), buf := none } ∧ q t = q s ++ [pk])
  ∧ (∀ (s : State) (lk n : Nat), let l := s.link lk; linkExists s (linkSite lk) (linkPort lk) = true → n ≤ l.fused →
      let changed := fun (t : State) => (t.link lk).lanes = n ∧ (t.link lk).tries = 0 ∧
        (l.lanes ≠ n → (t.island (linkSite lk)).igen = (s.island (linkSite lk)).igen + 1 ∧
          (linkPort lk < 16 → (t.link (linkKey (linkPort lk) (linkSite lk))).lanes = n))
      (Config.linkTries ≤ l.tries → Moves s (.linkRetrain lk n) changed) ∧
      (l.lanes = 0 → n ≠ 0 → Moves s (.linkRetrainUp lk n) changed))
  ∧ (∀ (s : State) (site : Nat), s.populated site = true → Moves s (.opticalEngineReset site) fun t =>
    (t.island site).topo = [] ∧ ∀ port, port < 24 → linkExists s site port = true → (t.link (linkKey site port)).lanes = 0)
  ∧ (∀ (s : State) (pk : Nat) (p : PktSt), arrived s pk true = some p → pk < s.nextPkt →
    Moves s (.remoteRequestArrive (.here pk)) fun t => find pk t.pkts = none ∧
      (p.pkt.kind = .put → p.pkt.poisoned = false → p.pkt.dstPanel = s.fe.panel.toNat → p.pkt.dst = p.site →
        (s.island p.site).underReset = false → presentAt s p.site false (span p.pkt.addr p.pkt.len) = true →
        p.pkt.data.length = p.pkt.len → (∀ e ∈ s.ops, ∀ r, e.2.body = .remote r → r.sent = true ∧ r.partsLeft ≠ []) →
        ∀ k, k < p.pkt.len → readByte t.mem (2 ^ 44 * p.site + p.pkt.addr + k) = p.pkt.data.getD k 0))
  ∧ (∀ (s : State) (site : Nat) (p : Pkt), s.populated site = true →
    let enters := fun (t : State) => (p.poisoned = true → t.pkts = s.pkts) ∧
      (p.poisoned = false → p.hops ≠ [] → find s.nextPkt t.pkts = some ⟨p, site, p.hops, none, none⟩)
    (pktAsks p = true → Moves s (.remoteRequestArrive (.ext site p)) enters) ∧
    (pktAsks p = false → pktAudits p = false → ∃ t, exec (.remoteResponseArrive (.ext site p)) s = .next t))
  ∧ ∀ (s : State) (pk : Nat) (p : PktSt), arrived s pk false = some p → pk < s.nextPkt →
    Moves s (.remoteResponseArrive (.here pk)) fun t => find pk t.pkts = none ∧
      ∀ o r, find p.pkt.op s.ops = some o → o.body = .remote r → o.site = p.site → o.reads = [] → p.pkt.op < 2 ^ 32 →
        p.pkt.poisoned = false → p.pkt.dstPanel = s.fe.panel.toNat → p.pkt.dst = p.site →
        (s.island p.site).underReset = false → r.partsLeft = [p.pkt.part] → find p.pkt.op t.ops = none ∧
        ∀ e, p.pkt.kind = .getData → r.acq = false → (∀ e ∈ s.ops, ∀ x, e.2.body = .remote x → x.sent = true ∧ x.partsLeft ≠ []) →
          (remoteParts r)[p.pkt.part]? = some e → (localAddrs r e.2.1 e.2.2).Nodup →
          p.pkt.data.length = (localAddrs r e.2.1 e.2.2).length →
          ∀ (k a : Nat), (localAddrs r e.2.1 e.2.2)[k]? = some a → readByte t.mem a = p.pkt.data.getD k 0

/-! ### Reset domains, clocks and power (spec/01, 11, 17) -/

/-- A command answers: its result word holds DONE, a value and a status, and the next command is the one behind it (R372).
-/
def Sys2Proof.Machine.Answers (s t : State) (value status : Nat) : Prop :=
  t.fe.cpos = s.fe.cpos + 1 ∧
    getD 0 (s.fe.cpos % 64) t.fe.cres = BitVec.ofNat 64 (2 ^ 63 + value % 2 ^ 32 * 2 ^ 16 + status)

/-- R22, R255, R289 to R291, R380 to R383: a reset of an island leaves it not live, with its cores, operations, vaults and
counters cleared and the contexts on it ended; HBM4E keeps its bytes, and a fault reset loses no more than those dirty in
the L2; the island then serves again; power-on resets everything but the fuses; a power cap from 400 A to 1,250 A is in
force, any other is refused. What Table 17.6 does not list stays (log entry 42, DEDUCED); a byte of memory that nothing has written
reads 0 (log entries 5 and 22, DESIGN CHOICE). -/
def Obligations.ResetDomains : Prop :=
  (∀ (s : State) (site : Nat), s.populated site = true →
    let counted := fun (t : State) (b : Bool) => ∀ k, k ≠ site → s.populated k = true →
      (t.island k).igen = (s.island k).igen + BitVec.ofNat 64 (ofBool b)
    let down := fun (fault : Bool) (t : State) =>
      (t.island site).underReset = true ∧ t.live site = false ∧
      (∀ ck, ck / 128 = site → t.core ck = {}) ∧ (∀ e ∈ t.ops, e.2.site ≠ site) ∧
      (∀ a, siteOf a = site → 2 ^ 43 ≤ offOf a → readByte t.mem a = 0) ∧
      (∀ a, (siteOf a = site → offOf a < 2 ^ 43 ∧ (fault = true → find a s.stale = none)) →
        readByte t.mem a = readByte s.mem a) ∧
      (∀ n, n < 4096 → t.ctr (4096 * site + n) = 0) ∧ counted t (s.live site) ∧
      ∀ asid ∈ ctxsEnded s site fault, ∃ c, find asid t.ctxs = some c ∧ c.ending = true
    Moves s (.baseDieFaultReset site) (down true)
    ∧ (CommandReady s 0x90 →
      Moves s (.islReset site false) (fun t => down false t ∧ Answers s t 0 0 ∧ (t.island site).topo = (s.island site).topo) ∧
      Moves s (.islReset site true) (fun t => Answers s t 0 0 ∧ (t.island site).topo = []))
    ∧ ((s.island site).underReset = true → Moves s (.islandResetExit site) fun t => t.live site = true ∧
        (t.island site).underReset = false ∧ (t.island site).cycle = 0 ∧ t.mem = s.mem ∧ counted t (!s.live site))
    ∧ (∀ mhz, 0 < mhz → mhz ≤ 2000 → Moves s (.clockThrottle site mhz) fun t =>
        t = s.setIsland site { s.island site with mhz := mhz })
    ∧ ∀ amps, CommandReady s 0x91 → (400 ≤ amps ∧ amps ≤ 1250 → Moves s (.pwrCap site amps) fun t =>
          Answers s t amps 0 ∧ (t.island site).amps = amps) ∧
        (amps < 400 ∨ 1250 < amps → Moves s (.pwrCap site amps) fun t =>
          Answers s t (s.island site).amps 2 ∧ t.islands = s.islands))
  ∧ (∀ (s : State) (site : Nat) (b : Bool) (amps : Nat), s.populated site = false →
      (CommandReady s 0x90 → Moves s (.islReset site b) fun t => Answers s t 0 1) ∧
      (CommandReady s 0x91 → Moves s (.pwrCap site amps) fun t => Answers s t 0 1))
  ∧ ∀ (s : State), Moves s .powerOn fun t => t.mem = [] ∧ t.ctxs = [] ∧ t.teams = [] ∧ t.splits = [] ∧ t.slices = [] ∧
      t.ops = [] ∧ t.pkts = [] ∧ t.ctrs = [] ∧ t.fe = {} ∧ t.pres = s.pres ∧ ∀ k, (t.island k).cmap0 = (s.island k).cmap0 ∧
      (t.island k).cmap1 = (s.island k).cmap1 ∧ (t.island k).hdie = (s.island k).hdie ∧ (t.island k).topo = [] ∧
      (t.island k).igen = 0 ∧ (t.island k).live = true ∧ (t.link k).lanes = (t.link k).fused

/-! ### Pre-emption and the debugger (spec/15) -/

/-- R124, R336 to R343, R359, R387: a pre-emption that is asked for starts, or waits for the end of a halt; a handler
still running when its time is over no longer holds it up; a team whose context has drained gets a place and is saved
there, and resumes on a core of its island that it fits; an attached debugger halts a context, reads and writes its
registers, and resumes it at the instruction or behind it; a place for a save area is taken when it is well formed. Which context is
resident is log entry 36 (DESIGN CHOICE); what the debugger may read and write is log entry 44 (DEDUCED), and its arguments arrive
decoded (log entry 12, DESIGN CHOICE). -/
def Obligations.PreemptionAndDebugger : Prop :=
  (∀ (s : State) (asid : Nat) (c : Ctx), find asid s.ctxs = some c →
    let asked := fun (t : State) => ∃ x, find asid t.ctxs = some x ∧ (c.halted = true → x.preQueued = true) ∧
      (c.halted = false →
        if s.teams.any fun e => e.2.asid == asid && e.2.resident then ∃ since, x.pre = .stopping since else x.resident = false)
    (preemptible c = true → Moves s (.preemptRequest asid) asked)
    ∧ (∀ n, preemptible c = true → waiting s asid = some n → s.fe.slice ≠ 0 → c.since + s.fe.slice ≤ s.fe.fcyc →
        Moves s (.timeSliceExpiry asid) asked)
    ∧ (∀ since, c.pre = .stopping since →
        let hs := (ctxSplits s asid).filter fun e => e.2.1.handler
        hs ≠ [] → (∀ e ∈ hs, getD 0 e.2.2.site since + 65536 ≤ (s.island e.2.2.site).cycle) →
        Moves s (.handlerTimeLimit asid) fun t => ∃ x, find asid t.ctxs = some x ∧ x.pre = .limit)
    ∧ (c.dbg.getLsbD 0 = true → c.ending = false → Moves s (.debuggerHaltRequest asid) fun t =>
        ∃ x, find asid t.ctxs = some x ∧ if c.pre = .none then x.halted = true else x.haltPending = true)
    ∧ (c.halted = true → ∀ m, Moves s (.debuggerResume asid m) fun t => ∃ x, find asid t.ctxs = some x ∧ x.preQueued = false ∧
        (c.preQueued = false → x.halted = false ∧ x.haltAt = [] ∧ t.ops = s.ops ∧ (m = .again → t.splits = s.splits) ∧
          ∀ h p, m = .next → c.haltAt = [h] → find h.1 s.splits = some p →
            find h.1 t.splits = some { p with pc := addPc p.pc 4, passed := [], declined := [], hazard := none, held := none }))
    ∧ (∀ v : Word, v.toNat < 8 → CommandReady s 0x80 → Moves s (.dbgSet asid (.setDbg v)) fun t => Answers s t 0 0 ∧
        ∃ x, find asid t.ctxs = some x ∧ x.dbg = if v.getLsbD 0 then v else 0)
    ∧ (∀ r hi v, c.halted = true → dbgRead s asid r = some v → CommandReady s 0x80 → Moves s (.dbgSet asid (.read r hi)) fun t =>
        Answers s t (half v (ofBool hi)).toNat 0 ∧ t = { s with fe := t.fe })
    ∧ (∀ sk r (v : DWord) sl, c.halted = true → dbgSlice s asid sk = some sl → r < 66 → r ≠ 0 → CommandReady s 0x80 →
        Moves s (.dbgSet asid (.write (.g sk r) v)) fun t => Answers s t 0 0 ∧
          (∀ h, h < 2 → t.reg sk (keyG r h) = half v.toNat h) ∧ t.mem = s.mem)
    ∧ (∀ tid name row col (v : DWord) e, c.halted = true → dbgTile s asid tid name row col = some e → CommandReady s 0x80 →
        Moves s (.dbgSet asid (.write (.tile tid name row col) v)) fun t => Answers s t 0 0 ∧
          getD 0 e.2 (t.core e.1).tiles = w32 v.toNat)
    ∧ (∀ v : DWord, c.halted = true → CommandReady s 0x80 → Moves s (.dbgSet asid (.write .tvec v)) fun t => Answers s t 0 0 ∧
        ∃ x, find asid t.ctxs = some x ∧ x.tvec = BitVec.ofNat 64 (v.toNat &&& 0x0000FFFFFFFFFFFC))
    ∧ (∀ sk lane (v : DWord) sl, c.halted = true → dbgSlice s asid sk = some sl → lane < 4 → lane < sl.lanes.length → v.toNat < 64 →
        CommandReady s 0x80 → Moves s (.dbgSet asid (.write (.lid sk lane) v)) fun t => Answers s t 0 0 ∧
          ((t.slice sk).lane lane).lid = w32 v.toNat)
    ∧ (∀ sk tok (v : DWord) sl, c.halted = true → dbgSlice s asid sk = some sl → tok < 16 → v.toNat < 256 →
        sl.outstanding tok ≤ v.toNat → sl.anyLive = true → (∀ e ∈ s.fe.grids, e.2.unretired ≠ 0) → CommandReady s 0x80 →
        Moves s (.dbgSet asid (.write (.count sk tok) v)) fun t => Answers s t 0 0 ∧ (t.slice sk).count tok = v.toNat)
    ∧ ∀ r hi (v : DWord), c.halted = false → CommandReady s 0x80 → Moves s (.dbgSet asid (.read r hi)) (fun t => Answers s t 0 2) ∧
        Moves s (.dbgSet asid (.write r v)) fun t => Answers s t 0 2)
  ∧ (∀ (s : State) (tid : Nat) (tm : Team), find tid s.teams = some tm →
    (∀ c, find tm.asid s.ctxs = some c → tm.resident = true → saveReady s tm.asid c = true →
      (∀ a, tm.saveAt = some a → Moves s (.preemptSave tid) fun t =>
        let u := l1CleanAll (settleTeam s tid) (coreKey tm.site tm.core) (partOf s tm.asid) 2
        (∃ y, find tid t.teams = some y ∧ y.resident = false) ∧ (∀ e ∈ t.splits, e.2.team ≠ tid) ∧
        pocBytes t (span (2 ^ 44 * tm.site + a) (saveArea u tid tm).length) = saveArea u tid tm) ∧
      (tm.saveAt = none → tm.saveSvc = none → svcsFull s = false → Moves s (.preemptSave tid) fun t =>
        ∃ y, find tid t.teams = some y ∧ (y.saveAt.isSome ∨ y.saveSvc.isSome)))
    ∧ (∀ a, tm.saveAt = some a → tm.resident = false → mayPlace s tm.asid = true → (s.island tm.site).underReset = false →
        resumeCores s tid tm ≠ [] → Moves s (.teamResume tid) fun t => ∃ y, find tid t.teams = some y ∧ y.resident = true ∧
          y.site = tm.site ∧ ∃ f, (y.core, f) ∈ resumeCores s tid tm)
    ∧ (∀ (svc n addr : Nat) (v : Svc), find svc s.fe.svcs = some v → v.kind = .save tm.asid tid n → CommandReady s 0x26 →
        let good := addr % 4096 = 0 ∧ addr / 2 ^ 48 = s.fe.panel.toNat ∧ addr / 2 ^ 44 % 16 = tm.site ∧
          addr % 2 ^ 44 + n ≤ (s.island tm.site).hcap
        (good → Moves s (.savePlace svc addr) fun t => Answers s t 0 0 ∧ find svc t.fe.svcs = none ∧
          ∃ y, find tid t.teams = some y ∧ y.saveAt = some (addr % 2 ^ 44)) ∧
        (¬good → Moves s (.savePlace svc addr) fun t => Answers s t 0 2 ∧ find svc t.fe.svcs = some v)))

/-! ### The front end (spec/16, 17) -/

/-- R345, R348, R350 to R358, R369: the decisions of the packet scheduler dispatch the packet at the head of the queue
they choose, which is copied and taken, or start the launch they choose on a processor; a level whose age has passed its
limit becomes due; a dispatched NOP completes, a LAUNCH starts its launch at depth 1, WAITN completes when every entry is
past at one moment and not before, SIGNAL makes its increments, and MARKER writes its record and the count behind it
(R353). A decision for a launch with no processor free waits, and nothing passes it (log entry 39, DEDUCED); another panel's counters
are log entry 23 (DESIGN CHOICE). -/
def Obligations.PacketsRun : Prop :=
  (∀ (s u : State) (c : Choice), (∀ l, 1 ≤ l → l ≤ 3 → nth 0 s.fe.ages l < 64 ∨ nth false s.fe.dueLevels l = true) →
    ((s.fe.chosen = some c ∧ c.cand.stands s c.queue = true ∧ u = s) ∨
      (s.fe.chosen = none ∧ ∃ level, nextLevel s = some level ∧ decisions level 16384 s = some (u, c))) →
    let q := c.queue
    let full := candLaunch u q c.cand = true ∧ freeProcessors u = 0
    (full → s.fe.chosen = none → Moves s .packetDispatch fun t => t = u.modFe fun f => { f with chosen := some c }) ∧
    (full → s.fe.chosen = some c → exec .packetDispatch s = .fault (.notEnabled "PACKET_DISPATCH")) ∧
    (¬full → Moves s .packetDispatch fun t => t.fe.chosen = none ∧
      (∀ lid l, (c.cand = .child lid ∨ ∃ p, c.cand = .again lid p) → find lid s.fe.launches = some l →
        find lid t.fe.launches = some { l with running := true }) ∧
      (c.cand = .head → ∃ p, find s.fe.nextId t.fe.pkts = some p ∧ p.q = q ∧ p.payload = headPacket s q ∧
        p.ty = slotType (headPacket s q) ∧ p.asid = (s.queue q).asid.toNat ∧ p.st = .ready ∧
        ((t.queue q).head = (s.queue q).head + 1 ∨ (t.queue q).err = true))))
  ∧ (∀ (s : State) (l : Nat), 1 ≤ l → l ≤ 3 → 64 ≤ nth 0 s.fe.ages l → nth false s.fe.dueLevels l = false →
    Moves s (.levelDue l) fun t => (l < s.fe.dueLevels.length → nth false t.fe.dueLevels l = true) ∧ t.fe.pkts = s.fe.pkts)
  ∧ ∀ (s : State) (pid : Nat) (p : FPkt), find pid s.fe.pkts = some p →
    let gone := fun (t : State) => find pid t.fe.pkts = none
    let away := fun (e : Nat × Nat) => e.1 / 2 ^ 16 % 256 ≠ s.fe.panel.toNat
    let es := entriesOf p.payload
    let past := ∀ e ∈ es, counterPast (designated s p.asid e.1) e.2 = true
    (p.ty = 0 → p.st = .ready → Moves s (.nopPacket pid) gone)
    ∧ (p.ty = 1 → p.st = .ready → Moves s (.launchPacket pid) fun t => find pid t.fe.pkts = some { p with st := .running } ∧
        ∃ l, find s.fe.nextId t.fe.launches = some l ∧ l.asid = p.asid ∧ l.pkt = some pid ∧ l.depth = 1 ∧ l.root = p.q ∧
          l.header = fieldAt p.payload 0 8 ∧ l.running = true)
    ∧ (p.ty = 2 → p.st = .ready → Moves s (.waitn pid) fun t => find pid t.fe.pkts = some { p with st := .waiting })
    ∧ (p.ty = 2 → p.st = .waiting → (past → Moves s (.waitnComplete pid) gone) ∧
        (¬past → exec (.waitnComplete pid) s = .fault (.notEnabled "WAITN_COMPLETE")))
    ∧ (p.ty = 3 → p.st = .ready → Moves s (.signal pid) fun t =>
        ((∀ e ∈ es, ¬away e) → gone t) ∧
        ((∃ e ∈ es, away e) → ∃ x, find pid t.fe.pkts = some x ∧ x.st = .waiting) ∧
        ∀ e c, es = [e] → ¬away e → find p.asid s.ctxs = some c →
          let k := 4096 * (e.1 / 2 ^ 12 % 16) + (nbase c.window + e.1 % 2 ^ 12)
          t.ctr k = s.ctr k + w32 e.2)
    ∧ (p.ty = 4 → p.st = .ready → Moves s (.marker pid) fun t =>
        let u := s.queue p.q
        (s.connected u.conn.toNat = true → u.held = [] → gone t ∧ t.rdmaOut = s.rdmaOut ++
          [.write u.conn.toNat ((u.rbase.toNat + 64 * (u.seq % 2 ^ u.rlog.toNat)) % 2 ^ 64) u.rkey (markerRecord s p),
           .write u.conn.toNat u.rcnt.toNat u.rkey (leBytes 8 (u.seq + 1))]) ∧
        (s.connected u.conn.toNat = false → t.rdmaOut = s.rdmaOut ∧ ∃ x, find pid t.fe.pkts = some x ∧ x.st = .finishing))

/-- The end of launch `lid` by a fault of Table 16.7: it and its packet are gone, its queue has ERR, the record of KIND 2 is written or
held, and the header of a launch with no parent has its STATUS where a child's LAUNCH found it, or where the state `u`, in which the
fault arises, maps it (R326, R366, R367). -/
def Sys2Proof.Machine.LaunchFaulted (s u t : State) (lid : Nat) (l : Launch) (sub : Nat) : Prop :=
  find lid t.fe.launches = none ∧
  (∀ p x, l.pkt = some p → find p s.fe.pkts = some x → find p t.fe.pkts = none ∧ (t.queue x.q).err = true) ∧
  (∃ r ms, t.rdmaOut = s.rdmaOut ++ ms ∧ ((∃ c a k, .write c a k r ∈ ms) ∨ (t.queue l.root).held.getLast? = some r) ∧ r.length = 64 ∧
    fieldAt r 0 1 = 0x16 ∧ fieldAt r 1 1 = sub ∧ fieldAt r 2 1 = 2 ∧ fieldAt r 24 8 = l.header % 2 ^ 64 ∧
    fieldAt r 16 8 = (match l.src with | some x => x.pc % 2 ^ 64 | none => 0)) ∧
  (l.parent = none →
    (∀ pa, l.hdrPa = none → feTranslate u l.asid (l.header + 60) = some pa → pocBytes t (span (paKey pa) 4) = leBytes 4 (0x100 + sub)) ∧
    (∀ pa, l.hdrPa = some pa → u.region (siteOf (paKey pa)) (offOf (paKey pa)) = .hbm ∨ u.region (siteOf (paKey pa)) (offOf (paKey pa)) = .vault →
      pocBytes t (span (paKey (pa + 60)) 4) = leBytes 4 (0x100 + sub)))

/-- R362 to R366, Table 16.7: how a launch goes on at each read, from the header to the home islands. Each failed check ends it with its
subcause, in the order of the table; a miss parks it; what passes every check becomes a grid (log entry 31, DEDUCED, for the corners of
the subcauses). The header of a LAUNCH lies where the instruction found it (in the state page or in a notify counter its bytes read 0: log
entry 81, DESIGN CHOICE). -/
def Sys2Proof.Machine.LaunchChecks : Prop :=
  ∀ (s : State) (lid : Nat) (l : Launch), find lid s.fe.launches = some l → l.running = true → l.misses = [] →
    let fault := fun (u : State) (sub : Nat) => Moves s (.launchRun lid) fun t => LaunchFaulted s u t lid l sub
    let parks := fun (ms : List Miss) => Moves s (.launchRun lid) fun t => ∃ y, find lid t.fe.launches = some y ∧ y.misses = ms ∧
      y.running = true ∧ y.header = l.header
    let grid := fun (h k : List Byte) (hs : List Nat) => Moves s (.launchRun lid) fun t => find lid t.fe.launches = none ∧
      ∃ g, find s.fe.nextId t.fe.grids = some g ∧ g.asid = l.asid ∧ g.hdr = h ∧ g.kdesc = k ∧ g.depth = l.depth ∧ g.root = l.root ∧
        g.unretired = hs.length ∧ (∀ site ∈ hs, ∃ ns, (site, ns) ∈ g.toPlace) ∧
        ∀ site ns n, (site, ns) ∈ g.toPlace → (n ∈ ns ↔ hs[n]? = some site)
    let islands := fun (u : State) (y : Launch) (h k : List Byte) =>
      (homes u y h = .ok none → fault u 6) ∧ (∀ ms, homes u y h = .error ms → parks ms.1) ∧
      ∀ hs, homes u y h = .ok (some hs) →
        ((∃ site ∈ hs, couldHold u site (kernelDemand k) = false) → fault u 7) ∧
        ((∀ site ∈ hs, couldHold u site (kernelDemand k) = true) → grid h k hs)
    let kernel := fun (u : State) (y : Launch) (h : List Byte) =>
      let va := fieldAt h 0 8
      (va % 128 ≠ 0 → fault u 5) ∧ (va % 128 = 0 →
        (feRead u y va 128 = .error none → fault u 5) ∧ (∀ m, feRead u y va 128 = .error (some m) → parks [m]) ∧
        ∀ k v, feRead u y va 128 = .ok (k, v) → (kernelOk k = false → fault v 5) ∧ (kernelOk k = true → islands v y.clear h k))
    let inForce := fun (u : State) (h : List Byte) => (headerOk u l.asid h = false → fault u 4) ∧ (headerOk u l.asid h = true → kernel u l.clear h)
    (10 < l.depth → fault s 1)
    ∧ (l.depth ≤ 10 → l.force = none → l.hdr = none → l.hdrPa = none →
      (l.header % 128 ≠ 0 → fault s 2) ∧ (l.header % 128 = 0 → (feRead s l l.header 128 = .error none → fault s 2) ∧
        (∀ m, feRead s l l.header 128 = .error (some m) → parks [m]) ∧
        ∀ h u, feRead s l l.header 128 = .ok (h, u) →
          exec (.launchRun lid) s = exec (.launchRun lid) (parkLaunch u lid { l.clear with hdr := some h } [] [])))
    ∧ (l.depth ≤ 10 → l.force = none → l.hdr = none → ∀ pa, l.hdrPa = some pa →
      let as := span (paKey pa) 128
      exec (.launchRun lid) s = exec (.launchRun lid)
        (parkLaunch (pocTouch s (partOf s l.asid) 2 true as) lid { l.clear with hdr := some (as.map (readByte s.mem)) } [] []))
    ∧ (∀ h, l.depth ≤ 10 → l.force = none → l.hdr = some h →
      let base := fieldAt h 8 8
      let p := l.pro.getD ⟨proStart l h, base, 0⟩
      (base = 0 → inForce s h) ∧ (base % 4 ≠ 0 → fault s 3) ∧ (base ≠ 0 → base % 4 = 0 → ∀ r, runPro l base (65536 - p.n) p s = r →
        (∀ q u, r = .go q u ∨ r = .bad u → fault u 3) ∧
        (∀ m ps q u, r = .park m ps q u → Moves s (.launchRun lid) fun t => ∃ y, find lid t.fe.launches = some y ∧ y.misses = [m] ∧ y.pro = some q) ∧
        ∀ sl u, r = .exit sl u → let v := proEnd sl 63 % 4
          (v = 0 → inForce u ((upFrom 0 16).map fun k => leBytes 8 (proEnd sl (16 + k))).flatten) ∧
          (v = 1 → Moves s (.launchRun lid) fun t => find lid t.fe.launches = none ∧ ∀ p, l.pkt = some p → find p t.fe.pkts = none) ∧
          (v = 2 → Moves s (.launchRun lid) fun t => ∃ y, find lid t.fe.launches = some y ∧ y.running = false ∧ y.pro = none ∧
            y.due = some (u.fe.fcyc + proEnd sl 62 % 2 ^ 32)) ∧
          (v = 3 → fault u 3)))
    ∧ (∀ h, l.depth ≤ 10 → l.force = some h → (l.kdesc = none → kernel s l h) ∧ ∀ k, l.kdesc = some k → islands s l h k)

/-- R61 to R65, R70, R362 to R367, R369, R387: a launch whose checks pass becomes a grid of its header in force, its kernel
descriptor and its home islands; one that fails a check of Table 16.7 ends with that check's subcause in its record, and one
that misses parks (log entry 31, DEDUCED, for the corners of the subcauses); a prologue that asked to be repeated runs again
after its delay; the first team that waits on an island starts on the first core that fits, with every slice's window, g
registers and lanes as R365 says, and one split of each gang at its role's entry; an unanswered event is posted again. -/
def Obligations.LaunchesStartTeams : Prop :=
  LaunchChecks
  ∧ (∀ (s : State) (lid : Nat) (l : Launch), find lid s.fe.launches = some l → l.running = true → l.misses = [] →
    ∃ t, exec (.launchRun lid) s = .next t)
  ∧ (∀ (s : State) (lid due : Nat) (l : Launch), find lid s.fe.launches = some l → l.due = some due → due ≤ s.fe.fcyc →
    Moves s (.prologueRepeat lid) fun t => find lid t.fe.launches =
      some { l with due := none, hdr := if l.pkt.isSome then none else l.hdr })
  ∧ (∀ (s : State) (site gid idx c : Nat) (rest : List Nat) (g : Grid) (f : Fit), find gid s.fe.grids = some g →
    (g.toPlace.find? fun e => e.1 == site) = some (site, idx :: rest) → mayPlace s g.asid = true →
    (s.island site).underReset = false → kernelOk g.kdesc = true → pickCore s site (kernelDemand g.kdesc) = some (c, f) →
    Moves s (.teamPlacement site gid) fun t =>
      (∃ tm, find s.nextTeam t.teams = some tm ∧ tm.asid = g.asid ∧ tm.grid = gid ∧ tm.idx = w32 idx ∧ tm.site = site ∧
        tm.core = c ∧ tm.x = w32 (idx % extX g.hdr) ∧ tm.y = BitVec.ofNat 16 (idx / extX g.hdr % extY g.hdr) ∧
        tm.z = BitVec.ofNat 16 (idx / extX g.hdr / extY g.hdr)) ∧
      (∀ k x, (gangsOf g.kdesc)[k]? = some x →
        (∃ sp, find (s.nextSplit + k) t.splits = some sp ∧ sp.team = s.nextTeam ∧ sp.gang = k ∧ sp.pc = BitVec.ofNat 48 x.2 ∧
          sp.pcHi = BitVec.ofNat 16 (x.2 / 2 ^ 48) ∧ sp.mode = w32 (fieldAt g.kdesc 20 4) ∧ sp.slices = upFrom 0 (x.1.width / 4) ∧ sp.handler = false) ∧
        ∀ j, j < x.1.width / 4 → ∃ pos origin, t.slice (sliceKey s.nextTeam k j) =
          { pos := pos, origin := origin, size := x.1.size, regs := startRegs g
            lanes := fourLanes.map fun i => startLane (w32 (fieldAt g.kdesc 24 4)) (4 * j + i) }) ∧
      (t.island site).nextCore = (c + 1) % 128)
  ∧ ∀ (s : State) (svc : Nat) (v : Svc), find svc s.fe.svcs = some v → v.event ≠ [] → v.posted + 2 ^ 31 ≤ s.fe.fcyc →
    Moves s (.eventRepost svc) fun t => find svc t.fe.svcs = some { v with posted := s.fe.fcyc }

/-- R344, R348, R349, R353, R371, R374 to R377, R386: the host's writes fill queue SRAM and the command ring, and byte 255 of the slot at
HEAD has its packet copied and judged (log entry 39, DEDUCED); its reads are answered with the window's bytes and change nothing, other
requests are refused; a connection is established and lost; the image of an update is judged when it comes; at a quiescent boundary the
standby takes over, and so it does when the active complex stops responding, which ends every command in progress with status 2 (log
entry 43, DEDUCED). -/
def Obligations.HostAndFirmware : Prop :=
  (∀ (s : State) (conn off : Nat) (data : List Byte), s.connected conn = true →
    Moves s (.hostRdmaWrite conn off data) fun t => ∀ k, k < data.length →
      (off + k < 0x2000000 → getD 0 (off + k) t.fe.qsram = data.getD k 0) ∧
      (0x2000000 ≤ off + k → off + k < 0x2004000 → getD 0 (off + k - 0x2000000) t.fe.cring = data.getD k 0))
  ∧ (∀ (s : State) (conn q : Nat) (b : Byte), s.connected conn = true → q < 8192 →
    let v := s.queue q
    let off := q * 0x1000 + v.head.toNat % 16 * 0x100 + 255
    let u := windowWrite s off b
    let p := slotBytes u q v.head.toNat
    v.en = true → v.err = false → v.copy = none → b = validByte v.head.toNat → Moves s (.hostRdmaWrite conn off [b]) fun t =>
      (packetFault u v.asid.toNat p = none → t.queue q = { v with copy := some p }) ∧
      (packetFault u v.asid.toNat p ≠ none → (t.queue q).err = true ∧ (t.queue q).head = v.head + 1 ∧ (t.queue q).copy = none))
  ∧ (∀ (s : State) (conn off n : Nat), s.connected conn = true → Moves s (.rdmaRead conn off n) fun t =>
      t = { s with rdmaOut := s.rdmaOut ++ [.reply conn ((span off n).map (windowRead s))] })
  ∧ (∀ (s : State) (conn : Nat), Moves s (.rdmaRefused conn) fun t => t = { s with rdmaOut := s.rdmaOut ++ [.nak conn] })
  ∧ (∀ (s : State) (conn : Nat), (conn < 1024 → s.connected conn = false → Moves s (.connectionEstablish conn) fun t =>
      t.connected conn = true ∧ ∀ q u, find q s.fe.queues = some u → u.conn.toNat = conn → (t.queue q).held = []) ∧
      (s.connected conn = true → Moves s (.connectionLoss conn) fun t => t.connected conn = false ∧ t.mem = s.mem))
  ∧ (∀ (s : State) (pos : Nat) (b : List Byte), s.fe.updPos = some pos → s.fe.updLen = some b.length →
    let ends := fun (st : Nat) => Moves s (.fillReadResponse 0 b) fun t => t.fe.updPos = none ∧ t.fe.upd = s.fe.upd ∧
      t.fe.laurel = s.fe.laurel ∧ t.fe.myrtle = s.fe.myrtle ∧ getD 0 (pos % 64) t.fe.cres = BitVec.ofNat 64 (2 ^ 63 + st)
    let fits := imageStvMin b ≤ s.fe.stv.toNat ∧ s.fe.stv.toNat ≤ imageStvOut b
    (imageOk b = false → ends 1) ∧ (imageOk b = true → imageSigned b = false → ends 3) ∧
    (imageOk b = true → imageSigned b = true → ¬fits → ends 2) ∧
    (imageOk b = true → imageSigned b = true → fits → Moves s (.fillReadResponse 0 b) fun t => t.fe.upd = true ∧
      t.fe.updPos = some pos ∧ t.fe.act = s.fe.act ∧ standby t.fe = ⟨b, BitVec.ofNat 64 (fieldAt b 8 8)⟩))
  ∧ ∀ s : State,
    (∀ pos, s.fe.upd = true → s.fe.updPos = some pos → quiescent s = true → Moves s .firmwareTakeover fun t =>
      t.fe.act = !s.fe.act ∧ t.fe.upd = false ∧ t.fe.stv = BitVec.ofNat 16 (imageStvOut (standby s.fe).bytes) ∧
      getD 0 (pos % 64) t.fe.cres = BitVec.ofNat 64 (2 ^ 63))
    ∧ Moves s .firmwareWatchdog fun t => t.fe.act = !s.fe.act ∧ t.fe.upd = false ∧ t.fe.stv = s.fe.stv ∧ t.fe.shoots = [] ∧
      ∀ pos ∈ openCommands s, getD 0 (pos % 64) t.fe.cres = BitVec.ofNat 64 (2 ^ 63 + 2)

/-- The type of a command (Table 17.2); none for what is no command. -/
def Sys2Proof.Machine.commandType : Instr → Option Nat
  | .ctxNew _ => some 0x10
  | .ctxEnd _ => some 0x11
  | .ctxSlice _ => some 0x12
  | .evtPanel _ => some 0x13
  | .xlDesc .. => some 0x20
  | .xlWrite .. => some 0x21
  | .xlInval .. => some 0x22
  | .xlResolve .. => some 0x23
  | .xlFill .. => some 0x24
  | .pool .. => some 0x25
  | .savePlace .. => some 0x26
  | .mapoutAck _ => some 0x27
  | .qState .. => some 0x30
  | .gState .. => some 0x31
  | .l2Mask .. => some 0x40
  | .l2Occ .. => some 0x41
  | .topo .. => some 0x50
  | .panelNum _ => some 0x60
  | .fwUpdate _ => some 0x70
  | .fwAttest .. => some 0x71
  | .dbgSet .. => some 0x80
  | .islReset .. => some 0x90
  | .pwrCap .. => some 0x91
  | _ => none

/-- R372: a command runs when its slot is published with its lap and no command is still executing (log entry 43, DEDUCED); one whose
OCL, FSC or reserved trailer byte is not 0 is malformed. The end of a context that has drained is no command's. -/
def Sys2Proof.Machine.CommandsTakeTurns : Prop :=
  ∀ (s : State) (i : Instr) (ty : Nat), commandType i = some ty →
    (∀ asid c, i = .ctxEnd asid → find asid s.ctxs = some c → ¬(c.ending = true ∧ drained s asid = true)) →
    (commandNext s ty = false → ∃ n, exec i s = .fault (.notEnabled n)) ∧
    (commandNext s ty = true → bits (cmdTrailer s) 8 16 ≠ 0 → Moves s i fun t => Answers s t 0 1 ∧ t = { s with fe := t.fe })

/-- R28, R259, R260, R268 to R270, R278 to R282, R291, R325, R346, R354, R359, R372, R375, R378, R379, R385, R387:
what each command of Table 17.2 does when it is its turn, its arguments are well formed and its subject exists, and the status that
refuses it otherwise. A command's arguments arrive decoded, and its result word holds a 32-bit value (log entry 12,
DESIGN CHOICE); which context is resident is log entry 36 (DESIGN CHOICE); TOPO writes any entry, which R284 judges where it is used
(log entry 48, DEDUCED); the digests and the signature of a report come from the keys of log entry 11 (DESIGN CHOICE). -/
def Obligations.CommandsAnswer : Prop :=
  CommandsTakeTurns ∧ ∀ s : State,
    let does := fun (i : Instr) (p : State → Prop) => (∃ ty, commandType i = some ty ∧ CommandReady s ty) → Moves s i p
    let ok := fun (i : Instr) (v : Nat) (p : State → Prop) => does i fun t => Answers s t v 0 ∧ p t
    let no := fun (i : Instr) (n : Nat) => does i fun t => Answers s t 0 n ∧ t = { s with fe := t.fe }
    (∀ a : CtxArgs,
      let asid := a.pid.toNat / 2 ^ 8 % 2 ^ 8
      let held := ∃ c, find asid s.ctxs = some c ∧ (c.resident = true ∨ c.ending = true)
      (ctxArgsOk a = false → no (.ctxNew a) 1) ∧ (ctxArgsOk a = true → held → no (.ctxNew a) 2) ∧
      (ctxArgsOk a = true → ¬held → ok (.ctxNew a) 0 fun t => ∃ c, find asid t.ctxs = some c ∧ c.pid = a.pid ∧
        c.window = a.window ∧ c.modeWord = a.modeWord ∧ c.ring = a.ring ∧ c.resident = true ∧ c.descs = [] ∧ c.dbg = 0))
    ∧ (∀ asid, (find asid s.ctxs = none → no (.ctxEnd asid) 2) ∧ ∀ c, find asid s.ctxs = some c →
      (c.ending = true → drained s asid = true → Moves s (.ctxEnd asid) fun t => find asid t.ctxs = none ∧
        (∀ e ∈ t.teams, e.2.asid ≠ asid) ∧ (∀ e ∈ t.ops, e.2.asid ≠ asid)) ∧
      (c.ending = false ∨ drained s asid = false → does (.ctxEnd asid) fun t => t.fe.cpos = s.fe.cpos + 1 ∧
        ∃ x, find asid t.ctxs = some x ∧ x.ending = true ∧ s.fe.cpos ∈ x.endCmds))
    ∧ (∀ n, ok (.ctxSlice n) 0 fun t => t.fe.slice = n)
    ∧ (∀ r, (ringOk r = false → no (.evtPanel r) 1) ∧
      (ringOk r = true → ok (.evtPanel r) 0 fun t => t.fe.ring = r ∧ t.fe.events = 0))
    ∧ (∀ asid site (d : BitVec 64), d.toNat / 2 ^ 56 = 0 → d.toNat / 2 ^ 9 % 2 ^ 3 = 0 → d.toNat % 2 ^ 8 = asid →
      s.populated site = true → (find asid s.ctxs = none → no (.xlDesc asid site d) 2) ∧
      ∀ c, find asid s.ctxs = some c → ok (.xlDesc asid site d) 0 fun t => descriptor t asid site = some d)
    ∧ (∀ site o (v : BitVec 64), s.populated site = true → o % 8 = 0 → (s.region site o = .hbm ∨ s.region site o = .vault) →
      ok (.xlWrite [site] [(o, v)]) 0 fun t => readEntry t (2 ^ 44 * site + o) = v.toNat)
    ∧ (∀ asid first last sites, sites ≠ [] → (∀ k ∈ sites, s.populated k = true) → first ≤ last →
      does (.xlInval asid first last sites) fun t => t.fe.cpos = s.fe.cpos + 1 ∧ ∀ site ∈ sites,
        (∀ e ∈ (t.island site).tlb, tlbHits asid first last e = false) ∧
        (∀ ck, ck / 128 = site → ∀ e ∈ (t.core ck).tlb, tlbHits asid first last e = false) ∧
        ∃ sd h, find sd t.fe.shoots = some h ∧ h.site = site ∧ h.asid = asid ∧ h.first = first ∧ h.last = last ∧ h.pos = s.fe.cpos)
    ∧ (∀ svc retry, ((∀ v a k n, find svc s.fe.svcs = some v → v.kind ≠ .fault a k n) → no (.xlResolve svc retry) 2) ∧
      ∀ v a k n, find svc s.fe.svcs = some v → v.kind = .fault a k n → ok (.xlResolve svc retry) 0 fun t =>
        find svc t.fe.svcs = none ∧ ∀ sid sp p m h, find sid s.splits = some sp → (find sp.team s.teams).isSome = true →
          sp.park = some p → m ∈ p.misses →
          m.st = .service svc h → ∃ sp' p', find sid t.splits = some sp' ∧ sp'.park = some p' ∧
            { m with st := if retry then .walk else .declined 0x05 (if h then 2 else 1) } ∈ p'.misses)
    ∧ (∀ asid (f : FillRange), 1 ≤ f.level → f.level ≤ 3 → f.bytes ≠ 0 → f.first % pageBytes f.level = 0 →
      f.bytes % pageBytes f.level = 0 → f.first + f.bytes ≤ 2 ^ 48 → (find asid s.ctxs = none → no (.xlFill asid f) 2) ∧
      ∀ c, find asid s.ctxs = some c → ok (.xlFill asid f) 0 fun t => ∃ x, find asid t.ctxs = some x ∧ f ∈ x.fills)
    ∧ (∀ kind site rs, s.populated site = true → (∀ r ∈ rs, r.1 % 4096 = 0 ∧ r.2 % 4096 = 0 ∧
        r.1 + r.2 ≤ (s.island site).hcap) → 1 ≤ kind → kind ≤ 3 → ok (.pool kind site rs) 0 fun t =>
        let pool := fun (f : FrontEnd) => getD [] site (if kind = 1 then f.frames else if kind = 2 then f.saves else f.spares)
        pool t.fe = pool s.fe ++ rs)
    ∧ (∀ svc v site die, find svc s.fe.svcs = some v → v.kind = .mapout site die → ok (.mapoutAck svc) 0 fun t =>
        find svc t.fe.svcs = none ∧ (⟨die, 3, true, none⟩ : MapOut) ∈ (t.island site).mapouts)
    ∧ (∀ q (a : QArgs), q < 8192 → a.rbase.toNat % 64 = 0 → 4 ≤ a.rlog.toNat → a.rlog.toNat ≤ 16 →
      let u := s.queue q
      let fixed := a.pri = u.pri ∧ a.grp = u.grp ∧ a.asid = u.asid ∧ a.has = u.has
      (u.en = true → a.en = true → ¬fixed → no (.qState q a) 2) ∧
      (u.en = false ∨ a.en = false ∨ fixed → ok (.qState q a) 0 fun t => (t.queue q).en = a.en ∧ (t.queue q).pri = a.pri ∧
        (t.queue q).grp = a.grp ∧ (t.queue q).asid = a.asid ∧ (t.queue q).rbase = a.rbase ∧ (t.queue q).conn = a.conn))
    ∧ (∀ g w, (g < 256 → ok (.gState g w) 0 fun t => (t.group g).weight = w) ∧ (256 ≤ g → no (.gState g w) 1))
    ∧ (∀ site part m, (s.populated site = true → part < 16 → ok (.l2Mask site part m) 0 fun t => (t.island site).mask part = m) ∧
        (s.populated site = false ∨ 16 ≤ part → no (.l2Mask site part m) 1))
    ∧ (∀ site part k, s.populated site = true → part < 16 → k < 32 → ok (.l2Occ site part k) (occupancy s site part k) fun t =>
        t = { s with fe := t.fe })
    ∧ (∀ site n (v : BitVec 64), s.populated site = true → n < 4096 → ok (.topo site n v) 0 fun t =>
        getD 0 n (t.island site).topo = v)
    ∧ (∀ n, ((∃ e ∈ s.ctxs, e.2.resident = true) → no (.panelNum n) 2) ∧
        ((∀ e ∈ s.ctxs, e.2.resident = false) → ok (.panelNum n) 0 fun t => t.fe.panel = n ∧
          (n ≠ s.fe.panel → ∀ k, s.populated k = true → (t.island k).igen = (s.island k).igen + 1)))
    ∧ (∀ a : FwArgs, (1024 ≤ a.conn → no (.fwUpdate a) 1) ∧ (a.conn < 1024 → does (.fwUpdate a) fun t =>
        t.fe.cpos = s.fe.cpos + 1 ∧ t.fe.updPos = some s.fe.cpos ∧ t.fe.updLen = some a.len ∧ t.fe.upd = s.fe.upd ∧
        t.rdmaOut = s.rdmaOut ++ [.read a.conn a.addr.toNat a.key a.len 0]))
    ∧ (∀ nonce conn a key, (nonce.length = 32 → conn < 1024 → ok (.fwAttest nonce conn a key) 0 fun t =>
          ∃ b, b.length = 416 ∧ (b.drop 8).take 32 = nonce ∧ (b.drop 40).take 64 = shake256 64 s.fe.laurel.bytes ∧
            (b.drop 104).take 64 = shake256 64 s.fe.myrtle.bytes ∧ (b.drop 168).take 64 = shake256 64 (fuseBlock s) ∧
            (b.drop 232).take 57 = ed448Public identitySeed ∧ b.drop 302 = ed448Sign identitySeed (b.take 302) ∧
            t.rdmaOut = s.rdmaOut ++ [.write conn a.toNat key b]) ∧
        (nonce.length ≠ 32 ∨ 1024 ≤ conn → no (.fwAttest nonce conn a key) 1))
    ∧ ∀ ty : BitVec 8, ty.toNat ∉ commandTypes → CommandReady s ty.toNat → Moves s (.reservedCommand ty) fun t =>
        Answers s t 0 1 ∧ t = { s with fe := t.fe }

/-! ### The whole machine (spec/01, 02, 03, 17) -/

/-- R199, R255, R282, R291, R329, R346, R354, R371 to R373, R385: right after reset every memory byte of every vault reads
0, counters and topology entries read 0, IGEN and PANEL are 0, every core holds 8 ways of L1, every partition may fill
every way, every queue and group has its reset state, no command has run, Laurel is active, no event ring is set, no
context, team or operation exists; and memory is in its canonical form. HBM4E, which no rule gives a value, reads 0 as well (log entries
5 and 22, DESIGN CHOICE), and what the manual gives no reset value stands as log entry 6 says (DESIGN CHOICE). -/
def Obligations.ResetState : Prop :=
  let s := State.reset
  s.Inv ∧ (∀ a, readByte s.mem a = 0) ∧ (∀ k, s.ctr k = 0) ∧
    (∀ site, (s.island site).igen = 0 ∧ (∀ k, getD 0 k (s.island site).topo = 0) ∧ (s.island site).underReset = false ∧
      (s.island site).cycle = 0 ∧ ∀ part, (s.island site).mask part = 0xFFFF) ∧
    (∀ ck, (s.core ck).l1w = 8 ∧ (s.core ck).l1 = [] ∧ (s.core ck).tlb = []) ∧
    (∀ q, (s.queue q).en = false ∧ (s.queue q).err = false ∧ (s.queue q).head = 0 ∧ (s.queue q).rlog = 4) ∧
    (∀ g, (s.group g).weight = 1 ∧ (s.group g).dc = 0) ∧
    s.fe.panel = 0 ∧ s.fe.act = false ∧ s.fe.upd = false ∧ s.fe.cpos = 0 ∧ s.fe.ring.base = 0 ∧ s.fe.fcyc = 0 ∧
    (∀ a, windowRead s (0x2010000 + a % 512) = 0) ∧
    s.ctxs = [] ∧ s.teams = [] ∧ s.splits = [] ∧ s.slices = [] ∧ s.ops = [] ∧ s.pkts = [] ∧ s.turn = .idle

/-- R46, R67, R69, R398: when it is the turn of a split of an issue group and the fetch path shows the word at the address its PC
translates to as memory has it, the step runs the instruction that word decodes to, at the state with the word fetched, the
split's marks made and its reads noted (log entry 64, DEDUCED, for what the fetch does to the L2), leaves the group, and counts
the step; a word that decodes to none is illegal; and a word that would take a count past 255 does not issue (R112). A split whose
instruction has issued and parked runs that instruction again, with no new fetch (R276) and with the free choices of its issue (log entry
80, DEDUCED). -/
def Obligations.StepRunsDecoded : Prop :=
  (∀ (s v : State) (ck sid : Nat) (rest done : List Nat) (cx : Iss) (h : Held), s.turn = .issue ck (sid :: rest) done →
    issuing { s with cur := some sid } = some cx → unhindered cx = true → cx.sp.held = some h →
    exec h.instr (noteReads { markIssue s cx with cur := some cx.sid, tick := h.step } cx h.instr) = .next v →
    step s = .next { noteShot cx.sid (fun o => decide (s.nextOp ≤ o)) (leaveGroup { v with cur := none } cx.sid true) with
      tick := s.tick + 1 })
  ∧ ∀ (s : State) (ck sid pa : Nat) (rest done : List Nat) (cx : Iss), s.turn = .issue ck (sid :: rest) done →
    issuing { s with cur := some sid } = some cx → unhindered cx = true → fetched s cx.tm cx.sp = some pa →
    cx.sp.held = none → acquiring s cx = false → preIssue s cx = none → FetchSees s cx.ck pa →
    let w := codeWord s pa
    let u := (fetchWord s cx.ck (partOf s cx.tm.asid) cx.ret pa).2
    let t := { markIssue u cx with cur := some cx.sid }
    (find (paKey pa) (u.core cx.ck).fetch = some w ∧ (∀ a, readByte u.mem a = readByte s.mem a) ∧ u.ctxs = s.ctxs ∧ u.teams = s.teams ∧
      u.splits = s.splits ∧ u.slices = s.slices ∧ u.ops = s.ops ∧ u.fe = s.fe ∧ u.turn = s.turn)
    ∧ (∀ i, decode w = .ok i → holdsBack s cx i = false →
      step s = countStep (afterIssue cx.sid (exec i (noteReads t cx i))) ∧
      ∀ v, exec i (noteReads t cx i) = .next v → step s = .next { leaveGroup { v with cur := none } cx.sid true with
        tick := (leaveGroup { v with cur := none } cx.sid true).tick + 1 })
    ∧ (∀ i, decode w = .ok i → holdsBack s cx i = true →
      step s = countStep (.next (leaveGroup s cx.sid false)))
    ∧ ∀ r, decode w = .error r → step s = countStep (afterIssue cx.sid (exec (.illegalEncoding w) t))

/-- R29 to R47, Tables 2.4 to 2.12: a word of every group of opcodes decodes to the instruction it stands for, and words
with a reserved opcode, a reserved sub-function, a must-be-zero bit set or a register outside its kind decode to none. -/
def Obligations.DecodesTheSpecsWords : Prop :=
  -- opcode, d, a, b or immediate, E
  decode (0b0000001_00001000_00000101_00000110_0#32) = .ok (.add 8 5 6 false)
    ∧ decode (0b0000001_00111110_00000010_00000011_1#32) = .ok (.add 62 2 3 true)
    ∧ decode (0b0010111_00001000_00000101_111111111#32) = .ok (.addi 8 5 (-1))
    ∧ decode (0b0100000_00001001_00000000000000011#32) = .ok (.ldh 9 3)
    ∧ decode (0b0100100_000011_00000101_00000110_010#32) = .ok (.icmp 3 5 6 2)
    ∧ decode (0b0110000_1111111111111111111111111#32) = .ok (.br (-1))
    ∧ decode (0b0111110_0000000000000000000000001#32) = .ok .rftNext
    ∧ decode (0b1000110_00000010_000000000_00000001#32) = .ok (.wait 2 1)
    ∧ decode (0b1010000_00001000_00000100_0011_100_1_0#32) = .ok (.ldg 8 4 3 4 true)
    ∧ decode (0b1100010_0_0010_101_00001010_00001011_1#32) = .ok (.mma 2 5 10 11 true)
    ∧ decode (0b1111011_00001000_00000101_000000110#32) = .ok (.frnd 8 5 2)
    ∧ (∀ w : Word, w.toNat / 2 ^ 25 = 0 ∨ w.toNat / 2 ^ 25 = 0x6F ∨ 0x7E ≤ w.toNat / 2 ^ 25 →
        decode w = .error .reservedOpcode)
    ∧ decode (0b0010110_00001000_00000101_000001111#32) = .error .reservedSub
    ∧ decode (0b0111011_0000000000000000000000001#32) = .error .mustBeZero
    ∧ decode (0b0000001_01000000_00000010_00000011_1#32) = .error .index

/-- R29 to R47: no bit of a word is dropped and no operand is lost. Every well-formed instruction with a word is what that
word decodes to, at every value of its operands; and a word that decodes to an instruction is that instruction's own word,
whose operands pass every check. -/
def Obligations.DecodeAndEncodeAgree : Prop :=
  (∀ (i : Instr) (w : Word), i.wf = true → encode i = some w → decode w = .ok i)
  ∧ ∀ (w : Word) (i : Instr), decode w = .ok i → i.wf = true ∧ encode i = some w

/-- Every step of the machine, whatever it does, keeps memory in its one canonical form: addresses strictly rise and no
listed byte is what an unlisted one reads as. -/
def Obligations.StepKeepsInv : Prop := ∀ s t : State, s.Inv → step s = .next t → t.Inv

end
end

