-- ==== Sys2Proof/Machine/AsmText.lean ====
section
/-! DEFINITION. Source text of the Vrelpen assembler (R53 to R55): the tokens of a line, expressions and operands. -/
namespace Sys2Proof.Machine

/-! ### Tokens -/

/-- A token of a source line. -/
inductive Tok where
  | name (s : String)
  | num (n : Nat)
  /-- A decimal number with `k` digits behind its point, m ÷ 10^k; only `.vpa` takes one. -/
  | dec (m k : Nat)
  | sym (c : Char)
  | shl
  | shr
  deriving DecidableEq, Repr

/-- Characters a name begins with, and those it goes on with (R53). -/
def nameStart (c : Char) : Bool := c.isAlpha || c == '_' || c == '.'
def nameChar (c : Char) : Bool := nameStart c || c.isDigit

/-- Value of a digit below a base. -/
def digitIn (base : Nat) (c : Char) : Option Nat :=
  let v := if c.isDigit then c.toNat - 48
    else if decide ('a' ≤ c) && decide (c ≤ 'f') then c.toNat - 87
    else if decide ('A' ≤ c) && decide (c ≤ 'F') then c.toNat - 55 else base
  if v < base then some v else none

/-- Number of digits in a base, with the underscores inside ignored; none without a digit. -/
def digitsIn (base : Nat) (cs : List Char) : Option Nat :=
  match cs.filter (· != '_') with
  | [] => none
  | ds => ds.foldl (fun acc c => acc.bind fun n => (digitIn base c).map (base * n + ·)) (some 0)

/-- A number as written: hexadecimal, binary or decimal (R55). -/
def numberOf : List Char → Option Nat
  | '0' :: 'x' :: r => digitsIn 16 r
  | '0' :: 'b' :: r => digitsIn 2 r
  | r => digitsIn 10 r

/-- A character constant behind its opening quote (R55): its value and the rest of the line. -/
def charConst : List Char → Option (Nat × List Char)
  | '\\' :: 'x' :: a :: b :: '\'' :: r =>
    (digitIn 16 a).bind fun x => (digitIn 16 b).map fun y => (16 * x + y, r)
  | '\\' :: c :: '\'' :: r =>
    match c with
    | 'n' => some (10, r) | 't' => some (9, r) | 'r' => some (13, r) | '0' => some (0, r)
    | '\\' => some (92, r) | '\'' => some (39, r) | _ => none
  | c :: '\'' :: r => if decide (32 ≤ c.toNat) && decide (c.toNat ≤ 126) && c != '\'' && c != '\\' then some (c.toNat, r) else none
  | _ => none

/-- Tokens of a line up to its comment (R53); none where the line holds no token. -/
def lex : Nat → List Char → Option (List Tok)
  | 0, _ => none
  | _ + 1, [] => some []
  | f + 1, c :: r =>
    if c = ';' then some []
    else if c = ' ' ∨ c = '\t' ∨ c = '\r' then lex f r
    else if nameStart c then
      (lex f (r.dropWhile nameChar)).map (.name (String.ofList (c :: r.takeWhile nameChar)) :: ·)
    else if c.isDigit then
      let more := fun (x : Char) => x.isAlphanum || x == '_'
      let digit := fun (x : Char) => x.isDigit || x == '_'
      match r.dropWhile digit with
      | '.' :: q =>
        let k := q.takeWhile digit
        (digitsIn 10 k).bind fun _ => (digitsIn 10 (c :: r.takeWhile digit ++ k)).bind fun m =>
          (lex f (q.dropWhile digit)).map (.dec m (k.filter (· != '_')).length :: ·)
      | _ => (numberOf (c :: r.takeWhile more)).bind fun n => (lex f (r.dropWhile more)).map (.num n :: ·)
    else if c = '\'' then (charConst r).bind fun v => (lex f v.2).map (.num v.1 :: ·)
    else
      match c, r with
      | '<', '<' :: r => (lex f r).map (.shl :: ·)
      | '>', '>' :: r => (lex f r).map (.shr :: ·)
      | c, r => if [',', ':', '[', ']', '(', ')', '!', '=', '+', '-', '*', '/', '%', '&', '|', '^', '~'].contains c then
          (lex f r).map (.sym c :: ·) else none

/-! ### Expressions (R55) -/

/-- Unary operators and the two functions. -/
inductive UnOp where
  | neg | not | hi17 | lo15
  deriving DecidableEq, Repr

/-- Binary operators. -/
inductive BinOp where
  | mul | div | rem | add | sub | shl | shr | and | xor | or
  deriving DecidableEq, Repr

/-- An expression; `here` is the address of the current line. -/
inductive Expr where
  | num (n : Nat)
  | sym (s : String)
  | here
  | un (o : UnOp) (e : Expr)
  | bin (o : BinOp) (a b : Expr)
  deriving DecidableEq, Repr

/-- Value of a binary operation; none where R55 makes it an error. -/
def binVal (o : BinOp) (a b : BitVec 64) : Option (BitVec 64) :=
  match o with
  | .mul => some (a * b)
  | .add => some (a + b)
  | .sub => some (a - b)
  | .and => some (a &&& b)
  | .xor => some (a ^^^ b)
  | .or => some (a ||| b)
  | .div => if b = 0 then none else some (a.sdiv b)
  | .rem => if b = 0 then none else some (a.srem b)
  | .shl => if b.toInt < 0 then none else some (if 64 ≤ b.toNat then 0 else a <<< b.toNat)
  | .shr => if b.toInt < 0 then none else some (a.sshiftRight (Nat.min b.toNat 64))

/-- Value of an expression in 64-bit two's complement, given the symbols and the address of the line. -/
def Expr.eval (sym : String → Option (BitVec 64)) (here : BitVec 64) : Expr → Option (BitVec 64)
  | .num n => some (BitVec.ofNat 64 n)
  | .sym s => sym s
  | .here => some here
  | .un o e => (e.eval sym here).map fun v => match o with
    | .neg => -v
    | .not => ~~~v
    | .hi17 => (v.sshiftRight 15) &&& 0x1FFFF
    | .lo15 => v &&& 0x7FFF
  | .bin o a b => (a.eval sym here).bind fun x => (b.eval sym here).bind fun y => binVal o x y

/-- The binary operator a token names at a level of precedence, 0 the lowest. -/
def binAt : Nat → Tok → Option BinOp
  | 0, .sym '|' => some .or
  | 1, .sym '^' => some .xor
  | 2, .sym '&' => some .and
  | 3, .shl => some .shl
  | 3, .shr => some .shr
  | 4, .sym '+' => some .add
  | 4, .sym '-' => some .sub
  | 5, .sym '*' => some .mul
  | 5, .sym '/' => some .div
  | 5, .sym '%' => some .rem
  | _, _ => none

/-- Parses an expression at a level of precedence, after the left operand if it is there: operators of one level
associate to the left. -/
def parse : Nat → Nat → Option Expr → List Tok → Option (Expr × List Tok)
  | 0, _, _, _ => none
  | f + 1, lv, some a, ts =>
    match ts with
    | [] => some (a, [])
    | t :: r => match binAt lv t with
      | some o => (parse f (lv + 1) none r).bind fun p => parse f lv (some (.bin o a p.1)) p.2
      | none => some (a, t :: r)
  | f + 1, lv, none, ts =>
    if lv < 6 then (parse f (lv + 1) none ts).bind fun p => parse f lv (some p.1) p.2
    else
      let paren := fun (r : List Tok) => (parse f 0 none r).bind fun p => match p.2 with
        | .sym ')' :: q => some (p.1, q)
        | _ => none
      match ts with
      | .sym '-' :: r => (parse f 6 none r).map fun p => (.un .neg p.1, p.2)
      | .sym '~' :: r => (parse f 6 none r).map fun p => (.un .not p.1, p.2)
      | .sym '(' :: r => paren r
      | .num n :: r => some (.num n, r)
      | .name s :: .sym '(' :: r =>
        if s = "hi17" then (paren r).map fun p => (.un .hi17 p.1, p.2)
        else if s = "lo15" then (paren r).map fun p => (.un .lo15 p.1, p.2)
        else none
      | .name s :: r => some (if s = "." then .here else .sym s, r)
      | _ => none

/-- The expression that a list of tokens is. -/
def exprOf (ts : List Tok) : Option Expr :=
  match parse (16 * (ts.length + 2)) 0 none ts with
  | some (e, []) => some e
  | _ => none

/-! ### Operands and lines (R53, R54) -/

/-- An operand of an instruction. -/
inductive Opnd where
  | reg (k : Char) (n : Nat)
  | notP (n : Nat)
  | mem (k : Char) (n : Nat)
  | exp (e : Expr)
  deriving DecidableEq, Repr

/-- The register a name is: its kind and number. -/
def regName (s : String) : Option (Char × Nat) :=
  match s.toList with
  | k :: d :: ds => if ['x', 'f', 'g', 'p', 't', 'a', 'h'].contains k && (d :: ds).all Char.isDigit
    then (digitsIn 10 (d :: ds)).map fun n => (k, n) else none
  | _ => none

/-- The operand that a list of tokens is. -/
def opndOf (ts : List Tok) : Option Opnd :=
  match ts with
  | [.name s] => match regName s with | some r => some (.reg r.1 r.2) | none => (exprOf ts).map .exp
  | [.sym '!', .name s] => (regName s).bind fun r => if r.1 = 'p' then some (.notP r.2) else none
  | [.sym '[', .name s, .sym ']'] => (regName s).map fun r => .mem r.1 r.2
  | ts => (exprOf ts).map .exp

/-- Tokens cut at the commas outside parentheses. -/
def cutArgs : Nat → List Tok → List Tok → List (List Tok)
  | _, cur, [] => [cur]
  | d, cur, t :: r =>
    match t with
    | .sym ',' => if d = 0 then cur :: cutArgs d [] r else cutArgs d (cur ++ [t]) r
    | .sym '(' => cutArgs (d + 1) (cur ++ [t]) r
    | .sym ')' => cutArgs (d - 1) (cur ++ [t]) r
    | t => cutArgs d (cur ++ [t]) r

/-- The arguments behind a mnemonic or a directive. -/
def argsOf (ts : List Tok) : List (List Tok) := if ts.isEmpty then [] else cutArgs 0 [] ts

/-- A source line: its labels, and its mnemonic or directive with the arguments. -/
structure Line where
  label : Option String
  op : Option (String × List (List Tok))
  deriving DecidableEq, Repr

/-- The line that tokens make up (R53). -/
def asmLine (ts : List Tok) : Option Line :=
  let body := fun (l : Option String) (r : List Tok) => match r with
    | [] => some ⟨l, none⟩
    | .name m :: r => some ⟨l, some (m, argsOf r)⟩
    | _ => none
  match ts with
  | .name s :: .sym ':' :: r => body (some s) r
  | r => body none r

/-- A mnemonic and its modifiers, each introduced by a dot. -/
def modsOf (m : String) : List String :=
  (m.toList.foldr (fun c acc => if c = '.' then [] :: acc else match acc with
    | [] => [[c]]
    | w :: r => (c :: w) :: r) [[]]).map String.ofList

end Sys2Proof.Machine
end

