-- ==== Sys2Proof/Machine/AsmWord.lean ====
section
/-! DEFINITION. The words of a source line of the Vrelpen assembler: mnemonics, modifiers and operands (R54, R56, Tables
2.4 to 2.12 and 2.14) and the pseudo-instructions (R57). -/
namespace Sys2Proof.Machine

/-! ### Operand values -/

/-- What the expressions of a line are read with: the symbols and the line's address. -/
structure LineCx where
  sym : String → Option (BitVec 64)
  here : BitVec 64

/-- Value of an expression operand. -/
def LineCx.val (cx : LineCx) : Opnd → Option (BitVec 64)
  | .exp e => e.eval cx.sym cx.here
  | _ => none

/-- Highest index of an operand kind (Table 2.3). -/
def kindMax (k : Char) : Nat :=
  if k = 'g' ∨ k = 'p' then 63 else if k = 't' then 15 else if k = 'a' ∨ k = 'h' then 7 else 255

/-- A register operand of kind `k`, as a field of `w` bits. -/
def Opnd.regOf (w : Nat) (k : Char) : Opnd → Option (BitVec w)
  | .reg c n => if c = k ∧ n ≤ kindMax k then some (BitVec.ofNat w n) else none
  | _ => none

/-- A bracketed address register of kind `k` (R54). -/
def Opnd.memOf (k : Char) : Opnd → Option (BitVec 8)
  | .mem c n => if c = k ∧ n ≤ kindMax k then some (BitVec.ofNat 8 n) else none
  | _ => none

/-- A branch predicate, and whether it is negated (R54). -/
def Opnd.predOf : Opnd → Option (BitVec 6 × Bool)
  | .reg 'p' n => if n < 64 then some (BitVec.ofNat 6 n, false) else none
  | .notP n => if n < 64 then some (BitVec.ofNat 6 n, true) else none
  | _ => none

/-- An unsigned immediate of `n` bits (R56). -/
def LineCx.immU (cx : LineCx) (n : Nat) (o : Opnd) : Option (BitVec n) :=
  (cx.val o).bind fun v => if v.toNat < 2 ^ n then some (BitVec.ofNat n v.toNat) else none

/-- A sign-extended immediate of `n` bits (R31, R56). -/
def LineCx.immS (cx : LineCx) (n : Nat) (o : Opnd) : Option (BitVec n) :=
  (cx.val o).bind fun v => if -(2 ^ (n - 1) : Int) ≤ v.toInt ∧ v.toInt < 2 ^ (n - 1) then some (BitVec.ofInt n v.toInt) else none

/-- A branch target as the word offset of R30, of `n` bits (R56: within reach). -/
def LineCx.target (cx : LineCx) (n : Nat) (o : Opnd) : Option (BitVec n) :=
  (cx.val o).bind fun v =>
    let d := v - cx.here
    if d.toNat % 4 = 0 ∧ -(2 ^ (n - 1) : Int) ≤ d.toInt / 4 ∧ d.toInt / 4 < 2 ^ (n - 1)
    then some (BitVec.ofInt n (d.toInt / 4)) else none

def arg1 (ops : List Opnd) (k : Opnd → Option Instr) : Option Instr := match ops with | [a] => k a | _ => none
def arg2 (ops : List Opnd) (k : Opnd → Opnd → Option Instr) : Option Instr := match ops with | [a, b] => k a b | _ => none
def arg3 (ops : List Opnd) (k : Opnd → Opnd → Opnd → Option Instr) : Option Instr :=
  match ops with | [a, b, c] => k a b c | _ => none
def arg4 (ops : List Opnd) (k : Opnd → Opnd → Opnd → Opnd → Option Instr) : Option Instr :=
  match ops with | [a, b, c, d] => k a b c d | _ => none

/-! ### Operand shapes -/

/-- Three registers of one kind. -/
def regs3 (k : Char) (ops : List Opnd) (f : BitVec 8 → BitVec 8 → BitVec 8 → Instr) : Option Instr :=
  arg3 ops fun d a b => do return f (← d.regOf 8 k) (← a.regOf 8 k) (← b.regOf 8 k)

/-- A destination of kind `k` and a source of kind `j`. -/
def regs2 (k j : Char) (ops : List Opnd) (f : BitVec 8 → BitVec 8 → Instr) : Option Instr :=
  arg2 ops fun d a => do return f (← d.regOf 8 k) (← a.regOf 8 j)

/-- A destination, a source and a token. -/
def regs2t (k j : Char) (ops : List Opnd) (f : BitVec 8 → BitVec 8 → BitVec 4 → Instr) : Option Instr :=
  arg3 ops fun d a t => do return f (← d.regOf 8 k) (← a.regOf 8 j) (← t.regOf 4 't')

/-- A data register of kind `k`, an address of kind `j` and a token. -/
def memt (k j : Char) (ops : List Opnd) (f : BitVec 8 → BitVec 8 → BitVec 4 → Instr) : Option Instr :=
  arg3 ops fun d a t => do return f (← d.regOf 8 k) (← a.memOf j) (← t.regOf 4 't')

/-- A predicate and two registers of one kind. -/
def predRegs (k : Char) (ops : List Opnd) (f : BitVec 6 → BitVec 8 → BitVec 8 → Instr) : Option Instr :=
  arg3 ops fun p a b => do return f (← p.regOf 6 'p') (← a.regOf 8 k) (← b.regOf 8 k)

/-! ### Mnemonics without modifiers -/

/-- Opcodes 0x01 to 0x11, 0x13 and 0x14: x registers, or with e = 1 g registers (R33). -/
def intTable : List (String × (BitVec 8 → BitVec 8 → BitVec 8 → Bool → Instr)) :=
  [("ADD", .add), ("SUB", .sub), ("MUL", .mul), ("MULH", .mulh), ("MAD", .mad), ("MIN", .min), ("MAX", .max)]
  ++ [("AND", .and), ("OR", .or), ("XOR", .xor), ("ANDN", .andn), ("SHL", .shl), ("SHR", .shr), ("ROT", .rot)]
  ++ [("ABSD", .absd), ("DIV", .div), ("REM", .rem), ("BFX", .bfx), ("BFI", .bfi)]

/-- IUN codes 0 to 8: x registers, or with s9[8] = 1 g registers (R37). -/
def unTable : List (String × (BitVec 8 → BitVec 8 → Bool → Instr)) :=
  [("CLZ", .clz), ("CTZ", .ctz), ("POPC", .popc), ("BREV", .brev), ("NOT", .not), ("NEG", .neg), ("ABS", .abs)]
  ++ [("SEX8", .sex8), ("SEX16", .sex16)]

/-- Words of three registers of one kind. -/
def threeTable : List (String × Char × (BitVec 8 → BitVec 8 → BitVec 8 → Instr)) :=
  [("PRMB", 'x', .prmb), ("SEL", 'x', .sel), ("RPUT", 'g', .rput), ("RGET", 'g', .rget), ("FADD", 'f', .fadd)]
  ++ [("FSUB", 'f', .fsub), ("FMUL", 'f', .fmul), ("FDIV", 'f', .fdiv), ("FMIN", 'f', .fmin), ("FMAX", 'f', .fmax)]
  ++ [("FCPYS", 'f', .fcpys), ("FMA", 'f', .fma), ("FMS", 'f', .fms), ("FNMA", 'f', .fnma)]

/-- Words of two registers, destination first. -/
def twoTable : List (String × Char × Char × (BitVec 8 → BitVec 8 → Instr)) :=
  [("BALLOT", 'x', 'p', .ballot), ("SPRZ", 'g', 'g', .sprz), ("FABS", 'f', 'f', .fabs), ("FNEG", 'f', 'f', .fneg)]
  ++ [("FMOV", 'f', 'f', .fmov), ("FCLASS", 'x', 'f', .fclass), ("FEXPO", 'x', 'f', .fexpo), ("FRSP", 'f', 'f', .frsp)]
  -- the counter designator of NWAIT and NADD stands first and in field a (R298, R299)
  ++ [("NWAIT", 'g', 'g', fun c t => .nwait t c), ("NADD", 'g', 'g', fun c v => .nadd v c)]

/-- Words of two registers and a token. -/
def tokTable : List (String × Char × Char × (BitVec 8 → BitVec 8 → BitVec 4 → Instr)) :=
  [("FSQRT", 'f', 'f', .fsqrt), ("FRCP", 'f', 'f', .frcp), ("FRSQ", 'f', 'f', .frsq), ("FEXP2", 'f', 'f', .fexp2)]
  ++ [("FLOG2", 'f', 'f', .flog2), ("FSIN", 'f', 'f', .fsin), ("FCOS", 'f', 'f', .fcos), ("FTANH", 'f', 'f', .ftanh)]
  ++ [("ACCRD", 'x', 'g', .accrd), ("ACCWR", 'g', 'x', .accwr)]

/-- Words without operands. -/
def bareTable : List (String × Instr) :=
  [("RET", .ret), ("JOIN", .join), ("JOINX", .joinx), ("RGANG", .rgang), ("EXIT", .exit), ("LWAIT", .lwait)]
  ++ [("LRFENCE", .lrfence), ("RFENCE", .rfence)]

/-- A register, a source and a sign-extended imm9, or a shift amount (R31). -/
def imm9Table : List (String × Char × (BitVec 8 → BitVec 8 → BitVec 9 → Instr)) :=
  [("ADDI", 'x', .addi), ("ANDI", 'x', .andi), ("ORI", 'x', .ori), ("XORI", 'x', .xori), ("MULI", 'x', .muli)]
  ++ [("GADDI", 'g', .gaddi)]
def imm5Table : List (String × (BitVec 8 → BitVec 8 → BitVec 5 → Instr)) :=
  [("SHLI", .shli), ("SHRI", .shri), ("ROTI", .roti)]

/-- Branches of a target alone, and byte-barrier words. -/
def branchTable : List (String × (BitVec 25 → Instr)) := [("BR", .br), ("BRE", .bre), ("LPB", .lpb)]
def barTable : List (String × (BitVec 8 → BitVec 5 → Instr)) := [("BARI", .bari), ("BARA", .bara), ("BARW", .barw)]

/-- Names and indices of the state registers (Table 2.14). -/
def stateNames : List (String × Nat) :=
  [("LID", 0x00), ("GANGID", 0x01), ("TEAMIDX", 0x02), ("TEAMXYZ", 0x03), ("CORE", 0x08), ("ISLAND", 0x09)]
  ++ [("PANEL", 0x0A), ("WINDOW", 0x10), ("NEST", 0x11), ("CYCLE", 0x12), ("CYCLEH", 0x13), ("TVEC", 0x20)]
  ++ [("TCAUSE", 0x21), ("TPC", 0x22), ("TVAL", 0x23), ("TLANES", 0x24), ("TSAVE", 0x25), ("TPREC", 0x26)]
  ++ [("DBG", 0x30), ("PID", 0x40)]

/-- A state register operand. -/
def asmStateReg : Opnd → Option (BitVec 8)
  | .exp (.sym s) => (stateNames.lookup s).map (BitVec.ofNat 8)
  | _ => none

/-- MFS or MTS: the x form or the g form by the register written (R50). -/
def stateWord (r n : Opnd) (f : BitVec 8 → Bool → BitVec 8 → Instr) : Option Instr := do
  let i ← asmStateReg n
  (r.regOf 8 'x').map (f · false i) <|> (r.regOf 8 'g').map (f · true i)

/-- The mnemonics of the tables above, without modifiers; the first operand shape that fits. -/
def asmTable (cx : LineCx) (mn : String) (ops : List Opnd) : Option Instr :=
  ((intTable.lookup mn).bind fun f => regs3 'x' ops (f · · · false) <|> regs3 'g' ops (f · · · true))
  <|> ((unTable.lookup mn).bind fun f => regs2 'x' 'x' ops (f · · false) <|> regs2 'g' 'g' ops (f · · true))
  <|> ((threeTable.lookup mn).bind fun f => regs3 f.1 ops f.2)
  <|> ((twoTable.lookup mn).bind fun f => regs2 f.1 f.2.1 ops f.2.2)
  <|> ((tokTable.lookup mn).bind fun f => regs2t f.1 f.2.1 ops f.2.2)
  <|> ((bareTable.lookup mn).bind fun i => if ops.isEmpty then some i else none)
  <|> ((imm9Table.lookup mn).bind fun f => arg3 ops fun d a i => do
      return f.2 (← d.regOf 8 f.1) (← a.regOf 8 f.1) (← cx.immS 9 i))
  <|> ((imm5Table.lookup mn).bind fun f => arg3 ops fun d a i => do
      return f (← d.regOf 8 'x') (← a.regOf 8 'x') (← cx.immU 5 i))
  <|> ((branchTable.lookup mn).bind fun f => arg1 ops fun l => (cx.target 25 l).map f)
  <|> ((barTable.lookup mn).bind fun f => arg2 ops fun b g => do return f (← g.regOf 8 'g') (← cx.immU 5 b))

/-- The other mnemonics without modifiers; `cases` is the case count that the `.table` after a BRX gives (R59). -/
def plainWord (cx : LineCx) (cases : Nat) (mn : String) (ops : List Opnd) : Option Instr :=
  match mn with
  | "LDH" => arg2 ops fun d i => do return .ldh (← d.regOf 8 'x') (← cx.immU 17 i)
  | "LDL" => arg2 ops fun d i => do return .ldl (← d.regOf 8 'x') (← cx.immU 15 i)
  | "LDHG" => arg2 ops fun d i => do return .ldhg (← d.regOf 8 'g') (← cx.immS 17 i)
  | "LDLG" => arg2 ops fun d i => do return .ldlg (← d.regOf 8 'g') (← cx.immU 17 i)
  | "MOVG" => regs2 'x' 'g' ops (.movg · · false)
  | "MOVL" => arg3 ops fun d a l => do return .movl (← d.regOf 8 'g') (← a.regOf 8 'x') false (← cx.immU 2 l)
  | "PLOG" => arg4 ops fun d a b t => do
    return .plog (← d.regOf 6 'p') (← a.regOf 6 'p') (← b.regOf 6 'p') (← cx.immU 4 t)
  | "SETM" => arg1 ops fun a => (a.regOf 8 'g').map .setm
  | "GETM" => arg1 ops fun d => (d.regOf 8 'g').map .getm
  | "PRSET" => arg1 ops fun a => (a.regOf 8 'x').map .prset
  | "PRGET" => arg1 ops fun d => (d.regOf 8 'x').map .prget
  | "MFS" => arg2 ops fun d n => stateWord d n .mfs
  | "MTS" => arg2 ops fun n a => stateWord a n .mts
  | "DLY" => arg1 ops fun n => (cx.immU 16 n).map .dly
  | "VPAH" => arg3 ops fun h a t => do return .vpah (← h.regOf 8 'h') (← a.memOf 'g') (← t.regOf 4 't')
  | "CALL" => arg2 ops fun k l => do return .call (← cx.immU 5 k) (← cx.target 20 l)
  | "CALLR" => arg2 ops fun k a => do return .callr (← a.regOf 8 'x') (← cx.immU 5 k)
  | "BRF" => arg2 ops fun p l => do let q ← p.predOf; return .brf q.1 q.2 (← cx.target 18 l)
  | "BRB" => arg2 ops fun p l => do let q ← p.predOf; return .brb q.1 q.2 (← cx.target 18 l)
  | "BRX" => arg1 ops fun a => if cases < 512 then (a.regOf 8 'x').map (.brx · (BitVec.ofNat 9 cases)) else none
  | "TRAP" => arg1 ops fun c => (cx.immU 9 c).map .trap
  | "BRK" => arg1 ops fun c => (cx.immU 9 c).map .brk
  | "GWID" => arg1 ops fun d => (d.regOf 8 'x').map .gwid
  | "SHFL" => regs3 'x' ops .shfl <|> arg3 ops fun d a l => do
    return .shflImm (← d.regOf 8 'x') (← a.regOf 8 'x') (← cx.immU 8 l)
  | "RSORT" => arg3 ops fun d a c => do return .rsort (← d.regOf 8 'x') (← a.regOf 8 'x') (← cx.immU 8 c)
  | "WAIT" => arg2 ops fun t n => do return .wait (← t.regOf 8 't') (← cx.immU 8 n)
  | "BSYNC" => arg2 ops fun b g => do return .bsync (← g.regOf 8 'g') (← cx.immU 6 b)
  | "MWAIT" => arg2 ops fun a d => do return .mwait (← d.regOf 8 'g') (← a.memOf 'g')
  | "LAUNCH" => arg2 ops fun a t => do return .launch (← a.memOf 'g') (← t.regOf 4 't')
  | "STP" => arg4 ops fun d a h t => do
    return .stp (← d.regOf 8 'f') (← a.regOf 8 'x') (← t.regOf 4 't') (← h.regOf 3 'h')
  | "STF" => memt 'f' 'x' ops .stf
  | "ACCZ" => arg2 ops fun p t => do return .accz (← p.regOf 3 'a') (← t.regOf 4 't')
  | "ACCST" => arg2 ops fun d p => do return .accst (← d.regOf 8 'g') (← p.regOf 3 'a')
  | mn => asmTable cx mn ops

/-! ### Mnemonics with modifiers -/

/-- Which of the optional modifiers `fs` are written, in their order; none for a modifier the word does not take. -/
def flagMods : List String → List String → Option (List Bool)
  | [], [] => some []
  | [], _ :: _ => none
  | f :: fs, m :: ms => if m = f then (flagMods fs ms).map (true :: ·) else (flagMods fs (m :: ms)).map (false :: ·)
  | _ :: fs, [] => (flagMods fs []).map (false :: ·)

/-- Number of a name in a list of names. -/
def nameNo (names : List String) (m : String) : Option Nat := names.idxOf? m

/-- The size modifier, `b32` when none is written, and the modifiers after it (R42). -/
def sizeMod (ms : List String) : BitVec 3 × List String :=
  let names := ["n8", "s8", "n16", "s16", "b32", "b64", "b128"]
  match ms with
  | m :: r => match nameNo names m with | some n => (BitVec.ofNat 3 n, r) | none => (4, ms)
  | [] => (4, [])

/-- An x-form or g-form load or store with its size; `lu` tells whether it takes last-use. -/
def sized (k j : Char) (lu : Bool) (ms : List String) (ops : List Opnd)
    (f : BitVec 8 → BitVec 8 → BitVec 4 → BitVec 3 → Bool → Instr) : Option Instr :=
  let s := sizeMod ms
  (flagMods (if lu then ["lu"] else []) s.2).bind fun fl => memt k j ops (f · · · s.1 (fl.headD false))

/-- `ATOM.op[.s][.d]` (R42). -/
def atomic (ms : List String) (ops : List Opnd)
    (f : BitVec 8 → BitVec 8 → BitVec 4 → BitVec 3 → Bool → Bool → Instr) : Option Instr :=
  match ms with
  | m :: r => do
    let o ← nameNo ["add", "min", "max", "and", "or", "xor", "exch", "cas"] m
    let fl ← flagMods ["s", "d"] r
    memt 'x' 'x' ops (f · · · (BitVec.ofNat 3 o) (fl.getD 0 false) (fl.getD 1 false))
  | [] => none

/-- `MMA[.ow] a, g, g, t`. -/
def matrixWord (ms : List String) (ops : List Opnd)
    (f : BitVec 4 → BitVec 3 → BitVec 8 → BitVec 8 → Bool → Instr) : Option Instr :=
  (flagMods ["ow"] ms).bind fun fl => arg4 ops fun p a b t => do
    return f (← t.regOf 4 't') (← p.regOf 3 'a') (← a.regOf 8 'g') (← b.regOf 8 'g') (fl.headD false)

/-- Fields of SETM and PRSET with the assembler names of their values (Table 2.8). -/
def setmFields : List (String × Nat × List String) :=
  [("g", 0, []), ("gn", 1, []), ("sp", 2, []), ("it", 3, ["s32", "n32", "s16x2", "n16x2", "s8x4", "n8x4"]), ("sat", 4, [])]
  ++ [("ep", 5, ["normal", "low", "high", "stream"]), ("ord", 6, ["rlx", "acq", "rel", "ar", "sc"])]
  ++ [("scp", 7, ["sl", "co", "is", "pa", "sy"])]
def prsetFields : List (String × Nat × List String) :=
  [("p", 0, []), ("cls", 1, ["fit", "w1", "w2", "w4"]), ("rm", 2, ["rne", "rtz", "up", "dn"]), ("xt", 3, []), ("sub", 4, [])]
  ++ [("flags", 5, [])]

/-- A field form of SETM or PRSET: the value by name or as an expression (R39). -/
def fieldWord (cx : LineCx) (fs : List (String × Nat × List String)) (m : String) (ops : List Opnd)
    (f : BitVec 8 → BitVec 4 → Instr) : Option Instr :=
  (fs.lookup m).bind fun e => arg1 ops fun o =>
    let named := match o with | .exp (.sym s) => nameNo e.2 s | _ => none
    ((named.map (BitVec.ofNat 8)) <|> cx.immU 8 o).map (f · (BitVec.ofNat 4 e.1))

/-- Condition codes of ICMP and ICMPI, and of FCMP (Table 2.11). -/
def ccNames : List String := ["eq", "ne", "lt", "le", "gt", "ge", "any", "none"]
def fccNames : List String := ["eq", "ne", "lt", "le", "gt", "ge", "un", "or"]

/-- `PMOV.m` (Table 2.7). -/
def pmovWord (cx : LineCx) (m : String) (ops : List Opnd) : Option Instr :=
  match m with
  | "p2x" => arg1 ops fun d => (d.regOf 8 'x').map .pmovP2x
  | "x2p" => arg1 ops fun a => (a.regOf 8 'x').map .pmovX2p
  | "mov" => regs2 'p' 'p' ops .pmovMov
  | "not" => regs2 'p' 'p' ops .pmovNot
  | "set" => arg2 ops fun d v => do return .pmovSet (← d.regOf 8 'p') ((← cx.immU 1 v) == 1)
  | "lsb" => regs2 'p' 'x' ops .pmovLsb
  | _ => none

/-- `FCVT.m` (Table 2.12). -/
def fcvtWord (ms : List String) (ops : List Opnd) : Option Instr :=
  match ms with
  | ["cls", c] => (nameNo ["w1", "w2", "w4"] c).bind fun n => regs2 'f' 'f' ops (.fcvtCls · · (BitVec.ofNat 2 (n + 1)))
  | ["f2s32"] => regs2 'x' 'f' ops .fcvtF2s32
  | ["f2n32"] => regs2 'x' 'f' ops .fcvtF2n32
  | ["f2s64"] => regs2 'x' 'f' ops .fcvtF2s64
  | ["f2n64"] => regs2 'x' 'f' ops .fcvtF2n64
  | ["s32f"] => regs2 'f' 'x' ops .fcvtS32f
  | ["n32f"] => regs2 'f' 'x' ops .fcvtN32f
  | ["s64f"] => regs2 'f' 'x' ops .fcvtS64f
  | ["n64f"] => regs2 'f' 'x' ops .fcvtN64f
  | ["f2ce"] => regs2 'x' 'f' ops .fcvtF2ce
  | ["cef"] => regs2 'f' 'x' ops .fcvtCef
  | _ => none

/-- A mnemonic with one modifier. -/
def oneMod (cx : LineCx) (mn m : String) (ops : List Opnd) : Option Instr :=
  match mn with
  | "MOVG" => if m = "d" then regs2 'x' 'g' ops (.movg · · true) else none
  | "MOVL" => if m = "d" then arg3 ops fun d a l => do
      return .movl (← d.regOf 8 'g') (← a.regOf 8 'x') true (← cx.immU 2 l) else none
  | "ICMP" => (nameNo ccNames m).bind fun c => predRegs 'x' ops (.icmp · · · (BitVec.ofNat 3 c))
  | "ICMPI" => (nameNo ccNames m).bind fun c => arg3 ops fun p a i => do
    return .icmpi (← p.regOf 6 'p') (← a.regOf 8 'x') (← cx.immS 8 i) (BitVec.ofNat 3 c)
  | "FCMP" => (nameNo fccNames m).bind fun c => predRegs 'f' ops (.fcmp · · · (BitVec.ofNat 3 c))
  | "PMOV" => pmovWord cx m ops
  | "SETM" => fieldWord cx setmFields m ops .setmField
  | "PRSET" => fieldWord cx prsetFields m ops .prsetField
  | "BRG" => (nameNo ["nz", "z"] m).bind fun s => arg2 ops fun g l => do
    return .brg (← g.regOf 8 'g') (s == 1) (← cx.target 16 l)
  | "RFT" => if !ops.isEmpty then none else if m = "again" then some .rftAgain else if m = "next" then some .rftNext else none
  | "VOTE" => (nameNo ["all", "any", "uniform", "none"] m).bind fun t => arg2 ops fun d a => do
    return .vote (← d.regOf 6 'p') (← a.regOf 6 'p') (BitVec.ofNat 4 t)
  | "SHFX" => (nameNo ["xor", "up", "down"] m).bind fun t => arg3 ops fun d a k => do
    return .shfx (← d.regOf 8 'x') (← a.regOf 8 'x') (BitVec.ofNat 2 t) (← cx.immU 6 k)
  | "TKS" => match m with
    | "rd" => arg2 ops fun d h => do return .tksRd (← d.regOf 8 'g') ((← cx.immU 1 h) == 1)
    | "rs" => arg2 ops fun a h => do return .tksRs (← a.regOf 8 'g') ((← cx.immU 1 h) == 1)
    | "drain" => if ops.isEmpty then some .tksDrain else none
    | _ => none
  | "PREF" => (nameNo ["l1", "l2"] m).bind fun l => arg1 ops fun a => do return .pref (← a.memOf 'x') (l == 1)
  | "TCOPY" => if m = "ld" then regs3 'g' ops .tcopyLd else if m = "st" then regs3 'g' ops .tcopySt else none
  | "FRND" => (nameNo ["ne", "tz", "up", "dn"] m).bind fun r => regs2 'f' 'f' ops (.frnd · · (BitVec.ofNat 2 r))
  | _ => none

/-- `FENCE.scope.order[.eng]` (Table 2.10). -/
def fenceWord (ms : List String) (ops : List Opnd) : Option Instr :=
  match ms with
  | s :: o :: r => do
    let sc ← nameNo ["sl", "co", "is", "pa", "sy"] s
    let od ← nameNo ["acq", "rel", "ar", "sc"] o
    let fl ← flagMods ["eng"] r
    if ops.isEmpty then some (.fence (BitVec.ofNat 3 sc) (BitVec.ofNat 3 (od + 1)) (fl.headD false)) else none
  | _ => none

/-- `CMO.op.level [x], g, t` (Table 2.10). -/
def cmoWord (ms : List String) (ops : List Opnd) : Option Instr :=
  match ms with
  | [o, l] => do
    let op ← nameNo ["cln", "inv", "cinv"] o
    let lv ← nameNo ["l1", "l2"] l
    arg3 ops fun a d t => do
      return .cmo (← d.regOf 8 'g') (← a.memOf 'x') (← t.regOf 4 't') (lv == 1) (BitVec.ofNat 3 op)
  | _ => none

/-- The instruction that a mnemonic with its modifiers and operands is; none where R56 makes it an error. -/
def asmWord (cx : LineCx) (cases : Nat) (mn : String) (ms : List String) (ops : List Opnd) : Option Instr :=
  let i := match mn with
    | "LDG" => sized 'x' 'x' true ms ops .ldg
    | "STG" => sized 'x' 'x' false ms ops fun d a t s _ => .stg d a t s
    | "LDS" => sized 'x' 'x' false ms ops fun d a t s _ => .lds d a t s
    | "STS" => sized 'x' 'x' false ms ops fun d a t s _ => .sts d a t s
    | "LDGG" => sized 'g' 'g' true ms ops .ldgg
    | "STGG" => sized 'g' 'g' false ms ops fun d a t s _ => .stgg d a t s
    | "LDF" => (flagMods ["lu"] ms).bind fun fl => memt 'f' 'x' ops (.ldf · · · (fl.headD false))
    | "LDP" => (flagMods ["exact"] ms).bind fun fl => arg4 ops fun d a h t => do
      return .ldp (← d.regOf 8 'f') (← a.regOf 8 'x') (← t.regOf 4 't') (fl.headD false) (← h.regOf 3 'h')
    | "ATOM" => atomic ms ops .atom
    | "ATOMS" => atomic ms ops .atoms
    | "RATOM" => atomic ms ops .ratom
    | "FENCE" => fenceWord ms ops
    | "CMO" => cmoWord ms ops
    | "MMA" => matrixWord ms ops .mma
    | "MMAG" => matrixWord ms ops .mmag
    | "MMAS" => matrixWord ms ops .mmas
    | "FCVT" => fcvtWord ms ops
    | mn => match ms with
      | [] => plainWord cx cases mn ops
      | [m] => oneMod cx mn m ops
      | _ => none
  i.filter (·.wf)

/-! ### Pseudo-instructions (R57) -/

/-- Whether a 64-bit value takes the one-word form of LIG. -/
def ligShort (v : BitVec 64) : Bool := decide (-65536 ≤ v.toInt) && decide (v.toInt ≤ 65535)

/-- The words of LIG. -/
def ligWords (d : BitVec 8) (v : BitVec 64) : List Instr :=
  if ligShort v then [.ldhg d (v.setWidth 17)]
  else [.ldhg d ((v.sshiftRight 51).setWidth 17), .ldlg d ((v >>> 34).setWidth 17), .ldlg d ((v >>> 17).setWidth 17),
    .ldlg d (v.setWidth 17)]

/-- The instructions of a source line (R54, R57). -/
def asmWords (cx : LineCx) (cases : Nat) (mn : String) (ms : List String) (ops : List Opnd) : Option (List Instr) :=
  if !ms.isEmpty then (asmWord cx cases mn ms ops).map ([·])
  else match mn with
    | "NOP" => if ops.isEmpty then some [.dly 0] else none
    | "MOV" => ((regs2 'x' 'x' ops (.ori · · 0)) <|> regs2 'g' 'g' ops (.gaddi · · 0)).map ([·])
    | "LI" => match ops with
      | [d, e] => do
        let r ← d.regOf 8 'x'
        let v ← cx.val e
        if -(2 ^ 31 : Int) ≤ v.toInt ∧ v.toInt < 2 ^ 32
          then return [.ldh r ((v.sshiftRight 15).setWidth 17), .ldl r (v.setWidth 15)] else none
      | _ => none
    | "LIG" => match ops with
      | [d, e] => do return ligWords (← d.regOf 8 'g') (← cx.val e)
      | _ => none
    | mn => (asmWord cx cases mn [] ops).map ([·])

/-- How many words a source line takes, also where its symbols are not yet known. -/
def wordCount (cx : LineCx) (mn : String) (ops : List Opnd) : Nat :=
  match mn, ops with
  | "LI", _ => 2
  | "LIG", [_, e] => match cx.val e with | some v => if ligShort v then 1 else 4 | none => 4
  | _, _ => 1

/-- Every modifier of Tables 2.4 to 2.12. -/
def modifierNames : List String :=
  ["d", "nz", "z", "again", "next", "all", "any", "uniform", "none", "xor", "up", "down", "rd", "drain", "rs", "lu", "exact"]
  ++ ["n8", "s8", "n16", "s16", "b32", "b64", "b128", "s", "add", "min", "max", "and", "or", "exch", "cas", "eng", "ow"]
  ++ ["cln", "inv", "cinv", "l1", "l2", "ld", "st", "ne", "tz", "dn", "cls", "w1", "w2", "w4", "p2x", "x2p", "mov", "not"]
  ++ ["set", "lsb", "f2s32", "f2n32", "f2s64", "f2n64", "s32f", "n32f", "s64f", "n64f", "f2ce", "cef", "sl", "co", "is"]
  ++ ["pa", "sy", "acq", "rel", "ar", "sc"] ++ ccNames ++ fccNames ++ setmFields.map (·.1) ++ prsetFields.map (·.1)

/-- Every mnemonic of Table 2.4 and Table 2.15. -/
def mnemonicNames : List String :=
  intTable.map (·.1) ++ unTable.map (·.1) ++ threeTable.map (·.1) ++ twoTable.map (·.1) ++ tokTable.map (·.1)
  ++ bareTable.map (·.1) ++ imm9Table.map (·.1) ++ imm5Table.map (·.1) ++ branchTable.map (·.1) ++ barTable.map (·.1)
  ++ ["LDH", "LDL", "LDHG", "LDLG", "MOVG", "MOVL", "PLOG", "SETM", "GETM", "PRSET", "PRGET", "MFS", "MTS", "DLY", "VPAH"]
  ++ ["CALL", "CALLR", "BRF", "BRB", "BRX", "TRAP", "BRK", "GWID", "SHFL", "RSORT", "WAIT", "BSYNC", "MWAIT", "LAUNCH"]
  ++ ["STP", "STF", "ACCZ", "ACCST", "ICMP", "ICMPI", "FCMP", "PMOV", "BRG", "RFT", "VOTE", "SHFX", "TKS", "PREF", "TCOPY"]
  ++ ["FRND", "FENCE", "CMO", "LDG", "STG", "LDS", "STS", "LDGG", "STGG", "LDF", "LDP", "ATOM", "ATOMS", "RATOM", "MMA"]
  ++ ["MMAG", "MMAS", "FCVT", "NOP", "MOV", "LI", "LIG"]

/-- A name that R53 lets a program define: no mnemonic, modifier or register name. -/
def definable (s : String) : Bool :=
  (match s.toList with | c :: r => nameStart c && r.all nameChar && s != "." | [] => false)
  && (regName s).isNone && !mnemonicNames.contains s && !modifierNames.contains s

end Sys2Proof.Machine
end

