-- ==== Sys2Proof/Machine/AsmCheck.lean ====
section
/-! DEFINITION. The issue-distance check of the assembler (R58, with the distances of Table 4.1). -/
namespace Sys2Proof.Machine

/-- One instruction of a code section as the check sees it: the class that the current `.prec` declares, whether
`.shadowok` stands before it, and the targets of a BRX's table. -/
structure CodeItem where
  pc : Nat
  i : Instr
  cls : Nat
  shadow : Bool
  targets : List Nat
  deriving DecidableEq, Repr

/-- Distance of an FP arithmetic instruction at a class (Table 4.1). -/
def fpDistance (cls : Nat) : Nat := match cls with | 1 => 4 | 2 => 6 | _ => 10

/-- Issue distance of a fixed-latency writer (Table 4.1); 1 for words in force at the next instruction, and for every
word that writes no register with fixed latency. -/
def distanceOf (cls : Nat) : Instr → Nat
  | .add .. | .sub .. | .min .. | .max .. | .and .. | .or .. | .xor .. | .andn .. | .shl .. | .shr .. | .rot .. | .absd ..
  | .sel .. | .prmb .. | .bfx .. | .bfi .. | .clz .. | .ctz .. | .popc .. | .brev .. | .not .. | .neg .. | .abs ..
  | .sex8 .. | .sex16 .. | .movg .. | .movl .. | .addi .. | .andi .. | .ori .. | .xori .. | .shli .. | .shri .. | .roti ..
  | .gaddi .. | .ldh .. | .ldl .. | .ldhg .. | .ldlg .. | .getm .. | .prget .. | .tksRd .. => 2
  | .mul _ _ _ e | .mulh _ _ _ e | .mad _ _ _ e => if e then 2 else 4
  | .muli .. => 4
  | .icmp .. | .icmpi .. | .plog .. | .vote .. | .pmovP2x .. | .pmovX2p .. | .pmovMov .. | .pmovNot .. | .pmovSet ..
  | .pmovLsb .. => 2
  | .fadd .. | .fsub .. | .fmul .. | .fma .. | .fms .. | .fnma .. | .fmin .. | .fmax .. | .fcmp .. | .frnd .. => fpDistance cls
  | .fabs .. | .fneg .. | .fmov .. | .fcpys .. => 2
  | .fcvtCls .. | .fcvtF2s32 .. | .fcvtF2n32 .. | .fcvtF2s64 .. | .fcvtF2n64 .. | .fcvtS32f .. | .fcvtN32f .. | .fcvtS64f ..
  | .fcvtN64f .. | .fcvtF2ce .. | .fcvtCef .. | .frsp .. | .fclass .. | .fexpo .. => 4
  | .gwid .. | .ballot .. => 4
  | .shfl .. | .shflImm .. | .shfx .. => 6
  | .mfs .. => 4
  | _ => 1

/-- Register units: x slots from 0, g registers from 256, predicates from 512; g0 and p0 are constants. -/
def gUnit (n : Nat) : List Nat := if n = 0 then [] else [256 + n]
def pUnit (n : Nat) : List Nat := if n = 0 then [] else [512 + n]
/-- The units an operand names, an f register at class `cls`. -/
def opdUnits (cls : Nat) : OKind → List Nat
  | .x n cnt => upFrom n cnt
  | .f n => upFrom (classSlots cls * n) (classSlots cls)
  | .fOf n c => upFrom (classSlots c * n) (classSlots c)
  | .g n => gUnit n
  | .h _ => []

/-- Predicates that the fields of a word name as written, and as read (DEDUCED, log entry 52: the guard and the side
predicate, which MODE selects at run time, are not among them). -/
def predWrites : Instr → List Nat
  | .icmp p .. | .icmpi p .. | .fcmp p .. | .plog p .. | .vote p .. => pUnit p.toNat
  | .pmovX2p _ => upFrom 513 63
  | .pmovMov d _ | .pmovNot d _ | .pmovSet d _ | .pmovLsb d _ => pUnit d.toNat
  | _ => []
def predReads : Instr → List Nat
  | .plog _ a b _ => pUnit a.toNat ++ pUnit b.toNat
  | .vote _ a _ => pUnit a.toNat
  | .ballot _ a | .pmovMov _ a | .pmovNot _ a => pUnit a.toNat
  | .pmovP2x _ => upFrom 513 63
  | .brf p .. | .brb p .. => pUnit p.toNat
  | _ => []

/-- Register units that a word reads, and that it writes. -/
def CodeItem.reads (c : CodeItem) : List Nat :=
  ((operands c.i).filter (·.reads)).flatMap (fun o => opdUnits c.cls o.kind) ++ predReads c.i
def CodeItem.writes (c : CodeItem) : List Nat :=
  ((operands c.i).filter (·.writes)).flatMap (fun o => opdUnits c.cls o.kind) ++ predWrites c.i

/-- Issue slots of a word (R102). -/
def slotsOf : Instr → Nat
  | .dly n => n.toNat + 1
  | _ => 1

/-- Where a word's path goes on by the word itself: fall-through and branches (R58). A RET, EXIT or RFT ends it; a JOINX names no
target. -/
def CodeItem.goals (c : CodeItem) : List Nat :=
  let goal := fun (o : Int) => ((c.pc : Int) + 4 * o).toNat
  match c.i with
  | .br o => [goal o.toInt]
  | .brf _ _ o | .brb _ _ o => [c.pc + 4, goal o.toInt]
  | .bre o | .lpb o => [c.pc + 4, goal o.toInt]
  | .brg _ _ o => [c.pc + 4, goal o.toInt]
  | .brx _ _ => c.targets
  | .ret | .exit | .rftAgain | .rftNext | .joinx => []
  | _ => [c.pc + 4]

/-- The addresses of a section that paths from some of them reach with no JOINX on the way; `fuel` bounds their length. -/
def reached (code : List CodeItem) : (fuel : Nat) → List Nat → List Nat
  | 0, seen => seen
  | f + 1, seen =>
    let more := (code.filter fun c => seen.contains c.pc).flatMap CodeItem.goals
    if more.all seen.contains then seen else reached code f (asSet (seen ++ more))

/-- The multiway branches whose cases reach an address with no JOINX on the way. -/
def caseOf (code : List CodeItem) (pc : Nat) : List CodeItem :=
  code.filter fun c => match c.i with
    | .brx _ _ => (reached code code.length c.targets.dropLast).contains pc
    | _ => false

/-- Where a word's path goes on (R58): a JOINX goes back to the BRX whose case it ends or to that one's join label; of nested ones
this is the outer (R87, R88; DEDUCED, log entry 52). -/
def CodeItem.next (code : List CodeItem) (c : CodeItem) : List Nat :=
  match c.i with
  | .joinx =>
    let bs := caseOf code c.pc
    (bs.filter fun b => (caseOf code b.pc).all fun x => x.pc == b.pc).flatMap fun b => b.pc :: b.targets.getLast?.toList
  | _ => c.goals

/-- Whether a result with `left` slots to go at a word may go on past it (R58): at a CALL, CALLR or RET it must be in place; at an
EXIT, at the slot after it, as the kernel of section 2.8 has it (DEDUCED, log entry 52). -/
def passesEnd (left : Nat) : Instr → Bool
  | .call .. | .callr .. | .ret => left == 0
  | .exit => decide (left ≤ 1)
  | _ => true

/-- The g register that an LDHG or LDLG passes to an LDLG directly after it (R36). -/
def chainOut : Instr → Option (BitVec 8)
  | .ldhg d _ | .ldlg d _ => some d
  | _ => none

/-- Follows the paths from a writer of `units` while its result has `left` slots to go: no word on them reads a unit,
but the LDLG that chains directly (R36) and a word marked `.shadowok`; and the result is in place where R58 asks for it. -/
def quiet (code : List CodeItem) (units : List Nat) (chain : Option (BitVec 8)) : (fuel left pc : Nat) → Bool
  | 0, _, _ => true
  | f + 1, left, pc =>
    if left = 0 then true
    else
      match code.find? fun c => c.pc == pc with
      | none => true
      | some c =>
        let chained := match c.i, chain with | .ldlg d _, some g => d == g | _, _ => false
        (c.shadow || ((chained || !c.reads.any units.contains) && passesEnd left c.i))
          && (c.next code).all fun q => quiet code units none f (left - slotsOf c.i) q

/-- The check of R58 over a code section. -/
def distanceCheck (code : List CodeItem) : Bool :=
  code.all fun c =>
    let d := distanceOf c.cls c.i
    d ≤ 1 || (c.next code).all fun q => quiet code c.writes (chainOut c.i) d (d - 1) q

end Sys2Proof.Machine
end

