-- ==== Sys2Proof/Machine/Assembler.lean ====
section
/-! DEFINITION. The Vrelpen assembler: sections, symbols and directives (R53, R56, R59, R60, Table 2.16), with the layout
record (R226), the packed array (R169, R170), the launch header (R360) and the kernel descriptor (R361). -/
namespace Sys2Proof.Machine

/-! ### What is being assembled -/

/-- A piece of a section: bytes, or one instruction. -/
inductive Piece where
  | bytes (b : List Byte)
  | word (c : CodeItem)
  deriving DecidableEq, Repr

/-- A section with its pieces, the newest first, each at its address. -/
structure Sec where
  name : String
  base : Nat
  size : Nat
  pieces : List (Nat × Piece)
  deriving DecidableEq, Repr

/-- A `.role`. -/
structure AsmRole where
  entry : Nat
  gangs : Nat
  width : Nat
  slots : Nat
  deriving DecidableEq, Repr

/-- An open `.kernel`. -/
structure Kern where
  name : String
  roles : List (Nat × AsmRole)
  team : Option Nat
  scratch : Nat
  acc : List (Nat × Nat)
  nbar : Nat
  nbb : Nat
  prec : Nat
  started : Bool
  deriving DecidableEq, Repr

/-- The assembler between two lines. -/
structure Asm where
  secs : List Sec
  cur : String
  syms : List (String × BitVec 64)
  globals : List String
  kern : Option Kern
  kerns : List String
  cls : Nat
  shadow : Bool
  launch : Option (String × Nat)
  deriving DecidableEq, Repr

/-- What a pass works with: where each section starts, the symbols, kernels and section sizes of the pass before, and
whether this is the pass that emits. The passes before it only settle sizes and symbols, and judge no value. -/
structure Pass where
  bases : List (String × Nat)
  syms : List (String × BitVec 64)
  kerns : List String
  sizes : List (String × Nat)
  final : Bool
  deriving DecidableEq, Repr

/-- The code section, and the sections that `.text`, `.data` and `.rodata` select. -/
def textName : String := ".text"
def sectionOf (secs : List Sec) (n : String) : Option Sec := secs.find? fun s => s.name == n
/-- The current section. -/
def Asm.sec (p : Pass) (a : Asm) : Sec := (sectionOf a.secs a.cur).getD ⟨a.cur, (p.bases.lookup a.cur).getD 0, 0, []⟩
/-- Address of the current line. -/
def Asm.addr (p : Pass) (a : Asm) : Nat := (a.sec p).base + (a.sec p).size
/-- Selects or creates a section. -/
def Asm.select (p : Pass) (a : Asm) (n : String) : Asm :=
  let a := { a with cur := n }
  if (sectionOf a.secs n).isSome then a else { a with secs := a.secs ++ [a.sec p] }
/-- Appends a piece of `n` bytes to the current section. -/
def Asm.emit (p : Pass) (a : Asm) (n : Nat) (x : Piece) : Asm :=
  { a with secs := a.secs.map fun s => if s.name = a.cur then
      { s with size := s.size + n, pieces := (a.addr p, x) :: s.pieces } else s }
def Asm.bytes (p : Pass) (a : Asm) (b : List Byte) : Asm := a.emit p b.length (.bytes b)
/-- Appends one instruction. -/
def Asm.word (p : Pass) (a : Asm) (i : Instr) (targets : List Nat) : Asm :=
  { a.emit p 4 (.word ⟨a.addr p, i, a.cls, a.shadow, targets⟩) with shadow := false }

/-- A symbol as seen from a line. -/
def Asm.sym (p : Pass) (a : Asm) (s : String) : Option (BitVec 64) := a.syms.lookup s <|> p.syms.lookup s
def Asm.cx (p : Pass) (a : Asm) : LineCx := ⟨a.sym p, BitVec.ofNat 64 (a.addr p)⟩

/-- Value of an argument; before the last pass an unknown one reads as 0. -/
def Asm.val (p : Pass) (a : Asm) (ts : List Tok) : Option (BitVec 64) := do
  let e ← exprOf ts
  match e.eval (a.sym p) (BitVec.ofNat 64 (a.addr p)) with
  | some v => some v
  | none => if p.final then none else some 0

/-- Value of an argument that must lie from `lo` to `hi` (R59). -/
def Asm.ranged (p : Pass) (a : Asm) (lo hi : Int) (ts : List Tok) : Option Nat := do
  let v ← a.val p ts
  if lo ≤ v.toInt ∧ v.toInt ≤ hi then some v.toNat else if p.final then none else some 0

/-- A requirement on values, which only the last pass judges. -/
def Pass.needs (p : Pass) (ok : Bool) : Option Unit := if ok || !p.final then some () else none

/-- Defines a symbol (R53): a name not defined otherwise, the same value apart (DESIGN CHOICE, log entry 53). -/
def Asm.define (a : Asm) (n : String) (v : BitVec 64) : Option Asm :=
  if !definable n then none
  else match a.syms.lookup n with
    | some w => if w = v then some a else none
    | none => some { a with syms := (n, v) :: a.syms }

/-- Pads to a boundary: zero bytes, and DLY 0 words in the code section. -/
def Asm.pad (p : Pass) (a : Asm) (n : Nat) : Option Asm :=
  let k := roundUp (a.addr p) n - a.addr p
  if a.cur ≠ textName then some (if k = 0 then a else a.bytes p (leBytes k 0))
  else if k % 4 ≠ 0 then none
  else some ((upFrom 0 (k / 4)).foldl (fun a _ => a.emit p 4 (.word ⟨a.addr p, .dly 0, a.cls, false, []⟩)) a)

/-! ### Arguments -/

/-- A name argument. -/
def nameArg : List Tok → Option String
  | [.name s] => some s
  | _ => none

/-- A key=value list (R59): each key known and given once. -/
def keyArgs (known : List String) : List (List Tok) → Option (List (String × List Tok))
  | [] => some []
  | (.name k :: .sym '=' :: v) :: r => do
    let t ← keyArgs known r
    if known.contains k && (t.lookup k).isNone then some ((k, v) :: t) else none
  | _ => none

/-- A tuple in parentheses. -/
def tupleArg (ts : List Tok) : Option (List (List Tok)) :=
  match ts with
  | .sym '(' :: r => match r.reverse with | .sym ')' :: q => some (argsOf q.reverse) | _ => none
  | _ => none

/-- A value chosen by its name. -/
def choice (names : List String) (ts : List Tok) : Option Nat := (nameArg ts).bind (nameNo names)

/-! ### Layout records (R226, Table 9.5) -/

/-- FMT by name (Table 9.6). -/
def fmtCode (n : String) : Option Nat :=
  (["", "bf16", "fp16", "fp32", "int8", "int4"].idxOf? n).filter (· != 0) <|>
    match n.toList with
    | ['b', '8', 'p', d, u, f] => do
      let p ← digitIn 8 d
      let hi ← [('s', 'e', 0x10), ('s', 'f', 0x30), ('n', 'e', 0x50), ('n', 'f', 0x70)].findSome? fun e =>
        if e.1 = u ∧ e.2.1 = f then some e.2.2 else none
      if 1 ≤ p then some (hi + p) else none
    | _ => none

/-- The 128 bytes of a record. -/
def recordBytes (r : LRec) : List Byte :=
  leBytes 1 r.fmt ++ leBytes 1 r.sfmt ++ leBytes 1 r.blk ++ leBytes 1 r.rank ++ leBytes 1 r.oob ++ leBytes 1 r.sat
    ++ leBytes 1 r.rnd ++ leBytes 1 r.tgt ++ leBytes 8 r.base ++ leBytes 8 r.sbase
    ++ (r.sizes.zip (r.strides.zip r.boxes)).flatMap (fun d => leBytes 4 d.1 ++ leBytes 6 d.2.1 ++ leBytes 2 d.2.2)
    ++ leBytes 20 0

def recordKeys : List String :=
  ["fmt", "scale", "block", "rank", "base", "size", "stride", "box", "oob", "sat", "round", "target"]

/-- The record that `.record` names, with its static checks (Table 9.9). -/
def Asm.record (p : Pass) (a : Asm) (args : List (List Tok)) : Option (List Byte) := do
  let kv ← keyArgs recordKeys args
  let fmt ← (kv.lookup "fmt").bind nameArg |>.bind fmtCode
  let scale : Option Nat ← match kv.lookup "scale" with
    | none => some none
    | some [.name "none"] => some none
    | some ts => match tupleArg ts with
      | some [[.name "sx8"], e] => (a.ranged p 0 (2 ^ 48 - 1) e).map some
      | _ => none
  let blk ← match kv.lookup "block" with
    | none => some 0
    | some ts => (a.ranged p 0 32 ts).bind fun v =>
        if v = 16 then some 1 else if v = 32 then some 2 else if p.final then none else some 1
  let rank ← (kv.lookup "rank").bind (a.ranged p 1 7)
  let base ← (kv.lookup "base").bind (a.ranged p 0 (2 ^ 48 - 1))
  let dims := fun (k : String) (lo hi : Int) => do
    let t ← (kv.lookup k).bind tupleArg
    let vs ← t.mapM (a.ranged p lo hi)
    if vs.length ≤ 7 ∧ (vs.length = rank ∨ !p.final) then some (vs ++ List.replicate (7 - vs.length) 0) else none
  let sizes ← dims "size" 1 (2 ^ 32 - 1)
  let strides ← dims "stride" 0 (2 ^ 48 - 1)
  let boxes ← dims "box" 1 65535
  let oob ← match kv.lookup "oob" with | none => some 0 | some t => choice ["zero", "nan"] t
  let sat ← match kv.lookup "sat" with | none => some 1 | some t => a.ranged p 0 1 t
  let rnd ← match kv.lookup "round" with | none => some 0 | some t => choice ["rne", "rtz", "up", "dn"] t
  let tgt ← match kv.lookup "target" with | none => some 2 | some t => choice ["a", "b", "dense"] t
  let r : LRec := ⟨fmt, if scale.isSome then 1 else 0, blk, rank, oob, sat, rnd, tgt, base, scale.getD 0, sizes, strides, boxes⟩
  p.needs (recFault r 0 false 0 0).isNone
  return recordBytes r

/-! ### Packed arrays (R59, R169, R170) -/

/-- A decimal value (log entry 53, DESIGN CHOICE): its sign and the fraction that it is. -/
def decimalOf : List Tok → Option (Bool × Nat × Nat)
  | .sym '-' :: r => (match r with | [.num n] => some (n, 1) | [.dec m k] => some (m, 10 ^ k) | _ => none).map (true, ·)
  | [.num n] => some (false, n, 1)
  | [.dec m k] => some (false, m, 10 ^ k)
  | _ => none

/-- A packed array: the header of Table 6.7 and the elements, rounded RNE to the array's format. -/
def Asm.vpa (p : Pass) (a : Asm) (args : List (List Tok)) : Option (List Byte) := do
  let kv ← keyArgs ["p", "e", "values"] args
  let pr ← (kv.lookup "p").bind (a.ranged p 2 113)
  let e ← (kv.lookup "e").bind (a.ranged p 0 15)
  p.needs ([8, 11, 15].contains e)
  let vs ← ((← (kv.lookup "values").bind tupleArg).mapM decimalOf)
  let b := (e + pr + 7) / 8
  let elems := vs.flatMap fun v =>
    leBytes b ((roundX ⟨pr, e, pr - 1, 0, true⟩ (.num v.1 v.2.1 v.2.2 0)).v * 2 ^ (8 * b - e - pr))
  return leBytes 2 0x5056 ++ leBytes 1 1 ++ leBytes 1 pr ++ leBytes 1 e ++ leBytes 1 b ++ leBytes 2 0
    ++ leBytes 4 vs.length ++ leBytes 4 0 ++ elems

/-! ### Launch headers (R360) -/

/-- The 128 bytes of a launch header: AFF = 0, ARGs and NDES zero. -/
def Asm.launchBytes (p : Pass) (a : Asm) (args : List (List Tok)) : Option (List Byte) := do
  let kv ← keyArgs ["kernel", "grid", "prologue"] args
  let k ← (kv.lookup "kernel").bind nameArg
  p.needs (p.kerns.contains k)
  let kd ← a.val p [.name k]
  let g ← (← (kv.lookup "grid").bind tupleArg).mapM (a.ranged p 1 (2 ^ 32))
  let pro ← match kv.lookup "prologue" with
    | some [.name "none"] => some 0
    | some ts => (a.val p ts).map (·.toNat)
    | none => none
  p.needs (pro % 4 == 0)
  match g with
  | [x, y, z] =>
    p.needs (decide (y ≤ 2 ^ 16) && decide (z ≤ 2 ^ 16) && decide (x * y * z ≤ 2 ^ 32))
    return leBytes 8 kd.toNat ++ leBytes 8 pro ++ leBytes 4 (x - 1) ++ leBytes 2 (y - 1) ++ leBytes 2 (z - 1) ++ leBytes 104 0
  | _ => none

/-- `.affinity`: the header with ABASE, ASX, ASY and ASZ filled and AFF = 1. -/
def affine (vs : List (BitVec 64)) (b : List Byte) : List Byte :=
  b.take 24 ++ vs.flatMap (fun v => leBytes 8 v.toNat) ++ leBytes 1 1 ++ b.drop 57

/-! ### Kernels (R361) -/

/-- Whether no tile stands in two masks. -/
def masksApart : List Nat → Bool
  | [] => true
  | m :: r => r.all (fun q => decide (m &&& q = 0)) && masksApart r

/-- The kernel descriptor (Table 16.6), with the checks of R59. -/
def Kern.descriptor (p : Pass) (k : Kern) : Option (List Byte) := do
  let n := k.roles.length
  let lanes := k.roles.foldl (fun t r => t + r.2.gangs * r.2.width) 0
  p.needs (decide (1 ≤ n) && k.roles.all (fun r => decide (r.1 < n)) && k.acc.all (fun e => decide (e.1 < n)))
  p.needs (decide (k.roles.foldl (fun t r => t + r.2.gangs) 0 ≤ 16) && decide (lanes ≤ 1024)
    && (k.team.isNone || k.team == some lanes) && masksApart (k.acc.map (·.2)))
  let accs := (upFrom 0 4).flatMap fun r => leBytes 1 ((find r k.acc).getD 0)
  let roles := (upFrom 0 4).flatMap fun r => match find r k.roles with
    | some o => leBytes 8 o.entry ++ leBytes 1 o.gangs ++ leBytes 1 o.width ++ leBytes 2 o.slots ++ leBytes 4 0
    | none => leBytes 16 0
  return leBytes 4 1 ++ leBytes 1 n ++ leBytes 3 0 ++ leBytes 4 k.scratch ++ accs ++ leBytes 1 k.nbar ++ leBytes 1 k.nbb
    ++ leBytes 2 lanes ++ leBytes 4 0 ++ leBytes 4 k.prec ++ leBytes 4 0 ++ roles ++ leBytes 32 0

/-- `.role`. -/
def Asm.role (p : Pass) (a : Asm) (k : Kern) (args : List (List Tok)) : Option Kern :=
  match args with
  | r :: kvs => do
    let n ← a.ranged p 0 3 r
    let kv ← keyArgs ["gangs", "width", "slots", "entry"] kvs
    let g ← (kv.lookup "gangs").bind (a.ranged p 1 16)
    let w ← (kv.lookup "width").bind (a.ranged p 8 64)
    let s ← (kv.lookup "slots").bind (a.ranged p 32 256)
    let e ← (kv.lookup "entry").bind (a.val p)
    p.needs ((find n k.roles).isNone && [8, 16, 32, 64].contains w && s % 32 == 0 && e.toNat % 4 == 0)
    return { k with roles := put n ⟨e.toNat, g, w, s⟩ k.roles }
  | [] => none

/-! ### Directives (Table 2.16) -/

/-- A directive that stands only inside a kernel. -/
def Asm.inKernel (a : Asm) (f : Kern → Option Kern) : Option Asm := do
  return { a with kern := some (← f (← a.kern)) }

/-- `.byte`, `.half`, `.word` and `.dword`. -/
def Asm.data (p : Pass) (a : Asm) (n : Nat) (args : List (List Tok)) : Option Asm := do
  let hi : Int := if n = 8 then 2 ^ 63 - 1 else 2 ^ (8 * n) - 1
  let vs ← args.mapM (a.ranged p (-(2 ^ (8 * n - 1))) hi)
  if vs.isEmpty then none else return a.bytes p (vs.flatMap (leBytes n))

/-- `.prec` (R59, R156, R157). -/
def Asm.precLine (p : Pass) (a : Asm) (args : List (List Tok)) : Option Asm := do
  let (pr, cls, rm) ← match args with
    | [x] => some (x, 0, 0)
    | [x, c] => (choice ["fit", "w1", "w2", "w4"] c).map fun c => (x, c, 0)
    | [x, c, r] => (choice ["fit", "w1", "w2", "w4"] c).bind fun c =>
        (choice ["rne", "rtz", "up", "dn"] r).map fun r => (x, c, r)
    | _ => none
  let v := (← a.ranged p 2 113 pr) + 2 ^ 7 * cls + 2 ^ 9 * rm + 2 ^ 12
  p.needs (precValid (w32 v))
  let a := { a with cls := effClass (w32 v) }
  return { a with kern := a.kern.map fun k => if k.started then k else { k with prec := v } }

/-- `.endkernel`: the descriptor at the next 128-byte boundary of `.rodata`, and the kernel's name as its address. -/
def Asm.endKernel (p : Pass) (a : Asm) : Option Asm := do
  let k ← a.kern
  let d ← k.descriptor p
  let b ← (a.select p ".rodata").pad p 128
  let c ← b.define k.name (BitVec.ofNat 64 (b.addr p))
  return { c.bytes p d with cur := a.cur, kern := none, kerns := k.name :: c.kerns }

/-- Emits a named object (`.record`, `.vpa`, `.launch`) at the current address, which is aligned. -/
def Asm.object (p : Pass) (a : Asm) (args : List (List Tok)) (f : List (List Tok) → Option (List Byte)) : Option Asm :=
  match args with
  | n :: r => do
    let b ← f r
    let a ← a.define (← nameArg n) (BitVec.ofNat 64 (a.addr p))
    return a.bytes p b
  | [] => none

/-- A directive other than `.table`. -/
def Asm.directive (p : Pass) (a : Asm) (d : String) (args : List (List Tok)) : Option Asm :=
  let plain := fun (b : Asm) => if args.isEmpty then some b else none
  match d with
  | ".text" | ".data" | ".rodata" => plain (a.select p d)
  | ".section" => match args with
    | [[.name n]] => if n = textName then none else some (a.select p n)
    | _ => none
  | ".align" => match args with
    | [x] => do
      let n ← a.ranged p 1 4096 x
      p.needs ((upFrom 0 13).any (fun k => decide (n = 2 ^ k)) && (a.cur != textName || decide (4 ≤ n)))
      if n = 0 then some a else a.pad p n
    | _ => none
  | ".byte" => a.data p 1 args
  | ".half" => a.data p 2 args
  | ".word" => a.data p 4 args
  | ".dword" => a.data p 8 args
  | ".space" => do
    let (x, f) ← match args with
      | [x] => some (x, 0)
      | [x, f] => (a.ranged p 0 255 f).map fun f => (x, f)
      | _ => none
    let n ← a.ranged p 0 (2 ^ 48) x
    return if n = 0 then a else a.bytes p (List.replicate n (BitVec.ofNat 8 f))
  | ".equ" => match args with
    | [n, x] => do a.define (← nameArg n) (← a.val p x)
    | _ => none
  | ".global" => match args with
    | [[.name n]] => do p.needs (a.sym p n).isSome; return { a with globals := a.globals ++ [n] }
    | _ => none
  | ".kernel" => match args, a.kern with
    | [[.name n]], none => some { a with kern := some ⟨n, [], none, 0, [], 0, 0, 0x1018, false⟩ }
    | _, _ => none
  | ".endkernel" => if args.isEmpty then a.endKernel p else none
  | ".role" => a.inKernel fun k => a.role p k args
  | ".team" => a.inKernel fun k => match args with
    | [x] => (a.ranged p 0 1024 x).map fun n => { k with team := some n }
    | _ => none
  | ".scratch" => a.inKernel fun k => match args with
    | [x] => (a.ranged p 0 262144 x).map fun n => { k with scratch := roundUp n 1024 }
    | _ => none
  | ".acc" => a.inKernel fun k => match args with
    | [r, m] => do
      let n ← a.ranged p 0 3 r
      p.needs (find n k.acc).isNone
      return { k with acc := put n (← a.ranged p 0 0xFF m) k.acc }
    | _ => none
  | ".barriers" => a.inKernel fun k => match args with
    | [x] => (a.ranged p 0 64 x).map fun n => { k with nbar := n, nbb := 0 }
    | [x, y] => do return { k with nbar := ← a.ranged p 0 64 x, nbb := ← a.ranged p 0 32 y }
    | _ => none
  | ".prec" => a.precLine p args
  | ".record" => a.object p args (a.record p)
  | ".vpa" => a.object p args (a.vpa p)
  | ".launch" => (a.object p args (a.launchBytes p)).map fun b => { b with launch := some (a.cur, a.addr p) }
  | ".affinity" => do
    let (s, at_) ← a.launch
    let vs ← args.mapM (a.val p)
    if vs.length ≠ 4 then none
    else return { a with secs := a.secs.map fun c => if c.name ≠ s then c else
      { c with pieces := c.pieces.map fun e => match e with
        | (q, .bytes b) => (q, .bytes (if q = at_ && b.length == 128 then affine vs b else b))
        | e => e } }
  | ".shadowok" => if a.cur = textName then plain { a with shadow := true } else none
  | _ => none

/-- Boundary at which a directive emits, before a label on its line binds (DESIGN CHOICE, log entry 53). -/
def objectAlign (d : String) : Nat :=
  if d = ".record" ∨ d = ".launch" then 128 else if d = ".vpa" then 16 else 1

/-! ### Lines -/

/-- A label, bound to the address of what its line emits. -/
def Asm.label (p : Pass) (a : Asm) (l : Option String) : Option Asm :=
  match l with | some n => a.define n (BitVec.ofNat 64 (a.addr p)) | none => some a

/-- Whether an address lies in a section, its end included. -/
def Pass.within (p : Pass) (n : String) (q : Nat) : Bool :=
  let b := (p.bases.lookup n).getD 0
  decide (b ≤ q) && decide (q ≤ b + (p.sizes.lookup n).getD 0)

/-- A branch target is not in another section (R56; log entry 53, DESIGN CHOICE: it may be in none). -/
def Asm.inside (p : Pass) (a : Asm) (q : Nat) : Bool :=
  p.within a.cur q || !p.sizes.any fun e => e.1 != a.cur && p.within e.1 q

/-- Targets that the word of an instruction names in its section; none for an indirect one. -/
def wordTargets (pc : Nat) (i : Instr) : List Nat :=
  let goal := fun (o : Int) => ((pc : Int) + 4 * o).toNat
  match i with
  | .br o | .bre o | .lpb o => [goal o.toInt]
  | .call _ o => [goal o.toInt]
  | .brf _ _ o | .brb _ _ o => [goal o.toInt]
  | .brg _ _ o => [goal o.toInt]
  | _ => []

/-- A line with a mnemonic; `targets` are those of a BRX's table. -/
def Asm.instr (p : Pass) (a : Asm) (targets : List Nat) (mn : String) (args : List (List Tok)) : Option Asm := do
  if a.cur ≠ textName || a.addr p % 4 != 0 then none
  let ops ← args.mapM opndOf
  let a := { a with kern := a.kern.map fun k => { k with started := true } }
  match modsOf mn with
  | m :: ms =>
    if !p.final then return (upFrom 0 (wordCount (a.cx p) m ops)).foldl (fun a _ => a.word p (.dly 0) []) a
    let is ← asmWords (a.cx p) (targets.length - 1) m ms ops
    if is.all fun i => (wordTargets (a.addr p) i).all (a.inside p)
      then return is.foldl (fun a i => a.word p i targets) a else none
  | [] => none

/-- The table words of a BRX at `pc` (R47): word offsets relative to the BRX. -/
def Asm.table (p : Pass) (a : Asm) (pc : Nat) (targets : List Nat) : Option Asm := do
  let ws ← targets.mapM fun (q : Nat) =>
    let o : Int := ((q : Int) - pc) / 4
    if !p.final || (decide (((q : Int) - pc) % 4 = 0) && decide (-(2 ^ 24) ≤ o) && decide (o < 2 ^ 24) && a.inside p q)
      then some (wrap 25 o) else none
  return a.bytes p (ws.flatMap (leBytes 4))

/-- Assembles the lines of a pass; a BRX goes with the `.table` that must follow it directly (R60). -/
def Asm.lines (p : Pass) : List Line → Asm → Option Asm
  | [], a => if a.kern.isNone then some a else none
  | l :: rest, a =>
    match l.op with
    | none => (a.label p l.label).bind (Asm.lines p rest)
    | some (op, args) =>
      if op = "BRX" then
        match rest with
        | ⟨tl, some (".table", ts)⟩ :: rest => do
          if ts.length < 2 then none
          let a ← a.label p l.label
          let pc := a.addr p
          -- `.` in the table's arguments is the address of its own line
          let b ← (a.emit p 4 (.bytes [])).label p tl
          let targets ← ts.mapM fun t => (b.val p t).map (·.toNat)
          let a := { a with syms := b.syms }
          let a ← a.instr p targets op args
          Asm.lines p rest (← a.table p pc targets)
        | _ => none
      else do
        let a ← if objectAlign op = 1 then some a else a.pad p (objectAlign op)
        let a ← a.label p l.label
        Asm.lines p rest (← if op.toList.head? = some '.' then a.directive p op args else a.instr p [] op args)

/-! ### Passes and the object -/

/-- The assembler before the first line. -/
def asmStart (p : Pass) : Asm :=
  ({ secs := [], cur := textName, syms := [], globals := [], kern := none, kerns := [], cls := 1, shadow := false,
     launch := none } : Asm).select p textName

/-- What the next pass works with. -/
def Asm.asPass (p : Pass) (a : Asm) : Pass := { p with syms := a.syms, kerns := a.kerns, sizes := a.secs.map fun s => (s.name, s.size) }

/-- Repeats the sizing pass until symbols and sizes settle. -/
def settle (ls : List Line) : Nat → Pass → Option Pass
  | 0, _ => none
  | f + 1, p => (Asm.lines p ls (asmStart p)).bind fun a => if a.asPass p = p then some p else settle ls f (a.asPass p)

/-- The object: sections with their addresses and bytes, symbols, exported names and kernels. -/
structure Obj where
  sections : List (String × Nat × List Byte)
  syms : List (String × BitVec 64)
  globals : List String
  kernels : List String
  deriving DecidableEq, Repr

/-- Bytes of a piece. -/
def Piece.out : Piece → List Byte
  | .bytes b => b
  | .word c => leBytes 4 ((encode c.i).getD 0).toNat

/-- The instructions of a section, in order. -/
def Sec.code (s : Sec) : List CodeItem := s.pieces.reverse.filterMap fun e => match e.2 with | .word c => some c | .bytes _ => none

/-- Lines of a source text, with those that hold nothing left out; none where a line is no line of R53. -/
def asmLines (src : String) : Option (List Line) := do
  let ls ← (src.toList.splitOn '\n').mapM fun cs => (lex (cs.length + 1) cs).bind asmLine
  return ls.filter fun l => l.label.isSome || l.op.isSome

/-- The Vrelpen assembler: the object, or none where the source is in error. `bases` says where each section is placed
(DESIGN CHOICE, log entry 53). -/
def assemble (bases : List (String × Nat)) (src : String) : Option Obj := do
  let ls ← asmLines src
  let p ← settle ls (ls.length + 2) ⟨bases, [], [], [], false⟩
  let a ← Asm.lines { p with final := true } ls (asmStart p)
  if (a.secs.all fun s => s.name != textName || distanceCheck s.code) then
    return ⟨a.secs.map fun s => (s.name, s.base, s.pieces.reverse.flatMap fun e => e.2.out), a.syms, a.globals, a.kerns⟩
  else none

end Sys2Proof.Machine
end

