-- ==== Sys2Proof/Laws/Asm.lean ====
section
/-! SUPPORT. What a line of the assembler can come to: never an encoding that R46 calls illegal (R56). -/
namespace Sys2Proof.Machine

theorem asmWord_wf {cx : LineCx} {n : Nat} {mn : String} {ms : List String} {ops : List Opnd} {i : Instr}
    (h : asmWord cx n mn ms ops = some i) : i.wf = true := by
  unfold asmWord at h
  exact (Option.filter_eq_some_iff.mp h).2

/-- The words of LIG pass R46 whatever the value, for a g register. -/
theorem ligWords_wf {d : BitVec 8} (h : isG d = true) (v : BitVec 64) : ∀ i ∈ ligWords d v, i.wf = true := by
  intro i hi
  unfold ligWords at hi
  split at hi
  · obtain rfl := List.mem_singleton.mp hi
    simp [Instr.wf, Instr.illegal, needG, firstBad, h]
  · simp only [List.mem_cons, List.not_mem_nil, or_false] at hi
    rcases hi with rfl | rfl | rfl | rfl <;> simp [Instr.wf, Instr.illegal, needG, firstBad, h]

end Sys2Proof.Machine
end

