-- ==== Sys2Proof/Laws/Map.lean ====
section
/-! SUPPORT. Laws of the sparse tables: a read after a write, and the canonical form under every table operation. -/
namespace Sys2Proof.Machine
variable {β : Type}

@[simp] theorem find_nil (k : Nat) : find k ([] : SMap β) = none := rfl

theorem find_put (k j : Nat) (v : β) (m : SMap β) : find k (put j v m) = if j = k then some v else find k m := by
  induction m with
  | nil => simp [put, find]
  | cons e t ih =>
    obtain ⟨i, w⟩ := e
    simp only [put]
    split
    · simp [find]
    · split
      · rename_i h; subst h; simp only [find]; split <;> simp_all
      · simp only [find, ih]; split <;> simp_all

@[simp] theorem find_put_self (k : Nat) (v : β) (m : SMap β) : find k (put k v m) = some v := by simp [find_put]

@[simp] theorem find_put_ne {k j : Nat} (v : β) (m : SMap β) (h : j ≠ k) : find k (put j v m) = find k m := by
  simp [find_put, h]

theorem find_filter (p : Nat → Bool) (k : Nat) (m : SMap β) :
    find k (m.filter fun e => p e.1) = if p k then find k m else none := by
  induction m with
  | nil => simp
  | cons e t ih =>
    obtain ⟨i, w⟩ := e
    rw [List.filter_cons]
    dsimp only
    by_cases hk : i = k
    · subst hk
      by_cases hp : p i
      · rw [if_pos hp]; simp [find, hp]
      · rw [if_neg hp, ih, if_neg hp, if_neg hp]
    · by_cases hp : p i
      · rw [if_pos hp]; simp only [find, hk, if_false]; exact ih
      · rw [if_neg hp]; simp only [find, hk, if_false]; exact ih

theorem find_del (k j : Nat) (m : SMap β) : find k (del j m) = if j = k then none else find k m := by
  have h := find_filter (fun i => decide (i ≠ j)) k m
  simp only [del]
  rw [h]
  by_cases e : j = k
  · subst e; simp
  · have : k ≠ j := fun x => e x.symm
    simp [e, this]

theorem find_upd (k j : Nat) (f : β → β) (m : SMap β) :
    find k (upd j f m) = if j = k then (find k m).map f else find k m := by
  unfold upd
  by_cases e : j = k
  · subst e; split <;> simp_all
  · split <;> simp [e]

@[simp] theorem getD_put_self (d : β) (k : Nat) (v : β) (m : SMap β) : getD d k (put k v m) = v := by simp [getD]

theorem getD_put (d : β) (k j : Nat) (v : β) (m : SMap β) :
    getD d k (put j v m) = if j = k then v else getD d k m := by
  simp only [getD, find_put]; split <;> simp

/-- A read after a write gives the value written, and a write leaves every other key alone. -/
theorem getD_setD [DecidableEq β] (d : β) (k j : Nat) (v : β) (m : SMap β) :
    getD d k (setD d j v m) = if j = k then v else getD d k m := by
  unfold setD
  split
  · simp only [getD, find_del]; split <;> simp_all
  · exact getD_put d k j v m

/-- Every listed key is above `k`. -/
def above (k : Nat) (m : SMap β) : Prop := ∀ e ∈ m, k < e.1

theorem rising_cons (k : Nat) (v : β) (m : SMap β) : rising ((k, v) :: m) = true ↔ above k m ∧ rising m = true := by
  induction m generalizing k v with
  | nil => simp [rising, above]
  | cons e t ih =>
    obtain ⟨i, w⟩ := e
    simp only [rising, Bool.and_eq_true, decide_eq_true_eq, ih i w]
    constructor
    · rintro ⟨h, ha, hr⟩
      refine ⟨?_, ha, hr⟩
      intro e he
      rcases List.mem_cons.1 he with rfl | he
      · exact h
      · exact Nat.lt_trans h (ha e he)
    · rintro ⟨ha, hb, hr⟩
      exact ⟨ha (i, w) (List.mem_cons.2 (.inl rfl)), hb, hr⟩

theorem mem_put {k : Nat} {v : β} {m : SMap β} {e : Nat × β} (h : e ∈ put k v m) : e = (k, v) ∨ e ∈ m := by
  induction m with
  | nil => simpa [put] using h
  | cons x t ih =>
    obtain ⟨i, w⟩ := x
    simp only [put] at h
    split at h
    · simpa using h
    · split at h
      · rcases List.mem_cons.1 h with h | h
        · exact .inl h
        · exact .inr (List.mem_cons.2 (.inr h))
      · rcases List.mem_cons.1 h with h | h
        · exact .inr (List.mem_cons.2 (.inl h))
        · rcases ih h with h | h
          · exact .inl h
          · exact .inr (List.mem_cons.2 (.inr h))

theorem rising_put (k : Nat) (v : β) (m : SMap β) (h : rising m = true) : rising (put k v m) = true := by
  induction m with
  | nil => rfl
  | cons e t ih =>
    obtain ⟨i, w⟩ := e
    have ht := (rising_cons i w t).1 h
    simp only [put]
    split
    · rename_i hk
      refine (rising_cons _ _ _).2 ⟨?_, h⟩
      intro e he
      rcases List.mem_cons.1 he with rfl | he
      · exact hk
      · exact Nat.lt_trans hk (ht.1 e he)
    · split
      · rename_i hk; subst hk; exact (rising_cons _ _ _).2 ht
      · refine (rising_cons _ _ _).2 ⟨?_, ih ht.2⟩
        intro e he
        rcases mem_put he with rfl | he
        · show i < k; omega
        · exact ht.1 e he

theorem rising_filter (p : Nat × β → Bool) (m : SMap β) (h : rising m = true) : rising (m.filter p) = true := by
  induction m with
  | nil => rfl
  | cons e t ih =>
    obtain ⟨i, w⟩ := e
    have ht := (rising_cons i w t).1 h
    simp only [List.filter_cons]
    split
    · exact (rising_cons _ _ _).2 ⟨fun e he => ht.1 e (List.mem_filter.1 he).1, ih ht.2⟩
    · exact ih ht.2

theorem rising_del (k : Nat) (m : SMap β) (h : rising m = true) : rising (del k m) = true := rising_filter _ m h

theorem canonical_filter [DecidableEq β] (d : β) (p : Nat × β → Bool) (m : SMap β) (h : canonical d m = true) :
    canonical d (m.filter p) = true := by
  simp only [canonical, Bool.and_eq_true, List.all_eq_true] at h ⊢
  exact ⟨rising_filter p m h.1, fun e he => h.2 e (List.mem_filter.1 he).1⟩

/-- A write keeps the canonical form. -/
theorem canonical_setD [DecidableEq β] (d : β) (k : Nat) (v : β) (m : SMap β) (h : canonical d m = true) :
    canonical d (setD d k v m) = true := by
  unfold setD
  split
  · exact canonical_filter d _ m h
  · rename_i hv
    simp only [canonical, Bool.and_eq_true, List.all_eq_true] at h ⊢
    refine ⟨rising_put k v m h.1, fun e he => ?_⟩
    rcases mem_put he with rfl | he
    · simpa using hv
    · exact h.2 e he

theorem find_above_none {k j : Nat} {m : SMap β} (h : above j m) (hk : k ≤ j) : find k m = none := by
  induction m with
  | nil => rfl
  | cons e t ih =>
    have h1 := h e (List.mem_cons.2 (.inl rfl))
    have : e.1 ≠ k := by omega
    obtain ⟨i, w⟩ := e
    simp only [find]
    rw [if_neg this]
    exact ih fun e he => h e (List.mem_cons.2 (.inr he))

theorem mem_of_find {k : Nat} {v : β} {m : SMap β} (h : find k m = some v) : (k, v) ∈ m := by
  induction m with
  | nil => simp at h
  | cons e t ih =>
    obtain ⟨i, w⟩ := e
    simp only [find] at h
    split at h
    · rename_i hk; subst hk; injection h with h; subst h; exact List.mem_cons.2 (.inl rfl)
    · exact List.mem_cons.2 (.inr (ih h))

/-- Two canonical tables that read alike at every key are equal. -/
theorem canonical_ext [DecidableEq β] (d : β) (m n : SMap β) (hm : canonical d m = true) (hn : canonical d n = true)
    (h : ∀ k, getD d k m = getD d k n) : m = n := by
  have tail : ∀ {k : Nat} {v : β} {t : SMap β}, canonical d ((k, v) :: t) = true →
      above k t ∧ canonical d t = true ∧ v ≠ d := by
    intro k v t hc
    simp only [canonical, Bool.and_eq_true, List.all_cons, decide_eq_true_eq, rising_cons] at hc ⊢
    exact ⟨hc.1.1, ⟨hc.1.2, hc.2.2⟩, hc.2.1⟩
  have low : ∀ {k j : Nat} {t : SMap β}, above j t → k ≤ j → getD d k t = d := by
    intro k j t ha hk
    simp [getD, find_above_none ha hk]
  have here : ∀ {k : Nat} {v : β} {t : SMap β}, getD d k ((k, v) :: t) = v := by
    intro k v t; simp [getD, find]
  have there : ∀ {k j : Nat} {v : β} {t : SMap β}, j ≠ k → getD d k ((j, v) :: t) = getD d k t := by
    intro k j v t e; simp [getD, find, e]
  induction m generalizing n with
  | nil =>
    cases n with
    | nil => rfl
    | cons e t =>
      obtain ⟨k, v⟩ := e
      have hh := h k
      rw [here] at hh
      exact absurd hh.symm (tail hn).2.2
  | cons e t ih =>
    obtain ⟨k, v⟩ := e
    obtain ⟨ha, hc, hv⟩ := tail hm
    cases n with
    | nil =>
      have hh := h k
      rw [here] at hh
      exact absurd hh hv
    | cons e' t' =>
      obtain ⟨k', v'⟩ := e'
      obtain ⟨ha', hc', hv'⟩ := tail hn
      have hk : k = k' := by
        rcases Nat.lt_trichotomy k k' with hl | he | hl
        · have hh := h k
          rw [here, there (Nat.ne_of_gt hl), low ha' (Nat.le_of_lt hl)] at hh
          exact absurd hh hv
        · exact he
        · have hh := h k'
          rw [here, there (Nat.ne_of_gt hl), low ha (Nat.le_of_lt hl)] at hh
          exact absurd hh.symm hv'
      subst hk
      have hvv : v = v' := by
        have hh := h k
        rw [here, here] at hh
        exact hh
      subst hvv
      rw [ih t' hc hc' fun j => ?_]
      by_cases e : k = j
      · subst e; rw [low ha (Nat.le_refl _), low ha' (Nat.le_refl _)]
      · have hh := h j
        rw [there e, there e] at hh
        exact hh

end Sys2Proof.Machine
end

