-- ==== Sys2Proof/Laws/State.lean ====
section
/-! SUPPORT. What each field of the state is after each of the named updates of one table: the table itself changes, every
other field stays. -/
namespace Sys2Proof.Machine

section setIsland
variable (s : State) (k : Nat) (v : Island)

@[simp] theorem State.setIsland_tick : (s.setIsland k v).tick = s.tick := rfl
@[simp] theorem State.setIsland_cur : (s.setIsland k v).cur = s.cur := rfl
@[simp] theorem State.setIsland_turn : (s.setIsland k v).turn = s.turn := rfl
@[simp] theorem State.setIsland_inputs : (s.setIsland k v).inputs = s.inputs := rfl
@[simp] theorem State.setIsland_pres : (s.setIsland k v).pres = s.pres := rfl
@[simp] theorem State.setIsland_islands : (s.setIsland k v).islands = put k v s.islands := rfl
@[simp] theorem State.setIsland_cores : (s.setIsland k v).cores = s.cores := rfl
@[simp] theorem State.setIsland_teams : (s.setIsland k v).teams = s.teams := rfl
@[simp] theorem State.setIsland_slices : (s.setIsland k v).slices = s.slices := rfl
@[simp] theorem State.setIsland_splits : (s.setIsland k v).splits = s.splits := rfl
@[simp] theorem State.setIsland_ctxs : (s.setIsland k v).ctxs = s.ctxs := rfl
@[simp] theorem State.setIsland_ops : (s.setIsland k v).ops = s.ops := rfl
@[simp] theorem State.setIsland_nextTeam : (s.setIsland k v).nextTeam = s.nextTeam := rfl
@[simp] theorem State.setIsland_nextSplit : (s.setIsland k v).nextSplit = s.nextSplit := rfl
@[simp] theorem State.setIsland_nextOp : (s.setIsland k v).nextOp = s.nextOp := rfl
@[simp] theorem State.setIsland_mem : (s.setIsland k v).mem = s.mem := rfl
@[simp] theorem State.setIsland_stale : (s.setIsland k v).stale = s.stale := rfl
@[simp] theorem State.setIsland_poison : (s.setIsland k v).poison = s.poison := rfl
@[simp] theorem State.setIsland_l2 : (s.setIsland k v).l2 = s.l2 := rfl
@[simp] theorem State.setIsland_l2use : (s.setIsland k v).l2use = s.l2use := rfl
@[simp] theorem State.setIsland_ctrs : (s.setIsland k v).ctrs = s.ctrs := rfl
@[simp] theorem State.setIsland_links : (s.setIsland k v).links = s.links := rfl
@[simp] theorem State.setIsland_pkts : (s.setIsland k v).pkts = s.pkts := rfl
@[simp] theorem State.setIsland_nextPkt : (s.setIsland k v).nextPkt = s.nextPkt := rfl
@[simp] theorem State.setIsland_puts : (s.setIsland k v).puts = s.puts := rfl
@[simp] theorem State.setIsland_extOut : (s.setIsland k v).extOut = s.extOut := rfl
@[simp] theorem State.setIsland_rdmaOut : (s.setIsland k v).rdmaOut = s.rdmaOut := rfl
@[simp] theorem State.setIsland_fe : (s.setIsland k v).fe = s.fe := rfl

end setIsland

section setCore
variable (s : State) (k : Nat) (v : Core)

@[simp] theorem State.setCore_tick : (s.setCore k v).tick = s.tick := rfl
@[simp] theorem State.setCore_cur : (s.setCore k v).cur = s.cur := rfl
@[simp] theorem State.setCore_turn : (s.setCore k v).turn = s.turn := rfl
@[simp] theorem State.setCore_inputs : (s.setCore k v).inputs = s.inputs := rfl
@[simp] theorem State.setCore_pres : (s.setCore k v).pres = s.pres := rfl
@[simp] theorem State.setCore_islands : (s.setCore k v).islands = s.islands := rfl
@[simp] theorem State.setCore_cores : (s.setCore k v).cores = put k v s.cores := rfl
@[simp] theorem State.setCore_teams : (s.setCore k v).teams = s.teams := rfl
@[simp] theorem State.setCore_slices : (s.setCore k v).slices = s.slices := rfl
@[simp] theorem State.setCore_splits : (s.setCore k v).splits = s.splits := rfl
@[simp] theorem State.setCore_ctxs : (s.setCore k v).ctxs = s.ctxs := rfl
@[simp] theorem State.setCore_ops : (s.setCore k v).ops = s.ops := rfl
@[simp] theorem State.setCore_nextTeam : (s.setCore k v).nextTeam = s.nextTeam := rfl
@[simp] theorem State.setCore_nextSplit : (s.setCore k v).nextSplit = s.nextSplit := rfl
@[simp] theorem State.setCore_nextOp : (s.setCore k v).nextOp = s.nextOp := rfl
@[simp] theorem State.setCore_mem : (s.setCore k v).mem = s.mem := rfl
@[simp] theorem State.setCore_stale : (s.setCore k v).stale = s.stale := rfl
@[simp] theorem State.setCore_poison : (s.setCore k v).poison = s.poison := rfl
@[simp] theorem State.setCore_l2 : (s.setCore k v).l2 = s.l2 := rfl
@[simp] theorem State.setCore_l2use : (s.setCore k v).l2use = s.l2use := rfl
@[simp] theorem State.setCore_ctrs : (s.setCore k v).ctrs = s.ctrs := rfl
@[simp] theorem State.setCore_links : (s.setCore k v).links = s.links := rfl
@[simp] theorem State.setCore_pkts : (s.setCore k v).pkts = s.pkts := rfl
@[simp] theorem State.setCore_nextPkt : (s.setCore k v).nextPkt = s.nextPkt := rfl
@[simp] theorem State.setCore_puts : (s.setCore k v).puts = s.puts := rfl
@[simp] theorem State.setCore_extOut : (s.setCore k v).extOut = s.extOut := rfl
@[simp] theorem State.setCore_rdmaOut : (s.setCore k v).rdmaOut = s.rdmaOut := rfl
@[simp] theorem State.setCore_fe : (s.setCore k v).fe = s.fe := rfl

end setCore

section setSlice
variable (s : State) (k : Nat) (v : Slice)

@[simp] theorem State.setSlice_tick : (s.setSlice k v).tick = s.tick := rfl
@[simp] theorem State.setSlice_cur : (s.setSlice k v).cur = s.cur := rfl
@[simp] theorem State.setSlice_turn : (s.setSlice k v).turn = s.turn := rfl
@[simp] theorem State.setSlice_inputs : (s.setSlice k v).inputs = s.inputs := rfl
@[simp] theorem State.setSlice_pres : (s.setSlice k v).pres = s.pres := rfl
@[simp] theorem State.setSlice_islands : (s.setSlice k v).islands = s.islands := rfl
@[simp] theorem State.setSlice_cores : (s.setSlice k v).cores = s.cores := rfl
@[simp] theorem State.setSlice_teams : (s.setSlice k v).teams = s.teams := rfl
@[simp] theorem State.setSlice_slices : (s.setSlice k v).slices = put k v s.slices := rfl
@[simp] theorem State.setSlice_splits : (s.setSlice k v).splits = s.splits := rfl
@[simp] theorem State.setSlice_ctxs : (s.setSlice k v).ctxs = s.ctxs := rfl
@[simp] theorem State.setSlice_ops : (s.setSlice k v).ops = s.ops := rfl
@[simp] theorem State.setSlice_nextTeam : (s.setSlice k v).nextTeam = s.nextTeam := rfl
@[simp] theorem State.setSlice_nextSplit : (s.setSlice k v).nextSplit = s.nextSplit := rfl
@[simp] theorem State.setSlice_nextOp : (s.setSlice k v).nextOp = s.nextOp := rfl
@[simp] theorem State.setSlice_mem : (s.setSlice k v).mem = s.mem := rfl
@[simp] theorem State.setSlice_stale : (s.setSlice k v).stale = s.stale := rfl
@[simp] theorem State.setSlice_poison : (s.setSlice k v).poison = s.poison := rfl
@[simp] theorem State.setSlice_l2 : (s.setSlice k v).l2 = s.l2 := rfl
@[simp] theorem State.setSlice_l2use : (s.setSlice k v).l2use = s.l2use := rfl
@[simp] theorem State.setSlice_ctrs : (s.setSlice k v).ctrs = s.ctrs := rfl
@[simp] theorem State.setSlice_links : (s.setSlice k v).links = s.links := rfl
@[simp] theorem State.setSlice_pkts : (s.setSlice k v).pkts = s.pkts := rfl
@[simp] theorem State.setSlice_nextPkt : (s.setSlice k v).nextPkt = s.nextPkt := rfl
@[simp] theorem State.setSlice_puts : (s.setSlice k v).puts = s.puts := rfl
@[simp] theorem State.setSlice_extOut : (s.setSlice k v).extOut = s.extOut := rfl
@[simp] theorem State.setSlice_rdmaOut : (s.setSlice k v).rdmaOut = s.rdmaOut := rfl
@[simp] theorem State.setSlice_fe : (s.setSlice k v).fe = s.fe := rfl

end setSlice

section modSlice
variable (s : State) (k : Nat) (f : Slice → Slice)

@[simp] theorem State.modSlice_tick : (s.modSlice k f).tick = s.tick := rfl
@[simp] theorem State.modSlice_cur : (s.modSlice k f).cur = s.cur := rfl
@[simp] theorem State.modSlice_turn : (s.modSlice k f).turn = s.turn := rfl
@[simp] theorem State.modSlice_inputs : (s.modSlice k f).inputs = s.inputs := rfl
@[simp] theorem State.modSlice_pres : (s.modSlice k f).pres = s.pres := rfl
@[simp] theorem State.modSlice_islands : (s.modSlice k f).islands = s.islands := rfl
@[simp] theorem State.modSlice_cores : (s.modSlice k f).cores = s.cores := rfl
@[simp] theorem State.modSlice_teams : (s.modSlice k f).teams = s.teams := rfl
@[simp] theorem State.modSlice_slices : (s.modSlice k f).slices = put k (f (s.slice k)) s.slices := rfl
@[simp] theorem State.modSlice_splits : (s.modSlice k f).splits = s.splits := rfl
@[simp] theorem State.modSlice_ctxs : (s.modSlice k f).ctxs = s.ctxs := rfl
@[simp] theorem State.modSlice_ops : (s.modSlice k f).ops = s.ops := rfl
@[simp] theorem State.modSlice_nextTeam : (s.modSlice k f).nextTeam = s.nextTeam := rfl
@[simp] theorem State.modSlice_nextSplit : (s.modSlice k f).nextSplit = s.nextSplit := rfl
@[simp] theorem State.modSlice_nextOp : (s.modSlice k f).nextOp = s.nextOp := rfl
@[simp] theorem State.modSlice_mem : (s.modSlice k f).mem = s.mem := rfl
@[simp] theorem State.modSlice_stale : (s.modSlice k f).stale = s.stale := rfl
@[simp] theorem State.modSlice_poison : (s.modSlice k f).poison = s.poison := rfl
@[simp] theorem State.modSlice_l2 : (s.modSlice k f).l2 = s.l2 := rfl
@[simp] theorem State.modSlice_l2use : (s.modSlice k f).l2use = s.l2use := rfl
@[simp] theorem State.modSlice_ctrs : (s.modSlice k f).ctrs = s.ctrs := rfl
@[simp] theorem State.modSlice_links : (s.modSlice k f).links = s.links := rfl
@[simp] theorem State.modSlice_pkts : (s.modSlice k f).pkts = s.pkts := rfl
@[simp] theorem State.modSlice_nextPkt : (s.modSlice k f).nextPkt = s.nextPkt := rfl
@[simp] theorem State.modSlice_puts : (s.modSlice k f).puts = s.puts := rfl
@[simp] theorem State.modSlice_extOut : (s.modSlice k f).extOut = s.extOut := rfl
@[simp] theorem State.modSlice_rdmaOut : (s.modSlice k f).rdmaOut = s.rdmaOut := rfl
@[simp] theorem State.modSlice_fe : (s.modSlice k f).fe = s.fe := rfl

end modSlice

section setSplit
variable (s : State) (k : Nat) (v : Split)

@[simp] theorem State.setSplit_tick : (s.setSplit k v).tick = s.tick := rfl
@[simp] theorem State.setSplit_cur : (s.setSplit k v).cur = s.cur := rfl
@[simp] theorem State.setSplit_turn : (s.setSplit k v).turn = s.turn := rfl
@[simp] theorem State.setSplit_inputs : (s.setSplit k v).inputs = s.inputs := rfl
@[simp] theorem State.setSplit_pres : (s.setSplit k v).pres = s.pres := rfl
@[simp] theorem State.setSplit_islands : (s.setSplit k v).islands = s.islands := rfl
@[simp] theorem State.setSplit_cores : (s.setSplit k v).cores = s.cores := rfl
@[simp] theorem State.setSplit_teams : (s.setSplit k v).teams = s.teams := rfl
@[simp] theorem State.setSplit_slices : (s.setSplit k v).slices = s.slices := rfl
@[simp] theorem State.setSplit_splits : (s.setSplit k v).splits = put k v s.splits := rfl
@[simp] theorem State.setSplit_ctxs : (s.setSplit k v).ctxs = s.ctxs := rfl
@[simp] theorem State.setSplit_ops : (s.setSplit k v).ops = s.ops := rfl
@[simp] theorem State.setSplit_nextTeam : (s.setSplit k v).nextTeam = s.nextTeam := rfl
@[simp] theorem State.setSplit_nextSplit : (s.setSplit k v).nextSplit = s.nextSplit := rfl
@[simp] theorem State.setSplit_nextOp : (s.setSplit k v).nextOp = s.nextOp := rfl
@[simp] theorem State.setSplit_mem : (s.setSplit k v).mem = s.mem := rfl
@[simp] theorem State.setSplit_stale : (s.setSplit k v).stale = s.stale := rfl
@[simp] theorem State.setSplit_poison : (s.setSplit k v).poison = s.poison := rfl
@[simp] theorem State.setSplit_l2 : (s.setSplit k v).l2 = s.l2 := rfl
@[simp] theorem State.setSplit_l2use : (s.setSplit k v).l2use = s.l2use := rfl
@[simp] theorem State.setSplit_ctrs : (s.setSplit k v).ctrs = s.ctrs := rfl
@[simp] theorem State.setSplit_links : (s.setSplit k v).links = s.links := rfl
@[simp] theorem State.setSplit_pkts : (s.setSplit k v).pkts = s.pkts := rfl
@[simp] theorem State.setSplit_nextPkt : (s.setSplit k v).nextPkt = s.nextPkt := rfl
@[simp] theorem State.setSplit_puts : (s.setSplit k v).puts = s.puts := rfl
@[simp] theorem State.setSplit_extOut : (s.setSplit k v).extOut = s.extOut := rfl
@[simp] theorem State.setSplit_rdmaOut : (s.setSplit k v).rdmaOut = s.rdmaOut := rfl
@[simp] theorem State.setSplit_fe : (s.setSplit k v).fe = s.fe := rfl

end setSplit

section modSplit
variable (s : State) (k : Nat) (f : Split → Split)

@[simp] theorem State.modSplit_tick : (s.modSplit k f).tick = s.tick := rfl
@[simp] theorem State.modSplit_cur : (s.modSplit k f).cur = s.cur := rfl
@[simp] theorem State.modSplit_turn : (s.modSplit k f).turn = s.turn := rfl
@[simp] theorem State.modSplit_inputs : (s.modSplit k f).inputs = s.inputs := rfl
@[simp] theorem State.modSplit_pres : (s.modSplit k f).pres = s.pres := rfl
@[simp] theorem State.modSplit_islands : (s.modSplit k f).islands = s.islands := rfl
@[simp] theorem State.modSplit_cores : (s.modSplit k f).cores = s.cores := rfl
@[simp] theorem State.modSplit_teams : (s.modSplit k f).teams = s.teams := rfl
@[simp] theorem State.modSplit_slices : (s.modSplit k f).slices = s.slices := rfl
@[simp] theorem State.modSplit_splits : (s.modSplit k f).splits = upd k f s.splits := rfl
@[simp] theorem State.modSplit_ctxs : (s.modSplit k f).ctxs = s.ctxs := rfl
@[simp] theorem State.modSplit_ops : (s.modSplit k f).ops = s.ops := rfl
@[simp] theorem State.modSplit_nextTeam : (s.modSplit k f).nextTeam = s.nextTeam := rfl
@[simp] theorem State.modSplit_nextSplit : (s.modSplit k f).nextSplit = s.nextSplit := rfl
@[simp] theorem State.modSplit_nextOp : (s.modSplit k f).nextOp = s.nextOp := rfl
@[simp] theorem State.modSplit_mem : (s.modSplit k f).mem = s.mem := rfl
@[simp] theorem State.modSplit_stale : (s.modSplit k f).stale = s.stale := rfl
@[simp] theorem State.modSplit_poison : (s.modSplit k f).poison = s.poison := rfl
@[simp] theorem State.modSplit_l2 : (s.modSplit k f).l2 = s.l2 := rfl
@[simp] theorem State.modSplit_l2use : (s.modSplit k f).l2use = s.l2use := rfl
@[simp] theorem State.modSplit_ctrs : (s.modSplit k f).ctrs = s.ctrs := rfl
@[simp] theorem State.modSplit_links : (s.modSplit k f).links = s.links := rfl
@[simp] theorem State.modSplit_pkts : (s.modSplit k f).pkts = s.pkts := rfl
@[simp] theorem State.modSplit_nextPkt : (s.modSplit k f).nextPkt = s.nextPkt := rfl
@[simp] theorem State.modSplit_puts : (s.modSplit k f).puts = s.puts := rfl
@[simp] theorem State.modSplit_extOut : (s.modSplit k f).extOut = s.extOut := rfl
@[simp] theorem State.modSplit_rdmaOut : (s.modSplit k f).rdmaOut = s.rdmaOut := rfl
@[simp] theorem State.modSplit_fe : (s.modSplit k f).fe = s.fe := rfl

end modSplit

section modTeam
variable (s : State) (k : Nat) (f : Team → Team)

@[simp] theorem State.modTeam_tick : (s.modTeam k f).tick = s.tick := rfl
@[simp] theorem State.modTeam_cur : (s.modTeam k f).cur = s.cur := rfl
@[simp] theorem State.modTeam_turn : (s.modTeam k f).turn = s.turn := rfl
@[simp] theorem State.modTeam_inputs : (s.modTeam k f).inputs = s.inputs := rfl
@[simp] theorem State.modTeam_pres : (s.modTeam k f).pres = s.pres := rfl
@[simp] theorem State.modTeam_islands : (s.modTeam k f).islands = s.islands := rfl
@[simp] theorem State.modTeam_cores : (s.modTeam k f).cores = s.cores := rfl
@[simp] theorem State.modTeam_teams : (s.modTeam k f).teams = upd k f s.teams := rfl
@[simp] theorem State.modTeam_slices : (s.modTeam k f).slices = s.slices := rfl
@[simp] theorem State.modTeam_splits : (s.modTeam k f).splits = s.splits := rfl
@[simp] theorem State.modTeam_ctxs : (s.modTeam k f).ctxs = s.ctxs := rfl
@[simp] theorem State.modTeam_ops : (s.modTeam k f).ops = s.ops := rfl
@[simp] theorem State.modTeam_nextTeam : (s.modTeam k f).nextTeam = s.nextTeam := rfl
@[simp] theorem State.modTeam_nextSplit : (s.modTeam k f).nextSplit = s.nextSplit := rfl
@[simp] theorem State.modTeam_nextOp : (s.modTeam k f).nextOp = s.nextOp := rfl
@[simp] theorem State.modTeam_mem : (s.modTeam k f).mem = s.mem := rfl
@[simp] theorem State.modTeam_stale : (s.modTeam k f).stale = s.stale := rfl
@[simp] theorem State.modTeam_poison : (s.modTeam k f).poison = s.poison := rfl
@[simp] theorem State.modTeam_l2 : (s.modTeam k f).l2 = s.l2 := rfl
@[simp] theorem State.modTeam_l2use : (s.modTeam k f).l2use = s.l2use := rfl
@[simp] theorem State.modTeam_ctrs : (s.modTeam k f).ctrs = s.ctrs := rfl
@[simp] theorem State.modTeam_links : (s.modTeam k f).links = s.links := rfl
@[simp] theorem State.modTeam_pkts : (s.modTeam k f).pkts = s.pkts := rfl
@[simp] theorem State.modTeam_nextPkt : (s.modTeam k f).nextPkt = s.nextPkt := rfl
@[simp] theorem State.modTeam_puts : (s.modTeam k f).puts = s.puts := rfl
@[simp] theorem State.modTeam_extOut : (s.modTeam k f).extOut = s.extOut := rfl
@[simp] theorem State.modTeam_rdmaOut : (s.modTeam k f).rdmaOut = s.rdmaOut := rfl
@[simp] theorem State.modTeam_fe : (s.modTeam k f).fe = s.fe := rfl

end modTeam

section modCtx
variable (s : State) (k : Nat) (f : Ctx → Ctx)

@[simp] theorem State.modCtx_tick : (s.modCtx k f).tick = s.tick := rfl
@[simp] theorem State.modCtx_cur : (s.modCtx k f).cur = s.cur := rfl
@[simp] theorem State.modCtx_turn : (s.modCtx k f).turn = s.turn := rfl
@[simp] theorem State.modCtx_inputs : (s.modCtx k f).inputs = s.inputs := rfl
@[simp] theorem State.modCtx_pres : (s.modCtx k f).pres = s.pres := rfl
@[simp] theorem State.modCtx_islands : (s.modCtx k f).islands = s.islands := rfl
@[simp] theorem State.modCtx_cores : (s.modCtx k f).cores = s.cores := rfl
@[simp] theorem State.modCtx_teams : (s.modCtx k f).teams = s.teams := rfl
@[simp] theorem State.modCtx_slices : (s.modCtx k f).slices = s.slices := rfl
@[simp] theorem State.modCtx_splits : (s.modCtx k f).splits = s.splits := rfl
@[simp] theorem State.modCtx_ctxs : (s.modCtx k f).ctxs = upd k f s.ctxs := rfl
@[simp] theorem State.modCtx_ops : (s.modCtx k f).ops = s.ops := rfl
@[simp] theorem State.modCtx_nextTeam : (s.modCtx k f).nextTeam = s.nextTeam := rfl
@[simp] theorem State.modCtx_nextSplit : (s.modCtx k f).nextSplit = s.nextSplit := rfl
@[simp] theorem State.modCtx_nextOp : (s.modCtx k f).nextOp = s.nextOp := rfl
@[simp] theorem State.modCtx_mem : (s.modCtx k f).mem = s.mem := rfl
@[simp] theorem State.modCtx_stale : (s.modCtx k f).stale = s.stale := rfl
@[simp] theorem State.modCtx_poison : (s.modCtx k f).poison = s.poison := rfl
@[simp] theorem State.modCtx_l2 : (s.modCtx k f).l2 = s.l2 := rfl
@[simp] theorem State.modCtx_l2use : (s.modCtx k f).l2use = s.l2use := rfl
@[simp] theorem State.modCtx_ctrs : (s.modCtx k f).ctrs = s.ctrs := rfl
@[simp] theorem State.modCtx_links : (s.modCtx k f).links = s.links := rfl
@[simp] theorem State.modCtx_pkts : (s.modCtx k f).pkts = s.pkts := rfl
@[simp] theorem State.modCtx_nextPkt : (s.modCtx k f).nextPkt = s.nextPkt := rfl
@[simp] theorem State.modCtx_puts : (s.modCtx k f).puts = s.puts := rfl
@[simp] theorem State.modCtx_extOut : (s.modCtx k f).extOut = s.extOut := rfl
@[simp] theorem State.modCtx_rdmaOut : (s.modCtx k f).rdmaOut = s.rdmaOut := rfl
@[simp] theorem State.modCtx_fe : (s.modCtx k f).fe = s.fe := rfl

end modCtx

section modOp
variable (s : State) (k : Nat) (f : Op → Op)

@[simp] theorem State.modOp_tick : (s.modOp k f).tick = s.tick := rfl
@[simp] theorem State.modOp_cur : (s.modOp k f).cur = s.cur := rfl
@[simp] theorem State.modOp_turn : (s.modOp k f).turn = s.turn := rfl
@[simp] theorem State.modOp_inputs : (s.modOp k f).inputs = s.inputs := rfl
@[simp] theorem State.modOp_pres : (s.modOp k f).pres = s.pres := rfl
@[simp] theorem State.modOp_islands : (s.modOp k f).islands = s.islands := rfl
@[simp] theorem State.modOp_cores : (s.modOp k f).cores = s.cores := rfl
@[simp] theorem State.modOp_teams : (s.modOp k f).teams = s.teams := rfl
@[simp] theorem State.modOp_slices : (s.modOp k f).slices = s.slices := rfl
@[simp] theorem State.modOp_splits : (s.modOp k f).splits = s.splits := rfl
@[simp] theorem State.modOp_ctxs : (s.modOp k f).ctxs = s.ctxs := rfl
@[simp] theorem State.modOp_ops : (s.modOp k f).ops = upd k f s.ops := rfl
@[simp] theorem State.modOp_nextTeam : (s.modOp k f).nextTeam = s.nextTeam := rfl
@[simp] theorem State.modOp_nextSplit : (s.modOp k f).nextSplit = s.nextSplit := rfl
@[simp] theorem State.modOp_nextOp : (s.modOp k f).nextOp = s.nextOp := rfl
@[simp] theorem State.modOp_mem : (s.modOp k f).mem = s.mem := rfl
@[simp] theorem State.modOp_stale : (s.modOp k f).stale = s.stale := rfl
@[simp] theorem State.modOp_poison : (s.modOp k f).poison = s.poison := rfl
@[simp] theorem State.modOp_l2 : (s.modOp k f).l2 = s.l2 := rfl
@[simp] theorem State.modOp_l2use : (s.modOp k f).l2use = s.l2use := rfl
@[simp] theorem State.modOp_ctrs : (s.modOp k f).ctrs = s.ctrs := rfl
@[simp] theorem State.modOp_links : (s.modOp k f).links = s.links := rfl
@[simp] theorem State.modOp_pkts : (s.modOp k f).pkts = s.pkts := rfl
@[simp] theorem State.modOp_nextPkt : (s.modOp k f).nextPkt = s.nextPkt := rfl
@[simp] theorem State.modOp_puts : (s.modOp k f).puts = s.puts := rfl
@[simp] theorem State.modOp_extOut : (s.modOp k f).extOut = s.extOut := rfl
@[simp] theorem State.modOp_rdmaOut : (s.modOp k f).rdmaOut = s.rdmaOut := rfl
@[simp] theorem State.modOp_fe : (s.modOp k f).fe = s.fe := rfl

end modOp

section modFe
variable (s : State) (f : FrontEnd → FrontEnd)

@[simp] theorem State.modFe_tick : (s.modFe f).tick = s.tick := rfl
@[simp] theorem State.modFe_cur : (s.modFe f).cur = s.cur := rfl
@[simp] theorem State.modFe_turn : (s.modFe f).turn = s.turn := rfl
@[simp] theorem State.modFe_inputs : (s.modFe f).inputs = s.inputs := rfl
@[simp] theorem State.modFe_pres : (s.modFe f).pres = s.pres := rfl
@[simp] theorem State.modFe_islands : (s.modFe f).islands = s.islands := rfl
@[simp] theorem State.modFe_cores : (s.modFe f).cores = s.cores := rfl
@[simp] theorem State.modFe_teams : (s.modFe f).teams = s.teams := rfl
@[simp] theorem State.modFe_slices : (s.modFe f).slices = s.slices := rfl
@[simp] theorem State.modFe_splits : (s.modFe f).splits = s.splits := rfl
@[simp] theorem State.modFe_ctxs : (s.modFe f).ctxs = s.ctxs := rfl
@[simp] theorem State.modFe_ops : (s.modFe f).ops = s.ops := rfl
@[simp] theorem State.modFe_nextTeam : (s.modFe f).nextTeam = s.nextTeam := rfl
@[simp] theorem State.modFe_nextSplit : (s.modFe f).nextSplit = s.nextSplit := rfl
@[simp] theorem State.modFe_nextOp : (s.modFe f).nextOp = s.nextOp := rfl
@[simp] theorem State.modFe_mem : (s.modFe f).mem = s.mem := rfl
@[simp] theorem State.modFe_stale : (s.modFe f).stale = s.stale := rfl
@[simp] theorem State.modFe_poison : (s.modFe f).poison = s.poison := rfl
@[simp] theorem State.modFe_l2 : (s.modFe f).l2 = s.l2 := rfl
@[simp] theorem State.modFe_l2use : (s.modFe f).l2use = s.l2use := rfl
@[simp] theorem State.modFe_ctrs : (s.modFe f).ctrs = s.ctrs := rfl
@[simp] theorem State.modFe_links : (s.modFe f).links = s.links := rfl
@[simp] theorem State.modFe_pkts : (s.modFe f).pkts = s.pkts := rfl
@[simp] theorem State.modFe_nextPkt : (s.modFe f).nextPkt = s.nextPkt := rfl
@[simp] theorem State.modFe_puts : (s.modFe f).puts = s.puts := rfl
@[simp] theorem State.modFe_extOut : (s.modFe f).extOut = s.extOut := rfl
@[simp] theorem State.modFe_rdmaOut : (s.modFe f).rdmaOut = s.rdmaOut := rfl
@[simp] theorem State.modFe_fe : (s.modFe f).fe = f s.fe := rfl

end modFe

section setCtr
variable (s : State) (k : Nat) (v : Word)

@[simp] theorem State.setCtr_tick : (s.setCtr k v).tick = s.tick := rfl
@[simp] theorem State.setCtr_cur : (s.setCtr k v).cur = s.cur := rfl
@[simp] theorem State.setCtr_turn : (s.setCtr k v).turn = s.turn := rfl
@[simp] theorem State.setCtr_inputs : (s.setCtr k v).inputs = s.inputs := rfl
@[simp] theorem State.setCtr_pres : (s.setCtr k v).pres = s.pres := rfl
@[simp] theorem State.setCtr_islands : (s.setCtr k v).islands = s.islands := rfl
@[simp] theorem State.setCtr_cores : (s.setCtr k v).cores = s.cores := rfl
@[simp] theorem State.setCtr_teams : (s.setCtr k v).teams = s.teams := rfl
@[simp] theorem State.setCtr_slices : (s.setCtr k v).slices = s.slices := rfl
@[simp] theorem State.setCtr_splits : (s.setCtr k v).splits = s.splits := rfl
@[simp] theorem State.setCtr_ctxs : (s.setCtr k v).ctxs = s.ctxs := rfl
@[simp] theorem State.setCtr_ops : (s.setCtr k v).ops = s.ops := rfl
@[simp] theorem State.setCtr_nextTeam : (s.setCtr k v).nextTeam = s.nextTeam := rfl
@[simp] theorem State.setCtr_nextSplit : (s.setCtr k v).nextSplit = s.nextSplit := rfl
@[simp] theorem State.setCtr_nextOp : (s.setCtr k v).nextOp = s.nextOp := rfl
@[simp] theorem State.setCtr_mem : (s.setCtr k v).mem = s.mem := rfl
@[simp] theorem State.setCtr_stale : (s.setCtr k v).stale = s.stale := rfl
@[simp] theorem State.setCtr_poison : (s.setCtr k v).poison = s.poison := rfl
@[simp] theorem State.setCtr_l2 : (s.setCtr k v).l2 = s.l2 := rfl
@[simp] theorem State.setCtr_l2use : (s.setCtr k v).l2use = s.l2use := rfl
@[simp] theorem State.setCtr_ctrs : (s.setCtr k v).ctrs = setD 0 k v s.ctrs := rfl
@[simp] theorem State.setCtr_links : (s.setCtr k v).links = s.links := rfl
@[simp] theorem State.setCtr_pkts : (s.setCtr k v).pkts = s.pkts := rfl
@[simp] theorem State.setCtr_nextPkt : (s.setCtr k v).nextPkt = s.nextPkt := rfl
@[simp] theorem State.setCtr_puts : (s.setCtr k v).puts = s.puts := rfl
@[simp] theorem State.setCtr_extOut : (s.setCtr k v).extOut = s.extOut := rfl
@[simp] theorem State.setCtr_rdmaOut : (s.setCtr k v).rdmaOut = s.rdmaOut := rfl
@[simp] theorem State.setCtr_fe : (s.setCtr k v).fe = s.fe := rfl

end setCtr

section setLink
variable (s : State) (k : Nat) (v : Link)

@[simp] theorem State.setLink_tick : (s.setLink k v).tick = s.tick := rfl
@[simp] theorem State.setLink_cur : (s.setLink k v).cur = s.cur := rfl
@[simp] theorem State.setLink_turn : (s.setLink k v).turn = s.turn := rfl
@[simp] theorem State.setLink_inputs : (s.setLink k v).inputs = s.inputs := rfl
@[simp] theorem State.setLink_pres : (s.setLink k v).pres = s.pres := rfl
@[simp] theorem State.setLink_islands : (s.setLink k v).islands = s.islands := rfl
@[simp] theorem State.setLink_cores : (s.setLink k v).cores = s.cores := rfl
@[simp] theorem State.setLink_teams : (s.setLink k v).teams = s.teams := rfl
@[simp] theorem State.setLink_slices : (s.setLink k v).slices = s.slices := rfl
@[simp] theorem State.setLink_splits : (s.setLink k v).splits = s.splits := rfl
@[simp] theorem State.setLink_ctxs : (s.setLink k v).ctxs = s.ctxs := rfl
@[simp] theorem State.setLink_ops : (s.setLink k v).ops = s.ops := rfl
@[simp] theorem State.setLink_nextTeam : (s.setLink k v).nextTeam = s.nextTeam := rfl
@[simp] theorem State.setLink_nextSplit : (s.setLink k v).nextSplit = s.nextSplit := rfl
@[simp] theorem State.setLink_nextOp : (s.setLink k v).nextOp = s.nextOp := rfl
@[simp] theorem State.setLink_mem : (s.setLink k v).mem = s.mem := rfl
@[simp] theorem State.setLink_stale : (s.setLink k v).stale = s.stale := rfl
@[simp] theorem State.setLink_poison : (s.setLink k v).poison = s.poison := rfl
@[simp] theorem State.setLink_l2 : (s.setLink k v).l2 = s.l2 := rfl
@[simp] theorem State.setLink_l2use : (s.setLink k v).l2use = s.l2use := rfl
@[simp] theorem State.setLink_ctrs : (s.setLink k v).ctrs = s.ctrs := rfl
@[simp] theorem State.setLink_links : (s.setLink k v).links = put k v s.links := rfl
@[simp] theorem State.setLink_pkts : (s.setLink k v).pkts = s.pkts := rfl
@[simp] theorem State.setLink_nextPkt : (s.setLink k v).nextPkt = s.nextPkt := rfl
@[simp] theorem State.setLink_puts : (s.setLink k v).puts = s.puts := rfl
@[simp] theorem State.setLink_extOut : (s.setLink k v).extOut = s.extOut := rfl
@[simp] theorem State.setLink_rdmaOut : (s.setLink k v).rdmaOut = s.rdmaOut := rfl
@[simp] theorem State.setLink_fe : (s.setLink k v).fe = s.fe := rfl

end setLink

end Sys2Proof.Machine
end

