-- ==== Sys2Proof/Laws/Regs.lean ====
section
/-! SUPPORT. What the shared operations over registers can do: a write lands in its unit and in no other, an issue slot
that passes changes no unit, and the end of an ordinary word changes nothing but its split's PC. -/
namespace Sys2Proof.Machine

@[simp] theorem mergeMask_allOnes (o v : Word) : mergeMask o v allOnes = v := by
  apply BitVec.eq_of_getLsbD_eq
  intro i h
  simp only [mergeMask, allOnes, BitVec.getLsbD_or, BitVec.getLsbD_and, BitVec.getLsbD_not, BitVec.getLsbD_allOnes]
  simp [h]

/-! ### Outstanding writes -/

/-- The value a list of outstanding writes leaves in unit `key`, from the value in place. -/
def settled (key : Nat) (ps : List PendW) (v : Word) : Word :=
  (ps.filter fun p => p.key == key).foldl (fun v p => mergeMask v p.val p.mask) v

theorem readFinal_eq (sl : Slice) (key : Nat) : readFinal sl key = settled key sl.pend (getD 0 key sl.regs) := rfl

@[simp] theorem settled_nil (key : Nat) (v : Word) : settled key [] v = v := rfl

theorem settled_cons (key : Nat) (p : PendW) (ps : List PendW) (v : Word) :
    settled key (p :: ps) v = settled key ps (if p.key = key then mergeMask v p.val p.mask else v) := by
  unfold settled
  by_cases h : p.key = key <;> simp [h]

theorem settled_append (key : Nat) (ps qs : List PendW) (v : Word) :
    settled key (ps ++ qs) v = settled key qs (settled key ps v) := by
  simp [settled, List.filter_append, List.foldl_append]

/-- A unit none of whose outstanding writes is in place keeps them all. -/
theorem foldPend_quiet (k key : Nat) (ps : List PendW) (m : SMap Word)
    (h : ∀ p ∈ ps, p.key = key → p.ripe.at k = false) :
    (∀ v, settled key (foldPend k ps m).1 v = settled key ps v) ∧ getD 0 key (foldPend k ps m).2 = getD 0 key m := by
  induction ps generalizing m with
  | nil => exact ⟨fun _ => rfl, rfl⟩
  | cons p t ih =>
    have ht : ∀ q ∈ t, q.key = key → q.ripe.at k = false := fun q hq => h q (List.mem_cons_of_mem _ hq)
    simp only [foldPend]
    split
    · rename_i hc
      have hp : p.key ≠ key := by
        intro e
        have h0 := h p (List.mem_cons_self ..) e
        simp only [h0, Bool.false_or, List.any_eq_true, Bool.and_eq_true, beq_iff_eq] at hc
        obtain ⟨q, hq, hk, hr⟩ := hc
        simp [ht q hq (hk.trans e)] at hr
      refine ⟨fun v => ?_, ?_⟩
      · rw [(ih _ ht).1, settled_cons, if_neg hp]
      · rw [(ih _ ht).2, getD_setD, if_neg hp]
    · refine ⟨fun v => ?_, (ih _ ht).2⟩
      rw [settled_cons, (ih _ ht).1, settled_cons]

/-- Bringing registers up to a slot changes no unit. -/
theorem foldPend_settled (k key : Nat) (ps : List PendW) (m : SMap Word) :
    settled key (foldPend k ps m).1 (getD 0 key (foldPend k ps m).2) = settled key ps (getD 0 key m) := by
  induction ps generalizing m with
  | nil => rfl
  | cons p t ih =>
    simp only [foldPend]
    split
    · rw [ih, settled_cons, getD_setD]
      split
      · rename_i e; rw [e]
      · rfl
    · rename_i hc
      by_cases e : p.key = key
      · have hq : ∀ q ∈ t, q.key = key → q.ripe.at k = false := by
          intro q hq hk
          cases hr : q.ripe.at k with
          | false => rfl
          | true =>
            exact absurd (by
              simp only [Bool.or_eq_true, List.any_eq_true, Bool.and_eq_true, beq_iff_eq]
              exact .inr ⟨q, hq, hk.trans e.symm, hr⟩) hc
        have := foldPend_quiet k key t m hq
        simp only [settled_cons, e, if_true]
        rw [this.1, this.2]
      · simp only [settled_cons, e, if_false]
        exact ih m

/-! ### Outstanding flags -/

theorem modNth_modNth {α : Type} (l : List α) (i j : Nat) (f g : α → α) (h : ∀ a, f (g a) = g (f a)) :
    modNth (modNth l j g) i f = modNth (modNth l i f) j g := by
  induction l generalizing i j with
  | nil => simp [modNth]
  | cons a t ih =>
    cases i <;> cases j <;> simp [modNth, h, ih]

theorem orPrec_comm (ls : List Lane) (i j : Nat) (f g : Word) :
    orPrec (orPrec ls j g) i f = orPrec (orPrec ls i f) j g := by
  unfold orPrec
  apply modNth_modNth
  intro a
  simp only [Lane.mk.injEq, true_and, and_true]
  rw [BitVec.or_assoc, BitVec.or_comm g f, ← BitVec.or_assoc]

theorem flags_out (ps : List PendF) (ls : List Lane) (i : Nat) (f : Word) :
    ps.foldl (fun ls p => orPrec ls p.lane p.flags) (orPrec ls i f)
      = orPrec (ps.foldl (fun ls p => orPrec ls p.lane p.flags) ls) i f := by
  induction ps generalizing ls with
  | nil => rfl
  | cons p t ih => simp only [List.foldl_cons]; rw [orPrec_comm, ih]

theorem foldFlags_now (k : Nat) (ps : List PendF) (ls : List Lane) :
    (foldFlags k ps ls).1.foldl (fun ls p => orPrec ls p.lane p.flags) (foldFlags k ps ls).2
      = ps.foldl (fun ls p => orPrec ls p.lane p.flags) ls := by
  induction ps generalizing ls with
  | nil => rfl
  | cons p t ih =>
    simp only [foldFlags]
    split
    · rw [ih]; rfl
    · simp only [List.foldl_cons]; rw [flags_out, ih, ← flags_out]

/-! ### One slice -/

@[simp] theorem readFinal_foldTo (sl : Slice) (k key : Nat) : readFinal (sl.foldTo k) key = readFinal sl key := by
  simp only [readFinal_eq, Slice.foldTo]; exact foldPend_settled k key sl.pend sl.regs

@[simp] theorem still_foldTo (sl : Slice) (k : Nat) : (sl.foldTo k).still = sl.still := by
  simp only [Slice.still, Slice.foldTo, Slice.lanesNow, foldFlags_now]

@[simp] theorem readFinal_pass (sl : Slice) (n key : Nat) : readFinal (sl.pass n) key = readFinal sl key := by
  simp only [Slice.pass, readFinal_foldTo]; rfl

@[simp] theorem still_pass (sl : Slice) (n : Nat) : (sl.pass n).still = sl.still := by
  simp only [Slice.pass, still_foldTo]; rfl

@[simp] theorem pass_slot (sl : Slice) (n : Nat) : (sl.pass n).slot = sl.slot + n := rfl

theorem readFinal_settle (sl : Slice) (key : Nat) : readFinal sl.settle key = readFinal sl key := by
  simp only [Slice.settle, readFinal_foldTo]
  simp only [readFinal_eq]
  generalize getD 0 key sl.regs = v
  generalize sl.pend = ps
  induction ps generalizing v with
  | nil => rfl
  | cons p t ih => simp only [List.map_cons, settled_cons]; exact ih _

theorem still_settle (sl : Slice) : sl.settle.still = sl.still := by
  simp only [Slice.settle, still_foldTo]
  simp only [Slice.still, Slice.lanesNow, List.foldl_map]

/-- A fixed-latency write lands in its unit, on the bits of its mask, and in no other. -/
theorem readFinal_write (sl : Slice) (dist key k : Nat) (v mask : Word) :
    readFinal (sl.write dist k v mask) key = if k = key then mergeMask (readFinal sl key) v mask else readFinal sl key := by
  simp only [readFinal_eq, Slice.write, settled_append, settled_cons, settled_nil]

@[simp] theorem still_write (sl : Slice) (dist k : Nat) (v mask : Word) : (sl.write dist k v mask).still = sl.still := rfl

@[simp] theorem write_slot (sl : Slice) (dist k : Nat) (v mask : Word) : (sl.write dist k v mask).slot = sl.slot := rfl

@[simp] theorem still_writes (sl : Slice) (dist : Nat) (ws : List (Nat × Word)) : (sl.writes dist ws).still = sl.still := by
  unfold Slice.writes
  induction ws generalizing sl with
  | nil => rfl
  | cons w t ih => simp only [List.foldl_cons]; rw [ih, still_write]

/-- Several writes: a unit none of them names is as before. -/
theorem readFinal_writes_ne (sl : Slice) (dist key : Nat) (ws : List (Nat × Word)) (h : ∀ w ∈ ws, w.1 ≠ key) :
    readFinal (sl.writes dist ws) key = readFinal sl key := by
  unfold Slice.writes
  induction ws generalizing sl with
  | nil => rfl
  | cons w t ih =>
    simp only [List.foldl_cons]
    rw [ih _ fun x hx => h x (List.mem_cons_of_mem _ hx), readFinal_write, if_neg (h w (List.mem_cons_self ..))]

/-- Several writes: a unit they name holds the value they give, when they give it one value. -/
theorem readFinal_writes (sl : Slice) (dist key : Nat) (v : Word) (ws : List (Nat × Word)) (hm : ∃ w ∈ ws, w.1 = key)
    (h : ∀ w ∈ ws, w.1 = key → w.2 = v) : readFinal (sl.writes dist ws) key = v := by
  induction ws generalizing sl with
  | nil => simp at hm
  | cons w t ih =>
    have he : sl.writes dist (w :: t) = (sl.write dist w.1 w.2).writes dist t := rfl
    rw [he]
    by_cases ht : ∃ x ∈ t, x.1 = key
    · exact ih _ ht fun x hx => h x (List.mem_cons_of_mem _ hx)
    · have hn : ∀ x ∈ t, x.1 ≠ key := fun x hx e => ht ⟨x, hx, e⟩
      obtain ⟨x, hx, e⟩ := hm
      rcases List.mem_cons.1 hx with rfl | hx
      · rw [readFinal_writes_ne _ _ _ _ hn, readFinal_write, if_pos e, mergeMask_allOnes]
        exact h x (List.mem_cons_self ..) e
      · exact absurd e (hn x hx)

theorem writes_append (sl : Slice) (dist : Nat) (a b : List (Nat × Word)) :
    sl.writes dist (a ++ b) = (sl.writes dist a).writes dist b := by
  simp [Slice.writes, List.foldl_append]

/-- A g register write, as writes of its two units. -/
theorem writeG_eq (sl : Slice) (hd : Bool) (dist r v : Nat) :
    sl.writeG hd dist r v = sl.writes dist (if r = 0 then [] else
      [(keyG (gIndex hd r) 0, half v 0), (keyG (gIndex hd r) 1, half v 1)]) := by
  unfold Slice.writeG; split <;> rfl

/-! ### Slices of the state -/

theorem slice_modSlice (s : State) (k sk : Nat) (f : Slice → Slice) :
    (s.modSlice k f).slice sk = if k = sk then f (s.slice sk) else s.slice sk := by
  simp only [State.slice, State.modSlice_slices, getD_put]
  split
  · rename_i e; rw [e]
  · rfl

/-- A fold of slice updates leaves everything but the slices. -/
theorem fold_modSlice_rest {α : Type} (l : List α) (k : α → Nat) (f : α → Slice → Slice) (s : State) :
    l.foldl (fun t a => t.modSlice (k a) (f a)) s
      = { s with slices := (l.foldl (fun t a => t.modSlice (k a) (f a)) s).slices } := by
  induction l generalizing s with
  | nil => rfl
  | cons a t ih => simp only [List.foldl_cons]; rw [ih]; rfl

/-- Slice `sk` after a fold of slice updates: the updates of that slice, in order. -/
theorem fold_modSlice_slice {α : Type} (l : List α) (k : α → Nat) (f : α → Slice → Slice) (s : State) (sk : Nat) :
    (l.foldl (fun t a => t.modSlice (k a) (f a)) s).slice sk
      = (l.filter fun a => k a == sk).foldl (fun sl a => f a sl) (s.slice sk) := by
  induction l generalizing s with
  | nil => rfl
  | cons a t ih =>
    simp only [List.foldl_cons]
    rw [ih, slice_modSlice, List.filter_cons]
    by_cases e : k a = sk
    · simp [e]
    · simp [e]

theorem perLane_rest (s : State) (cx : Iss) (dist : Nat) (f : LaneEnv → List (Nat × Word)) :
    perLane s cx dist f = { s with slices := (perLane s cx dist f).slices } :=
  fold_modSlice_rest _ (fun le : LaneEnv => le.sk) (fun le sl => sl.writes dist (f le)) s

theorem perLane_slice (s : State) (cx : Iss) (dist : Nat) (f : LaneEnv → List (Nat × Word)) (sk : Nat) :
    (perLane s cx dist f).slice sk
      = (s.slice sk).writes dist (((guardedLanes s cx.sp).filter fun le => le.sk == sk).flatMap f) := by
  unfold perLane
  rw [fold_modSlice_slice (guardedLanes s cx.sp) (fun le : LaneEnv => le.sk) (fun le sl => sl.writes dist (f le)) s sk]
  generalize (guardedLanes s cx.sp).filter (fun le => le.sk == sk) = l
  generalize s.slice sk = sl
  induction l generalizing sl with
  | nil => rfl
  | cons a t ih => simp only [List.foldl_cons, List.flatMap_cons, writes_append]; exact ih _

theorem perSlice_rest (s : State) (cx : Iss) (f : Nat → Slice → Slice) :
    perSlice s cx f = { s with slices := (perSlice s cx f).slices } :=
  fold_modSlice_rest (distinct cx.sp.keys) (fun k : Nat => k) f s

theorem mem_distinct (l : List Nat) (a : Nat) : a ∈ distinct l ↔ a ∈ l := by
  induction l with
  | nil => simp [distinct]
  | cons b t ih =>
    simp only [distinct, List.mem_cons, List.mem_filter, ih, decide_eq_true_eq]
    by_cases e : a = b <;> simp [e]

/-- A number stands at most once among the distinct elements. -/
theorem filter_distinct (l : List Nat) (a : Nat) : ((distinct l).filter fun k => k == a) = if a ∈ l then [a] else [] := by
  induction l with
  | nil => simp [distinct]
  | cons b t ih =>
    simp only [distinct, List.filter_cons, List.filter_filter, List.mem_cons]
    by_cases e : b = a
    · subst e
      simp only [beq_self_eq_true, if_true, true_or, List.cons.injEq, true_and, List.filter_eq_nil_iff, Bool.and_eq_true,
        beq_iff_eq, decide_eq_true_eq, not_and]
      intro x _ h; exact fun h' => h' h
    · have h1 : (b == a) = false := by simpa using e
      have h2 : ((distinct t).filter fun x => (x == a) && decide (x ≠ b)) = (distinct t).filter fun x => x == a := by
        apply List.filter_congr
        intro x _
        by_cases hx : x = a
        · subst hx; simp; exact fun h => e h.symm
        · simp [hx]
      rw [h1, h2, ih]
      simp only [Bool.false_eq_true, if_false]
      congr 1
      simp only [eq_iff_iff]
      exact ⟨.inr, fun h => h.resolve_left fun h => e h.symm⟩

/-- Each slice of the split is rewritten once; every other slice is left alone. -/
theorem perSlice_slice (s : State) (cx : Iss) (f : Nat → Slice → Slice) (sk : Nat) :
    (perSlice s cx f).slice sk = if sk ∈ cx.sp.keys then f sk (s.slice sk) else s.slice sk := by
  rw [show (perSlice s cx f).slice sk = _ from fold_modSlice_slice (distinct cx.sp.keys) (fun k : Nat => k) f s sk,
    filter_distinct]
  split <;> rfl

/-- A property of slices that `f` keeps holds of each slice after `perSlice`. -/
theorem perSlice_keep {γ : Type} (s : State) (cx : Iss) (f : Nat → Slice → Slice) (P : Slice → γ)
    (h : ∀ k sl, P (f k sl) = P sl) (sk : Nat) : P ((perSlice s cx f).slice sk) = P (s.slice sk) := by
  rw [perSlice_slice]; split
  · exact h _ _
  · rfl

/-! ### The end of a word -/

theorem goTo_eq (s : State) (cx : Iss) (pc : BitVec 48) (slots busy : Nat) :
    goTo s cx pc slots busy = { s with
      slices := (passSlots s cx slots).slices
      splits := upd cx.sid (fun sp => { sp with pc := pc, busy := busy - 1, passed := [], declined := [], hazard := none, held := none }) s.splits } := by
  unfold goTo passSlots
  rw [perSlice_rest]; rfl

/-- The end of a word changes no register unit. -/
@[simp] theorem reg_goTo (s : State) (cx : Iss) (pc : BitVec 48) (slots busy sk key : Nat) :
    (goTo s cx pc slots busy).reg sk key = s.reg sk key := by
  rw [goTo_eq]
  exact perSlice_keep s cx (fun _ sl => sl.pass slots) (fun sl => readFinal sl key) (fun _ sl => readFinal_pass sl slots key) sk

@[simp] theorem still_goTo (s : State) (cx : Iss) (pc : BitVec 48) (slots busy sk : Nat) :
    ((goTo s cx pc slots busy).slice sk).still = (s.slice sk).still := by
  rw [goTo_eq]
  exact perSlice_keep s cx (fun _ sl => sl.pass slots) Slice.still (fun _ sl => still_pass sl slots) sk

/-- What a word did to slices alone, followed by its end. -/
theorem onlyRegs_goTo (s u : State) (cx : Iss) (pc : BitVec 48) (slots busy : Nat)
    (hu : u = { s with slices := u.slices }) (hs : ∀ sk, (u.slice sk).still = (s.slice sk).still) :
    OnlyRegs s (goTo u cx pc slots busy) cx pc (busy - 1) := by
  obtain ⟨xs, rfl⟩ : ∃ xs, u = { s with slices := xs } := ⟨_, hu⟩
  refine ⟨?_, fun sk => by rw [still_goTo, hs], fun a => ?_⟩
  · rw [goTo_eq]
  · rw [goTo_eq]

theorem nextWord_advance (s u : State) (cx : Iss) (hu : u = { s with slices := u.slices })
    (hs : ∀ sk, (u.slice sk).still = (s.slice sk).still) : NextWord s (advance u cx) cx :=
  onlyRegs_goTo s u cx _ 1 1 hu hs

theorem nextWord_perLane (s : State) (cx : Iss) (dist : Nat) (f : LaneEnv → List (Nat × Word)) :
    NextWord s (advance (perLane s cx dist f) cx) cx :=
  nextWord_advance s _ cx (perLane_rest s cx dist f) fun sk => by rw [perLane_slice, still_writes]

theorem nextWord_perSlice (s : State) (cx : Iss) (f : Nat → Slice → Slice) (h : ∀ k sl, (f k sl).still = sl.still) :
    NextWord s (advance (perSlice s cx f) cx) cx :=
  nextWord_advance s _ cx (perSlice_rest s cx f) fun sk => perSlice_keep s cx f Slice.still h sk

/-! ### Which lanes a unit belongs to -/

theorem mem_guarded {s : State} {sp : Split} {le : LaneEnv} (h : le ∈ guardedLanes s sp) :
    ∃ j ∈ sp.slices, ∃ i ∈ fourLanes, le = ⟨s.tick, sliceKey sp.team sp.gang j, s.slice (sliceKey sp.team sp.gang j), i, 4 * j + i, sp⟩ := by
  have h1 : le ∈ splitLanes s sp := (List.mem_filter.1 (List.mem_filter.1 h).1).1
  simp only [splitLanes, List.mem_flatten, List.mem_map] at h1
  obtain ⟨l, ⟨j, hj, rfl⟩, hl⟩ := h1
  simp only [laneEnvs, List.mem_map] at hl
  obtain ⟨i, hi, rfl⟩ := hl
  exact ⟨j, hj, i, hi, rfl⟩

/-- Two guarded lanes of one slice at one lane place are one lane. -/
theorem guarded_eq {s : State} {sp : Split} {a b : LaneEnv} (ha : a ∈ guardedLanes s sp) (hb : b ∈ guardedLanes s sp)
    (hk : a.sk = b.sk) (hi : a.i = b.i) : a = b := by
  obtain ⟨j, -, i, -, rfl⟩ := mem_guarded ha
  obtain ⟨j', -, i', -, rfl⟩ := mem_guarded hb
  simp only at hk hi
  have : j = j' := by simp only [sliceKey] at hk; omega
  subst this; subst hi; rfl

theorem guarded_lt {s : State} {sp : Split} {a : LaneEnv} (ha : a ∈ guardedLanes s sp) : a.i < 4 := by
  obtain ⟨j, -, i, hi, rfl⟩ := mem_guarded ha
  simp only [fourLanes, List.mem_cons, List.not_mem_nil, or_false] at hi
  simp only
  omega

theorem guarded_sl {s : State} {sp : Split} {a : LaneEnv} (ha : a ∈ guardedLanes s sp) : a.sl = s.slice a.sk := by
  obtain ⟨j, -, i, -, rfl⟩ := mem_guarded ha
  rfl

/-- One slot of one lane is one unit: equal units of a slice are one slot of one lane. -/
theorem key_inj {s : State} {sp : Split} {a b : LaneEnv} (ha : a ∈ guardedLanes s sp) (hb : b ∈ guardedLanes s sp)
    (hk : a.sk = b.sk) {m n : Nat} (h : a.key m = b.key n) : a = b ∧ m = n := by
  have h1 := guarded_lt ha
  have h2 := guarded_lt hb
  have hw : a.sl.wb = b.sl.wb := by rw [guarded_sl ha, guarded_sl hb, hk]
  simp only [LaneEnv.key, keyX] at h
  have hi : a.i = b.i := by omega
  refine ⟨guarded_eq ha hb hk hi, ?_⟩
  omega

theorem mem_put_lane {le : LaneEnv} {n k v : Nat} {w : Nat × Word} :
    w ∈ le.put n k v ↔ ∃ j, j < k ∧ w = (le.key (n + j), half v j) := by
  have hu : ∀ a k j, j ∈ upFrom a k ↔ a ≤ j ∧ j < a + k := by
    intro a k
    induction k generalizing a with
    | zero => intro j; simp [upFrom]
    | succ k ih => intro j; simp only [upFrom, List.mem_cons, ih]; omega
  simp only [LaneEnv.put, List.mem_map, hu]
  constructor
  · rintro ⟨j, ⟨-, hj⟩, rfl⟩; exact ⟨j, by omega, rfl⟩
  · rintro ⟨j, hj, rfl⟩; exact ⟨j, ⟨Nat.zero_le _, by omega⟩, rfl⟩

/-- Writes of `k` x slots of each active guarded lane, followed by the end of the word. -/
theorem writesX_put (s : State) (cx : Iss) (dist d k : Nat) (f : LaneEnv → Nat) :
    WritesX s (advance (perLane s cx dist fun le => le.put d k (f le)) cx) cx d k f := by
  constructor
  · intro le hle j hj
    simp only [advance, reg_goTo]
    simp only [State.reg, perLane_slice]
    apply readFinal_writes
    · refine ⟨_, List.mem_flatMap.2 ⟨le, List.mem_filter.2 ⟨hle, by simp⟩, mem_put_lane.2 ⟨j, hj, rfl⟩⟩, rfl⟩
    · intro w hw e
      obtain ⟨b, hb, hw⟩ := List.mem_flatMap.1 hw
      obtain ⟨hb, hk⟩ := List.mem_filter.1 hb
      obtain ⟨j', -, rfl⟩ := mem_put_lane.1 hw
      obtain ⟨rfl, he⟩ := key_inj hb hle (by simpa using hk) e
      have : j' = j := by omega
      subst this; rfl
  · intro sk key h
    simp only [advance, reg_goTo]
    simp only [State.reg, perLane_slice]
    apply readFinal_writes_ne
    intro w hw e
    obtain ⟨b, hb, hw⟩ := List.mem_flatMap.1 hw
    obtain ⟨hb, hk⟩ := List.mem_filter.1 hb
    obtain ⟨j, hj, rfl⟩ := mem_put_lane.1 hw
    exact h b hb j hj ⟨by simpa using hk, e⟩

theorem half_zero (v : Nat) : half v 0 = w32 v := by simp [half, w32]

/-- As `writesX_put`, for one slot. -/
theorem writesX_one (s : State) (cx : Iss) (dist d : Nat) (f : LaneEnv → Nat) :
    WritesX s (advance (perLane s cx dist fun le => [(le.key d, w32 (f le))]) cx) cx d 1 f := by
  have := writesX_put s cx dist d 1 f
  simpa [LaneEnv.put, upFrom, half_zero] using this

theorem writesP_pred (s : State) (cx : Iss) (dist p : Nat) (f : LaneEnv → Bool) :
    WritesP s (advance (predEffect s cx dist p f) cx) cx p f := by
  unfold predEffect
  split
  · rename_i h; subst h
    refine ⟨fun _ _ h => absurd rfl h, fun sk key _ => by simp only [advance, reg_goTo]⟩
  · rename_i hp
    constructor
    · intro le hle _
      simp only [advance, reg_goTo]
      simp only [State.reg, perLane_slice]
      apply readFinal_writes
      · exact ⟨_, List.mem_flatMap.2 ⟨le, List.mem_filter.2 ⟨hle, by simp⟩, List.mem_singleton.2 rfl⟩, rfl⟩
      · intro w hw e
        obtain ⟨b, hb, hw⟩ := List.mem_flatMap.1 hw
        obtain ⟨hb, hk⟩ := List.mem_filter.1 hb
        rw [List.mem_singleton.1 hw] at e ⊢
        have h1 := guarded_lt hb
        have h2 := guarded_lt hle
        have : b = le := guarded_eq hb hle (by simpa using hk) (by simp only [keyP] at e; omega)
        rw [this]
    · intro sk key h
      simp only [advance, reg_goTo]
      simp only [State.reg, perLane_slice]
      apply readFinal_writes_ne
      intro w hw e
      obtain ⟨b, hb, hw⟩ := List.mem_flatMap.1 hw
      obtain ⟨hb, hk⟩ := List.mem_filter.1 hb
      rw [List.mem_singleton.1 hw] at e
      exact h b hb ⟨hp, by simpa using hk, e⟩

theorem nextWord_pred (s : State) (cx : Iss) (dist p : Nat) (f : LaneEnv → Bool) :
    NextWord s (advance (predEffect s cx dist p f) cx) cx := by
  unfold predEffect
  split
  · exact nextWord_advance s s cx rfl fun _ => rfl
  · exact nextWord_perLane s cx dist _

/-- Writes of a g register in each slice of the split. -/
theorem writesG_perSlice (s : State) (cx : Iss) (dist d : Nat) (f : Nat → Slice → Nat) :
    WritesG s (advance (perSlice s cx fun sk sl => sl.writeG cx.sp.handler dist d (f sk sl)) cx) cx d
      (fun sk => f sk (s.slice sk)) := by
  constructor
  · intro sk hm hd hh hlt
    simp only [State.regG, advance, reg_goTo]
    simp only [State.reg, perSlice_slice, if_pos hm, writeG_eq, if_neg hd]
    apply readFinal_writes
    · have : hh = 0 ∨ hh = 1 := by omega
      rcases this with rfl | rfl <;> simp
    · intro w hw e
      simp only [List.mem_cons, List.not_mem_nil, or_false] at hw
      rcases hw with rfl | rfl
      · obtain rfl : hh = 0 := by simp only [keyG] at e; omega
        rfl
      · obtain rfl : hh = 1 := by simp only [keyG] at e; omega
        rfl
  · intro sk k0 hne
    simp only [advance, reg_goTo]
    simp only [State.reg, perSlice_slice]
    split
    · rename_i hm
      rw [writeG_eq]
      apply readFinal_writes_ne
      intro w hw e
      split at hw
      · simp at hw
      · rename_i hd
        simp only [List.mem_cons, List.not_mem_nil, or_false] at hw
        rcases hw with rfl | rfl
        · exact hne 0 (by omega) ⟨hd, hm, e⟩
        · exact hne 1 (by omega) ⟨hd, hm, e⟩
    · rfl

theorem nextWord_perSliceG (s : State) (cx : Iss) (dist d : Nat) (f : (Nat → Nat) → Nat) :
    NextWord s (advance (perSliceG s cx dist d f) cx) cx :=
  nextWord_perSlice s cx _ fun k sl => by rw [writeG_eq, still_writes]

/-! ### The shared prologue -/

theorem runIssue_ok (s : State) (i : Instr) (cx : Iss) (pre : Iss → Option CauseRec) (body : Iss → Except CauseRec State)
    (t : State) (h : Issues s i cx) (hp : pre cx = none) (hb : body cx = .ok t) : runIssue s i pre body = .next t := by
  obtain ⟨h1, h2, h3, -⟩ := h
  simp only [runIssue, h1, hp, h2, hb, h3]

theorem plain_ok (s : State) (i : Instr) (cx : Iss) (body : Iss → State) (h : Issues s i cx) :
    plain s i body = .next (body cx) := runIssue_ok s i cx _ _ _ h rfl rfl

theorem checked_ok (s : State) (i : Instr) (cx : Iss) (body : Iss → Except CauseRec State) (t : State) (h : Issues s i cx)
    (hb : body cx = .ok t) : checked s i body = .next t := runIssue_ok s i cx _ _ _ h rfl hb

end Sys2Proof.Machine
end

