-- ==== Sys2Proof/Laws/Integer.lean ====
section
/-! SUPPORT. The element arithmetic: each element of a result is the operation's own, and the fit of R140. -/
namespace Sys2Proof.Machine

theorem itWidth_cases (it : Nat) : itWidth it = 32 ∨ itWidth it = 16 ∨ itWidth it = 8 := by
  unfold itWidth; split
  · exact .inl rfl
  · split
    · exact .inr (.inl rfl)
    · exact .inr (.inr rfl)

theorem itWidth_pos (it : Nat) : 0 < itWidth it := by
  rcases itWidth_cases it with h | h | h <;> omega

/-- A field below bit 32 reads alike from a number and from its low 32 bits. -/
theorem field_mod32 (n p w : Nat) (h : p + w ≤ 32) : n % 2 ^ 32 / 2 ^ p % 2 ^ w = n / 2 ^ p % 2 ^ w := by
  have e : 2 ^ 32 = 2 ^ p * 2 ^ (32 - p) := by rw [← Nat.pow_add]; congr 1; omega
  rw [e, Nat.mod_mul_right_div_self, Nat.mod_mod_of_dvd]
  exact Nat.pow_dvd_pow 2 (by omega)

/-- The digits of a number in base `B`. -/
theorem digits4 (B x y z v : Nat) (hx : x < B) (hy : y < B) (hz : z < B) (hv : v < B) :
    (x + B * (y + B * (z + B * v))) % B = x ∧ (x + B * (y + B * (z + B * v))) / B % B = y
      ∧ (x + B * (y + B * (z + B * v))) / (B * B) % B = z ∧ (x + B * (y + B * (z + B * v))) / (B * B * B) % B = v := by
  have hB : 0 < B := by omega
  have d : ∀ a q, a < B → (a + B * q) / B = q := fun a q h => by
    rw [Nat.add_mul_div_left _ _ hB, Nat.div_eq_of_lt h, Nat.zero_add]
  have m : ∀ a q, a < B → (a + B * q) % B = a := fun a q h => by rw [Nat.add_mul_mod_self_left, Nat.mod_eq_of_lt h]
  refine ⟨m _ _ hx, ?_, ?_, ?_⟩
  · rw [d _ _ hx, m _ _ hy]
  · rw [← Nat.div_div_eq_div_mul, d _ _ hx, d _ _ hy, m _ _ hz]
  · rw [← Nat.div_div_eq_div_mul, ← Nat.div_div_eq_div_mul, d _ _ hx, d _ _ hy, d _ _ hz, Nat.mod_eq_of_lt hv]

/-- A sum of four, or of two, digits. -/
theorem sum4 (B : Nat) (x : Nat → Nat) : sumNat ((upFrom 0 4).map fun k => x k * B ^ k) = x 0 + B * (x 1 + B * (x 2 + B * x 3)) := by
  simp only [sumNat, upFrom, List.map_cons, List.map_nil, List.foldl_cons, List.foldl_nil, Nat.zero_add, Nat.pow_zero,
    Nat.pow_succ, Nat.mul_one, Nat.one_mul, Nat.mul_add, Nat.reduceAdd]
  generalize x 0 = a; generalize x 1 = b; generalize x 2 = c; generalize x 3 = d
  rw [Nat.mul_comm b B, Nat.mul_comm c (B * B), Nat.mul_comm d (B * B * B)]
  simp only [Nat.mul_assoc, Nat.add_assoc]
theorem sum2 (B : Nat) (x : Nat → Nat) : sumNat ((upFrom 0 2).map fun k => x k * B ^ k) = x 0 + B * (x 1 + B * (0 + B * 0)) := by
  simp only [sumNat, upFrom, List.map_cons, List.map_nil, List.foldl_cons, List.foldl_nil, Nat.zero_add, Nat.pow_zero,
    Nat.pow_succ, Nat.mul_one, Nat.one_mul, Nat.mul_zero, Nat.add_zero]
  rw [Nat.mul_comm B]

/-- Element `k` of a per-element result is the operation's result on the elements. -/
theorem perElem_nat (w : Nat) (hw : w = 32 ∨ w = 16 ∨ w = 8) (g : Nat → Nat) (k : Nat) (hk : k < 32 / w) :
    sumNat ((upFrom 0 (32 / w)).map fun k => g k % 2 ^ w * 2 ^ (w * k)) % 2 ^ 32 / 2 ^ (w * k) % 2 ^ w = g k % 2 ^ w := by
  have hp := fun k => Nat.mod_lt (g k) (Nat.two_pow_pos w)
  generalize hx : (fun k => g k % 2 ^ w) = x
  have hg : ∀ k, g k % 2 ^ w = x k := fun k => by rw [← hx]
  simp only [hg] at hp ⊢
  rcases hw with rfl | rfl | rfl
  · obtain rfl : k = 0 := by omega
    rw [field_mod32 _ _ _ (by omega)]
    simp only [sumNat, upFrom, List.map_cons, List.map_nil, List.foldl_cons, List.foldl_nil, Nat.mul_zero, Nat.pow_zero,
      Nat.mul_one, Nat.zero_add, Nat.div_one, Nat.reduceDiv]
    exact Nat.mod_eq_of_lt (hp 0)
  · obtain ⟨h0, h1, -, -⟩ := digits4 (2 ^ 16) (x 0) (x 1) 0 0 (hp 0) (hp 1) (Nat.two_pow_pos _) (Nat.two_pow_pos _)
    simp only [Nat.pow_mul]
    rw [show 32 / 16 = 2 from rfl, sum2, ← Nat.pow_mul]
    have : k = 0 ∨ k = 1 := by omega
    rcases this with rfl | rfl
    · rw [field_mod32 _ _ _ (by omega), Nat.mul_zero, Nat.pow_zero, Nat.div_one]; exact h0
    · rw [field_mod32 _ _ _ (by omega), Nat.mul_one]; exact h1
  · obtain ⟨h0, h1, h2, h3⟩ := digits4 (2 ^ 8) (x 0) (x 1) (x 2) (x 3) (hp 0) (hp 1) (hp 2) (hp 3)
    simp only [Nat.pow_mul]
    rw [show 32 / 8 = 4 from rfl, sum4, ← Nat.pow_mul]
    have : k = 0 ∨ k = 1 ∨ k = 2 ∨ k = 3 := by omega
    rcases this with rfl | rfl | rfl | rfl
    · rw [field_mod32 _ _ _ (by omega), Nat.mul_zero, Nat.pow_zero, Nat.div_one]; exact h0
    · rw [field_mod32 _ _ _ (by omega), Nat.mul_one]; exact h1
    · rw [field_mod32 _ _ _ (by omega), show 8 * 2 = 8 + 8 from rfl, Nat.pow_add 2 8 8]; exact h2
    · rw [field_mod32 _ _ _ (by omega), show 8 * 3 = 8 + 8 + 8 from rfl, Nat.pow_add 2 (8 + 8) 8, Nat.pow_add 2 8 8]; exact h3

theorem elemBits_perElem (it : Nat) (f : Nat → Nat → Nat → Nat) (a b d k : Nat) (hk : k < 32 / itWidth it) :
    elemBits it k (w32 (perElem it f a b d)) = BitVec.ofNat (itWidth it)
      (f (bits a (itWidth it * k) (itWidth it)) (bits b (itWidth it * k) (itWidth it)) (bits d (itWidth it * k) (itWidth it))) := by
  apply BitVec.eq_of_toNat_eq
  simp only [elemBits, w32, BitVec.toNat_ofNat]
  exact perElem_nat (itWidth it) (itWidth_cases it)
    (fun k => f (bits a (itWidth it * k) (itWidth it)) (bits b (itWidth it * k) (itWidth it)) (bits d (itWidth it * k) (itWidth it))) k hk

theorem ofNat_bits (it k : Nat) (v : Word) : BitVec.ofNat (itWidth it) (bits v.toNat (itWidth it * k) (itWidth it)) = elemBits it k v := by
  apply BitVec.eq_of_toNat_eq
  simp [elemBits, bits]

theorem elemVal_eq (sgn : Bool) (w u : Nat) (hw : 0 < w) : elemVal sgn w u = valueOf sgn (BitVec.ofNat w u) := by
  unfold elemVal valueOf
  split
  · rw [BitVec.toInt_eq_toNat_cond]
    simp only [signed, BitVec.toNat_ofNat]
    have h2 : 2 ^ w = 2 * 2 ^ (w - 1) := by
      obtain ⟨v, rfl⟩ : ∃ v, w = v + 1 := ⟨w - 1, by omega⟩
      simp only [Nat.add_sub_cancel, Nat.pow_succ]; omega
    generalize 2 ^ (w - 1) = h at *
    rw [h2]
    split <;> split <;> omega
  · rw [BitVec.toNat_ofNat]

theorem elemVal_bits (it k : Nat) (v : Word) :
    elemVal (itSigned it) (itWidth it) (bits v.toNat (itWidth it * k) (itWidth it)) = elemInt it k v := by
  rw [elemVal_eq _ _ _ (itWidth_pos it), ofNat_bits]; rfl

theorem ofNat_wrap (w : Nat) (r : Int) : BitVec.ofNat w (wrap w r) = BitVec.ofInt w r := by
  apply BitVec.eq_of_toNat_eq
  simp only [wrap, BitVec.toNat_ofNat, BitVec.toNat_ofInt]
  have h1 : (0 : Int) < ((2 ^ w : Nat) : Int) := by exact_mod_cast Nat.two_pow_pos w
  have h2 := Int.emod_lt_of_pos r h1
  have h3 := Int.emod_nonneg r (Int.ne_of_gt h1)
  rw [Nat.mod_eq_of_lt]
  omega

theorem ofNat_fit (it : Nat) (sat : Bool) (r : Int) :
    BitVec.ofNat (itWidth it) (fit (itSigned it) (itWidth it) sat r) = fitted it sat r := by
  rw [fit, ofNat_wrap, fitted]
  congr 1
  split
  · have hp : (1 : Int) ≤ 2 ^ (itWidth it - 1) := by
      have := Nat.two_pow_pos (itWidth it - 1); exact_mod_cast this
    have hq : (1 : Int) ≤ 2 ^ itWidth it := by
      have := Nat.two_pow_pos (itWidth it); exact_mod_cast this
    unfold clampInt typeLo typeHi
    cases itSigned it <;> simp only [if_true, if_false, Bool.false_eq_true] <;> push_cast <;> omega
  · rfl

end Sys2Proof.Machine
end

