-- ==== Sys2Proof/Laws/Mem.lean ====
section
/-! SUPPORT. Memory: a read after a write, and the canonical form under every operation that writes memory (R202, R257, R261,
R266, R268, R278, R338, R380). -/
namespace Sys2Proof.Machine

/-! ### Bytes -/

theorem readByte_writeByte (m : List Host.Cell) (a x : Nat) (b : Byte) :
    readByte (writeByte m a b) x = if a = x then b else readByte m x := by
  unfold readByte writeByte
  by_cases h : a = x
  · subst h; simp [getD_setD]
  · simp [getD_setD, h]

theorem writeByte_wf {m : List Host.Cell} (a : Nat) (b : Byte) (h : Memory.wf m = true) : Memory.wf (writeByte m a b) = true :=
  canonical_setD 0 a b m h

theorem filter_wf {m : List Host.Cell} (p : Host.Cell → Bool) (h : Memory.wf m = true) : Memory.wf (m.filter p) = true :=
  canonical_filter 0 p m h

/-- Any number of writes of single bytes keep the canonical form. -/
theorem fold_wf {α : Type} (l : List α) (f : List Host.Cell → α → List Host.Cell)
    (hf : ∀ m a, Memory.wf m = true → Memory.wf (f m a) = true) {m : List Host.Cell} (h : Memory.wf m = true) :
    Memory.wf (l.foldl f m) = true := by
  induction l generalizing m with
  | nil => exact h
  | cons a t ih => exact ih (hf m a h)

theorem fold_writeByte_wf {α : Type} (l : List α) (k : α → Nat) (v : α → Byte) {m : List Host.Cell} (h : Memory.wf m = true) :
    Memory.wf (l.foldl (fun m e => writeByte m (k e) (v e)) m) = true :=
  fold_wf l _ (fun _ _ h => writeByte_wf _ _ h) h

/-- Any number of state operations that keep the invariant keep it. -/
theorem fold_inv {α : Type} (l : List α) (f : State → α → State) (hf : ∀ s a, s.Inv → (f s a).Inv) {s : State} (h : s.Inv) :
    (l.foldl f s).Inv := by
  induction l generalizing s with
  | nil => exact h
  | cons a t ih => exact ih (hf s a h)

/-- Operations that leave memory alone, one after another, leave it alone. -/
theorem fold_mem {α : Type} (l : List α) (f : State → α → State) (hf : ∀ s a, (f s a).mem = s.mem) (s : State) :
    (l.foldl f s).mem = s.mem := by
  induction l generalizing s with
  | nil => rfl
  | cons a t ih => exact (ih (f s a)).trans (hf s a)

theorem inv_of_mem {s t : State} (h : s.Inv) (e : t.mem = s.mem) : t.Inv := by unfold State.Inv; rw [e]; exact h

/-- Reset memory lists nothing. -/
theorem reset_inv : State.reset.Inv := rfl

/-! ### The L2 and monitors leave memory alone -/

@[simp] theorem cleanLine_mem (s : State) (l : Nat) : (cleanLine s l).mem = s.mem := rfl
@[simp] theorem wakeLine_mem (s : State) (l : Nat) : (wakeLine s l).mem = s.mem := rfl

@[simp] theorem evictWay_mem (s : State) (site slice set : Nat) (w : L2Way) : (evictWay s site slice set w).mem = s.mem :=
  fold_mem _ _ (fun _ _ => cleanLine_mem ..) s

@[simp] theorem l2Touch_mem (s : State) (a part ret : Nat) (w al : Bool) : (l2Touch s a part ret w al).mem = s.mem := by
  unfold l2Touch
  dsimp only
  split
  · rfl
  · have hc : ∀ (u : State) (b : Bool), (if b then cleanLine u (lineOf a) else u).mem = u.mem := by
      intro u b; cases b <;> rfl
    split <;> split
    · exact hc _ _
    · rfl
    · exact hc _ _
    · split
      · rfl
      · dsimp only; split <;> simp

@[simp] theorem l2Drop_mem (s : State) (a : Nat) : (l2Drop s a).mem = s.mem := by
  unfold l2Drop; simp only; split <;> rfl

@[simp] theorem l2Clean_mem (s : State) (a : Nat) : (l2Clean s a).mem = s.mem := by
  unfold l2Clean; simp only; split <;> rfl

@[simp] theorem pocTouch_mem (s : State) (part ret : Nat) (al : Bool) (as : List Nat) : (pocTouch s part ret al as).mem = s.mem :=
  fold_mem _ _ (fun _ _ => l2Touch_mem ..) s

/-! ### Writes at the point of coherence -/

@[simp] theorem pocByte_mem (s : State) (a : Nat) (b : Byte) : (pocByte s a b).mem = writeByte s.mem a b := by
  unfold pocByte; simp only; split <;> rfl

@[simp] theorem notePast_mem (s : State) (as : List Nat) : (notePast s as).mem = s.mem := by
  unfold notePast; split <;> rfl

@[simp] theorem syncPoison_mem (s : State) : (syncPoison s).mem = s.mem := rfl

/-- What a write at the point of coherence does to memory, and that it does nothing else to it. -/
theorem pocWrite_mem (s : State) (part ret : Nat) (bs : List (Nat × Byte)) :
    (pocWrite s part ret bs).mem = bs.foldl (fun m e => writeByte m e.1 e.2) s.mem := by
  unfold pocWrite
  simp only
  rw [fold_mem _ wakeLine wakeLine_mem]
  have : ∀ (bs : List (Nat × Byte)) (t : State),
      (bs.foldl (fun t e => pocByte t e.1 e.2) t).mem = bs.foldl (fun m e => writeByte m e.1 e.2) t.mem := by
    intro bs
    induction bs with
    | nil => intro t; rfl
    | cons e r ih => intro t; simp only [List.foldl_cons]; rw [ih, pocByte_mem]
  have same : ∀ (b : Bool) (t : State), (if b = true then t else syncPoison t).mem = t.mem := by
    intro b t; cases b <;> rfl
  rw [same, this, fold_mem _ _ (fun _ _ => l2Touch_mem ..), notePast_mem]

theorem pocWrite_inv {s : State} (part ret : Nat) (bs : List (Nat × Byte)) (h : s.Inv) : (pocWrite s part ret bs).Inv := by
  unfold State.Inv; rw [pocWrite_mem]; exact fold_writeByte_wf bs _ _ h

/-- Bytes that a run of writes does not name stay. -/
theorem readByte_fold_ne (bs : List (Nat × Byte)) (m : List Host.Cell) (a : Nat) (h : a ∉ bs.map (·.1)) :
    readByte (bs.foldl (fun m e => writeByte m e.1 e.2) m) a = readByte m a := by
  induction bs generalizing m with
  | nil => rfl
  | cons e t ih =>
    simp only [List.map_cons, List.mem_cons, not_or] at h
    rw [List.foldl_cons, ih _ h.2, readByte_writeByte, if_neg (fun x => h.1 x.symm)]

/-- Bytes that a run of writes names once read as written. -/
theorem readByte_fold_mem (bs : List (Nat × Byte)) (m : List Host.Cell) (hn : (bs.map (·.1)).Nodup) (e : Nat × Byte)
    (he : e ∈ bs) : readByte (bs.foldl (fun m e => writeByte m e.1 e.2) m) e.1 = e.2 := by
  induction bs generalizing m with
  | nil => cases he
  | cons x t ih =>
    simp only [List.map_cons, List.nodup_cons] at hn
    rw [List.foldl_cons]
    rcases List.mem_cons.1 he with rfl | he
    · rw [readByte_fold_ne _ _ _ hn.1, readByte_writeByte, if_pos rfl]
    · exact ih _ hn.2 he

theorem writeEntry_inv {s : State} (part site off v : Nat) (h : s.Inv) : (writeEntry s part site off v).Inv :=
  pocWrite_inv part 2 _ h

/-! ### The L1 -/

theorem l1CleanLine_inv {s : State} (ck part ret line : Nat) (h : s.Inv) : (l1CleanLine s ck part ret line).Inv := by
  unfold l1CleanLine
  simp only
  split
  · exact h
  · split
    · exact h
    · exact pocWrite_inv part ret _ h

@[simp] theorem l1DropLine_mem (s : State) (ck line : Nat) : (l1DropLine s ck line).mem = s.mem := rfl

theorem l1CleanAll_inv {s : State} (ck part ret : Nat) (h : s.Inv) : (l1CleanAll s ck part ret).Inv :=
  fold_inv _ _ (fun _ _ h => l1CleanLine_inv ck part ret _ h) h

theorem l1FlushAll_inv {s : State} (ck part ret : Nat) (h : s.Inv) : (l1FlushAll s ck part ret).Inv :=
  fold_inv _ _ (fun t l h => inv_of_mem (t := l1DropLine (l1CleanLine t ck part ret l) ck l) (l1CleanLine_inv ck part ret l h) rfl) h

theorem l1Room_inv {s : State} (ck part ret line : Nat) (h : s.Inv) : (l1Room s ck part ret line).Inv := by
  unfold l1Room
  simp only
  split
  · exact h
  · split
    · exact h
    · exact inv_of_mem (l1CleanLine_inv ck part ret _ h) rfl

theorem l1LoadLine_inv {s : State} (ck part ep line : Nat) (offs : List Nat) (h : s.Inv) :
    (l1LoadLine s ck part ep line offs).2.Inv := by
  unfold l1LoadLine
  simp only
  split
  · exact h
  · have hb := inv_of_mem h (l2Touch_mem s (line * 128) part (retOf ep) false true)
    split
    · exact hb
    · split
      · exact inv_of_mem hb (State.setCore_mem ..)
      · exact inv_of_mem (l1Room_inv ck part (retOf ep) line hb) (State.setCore_mem ..)

theorem l1StoreLine_inv {s : State} (ck part ep line : Nat) (bs : List (Nat × Byte)) (h : s.Inv) :
    (l1StoreLine s ck part ep line bs).Inv := by
  unfold l1StoreLine
  simp only
  split
  · exact pocWrite_inv part _ _ h
  · split
    · exact inv_of_mem h rfl
    · exact inv_of_mem (l1Room_inv ck part (retOf ep) line h) rfl

theorem storeBytes_inv {s : State} (ck part ep : Nat) (bs : List (Nat × Byte)) (h : s.Inv) : (storeBytes s ck part ep bs).Inv :=
  fold_inv _ _ (fun _ _ h => l1StoreLine_inv ck part ep _ _ h) h

/-- A fold that carries a value beside the state keeps the invariant of the state. -/
theorem foldPair_inv {α β : Type} (l : List α) (f : β × State → α → β × State) (hf : ∀ r a, r.2.Inv → (f r a).2.Inv)
    {r : β × State} (h : r.2.Inv) : (l.foldl f r).2.Inv := by
  induction l generalizing r with
  | nil => exact h
  | cons a t ih => exact ih (hf r a h)

theorem loadBytes_inv {s : State} (ck part ep : Nat) (as : List Nat) (h : s.Inv) : (loadBytes s ck part ep as).2.Inv := by
  unfold loadBytes
  refine foldPair_inv _ _ (fun r a h => ?_) h
  dsimp only
  exact l1LoadLine_inv ck part ep a.1 a.2 h

theorem l2Discard_inv {s : State} (a : Nat) (h : s.Inv) : (l2Discard s a).Inv := by
  have hm : ∀ (l : List (Nat × Byte)) (p : Nat × Byte → Bool) {m : List Host.Cell}, Memory.wf m = true →
      Memory.wf (l.foldl (fun m e => if p e then m else writeByte m e.1 e.2) m) = true := by
    intro l p m h
    refine fold_wf l _ (fun m e h => ?_) h
    split
    · exact h
    · exact writeByte_wf _ _ h
  unfold State.Inv l2Discard
  rw [l2Drop_mem, cleanLine_mem]
  dsimp only
  rw [notePast_mem]
  have := hm (s.stale.filter fun e => decide (lineOf e.1 = lineOf a))
    (fun e => decide (Config.choose (notePast s ((s.stale.filter fun e => decide (lineOf e.1 = lineOf a)).map (·.1))).tick
      (12 * 2 ^ 64 + e.1) % 2 = 0)) h
  simpa only [decide_eq_true_eq] using this

theorem lastUseBelow_inv {s : State} (part ret line : Nat) (h : s.Inv) : (lastUseBelow s part ret line).Inv := by
  unfold lastUseBelow
  split
  · exact l2Discard_inv _ h
  · exact inv_of_mem h (l2Touch_mem ..)

theorem lastUse_inv {s : State} (ck part ep : Nat) (as : List Nat) (h : s.Inv) : (lastUse s ck part ep as).2.Inv := by
  unfold lastUse
  refine foldPair_inv _ _ (fun r run h => ?_) h
  dsimp only
  split
  · dsimp only
    refine inv_of_mem ?_ (l1DropLine_mem ..)
    unfold State.Inv
    dsimp only
    refine fold_writeByte_wf _ _ _ ?_
    rw [notePast_mem]
    split
    · exact h
    · split
      · exact l2Discard_inv _ h
      · exact h
  · exact lastUseBelow_inv part (retOf ep) run.1 h

/-! ### Whole ranges -/

/-- What new contents of a range do to memory. -/
theorem overwrite_mem (s : State) (a n : Nat) (bs : List (Nat × Byte)) :
    (overwrite s a n bs).mem = bs.foldl (fun m e => writeByte m e.1 e.2) (s.mem.filter fun e => decide (e.1 < a ∨ a + n ≤ e.1)) := by
  unfold overwrite; simp

theorem overwrite_inv {s : State} (a n : Nat) (bs : List (Nat × Byte)) (h : s.Inv) : (overwrite s a n bs).Inv := by
  unfold State.Inv; rw [overwrite_mem]; exact fold_writeByte_wf _ _ _ (filter_wf (fun e => decide (e.1 < a ∨ a + n ≤ e.1)) h)

theorem zeroRange_inv {s : State} (a n : Nat) (h : s.Inv) : (zeroRange s a n).Inv := overwrite_inv a n [] h

/-- A zeroed range reads 0, and every other byte stays. -/
theorem readByte_zeroRange (s : State) (a n x : Nat) :
    readByte (zeroRange s a n).mem x = if a ≤ x ∧ x < a + n then 0 else readByte s.mem x := by
  unfold zeroRange readByte getD
  rw [overwrite_mem, List.foldl_nil, find_filter (fun i => decide (i < a ∨ a + n ≤ i))]
  by_cases h : a ≤ x ∧ x < a + n
  · rw [if_pos h, if_neg (by simp; omega)]; rfl
  · rw [if_neg h, if_pos (by simp; omega)]

theorem copyRange_inv {s : State} (src dst n : Nat) (h : s.Inv) : (copyRange s src dst n).Inv :=
  inv_of_mem (overwrite_inv dst n _ h) rfl

theorem hbmWrite_inv {s : State} (a : Nat) (bs : List Byte) (h : s.Inv) : (hbmWrite s a bs).Inv := by
  unfold hbmWrite
  refine fold_inv _ _ (fun t l ht => inv_of_mem ht (by simp)) ?_
  unfold State.Inv
  rw [syncPoison_mem]
  dsimp only
  rw [notePast_mem]
  exact fold_writeByte_wf _ _ _ (filter_wf (fun e => decide (e.1 < a ∨ a + bs.length ≤ e.1)) h)

theorem settleL2_inv {s : State} (site : Nat) (fault : Bool) (h : s.Inv) : (settleL2 s site fault).Inv := by
  unfold settleL2 State.Inv
  simp only
  split
  · exact fold_writeByte_wf _ _ _ h
  · exact h

theorem clearVaults_inv {s : State} (site : Nat) (h : s.Inv) : (clearVaults s site).Inv := filter_wf _ h

theorem storeWord_inv {s : State} (ck pa : Nat) (w : Word) (h : s.Inv) : (storeWord s ck pa w).Inv :=
  fold_writeByte_wf _ _ _ h

end Sys2Proof.Machine
end

