-- ==== Sys2Proof/Laws/Words.lean ====
section
/-! SUPPORT. How a meaning over the shared operations gives the statement of a word (ElemWord, LaneWord, SliceWord, PredWord),
and what the shared ends of a step can do: a wait that ends, a cause that is raised, a command that answers. -/
namespace Sys2Proof.Machine

/-! ### Words that write registers -/

theorem elemWord_of (i : Instr) (d : BitVec 8) (r : (it : Nat) → Bool → Nat → LaneEnv → BitVec (itWidth it)) (dist : Nat)
    (f : State → Iss → LaneEnv → Nat)
    (hx : ∀ s cx, Issues s i cx → exec i s = .next (advance (perLane s cx dist fun le => [(le.key d.toNat, w32 (f s cx le))]) cx))
    (hr : ∀ s cx le k, k < 32 / itWidth (modeIT cx.sp.mode) →
      elemBits (modeIT cx.sp.mode) k (w32 (f s cx le)) = r (modeIT cx.sp.mode) (modeSAT cx.sp.mode) k le) :
    ElemWord i d r := by
  intro s cx h
  refine ⟨_, hx s cx h, nextWord_perLane s cx dist _, (writesX_one s cx dist d.toNat (f s cx)).2, ?_⟩
  intro le hle k hk
  have := (writesX_one s cx dist d.toNat (f s cx)).1 le hle 0 (by omega)
  rw [Nat.add_zero, half_zero] at this
  rw [this]; exact hr s cx le k hk

theorem laneWord_of (i : Instr) (d : BitVec 8) (g f : State → Iss → LaneEnv → Nat) (dist : Nat)
    (hx : ∀ s cx, Issues s i cx → exec i s = .next (advance (perLane s cx dist fun le => [(le.key d.toNat, w32 (f s cx le))]) cx))
    (hr : ∀ s cx le, w32 (f s cx le) = w32 (g s cx le)) : LaneWord i d 1 g := by
  intro s cx h
  refine ⟨_, hx s cx h, nextWord_perLane s cx dist _, ?_⟩
  have : (fun le => [(le.key d.toNat, w32 (f s cx le))]) = fun (le : LaneEnv) => [(le.key d.toNat, w32 (g s cx le))] := by
    funext le; rw [hr]
  rw [this]; exact writesX_one s cx dist d.toNat (g s cx)

theorem sliceWord_of (i : Instr) (d : BitVec 8) (g : State → Iss → Nat → Nat) (dist : Nat) (f : State → Iss → Nat → Slice → Nat)
    (hx : ∀ s cx, Issues s i cx → exec i s =
      .next (advance (perSlice s cx fun sk sl => sl.writeG cx.sp.handler dist d.toNat (f s cx sk sl)) cx))
    (hr : ∀ s cx sk, f s cx sk (s.slice sk) = g s cx sk) : SliceWord i d g := by
  intro s cx h
  refine ⟨_, hx s cx h, ?_, ?_⟩
  · exact nextWord_perSlice s cx _ fun k sl => by rw [writeG_eq, still_writes]
  · have := writesG_perSlice s cx dist d.toNat (f s cx)
    simpa only [hr] using this

theorem predWord_of (i : Instr) (p dist : Nat) (f : State → Iss → LaneEnv → Bool)
    (hx : ∀ s cx, Issues s i cx → exec i s = .next (advance (predEffect s cx dist p (f s cx)) cx)) : PredWord i p f :=
  fun s cx h => ⟨_, hx s cx h, nextWord_pred s cx dist p (f s cx), writesP_pred s cx dist p (f s cx)⟩

/-- A format A integer word in its x form. -/
theorem elem_alu (mk : BitVec 8 → BitVec 8 → BitVec 8 → Bool → Instr) (d a b : BitVec 8) (dist : Nat)
    (f : Bool → Nat → Bool → Nat → Nat → Nat → Nat) (r : (it : Nat) → Bool → Nat → LaneEnv → BitVec (itWidth it))
    (hx : ∀ s, exec (mk d a b false) s = aluElem s (mk d a b false) d a b false dist f)
    (hr : ∀ it sat k (le : LaneEnv), k < 32 / itWidth it → BitVec.ofNat (itWidth it) (f (itSigned it) (itWidth it) sat
      (bits (le.x a.toNat).toNat (itWidth it * k) (itWidth it)) (bits (le.x b.toNat).toNat (itWidth it * k) (itWidth it))
      (bits (le.x d.toNat).toNat (itWidth it * k) (itWidth it))) = r it sat k le) : ElemWord (mk d a b false) d r := by
  refine elemWord_of _ _ _ dist (fun s cx le => perElem (modeIT cx.sp.mode)
    (f (itSigned (modeIT cx.sp.mode)) (itWidth (modeIT cx.sp.mode)) (modeSAT cx.sp.mode))
    (le.x a.toNat).toNat (le.x b.toNat).toNat (le.x d.toNat).toNat) ?_ ?_
  · intro s cx h
    rw [hx, aluElem, plain_ok _ _ _ _ h]; rfl
  · intro s cx le k hk
    rw [elemBits_perElem _ _ _ _ _ _ hk]; exact hr _ _ _ _ hk

/-! ### The ends of a step -/

/-- The end of a wait changes nothing but the split, which goes on at the next word, and where its slices' results stand. -/
theorem endWait_next (s : State) (sid : Nat) (sp : Split) (h : find sid s.splits = some sp) :
    endWait s sid = { s with
        slices := (endWait s sid).slices
        splits := put sid { sp with wait := .none, pc := addPc sp.pc 4, passed := [], declined := [], hazard := none, held := none } s.splits }
      ∧ ∀ sk, (∀ key, (endWait s sid).reg sk key = s.reg sk key) ∧ ((endWait s sid).slice sk).still = (s.slice sk).still := by
  have hr := fold_modSlice_rest sp.keys (fun sk => sk) (fun _ => Slice.settle) s
  unfold endWait
  simp only [h]
  constructor
  · rw [hr]; rfl
  · intro sk
    have hs : ∀ (l : List Nat) (x : Slice), (∀ key, readFinal (l.foldl (fun x _ => x.settle) x) key = readFinal x key)
        ∧ (l.foldl (fun x _ => x.settle) x).still = x.still := by
      intro l
      induction l with
      | nil => intro x; exact ⟨fun _ => rfl, rfl⟩
      | cons a t ih => intro x; exact ⟨fun key => ((ih _).1 key).trans (readFinal_settle x key), (ih _).2.trans (still_settle x)⟩
    have hk := fold_modSlice_slice sp.keys (fun sk => sk) (fun _ => Slice.settle) s sk
    simp only [State.reg, State.setSplit, State.slice] at hk ⊢
    rw [hk]
    exact hs _ _

/-- A command whose slot is published with a plain trailer runs; one whose slot is not is no step of the part. -/
theorem asCommand_ready {s : State} {ty : Nat} (h : CommandReady s ty) (name : String) (k : Out) : asCommand ty name s k = k := by
  unfold asCommand; simp [h.1, h.2]
theorem asCommand_not {s : State} {ty : Nat} (h : commandNext s ty = false) (name : String) (k : Out) :
    asCommand ty name s k = .fault (.notEnabled name) := by unfold asCommand; simp [h]

/-- A command that is done answers its value, one that is refused its status, and changes nothing else. -/
theorem command_ok {s : State} {ty : Nat} (h : CommandReady s ty) (name : String) (t : State) (v : Nat) :
    command ty name s (.ok (t, v)) = .next (endCommand t v 0) := asCommand_ready h ..
theorem command_error {s : State} {ty : Nat} (h : CommandReady s ty) (name : String) (n : Nat) :
    command ty name s (.error n) = .next (endCommand s 0 n) := asCommand_ready h ..

theorem endCommand_answers (s : State) (v n : Nat) :
    (endCommand s v n).fe.cpos = s.fe.cpos + 1 ∧
      getD 0 (s.fe.cpos % 64) (endCommand s v n).fe.cres = BitVec.ofNat 64 (2 ^ 63 + v % 2 ^ 32 * 2 ^ 16 + n) ∧
      endCommand s v n = { s with fe := (endCommand s v n).fe } :=
  ⟨rfl, by simp [endCommand, getD_setD], rfl⟩

/-- An operation keeps every other operation and every register unit as it stands when it is posted. -/
theorem addOp_ops (s : State) (o : Op) :
    find s.nextOp (addOp s o).ops = some o ∧ (∀ id, id ≠ s.nextOp → find id (addOp s o).ops = find id s.ops) ∧
      (addOp s o).nextOp = s.nextOp + 1 ∧ (addOp s o).mem = s.mem := by
  have h : (addOp s o).ops = put s.nextOp o s.ops ∧ (addOp s o).nextOp = s.nextOp + 1 ∧ (addOp s o).mem = s.mem := by
    unfold addOp
    simp only
    split
    · exact ⟨rfl, rfl, rfl⟩
    · rw [fold_modSlice_rest]; exact ⟨rfl, rfl, rfl⟩
  rw [h.1]
  exact ⟨find_put_self _ _ _, fun id hi => find_put_ne _ _ (Ne.symm hi), h.2.1, h.2.2⟩

end Sys2Proof.Machine
end

