-- ==== Sys2Proof/Tests/Slice0.lean ====
section
/-! SUPPORT. Tests: words that the spec writes out, ill-formed terms, worked examples of the spec, and for each statement
of Certificates/Slice0 with hypotheses a state and operands that meet them. Expected values come from the place of the
spec that a comment names. -/
set_option maxRecDepth 8192
set_option Elab.async false
namespace Sys2Proof.Machine

/-! ### Decoding (spec/02; the words are the spec's own) -/

/-- Every word decodes to its instruction. -/
def allDecode (ws : List (Word × Instr)) : Bool := ws.all fun e => (decode e.1).toOption == some e.2
/-- Every word is refused, for the reason named. -/
def allRefused (ws : List (Word × Reject)) : Bool :=
  ws.all fun e => match decode e.1 with | .ok _ => false | .error r => r == e.2

-- 02, 05, 18, 19: integer words.
theorem test_decode_integer : allDecode
    [(0x02040002#32, .add 2 0 1 false), (0x02080A0D#32, .add 4 5 6 true), (0x2E080BFD#32, .addi 4 5 (-3))
    , (0x24080A0C#32, .prmb 4 5 6), (0x2C080A00#32, .clz 4 5 false), (0x2C080A89#32, .movg 4 5 true)
    , (0x2C080CAA#32, .movl 4 6 true 2), (0x2C080A2A#32, .movl 4 5 false 2), (0x40020002#32, .ldh 1 2)
    , (0x42022345#32, .ldl 1 0x2345), (0x182A022D#32, .shl 21 1 22 true), (0x1A161419#32, .shr 11 10 12 true)
    , (0x44300001#32, .ldhg 24 1), (0x2C223C0A#32, .movl 17 30 false 0)] = true := by decide +kernel

-- 05, 06, 15, 18: predicates, MODE, PREC and state registers.
theorem test_decode_predicate_mode : allDecode
    [(0x4818202A#32, .icmp 3 4 5 2), (0x4A1827C8#32, .icmpi 3 4 (-7) 0), (0x4A082804#32, .icmpi 1 5 0 4)
    , (0x4E080000#32, .pmovP2x 4), (0x4E06000C#32, .pmovSet 3 true), (0x50000800#32, .setm 4)
    , (0x50000A50#32, .setmField 5 2), (0x50000290#32, .setmField 1 4), (0x52080000#32, .getm 4)
    , (0x54000800#32, .prset 4), (0x54005010#32, .prsetField 40 0), (0x54000430#32, .prsetField 2 1)
    , (0x54000250#32, .prsetField 1 2), (0x540000B0#32, .prsetField 0 5), (0x54000270#32, .prsetField 1 3)
    , (0x56080000#32, .prget 4), (0x58000000#32, .mfs 0 false 0), (0x5A00F426#32, .mts 122 false 0x26)
    , (0x5C000000#32, .dly 0)] = true := by decide +kernel

-- 03, 05, 15, 18, 19: control.
theorem test_decode_control : allDecode
    [(0x6000000A#32, .br 10), (0x70090003#32, .brg 4 true 3), (0x701AFFF8#32, .brg 13 false (-8))
    , (0x681C0005#32, .brf 3 true 5), (0x6A000004#32, .bre 4), (0x6C000000#32, .join), (0x9E000007#32, .lpb 7)
    , (0x6E1BFFFA#32, .brb 3 false (-6)), (0x72000803#32, .brx 4 3), (0x74000000#32, .joinx)
    , (0x76000000#32, .rgang), (0x78000000#32, .exit), (0x6220000C#32, .call 2 12), (0x82188008#32, .vote 3 4 1)
    , (0x840C0A00#32, .ballot 6 5), (0x84180600#32, .ballot 12 3), (0x88080B01#32, .shfx 4 5 2 1)
    , (0x8A280801#32, .rsort 20 4 1), (0x7C000000#32, .rftAgain), (0x7C000001#32, .rftNext)] = true := by decide +kernel

-- 04, 08, 14: tokens, barriers, fences.
theorem test_decode_tokens : allDecode
    [(0x8E080004#32, .tksRd 4 true), (0x90000805#32, .bsync 4 5), (0x92000803#32, .bari 4 3)
    , (0x94000803#32, .bara 4 3), (0x94001200#32, .bara 9 0), (0x96000803#32, .barw 4 3)
    , (0x980A0800#32, .mwait 5 4), (0xB8000058#32, .fence 1 3 false), (0xB8000088#32, .fence 2 1 false)
    , (0xB8000090#32, .fence 2 2 false), (0xB8000094#32, .fence 2 2 true), (0xB8000124#32, .fence 4 4 true)] = true := by decide +kernel

-- 06, 08, 11, 18, 19: memory words.
theorem test_decode_memory : allDecode
    [(0xA0100868#32, .ldg 8 4 3 2 false), (0xA0100876#32, .ldg 8 4 3 5 true), (0xA00A0430#32, .ldg 5 2 1 4 false)
    , (0xA2100870#32, .stg 8 4 3 4), (0xA2200438#32, .stg 16 2 1 6), (0xB0080C54#32, .ldgg 4 6 2 5 false)
    , (0xB2080C54#32, .stgg 4 6 2 5), (0xA4100A4C#32, .lds 8 5 2 3), (0xA6181E54#32, .sts 12 15 2 5)
    , (0xB6100A40#32, .atoms 8 5 2 0 false false), (0xB4280C38#32, .atom 20 6 1 6 false false)
    , (0xA8040860#32, .ldf 2 4 3 false), (0xAA040860#32, .stf 2 4 3), (0x5E0408A0#32, .vpah 2 4 5)
    , (0xAC020C22#32, .ldp 1 6 1 false 2), (0xAC020C32#32, .ldp 1 6 1 true 2), (0xBE080A00#32, .sprz 4 5)
    , (0xBA241081#32, .cmo 18 8 4 false 1)] = true := by decide +kernel

-- 07, 18: floating point.
theorem test_decode_float : allDecode
    [(0xE008080A#32, .fadd 4 4 5), (0xF4181022#32, .fcmp 3 2 4 2), (0xF6040600#32, .fabs 2 3)
    , (0xF6040607#32, .frnd 2 3 3), (0xF6080403#32, .fclass 4 2), (0xF8040680#32, .fsqrt 2 3 4)
    , (0xF8040683#32, .fexp2 2 3 4), (0xFA020420#32, .fcvtCls 1 2 2), (0xFA080401#32, .fcvtF2s32 4 2)
    , (0xFA141405#32, .fcvtS32f 10 10), (0xFA0C0409#32, .fcvtF2ce 6 2)] = true := by decide +kernel

-- 09, 10, 13, 18, 19: engine and remote words.
theorem test_decode_engine_remote : allDecode
    [(0xC0080A00#32, .tcopyLd 4 5 0), (0xC434080A#32, .mma 3 2 4 5 false), (0xC434080B#32, .mma 3 2 4 5 true)
    , (0xC6301601#32, .mmag 3 0 11 0 true), (0xC834080A#32, .mmas 3 2 4 5 false), (0xCA060040#32, .accz 3 2)
    , (0xCC100840#32, .accrd 8 4 2), (0xCE081040#32, .accwr 4 8 2), (0xD2080A0C#32, .rput 4 5 6)
    , (0xD41E201C#32, .rget 15 16 14), (0xD60C0820#32, .ratom 6 4 1 0 false false), (0xDA100E00#32, .nwait 8 7)] = true := by decide +kernel

/-- One ill-formed word for each check. -/
theorem test_refused : allRefused
    [(0#32, .reservedOpcode), (0x2C08_0A0F#32, .reservedSub), (0x7600_0001#32, .mustBeZero), (0x0280_0A0D#32, .index)
    , (0x2C0A_0A89#32, .alignment)] = true := by decide +kernel

/-- One ill-formed term for each check of R46 that an instruction's fields can fail; an opcode and a must-be-zero bit are
no field of an instruction, so a word shows those (test_refused), and an atomic's S bit. -/
theorem test_ill_formed :
    ([Instr.add 64 1 2 true, .ldg 8 5 0 0 false, .bre 0, .brx 4 257, .mts 1 true 0x50, .fence 0 0 false, .atom 4 6 0 0 true false]).map
      Instr.illegal
    = [some .index, some .alignment, some .offset, some .caseCount, some .stateReg, some .reservedSub, some .mustBeZero] := by
  decide +kernel

/-! ### A small state: one team of one gang of 8 lanes on core 0 of island 0, its one split about to issue -/

/-- Register units from x slots (values of lanes 0 to 3), g registers, and predicates. -/
def labRegs (xs : List (Nat × List Nat)) (gs : List (Nat × Nat)) (ps : List (Nat × List Nat)) : SMap Word :=
  let four := fun (key : Nat → Nat → Nat) (e : Nat × List Nat) => fourLanes.map fun i => (key e.1 i, w32 (e.2.getD i 0))
  let cells := (xs.map (four keyX)).flatten ++ (gs.map fun e => [(keyG e.1 0, half e.2 0), (keyG e.1 1, half e.2 1)]).flatten
    ++ (ps.map (four keyP)).flatten
  cells.foldl (fun m e => put e.1 e.2 m) []

/-- Gang slice `j` with those registers. -/
def labSlice (j : Nat) (regs : SMap Word) : Slice :=
  { size := 256, wb := 8, regs := regs, lanes := fourLanes.map fun i => { lid := w32 (4 * j + i) } }

/-- The state whose split has slices 0 and 1 with those registers, and that MODE. Its window base is 8, so x slot n of an
instruction is slot n + 8 here. -/
def lab (mode : Word) (r0 r1 : SMap Word) : State :=
  let s := placeSplit State.reset
  let t : Team :=
    { asid := 1, grid := 1, idx := 0, x := 0, y := 0, z := 0, site := 0, core := 0
      gangs := [{ width := 8, role := 0, size := 256 }], scratchBase := 8192, scratch := 4096
      tiles := [(0, 0, 0), (1, 0, 1)], barPhys := [0, 1], bbPhys := [0], bars := [{}, {}], bbs := [{}] }
  let g : Grid := { asid := 1, launch := 0, header := 0, hdr := [], kdesc := [], depth := 0, root := 7, teams := 1
                    unretired := 1, toPlace := [], parent := none, pkt := none }
  { s with
    cur := some 1, teams := put 1 t s.teams, slices := [(256, labSlice 0 r0), (257, labSlice 1 r1)]
    splits := s.splits.map fun e => (e.1, { e.2 with slices := [0, 1], mode := mode })
    ctxs := s.ctxs.map fun e => (e.1, { e.2 with window := 0x00400010#64 })
    fe := { s.fe with grids := [(1, g)] } }

/-- The register unit `key` of gang slice `j` after the word, if it completes. -/
def unitAfter (s : State) (i : Instr) (j key : Nat) : Option Word :=
  match exec i s with | .next t => some (t.reg (256 + j) key) | _ => none
/-- x slot `n` of lane `l` of slice 0 after the word. -/
def xAfter (s : State) (i : Instr) (n l : Nat) : Option Word := unitAfter s i 0 (keyX (n + 8) l)
/-- g register `r` of slice 0 after the word. -/
def gAfter (s : State) (i : Instr) (r : Nat) : Option Nat :=
  match unitAfter s i 0 (keyG r 0), unitAfter s i 0 (keyG r 1) with
  | some l, some h => some (l.toNat + 2 ^ 32 * h.toNat)
  | _, _ => none
/-- The counters of the lanes of slice 0 after the word. -/
def countsAfter (s : State) (i : Instr) : Option (List Nat) :=
  match exec i s with | .next t => some ((t.slice 256).lanes.map fun l => l.c.toNat) | _ => none
/-- The code and subcause of the cause that the word delivers to a handler (TCAUSE). -/
def raised (s : State) (i : Instr) : Option (Nat × Nat) :=
  match exec i s with
  | .next t => (find 1 t.splits).map fun sp => (sp.tcause.toNat % 256, sp.tcause.toNat / 256 % 256)
  | _ => none
/-- The word raises a fatal cause: the context ends. -/
def ends (s : State) (i : Instr) : Bool := match exec i s with | .next t => (find 1 t.ctxs).any Ctx.ending | _ => false

/-- x slot `n` in all lanes. -/
def all4 (n v : Nat) : Nat × List Nat := (n + 8, [v, v, v, v])
/-- A MODE with that element type and SAT. -/
def modeOf (it : Nat) (sat : Bool) : Word := w32 (it * 2 ^ 13 + (if sat then 2 ^ 16 else 0))
/-- A state with two x operands at slots 5 and 6 and the old value at slot 4. -/
def labXYZ (mode : Word) (x y z : Nat) : State := lab mode (labRegs [all4 4 z, all4 5 x, all4 6 y] [] []) []

/-! ### Worked examples of the spec -/

-- 05, under R140 and R141.
theorem test_add_saturates : xAfter (labXYZ (modeOf 4 true) 0x7F8010F0 0x01FF20F0 0) (.add 4 5 6 false) 4 0
    = some 0x7F8030E0#32 := by decide +kernel
theorem test_add_wraps : xAfter (labXYZ (modeOf 4 false) 0x7F8010F0 0x01FF20F0 0) (.add 4 5 6 false) 4 3
    = some 0x807F30E0#32 := by decide +kernel
-- 05, R148 (BFX), R149 (PRMB).
theorem test_bfx : xAfter (labXYZ 0 0x3A5 0x604 0) (.bfx 4 5 6 false) 4 0 = some 0xFFFFFFFA#32 := by decide +kernel
theorem test_prmb : xAfter (labXYZ 0 0x44332211 0x88776655 0x22E7) (.prmb 4 5 6) 4 0 = some 0x1100FF88#32 := by decide +kernel
-- R141: MULH is the floor of the product over 2^32: -1 times 1 gives -1; ANDN, and SHR with the sign.
theorem test_mulh_floor : xAfter (labXYZ 0 0xFFFFFFFF 1 0) (.mulh 4 5 6 false) 4 0 = some 0xFFFFFFFF#32 := by decide +kernel
theorem test_shr_sign : xAfter (labXYZ 0 0x80000000 33 0) (.shr 4 5 6 false) 4 0 = some 0xC0000000#32 := by decide +kernel
-- Table 5.8: NEG of the least number saturates; CLZ of 0 is the width.
theorem test_neg_saturates : xAfter (labXYZ (modeOf 0 true) 0x80000000 0 0) (.neg 4 5 false) 4 0 = some 0x7FFFFFFF#32 := by
  decide +kernel
theorem test_clz_zero : xAfter (labXYZ (modeOf 4 false) 0x00FF017F 0 0) (.clz 4 5 false) 4 0 = some 0x08000701#32 := by
  decide +kernel
-- R147: LDH x1, then LDL: −20 is 0x1FFFF << 15 with 0x7FEC in the low bits.
theorem test_ldh : xAfter (labXYZ 0 0 0 0) (.ldh 4 0x1FFFF) 4 0 = some 0xFFFF8000#32 := by decide +kernel
theorem test_ldl : xAfter (labXYZ 0 0 0 0xFFFF8000) (.ldl 4 0x7FEC) 4 0 = some 0xFFFFFFEC#32 := by decide +kernel
-- R132: g0 discards a write; R144: 64 bits.
theorem test_g_add : gAfter (lab 0 (labRegs [] [(5, 2 ^ 64 - 1), (6, 2)] []) []) (.add 4 5 6 true) 4 = some 1 := by
  decide +kernel
theorem test_g0_discards : gAfter (lab 0 (labRegs [] [(5, 9), (6, 2)] []) []) (.add 0 5 6 true) 0 = some 0 := by
  decide +kernel
-- R135: a lane whose guard p1 is false keeps its destination.
theorem test_guard : xAfter (lab 1 (labRegs [all4 4 7, all4 5 1, all4 6 2] [] [(1, [1, 0, 1, 1])]) []) (.add 4 5 6 false) 4 1
    = some 7#32 := by decide +kernel
-- R152: ICMP.lt under s32 of −1 and 0.
theorem test_icmp : unitAfter (labXYZ 0 0xFFFFFFFF 0 0) (.icmp 3 5 6 2) 0 (keyP 3 0) = some 1#32 := by decide +kernel
-- R154: PMOV.p2x: bit 0 of the pair is 1.
theorem test_p2x : xAfter (lab 0 (labRegs [] [] [(33, [1, 1, 1, 1])]) []) (.pmovP2x 4) 5 0 = some 2#32 := by decide +kernel
-- R143: DIV and REM post to t8 (−7 / 2 at s32 gives −3 and −1).
def resultOf (s : State) (i : Instr) : Option (List Word) :=
  match exec i s with
  | .next t => (find s.nextOp t.ops).bind fun o => match o.body with | .result ls _ => some (ls.map (·.val)) | _ => none
  | _ => none
theorem test_div : (resultOf (labXYZ 0 0xFFFFFFF9 2 0) (.div 4 5 6 false)).map (·.headD 0) = some 0xFFFFFFFD#32 := by
  decide +kernel
theorem test_rem : (resultOf (labXYZ 0 0xFFFFFFF9 2 0) (.rem 4 5 6 false)).map (·.headD 0) = some 0xFFFFFFFF#32 := by
  decide +kernel

-- 03, Table 3.4: p1 = (1, 1, 0, 0), p2 = (1, 0, 1, 0).
/-- A state whose slice 0 has those counters, and case-done bits. -/
def labCounts (cs : List Nat) (ds : List Bool) (xs : List (Nat × List Nat)) (cpc : Option (BitVec 48)) : State :=
  let r := labRegs xs [] [(1, [1, 1, 0, 0]), (2, [1, 0, 1, 0])]
  let lanes := fourLanes.map fun i => ({ lid := w32 i, c := BitVec.ofNat 8 (cs.getD i 0), d := ds.getD i false } : Lane)
  let s := lab 0 r r
  { s with slices := [(256, { labSlice 0 r with lanes := lanes, cpc := cpc })]
           splits := s.splits.map fun e => (e.1, { e.2 with slices := [0] }) }
theorem test_brf : countsAfter (labCounts [0, 0, 0, 1] [] [] none) (.brf 1 true 5) = some [0, 0, 1, 2] := by decide +kernel
theorem test_brf_nested : countsAfter (labCounts [0, 0, 1, 2] [] [] none) (.brf 2 true 2) = some [0, 1, 2, 3] := by
  decide +kernel
theorem test_join : countsAfter (labCounts [0, 1, 2, 3] [] [] none) .join = some [0, 0, 1, 2] := by decide +kernel
theorem test_bre : countsAfter (labCounts [0, 0, 1, 2] [] [] none) (.bre 3) = some [1, 1, 0, 2] := by decide +kernel
-- 03, Table 3.5: the table's words stand as offsets of 4 bytes after BRX; here they are read as 0, the lanes as given.
theorem test_brx_case : countsAfter (labCounts [0, 0, 0, 0] [] [(12, [2, 0, 2, 1])] none) (.brx 4 3) = some [0, 1, 0, 1] := by
  decide +kernel
theorem test_joinx_case : countsAfter (labCounts [0, 1, 0, 1] [false, false, false, false] [] (some 0x10000#48)) .joinx
    = some [1, 1, 1, 1] := by decide +kernel
theorem test_joinx_last : countsAfter (labCounts [1, 1, 1, 0] [true, true, true, false] [] (some 0x10000#48)) .joinx
    = some [0, 0, 0, 0] := by decide +kernel

-- 03, Table 3.8: x20 = 10 × LID, keys 5, 2, 9, 2, any, 0, 5, 1; lane 4 has exited.
def labSort : State :=
  let r := fun (x : List Nat) (k : List Nat) => labRegs [(12, k), (28, x)] [] []
  let s := lab 0 [] []
  { s with slices := [(256, labSlice 0 (r [0, 10, 20, 30] [5, 2, 9, 2]))
    , (257, { labSlice 1 (r [40, 50, 60, 70] [7, 0, 5, 1]) with
        lanes := fourLanes.map fun i => { lid := w32 (4 + i), e := i == 0 } })] }
def sorted (f : State → Nat → Nat → Nat) : Option (List Nat) :=
  match exec (.rsort 20 4 1) labSort with
  | .next t => some ([(256, 0), (256, 1), (256, 2), (256, 3), (257, 0), (257, 1), (257, 2), (257, 3)].map fun e => f t e.1 e.2)
  | _ => none
theorem test_rsort_lids : sorted (fun t k i => ((t.slice k).lane i).lid.toNat) = some [5, 7, 1, 3, 0, 6, 2, 4] := by
  decide +kernel
theorem test_rsort_slots : sorted (fun t k i => (t.reg k (keyX 28 i)).toNat) = some [50, 70, 10, 30, 0, 60, 20, 40] := by
  decide +kernel
theorem test_rsort_exits : sorted (fun t k i => if ((t.slice k).lane i).e then 1 else 0) = some [0, 0, 0, 0, 0, 0, 0, 1] := by
  decide +kernel
-- 03, R96: SHFX.down by 1 in the last lane of 8 has a never-launched source: its slot stays and its side predicate is 0.
theorem test_shfx_down : unitAfter (lab (w32 (3 * 2 ^ 7)) [] (labRegs [(12, [1, 2, 3, 4]), (13, [5, 6, 7, 8])] [] [(3, [0, 0, 0, 1])]))
    (.shfx 4 5 2 1) 1 (keyX 12 3) = some 4#32 := by decide +kernel
theorem test_shfx_side : unitAfter (lab (w32 (3 * 2 ^ 7)) [] (labRegs [] [] [(3, [0, 0, 0, 1])])) (.shfx 4 5 2 1) 1 (keyP 3 3)
    = some 0#32 := by decide +kernel
-- Table 3.7: GWID of 8 lanes of an 8-lane gang.
theorem test_gwid : xAfter (lab 0 [] []) (.gwid 4) 4 0 = some 0x00080808#32 := by decide +kernel
-- R93: VOTE.any, and R94: BALLOT of p1 = (0, 1, 0, 0) of slice 0 and (1, 1, 1, 1) of slice 1.
def labVote : State := lab 0 (labRegs [] [] [(1, [0, 1, 0, 0])]) (labRegs [] [] [(1, [1, 1, 1, 1])])
theorem test_vote_any : unitAfter labVote (.vote 3 1 1) 0 (keyP 3 0) = some 1#32 := by decide +kernel
theorem test_ballot : xAfter labVote (.ballot 4 1) 4 0 = some 0xF2#32 := by decide +kernel

-- 05, R136: a field of MODE; 06, R166: PREC.
def modeAfter (s : State) (i : Instr) : Option Word := match exec i s with | .next t => (find 1 t.splits).map (·.mode) | _ => none
theorem test_setm_sp : modeAfter (lab 0 [] []) (.setmField 5 2) = some 0x280#32 := by decide +kernel
theorem test_getm : gAfter (lab 0x280#32 [] []) (.getm 4) 4 = some 0x280 := by decide +kernel
/-- A state with a handler, every lane of slice 0 at that PREC, and those x slots. -/
def labPrec (prec : Nat) (xs : List (Nat × List Nat)) : State :=
  let s := lab 0 [] []
  { s with slices := [(256, { labSlice 0 (labRegs xs [] []) with lanes := fourLanes.map fun i => { lid := w32 i, prec := w32 prec } })]
           splits := s.splits.map fun e => (e.1, { e.2 with slices := [0] })
           ctxs := s.ctxs.map fun e => (e.1, { e.2 with tvec := 0x10100#64 }) }
def precAfter (s : State) (i : Instr) : Option Word :=
  match exec i s with | .next t => some (nth {} (t.slice 256).lanesNow 0).prec | _ => none
-- Example under R166: P = 24 at W1, PRSET.p 40 raises cause 0x18, which is fatal; at CLS = 0 it succeeds.
theorem test_prset_invalid : ends (labPrec 0x1098 []) (.prsetField 40 0) = true := by decide +kernel
theorem test_prset_p : precAfter (labPrec 0x1018 []) (.prsetField 40 0) = some 0x1028#32 := by decide +kernel

-- 07, under R180: P = 8, class W1: FMUL of 0x3F840000 with itself gives 0x3F880000 and NX; FMA adds −(1 + 2^−4).
theorem test_fmul : xAfter (labPrec 0x1088 [all4 1 0x3F840000]) (.fmul 3 1 1) 3 0 = some 0x3F880000#32 := by decide +kernel
theorem test_fmul_flags : precAfter (labPrec 0x1088 [all4 1 0x3F840000]) (.fmul 3 1 1) = some 0x01001088#32 := by decide +kernel
theorem test_fma : xAfter (labPrec 0x1088 [all4 1 0x3F840000, all4 3 0xBF880000]) (.fma 3 1 1) 3 0 = some 0x3A800000#32 := by
  decide +kernel
theorem test_fadd : xAfter (labPrec 0x1088 [all4 1 0x3F880000, all4 2 0xBF880000]) (.fadd 3 1 2) 3 0 = some 0#32 := by
  decide +kernel
-- R189: FEXPO of 0x0000C000 at W1 is −134.
theorem test_fexpo : xAfter (labPrec 0x1098 [all4 3 0xC000]) (.fexpo 4 3) 4 0 = some 0xFFFFFF7A#32 := by decide +kernel
-- Example under R193: FSQRT of 2.0 at P = 12 is 0x3FB50000.
theorem test_fsqrt : (resultOf (labPrec 0x100C [all4 3 0x40000000]) (.fsqrt 2 3 4)).map (·.headD 0) = some 0x3FB50000#32 := by
  decide +kernel
-- Example under R194: at P = 40, CLS = 0, FCVT.cls.w2 of 1/3 held in W1 is exact.
theorem test_fcvt_cls : (xAfter (labPrec 0x1028 [all4 2 0x3EAAAAAB]) (.fcvtCls 1 2 2) 3 0).isSome = true := by decide +kernel
-- R195: f2s32 of −2.5 and of 3.0e9; R197: f2ce; R196: 257 at P = 8.
theorem test_f2s32 : xAfter (labPrec 0x1018 [all4 2 0xC0200000]) (.fcvtF2s32 4 2) 4 0 = some 0xFFFFFFFE#32 := by decide +kernel
theorem test_f2s32_high : xAfter (labPrec 0x1018 [all4 2 0x4F32D05E]) (.fcvtF2s32 4 2) 4 0 = some 0x7FFFFFFF#32 := by
  decide +kernel
theorem test_f2ce : xAfter (labPrec 0x1018 [all4 2 0x3EAAAAAB]) (.fcvtF2ce 6 2) 6 0 = some 0x3EAB#32 := by decide +kernel
theorem test_f2ce_rtz : xAfter (labPrec 0x1218 [all4 2 0x3EAAAAAB]) (.fcvtF2ce 6 2) 6 0 = some 0x3EAA#32 := by decide +kernel
theorem test_s32f : xAfter (labPrec 0x1008 [all4 2 257]) (.fcvtS32f 3 2) 3 0 = some 0x43800000#32 := by decide +kernel
-- R331: in exact mode (XT = 1) the inexact FMUL raises cause 0x0D subcause 1 and writes nothing; R333: TRAP 12.
theorem test_exact_trap : raised (labPrec 0x1888 [all4 1 0x3F840000]) (.fmul 3 1 1) = some (0x0D, 1) := by decide +kernel
theorem test_trap : raised (labPrec 0x1018 []) (.trap 12) = some (0x10, 0) := by decide +kernel

-- 08, example under R204: L1W = 8 and offsets up to 167,935 allotted; 12 ways are refused, 11 are not.
def labSplit (g5 : Nat) : State :=
  let s := lab 0 (labRegs [] [(5, g5)] []) []
  { s with teams := s.teams.map fun e => (e.1, { e.2 with scratchBase := 65536, scratch := 102400 }) }
theorem test_sprz_refused : gAfter (labSplit 12) (.sprz 4 5) 4 = some 0x0801 := by decide +kernel
theorem test_sprz_granted : gAfter (labSplit 11) (.sprz 4 5) 4 = some 0x0B00 := by decide +kernel

-- 09, Table 9.3 (b8p4se): element, scale byte, SAT and CE16.
theorem test_table_9_3 :
    ([(0x3A, 0x82, false), (0xC1, 0x82, false), (0x01, 0x82, false), (0x7E, 0x82, false), (0x7F, 0x82, false), (0x80, 0x82, false)
      , (0x7F, 0xFF, false), (0x7E, 0xFE, false), (0x7E, 0xFE, true), (0x0C, 0, false), (0x08, 0, false)] : List (Nat × Nat × Bool)).map
      (fun e => expandCE16 e.2.2 (B8.decode ⟨4, false, false⟩ e.1) (some e.2.1))
    = [0x40A0, 0xC110, 0x3C00, 0x44E0, 0x7F80, 0x7FC0, 0x7FC0, 0x7F80, 0x7F7F, 0x0001, 0x0000] := by decide +kernel
-- 09, example under R221: 100.0, 1.0 and −0.75 as b8p4se with the computed scale 0x7E.
theorem test_block_scale : blockScale (.b8 ⟨4, false, false⟩)
    ([0x42C80000, 0x3F800000, 0xBF400000].map (decodeF 8 23)) = 0x7E := by decide +kernel
theorem test_scaled_store : [0x42C80000, 0x3F800000, 0xBF400000].map (fun v =>
    SFmt.store (.b8 ⟨4, false, false⟩) false 0 (decodeF 8 23 v) (some 0x7E)) = [0x7C, 0x48, 0xC4] := by decide +kernel

-- 10, examples under R244: the truncated sum, the −0 start, an opposite infinity.
theorem test_dot_truncates : dot (0x3980 :: List.replicate 31 0x3580) (0x3980 :: List.replicate 31 0x3500) (some 0x3F800000)
    = 0x3F800000 := by decide +kernel
theorem test_dot_zero : dot (List.replicate 32 0x8000) (List.replicate 32 0) (some 0x80000000) = 0 := by decide +kernel
theorem test_dot_infinities : dot (List.replicate 32 0x7F80) (List.replicate 32 0xBF80) (some 0x7F800000) = 0x7FC00000 := by
  decide +kernel
-- 10, example under R251: CE16 of tile elements.
theorem test_store_ce16 : [0x3F808000, 0x3F818000, 0x7F7FC000].map storeCE16 = [0x3F80, 0x3F82, 0x7F80] := by decide +kernel
-- 10, example under R247: rows 8 and 9 of the sparse B.
theorem test_sparse_row : ((sparseB (List.replicate 9 0 ++ List.replicate 24 3) 0 [5, 0, 63] [0x3F80, 0xC000, 0x8000]).drop (64 * 8)).take 6
    = [0xC000, 0, 0, 0, 0, 0x3F80] := by decide +kernel

-- 11, example under R256; 01, example under R25 (die 21 mapped out).
theorem test_l2_place : (l2Slice 0x12345600, l2Set 0x12345600, l2Tag 0x12345600) = (14, 0x8D1, 4) := by decide +kernel
theorem test_hcap : ({ hdie := 0xFFFFFFFFFFDFFFFF#64 } : Island).hcap = 0x3F00000000 := by decide +kernel
-- 12, Table 12.8: the indices of 0x0123456789AB.
theorem test_walk_indices : (upFrom 0 4).map (fun l => levelIndex l 0x0123456789AB) = [2, 0x8D, 0x2B, 7] := by decide +kernel
/-- The tables of Table 12.8 on island 3, with a 64 KiB leaf at level 3. -/
def labWalk : State :=
  let s := lab 0 [] []
  let entries := [(0x303FF0000010, 0x0000303FF0001001), (0x303FF0001468, 0x0000303FF0002001), (0x303FF0002158, 0x0000303FF0003001)
    , (0x303FF0003038, 0x0000301234560003 + 4)]
  let bytes := (entries.map fun e => (span e.1 8).zip (leBytes 8 e.2)).flatten
  { s with mem := bytes.foldl (fun m e => writeByte m e.1 e.2) s.mem
           ctxs := s.ctxs.map fun e => (e.1, { e.2 with descs := [(3, 0x0000303FF0000000#64)] }) }
theorem test_walk : walk labWalk 1 3 0x0123456789AB = .leaf 3 0x0000301234560007 := by decide +kernel
-- 13, example under R284: a two-hop entry through sites 6 and 9.
theorem test_entry_hops : entryHops 0xA000000000000126 = [6, 9] := by decide +kernel
-- 15, example under R340: one 64-lane gang, S = 64, 16 KiB of scratchpad, a tile, two barrier slots, a byte barrier.
theorem test_save_layout : saveScratch (List.replicate 16 64) = 66560 := by decide +kernel
-- 16, example under R348: position 37 of a lap is slot 5 with valid byte 0x82.
theorem test_valid_byte : validByte 37 = 0x82#8 := by decide +kernel

-- 08, R211: BARI, then BARA of 8,192 bytes arms the barrier.
def bbAfter (s : State) (i : Instr) : Option ByteBar := match exec i s with | .next t => (find 1 t.teams).map fun t => t.bb 0 | _ => none
theorem test_bara : bbAfter (lab 0 (labRegs [] [(9, 8192)] []) []) (.bara 9 0) = some ⟨true, false, 8192#32⟩ := by decide +kernel
-- 08, R208: with 8 lanes declared, the arrival of the one split completes the phase: ARR is 0 again.
def barAfter (s : State) (i : Instr) : Option Barrier := match exec i s with | .next t => (find 1 t.teams).map fun t => t.bar 0 | _ => none
theorem test_bsync : barAfter (lab 0 [] []) (.bsync 0 0) = some ⟨1, 8, 0⟩ := by decide +kernel
-- 05, example under R129: CALL 2, +12: the link word of a call at 0x10000.
theorem test_call_link : gAfter (lab 0 [] []) (.call 2 12) 63 = some 0x0002000000010004 := by decide +kernel
-- 04: WAIT on a zero token goes on; RGANG of a gang in one split goes on.
def pcAfter (s : State) (i : Instr) : Option Nat := match exec i s with | .next t => (find 1 t.splits).map fun p => p.pc.toNat | _ => none
theorem test_wait : pcAfter (lab 0 [] []) (.wait 3 0) = some 0x10004 := by decide +kernel
theorem test_rgang : pcAfter (lab 0 [] []) .rgang = some 0x10004 := by decide +kernel
theorem test_br : pcAfter (lab 0 [] []) (.br (-1)) = some 0xFFFC := by decide +kernel
theorem test_ret : pcAfter (lab 0 (labRegs [] [(63, 0x0001000000010044)] []) (labRegs [] [(63, 0x0001000000010044)] [])) .ret
    = some 0x10044 := by decide +kernel
-- 02, R36: LDHG of 1, then LDLG of 5 in the slot after: 1 << 17 | 5.
theorem test_ldlg_chain :
    (match exec (.ldhg 8 1) (lab 0 [] []) with | .next t => gAfter { t with tick := 1 } (.ldlg 8 5) 8 | _ => none) = some 0x20005 := by
  decide +kernel
-- 06, R173: STG and LDG complete: the byte stored at the page of the lab is the byte read.
def complete (i : Instr) (s : State) : Option State :=
  match exec i s with
  | .next t => (t.ops.foldl (fun (u : Option State) e => u.bind fun v => match exec (.operationComplete e.1) v with
      | .next w => some w | _ => none) (some t))
  | _ => none
def labAddr : State := lab 0x20#32 (labRegs [(12, [0x10100, 0, 0, 0]), (13, [0, 0, 0, 0]), all4 8 0x1234]
  [] [(32, [1, 0, 0, 0])]) []
theorem test_store_load : ((complete (.stg 8 4 3 4) labAddr).bind (complete (.ldg 10 4 3 2 false))).map (fun t =>
    t.reg 256 (keyX 18 0)) = some 0x1234#32 := by decide +kernel
-- 17: CTX.SLICE answers with DONE and status 0 and sets the time slice.
/-- The part after reset with command `pos` of that type and trailer bytes 1 and 2 published in its slot. -/
def labCmd (s : State) (ty : Nat) (extra : Nat := 0) : State :=
  s.modFe fun f => { f with cring := [(f.cpos % 64 * 256 + 252, BitVec.ofNat 8 ty), (f.cpos % 64 * 256 + 253, BitVec.ofNat 8 extra)
                                      , (f.cpos % 64 * 256 + 255, BitVec.ofNat 8 (0x80 + f.cpos / 64))] }
theorem test_ctx_slice : (match exec (.ctxSlice 500) (labCmd State.reset 0x12) with
    | .next t => some (t.fe.slice, t.fe.cpos, getD 0 0 t.fe.cres) | _ => none) = some (500, 1, BitVec.ofNat 64 (2 ^ 63)) := by
  decide +kernel
-- 17, Table 17.8: power-on leaves every island live.
theorem test_power_on : (match exec .powerOn State.reset with | .next t => t.live 5 | _ => false) = true := by decide +kernel

/-! ### Witnesses: states and operands that meet the hypotheses of the statements -/

/-- The issuing split of a state. -/
def issOf (s : State) : Iss :=
  match issuing s with
  | some cx => cx
  | none => ⟨0, { team := 0, gang := 0, slices := [], pc := 0, mode := 0 }, ⟨0, 0, 0, 0, 0, 0, 0, 0, [], 0, 0, [], [], [], [], [], 0, true, none, false, [], none⟩⟩
/-- The pieces of a translation that passed. -/
def pasOf (x : XOut) : List (Chk × Nat) := match x with | .ok p => p | _ => []
/-- Every word of the list issues. -/
def allIssue (s : State) (ws : List Instr) : Prop := ∀ i ∈ ws, Issues s i (issOf s)

/-- Slots 247 and g63 are the last ones the window and the bank hold; g0 and p0 discard. -/
theorem witness_IntegerElementsExactAndFitted : allIssue (lab 0 [] [])
    [.add 247 0 247 false, .sub 4 5 6 false, .mul 4 4 4 false, .mad 4 5 6 false, .min 4 5 6 false, .max 4 5 6 false
    , .absd 4 5 6 false] := by unfold allIssue Issues; decide +kernel
theorem witness_IntegerElementsShiftedAndHigh : allIssue (lab 0 [] [])
    [.mulh 247 0 247 false, .shl 4 5 6 false, .shr 4 4 4 false, .rot 4 5 6 false] := by unfold allIssue Issues; decide +kernel
theorem witness_WholeRegisterWords : allIssue (lab 0 [] [])
    [.and 4 5 6 false, .or 4 5 6 false, .xor 247 247 247 false, .andn 4 5 6 false, .bfx 4 5 6 false, .bfi 4 5 6 false
    , .sel 4 5 6] := by unfold allIssue Issues; decide +kernel
theorem witness_PermuteBytes : allIssue (lab 0 [] []) [.prmb 4 5 6, .prmb 4 4 4] := by unfold allIssue Issues; decide +kernel
theorem witness_GFormsActOnSlices : allIssue (lab 0 [] [])
    [.add 0 5 6 true, .sub 63 5 6 true, .mul 4 5 6 true, .mulh 4 5 6 true, .mad 4 5 6 true, .min 4 5 6 true, .max 4 5 6 true
    , .and 4 5 6 true, .or 4 5 6 true, .xor 4 5 6 true, .andn 4 5 6 true, .shl 4 5 6 true, .shr 4 5 6 true, .rot 4 5 6 true
    , .absd 4 5 6 true, .bfx 4 5 6 true, .bfi 4 5 6 true] := by unfold allIssue Issues; decide +kernel
theorem witness_DivisionLandsOnT8 : allIssue (lab 0 [] [])
    [.div 4 5 6 false, .rem 4 5 6 false, .div 0 5 6 true, .rem 63 5 6 true] := by unfold allIssue Issues; decide +kernel
theorem witness_UnaryWords : allIssue (lab 0 [] [])
    [.clz 4 5 false, .ctz 4 5 false, .popc 4 5 false, .brev 4 5 false, .neg 4 5 false, .abs 4 5 false, .not 4 5 false
    , .sex8 4 5 false, .sex16 4 5 false] := by unfold allIssue Issues; decide +kernel
theorem witness_UnaryGForms : allIssue (lab 0 [] [])
    [.clz 4 5 true, .ctz 4 5 true, .popc 4 5 true, .brev 4 5 true, .neg 4 5 true, .abs 4 5 true, .not 4 5 true
    , .sex8 4 5 true, .sex16 0 63 true, .movg 247 5 false, .movg 246 0 true, .movl 4 246 true 3, .movl 0 247 false 0] := by
  unfold allIssue Issues; decide +kernel
theorem witness_ImmediateWords : allIssue (lab 0 [] [])
    [.addi 4 5 (-256), .muli 4 5 255, .andi 4 5 1, .ori 4 5 1, .xori 4 5 1, .shli 4 5 31, .shri 4 5 0, .roti 4 5 1, .gaddi 0 5 (-1)
    , .ldh 4 0, .ldl 4 1, .ldhg 4 1, .ldlg 0 1] := by unfold allIssue Issues; decide +kernel
/-- The state after a step, where it has one. -/
def nextOf (i : Instr) (s : State) : State := match exec i s with | .next t => t | _ => s
/-- A slot after LDHG g8 the next LDLG g8 stands in its chain. -/
theorem witness_ImmediateWords_chain : ((nextOf (.ldhg 8 1) (lab 0 [] [])).slice 256).chain = some 8 ∧
    allIssue (nextOf (.ldhg 8 1) (lab 0 [] [])) [.ldlg 8 5] := by unfold allIssue Issues; decide +kernel
theorem witness_PredicateWords : allIssue (lab 0 [] [])
    [.icmp 0 5 6 7, .icmpi 63 5 (-128) 0, .plog 3 0 63 9, .pmovMov 3 4, .pmovNot 3 4, .pmovLsb 3 247, .pmovSet 0 true, .pmovP2x 246
    , .pmovX2p 246] := by unfold allIssue Issues; decide +kernel

/-- A state whose memory words name addresses of the page at 0x10000, whose header h1 describes four elements there, and
whose slice 0 alone takes part: p32 holds in lane 0 only, and MODE names it. -/
def labMem (gs : List (Nat × Nat)) : State :=
  let r := labRegs [(12, [0x10100, 0, 0, 0]), (13, [0, 0, 0, 0]), all4 6 3, all4 8 0x12] gs [(32, [1, 0, 0, 0])]
  let s := lab 0x20#32 r []
  { s with slices := [(256, { labSlice 0 r with hs := [(1, BitVec.ofNat 128 (0x10210 + 2 ^ 63 + 2 ^ 64 * (24 + 2 ^ 8 * 8 + 2 ^ 16 * 4 + 2 ^ 32 * 4)))] })]
           splits := s.splits.map fun e => (e.1, { e.2 with slices := [0] }) }

/-- The hypotheses of a memory word (MemWord) hold. -/
def memMeets (s : State) (i : Instr) (need : Need) (ctr blk : Bool) (us : State → Iss → List MUnit) : Prop :=
  let cx := issOf s
  let pas := pasOf (xlateAll s cx.env (unitChecks (us s cx) need))
  Issues s i cx ∧ (us s cx).isEmpty = false ∧ (∀ u ∈ us s cx, u.va % u.bytes = 0) ∧
    xlateAll s cx.env (unitChecks (us s cx) need) = .ok pas ∧ ∀ u ∈ us s cx, regionOk s ctr blk (unitAddrs pas u) = true

/-- A lane unit of a size at the address pair x4; slice units at g4. -/
def laneAt (n : Nat) : State → Iss → List MUnit := laneUnits (fun le => le.xs 4 2) (fun _ => n) fun _ u => u
def sliceAt (n : Nat) : State → Iss → List MUnit := sliceUnits 4 n fun _ u => u

theorem witness_MemoryWordsPostAccesses :
    memMeets (labMem []) (.ldg 8 4 3 4 false) .r true false (laneAt 4) ∧ memMeets (labMem []) (.ldg 8 4 15 6 true) .r false false (laneAt 16)
    ∧ memMeets (labMem []) (.stg 8 4 0 0) .w false false (laneAt 1) ∧ memMeets (labMem []) (.ldf 8 4 3 false) .r false false (laneAt 4)
    ∧ memMeets (labMem []) (.stf 8 4 3) .w false false (laneAt 4)
    ∧ memMeets (labMem [(4, 0x1FFF8)]) (.ldgg 8 4 3 5 false) .r false true (sliceAt 8)
    ∧ memMeets (labMem [(4, 0x10000)]) (.stgg 8 4 3 4) .w true false (sliceAt 4) := by
  unfold memMeets Issues; dsimp only; and_intros <;> decide +kernel

/-- The hypotheses of a scratchpad word hold; the last byte of the allotment is 4,095. -/
def scratchMeets (x : Nat) (i : Instr) (n : Nat) : Prop :=
  let s := lab 0 (labRegs [all4 4 x] [] []) (labRegs [all4 4 x] [] [])
  let us := laneUnits (fun le => (le.x 4).toNat) (fun _ => n) (fun _ u => u) s (issOf s)
  Issues s i (issOf s) ∧ us.isEmpty = false ∧ ∀ u ∈ us, u.va % u.bytes = 0 ∧ u.va + u.bytes ≤ (issOf s).tm.scratch
theorem witness_ScratchAndAtomicWordsPostAccesses :
    scratchMeets 4092 (.lds 8 4 2 4) 4 ∧ scratchMeets 0 (.sts 8 4 2 6) 16 ∧ scratchMeets 4088 (.atoms 8 4 2 7 false true) 8
    ∧ memMeets (labMem []) (.atom 8 4 3 7 false false) .rw true false (laneAt 4)
    ∧ memMeets (labMem []) (.atom 8 4 3 0 false true) .rw false false (laneAt 8) := by
  unfold scratchMeets memMeets Issues; dsimp only; and_intros <;> decide +kernel

/-- The hypotheses of an element access of h1 hold. -/
def packedMeets (i : Instr) (need : Need) (x st : Bool) : Prop :=
  let s := labMem []
  let cx := issOf s
  let us := laneUnits (fun le => hBase (le.h 1) + (le.x 6).toNat * hB (le.h 1)) (fun le => hB (le.h 1)) (fun _ u => u) s cx
  let pas := pasOf (xlateAll s cx.env (unitChecks us need))
  Issues s i cx ∧ us.isEmpty = false ∧ (∀ le ∈ guardedLanes s cx.sp, hValid (le.h 1) = true ∧ (le.x 6).toNat < hCount (le.h 1)) ∧
    (st = false → x = false → ∀ le ∈ guardedLanes s cx.sp, precXT le.lane.prec = false) ∧
    (st = false → x = true → ∀ le ∈ guardedLanes s cx.sp, hP (le.h 1) ≤ precP le.lane.prec ∧ hE (le.h 1) ≤ classEb le.cls) ∧
    (st = true → ∀ le ∈ guardedLanes s cx.sp, precXT le.lane.prec = false) ∧
    xlateAll s cx.env (unitChecks us need) = .ok pas ∧ ∀ u ∈ us, regionOk s false false (unitAddrs pas u) = true
theorem witness_PackedArrayWords : packedMeets (.ldp 1 6 1 false 1) .r false false ∧ packedMeets (.ldp 1 6 1 true 1) .r true false
    ∧ packedMeets (.stp 1 6 1 1) .w false true := by unfold packedMeets Issues; dsimp only; and_intros <;> decide +kernel
/-- VPAH of the header at g4. -/
theorem witness_PackedArrayWords_vpah :
    let s := labMem [(4, 0x10200)]
    let cx := issOf s
    let us := sliceUnits 4 16 (fun _ u => u) s cx
    let pas := pasOf (xlateAll s cx.env (unitChecks us .r))
    Issues s (.vpah 1 4 5) cx ∧ (∀ u ∈ us, u.va % 16 = 0) ∧ xlateAll s cx.env (unitChecks us .r) = .ok pas ∧
      ∀ u ∈ us, regionOk s false false (unitAddrs pas u) = true := by unfold Issues; dsimp only; and_intros <;> decide +kernel

/-- CMO.clean of 256 bytes at x4, one line in the middle of the page's two; PREF. -/
theorem witness_CacheWordsComplete :
    let s := labMem [(8, 256)]
    let cx := issOf s
    let us := (guardedLanes s cx.sp).map fun le => (le, cmoRange (le.xs 4 2) (readG s.tick le.sk le.sl cx.sp.handler 8 % 2 ^ 32))
    let cs := ((us.filter fun u => u.2.2 ≠ 0).map fun u => chksOf u.1.n (2 ^ u.1.n) u.2.1 u.2.2 (cmoNeed 0)).flatten
    Issues s (.cmo 8 4 3 false 0) cx ∧ cs.isEmpty = false ∧ xlateAll s cx.env cs = .ok (pasOf (xlateAll s cx.env cs)) ∧
      Issues s (.pref 4 true) cx := by unfold Issues; dsimp only; and_intros <;> decide +kernel

/-- SPRZ of 33 ways, of 12 that are allotted, of 11 that are not, and of 0. -/
theorem witness_SprzMovesTheSplit : ∀ m ∈ [33, 12, 11, 0], Issues (labSplit m) (.sprz 4 5) (issOf (labSplit m)) := by
  unfold Issues; decide +kernel

/-- A split with an operation on t3 of slice 0. -/
def labBusy : State :=
  let s := lab 0 (labRegs [] [(4, 0x0102030405060708)] []) []
  { s with slices := s.slices.map fun e => (e.1, if e.1 = 256 then { e.2 with toks := [⟨3, 1, false⟩] } else e.2) }
/-- Each wait with its condition met, and with an operation outstanding. -/
theorem witness_TokenWords : ∀ s ∈ [lab 0 [] [], labBusy], (∀ i ∈ [Instr.wait 3 0, .wait 15 255, .tksDrain, .tksRs 4 false, .tksRd 4 true],
    Issues s i (issOf s)) ∧ remoteFault s (issOf s).sp = none := by unfold Issues; decide +kernel

/-- Byte barrier and barrier 1 of the team; g4 at the limits of its range. -/
theorem witness_BarrierAndMonitorWords : ∀ e ∈ [(Instr.bari 4 0, 0), (.bari 4 0, 1), (.bara 4 0, 0), (.bara 4 0, 2 ^ 31 - 1),
    (.barw 4 0, 0), (.barw 4 0, 1), (.bsync 4 1, 0), (.bsync 4 0, 0x00010400)],
    let s := lab 0 (labRegs [] [(4, e.2)] []) []
    let cx := issOf s
    Issues s e.1 cx ∧ 0 < cx.tm.bbs.length ∧ 1 < cx.tm.bars.length ∧ cx.g s 4 = e.2 ∧ (cx.tm.bb 0).rem.toInt + (2 ^ 31 - 1) < 2 ^ 31 ∧
      (e.2 % 2 ^ 31 < 2 ∨ e.1 = .bara 4 0 ∨ bsyncBad cx.tm (cx.g s 4) = false) := by unfold Issues; dsimp only; and_intros <;> decide +kernel
/-- MWAIT of the word at 0x1FFFC, which reads 0: expected 0 and expected 1. -/
theorem witness_BarrierAndMonitorWords_mwait : ∀ v ∈ [0x100000, 2 ^ 32],
    let s := lab 0 (labRegs [] [(4, 0x1FFFC), (5, v)] []) []
    let cx := issOf s
    let x := xlateAll s cx.env (chksOf 0 (liveMask s cx.sp) (cx.g s 4) 4 .r 1)
    Issues s (.mwait 5 4) cx ∧ cx.g s 4 % 4 = 0 ∧ x = .ok (pasOf x) ∧ (pasOf x).length = 1 ∧
      poisonedAt s [paKey ((pasOf x).headD (⟨0, 0, 0, 0, .r, 0⟩, 0)).2] = none := by unfold Issues; dsimp only; and_intros <;> decide +kernel

/-- A split with a load, a store and a remote operation outstanding. -/
def labOps : State :=
  let s := lab 0 [] []
  let op := fun (b : OpBody) => ({ asid := 1, team := 1, site := 0, core := 0, slices := [256], tok := some 3, seqs := [], slots := []
                                   pc := 0, handler := false, gang := 0, lanes := 15, after := [], part := 0, body := b } : Op)
  let acc := fun k => OpBody.access k false [⟨256, 0, [0x10100], [0], [], .extend false 4, 0, 0, 0, true, []⟩] 0 false 0 false false false false 0
  let rem : Remote := { kind := .put, tokField := 3, dstPanel := 0, dst := 1, rva := 0, route := [1] }
  { s with ops := [(1, op (acc .load)), (2, op (acc .store)), (3, op (.remote rem))], nextOp := 4 }
theorem witness_FenceWords : ∀ s ∈ [lab 0 [] [], labOps],
    (∀ i ∈ [Instr.fence 0 1 false, .fence 4 4 true, .fence 3 2 false, .lrfence, .rfence], Issues s i (issOf s)) ∧
      remoteFault s (issOf s).sp = none := by unfold Issues; decide +kernel
/-- NWAIT of the last counter of the window, with thresholds met and not; LWAIT with and without a child. -/
theorem witness_CounterAndChildWaits : ∀ thr ∈ [0, 1, 2 ^ 32 - 1],
    let s := lab 0 (labRegs [] [(4, 2 ^ 24 + 63), (5, thr)] []) []
    let cx := issOf s
    let des := cx.g s 4
    Issues s (.nwait 5 4) cx ∧ remoteFault s cx.sp = none ∧ desReserved des = false ∧ cx.g s 5 < 2 ^ 32 ∧
      des % 4096 + 1 = ncount (windowOfCtx s cx.asid) ∧ desOwn s cx.tm.site des = true ∧ Issues s .lwait cx := by
  unfold Issues; dsimp only; and_intros <;> decide +kernel
theorem witness_LaunchCountsAChild :
    let s := lab 0 (labRegs [] [(4, 0x1FF80)] []) []
    let cx := issOf s
    let x := xlateAll s cx.env (chksOf 0 (liveMask s cx.sp) (cx.g s 4) 128 .r)
    Issues s (.launch 4 3) cx ∧ cx.g s 4 % 128 = 0 ∧ x = .ok (pasOf x) ∧ (find cx.tm.grid s.fe.grids).isSome := by
  unfold Issues; dsimp only; and_intros <;> decide +kernel

theorem witness_PlainBranchesAndCall :
    allIssue (lab 0 [] []) [.br (-1), .brg 0 true (-32768), .brg 63 false 1, .call 30 0] ∧
      ∀ sk ∈ (issOf (lab 0 [] [])).sp.keys, ((lab 0 [] []).slice sk).wb + 8 * 30 < ((lab 0 [] []).slice sk).size := by
  unfold allIssue Issues; and_intros <;> decide +kernel
/-- Counters at 254 may still be counted up. -/
theorem witness_StructuredBranches :
    let s := labCounts [0, 1, 254, 0] [] [] none
    allIssue s [.brf 1 true 5, .bre 1, .join, .lpb 1, .brb 1 false (-1)] ∧ ∀ le ∈ liveLanes s (issOf s).sp, le.lane.c ≠ 255 := by
  unfold allIssue Issues; dsimp only; and_intros <;> decide +kernel
/-- CALLR whose active lanes agree; RET of two slices with different link words. -/
theorem witness_IndirectCallsAndReturns :
    let r := fun (n : Nat) => labRegs [all4 4 (0x10040 + n), all4 5 0] [(63, 2 ^ 48 + 0x10040 + n)] []
    let s := lab 0 (r 0) (r 4)
    let cx := issOf s
    allIssue s [.callr 4 1, .ret] ∧ (∀ sk ∈ cx.sp.keys, (s.slice sk).wb + 8 * 1 < (s.slice sk).size) ∧
      (∀ j ∈ cx.sp.slices, ∀ x ∈ callrLanes (laneEnvs s cx.sp j), x.xs 4 2 % 4 = 0 ∧
        ∀ y ∈ callrLanes (laneEnvs s cx.sp j), y.xs 4 2 = x.xs 4 2) ∧
      ∀ sk ∈ cx.sp.keys, 8 * (cx.gOf s sk 63 / 2 ^ 48 % 32) ≤ (s.slice sk).wb := by
  unfold allIssue Issues; dsimp only; and_intros <;> decide +kernel
/-- Table 3.5's BRX: three cases, indices 2, 0, 2 and 1. -/
theorem witness_MultiwayBranchOpens :
    let s := labCounts [0, 0, 0, 0] [] [(12, [2, 0, 2, 1])] none
    let cx := issOf s
    let x := xlateAll s cx.env (chksOf 0 (liveMask s cx.sp) (cx.sp.pc.toNat + 4) (4 * (3 + 1)) .x)
    allIssue s [.brx 4 3] ∧ (∀ j ∈ cx.sp.slices, (s.slice (cx.key j)).cpc = none) ∧ (∀ le ∈ liveLanes s cx.sp, le.lane.c ≠ 255) ∧
      (∀ le ∈ activeLanes s cx.sp, (le.x 4).toNat < 3) ∧ (s.core cx.ck).fetch = [] ∧ x = .ok (pasOf x) := by
  unfold allIssue Issues; dsimp only; and_intros <;> decide +kernel
/-- JOINX with a lane still waiting, and at the last case with the BRX word of three cases at 0x10040. -/
theorem witness_JoinxEndsACase :
    let s := labCounts [0, 1, 0, 1] [] [] (some 0x10040#48)
    let cx := issOf s
    allIssue s [.joinx] ∧ ∀ j ∈ cx.sp.slices, (s.slice (cx.key j)).cpc.isSome ∧
      (s.slice (cx.key j)).some (fun _ l => l.e = false ∧ l.c = 1 ∧ l.d = false) = true := by
  unfold allIssue Issues; dsimp only; and_intros <;> decide +kernel
def labLast : State :=
  let s := labCounts [1, 1, 1, 0] [true, true, true, false] [] (some 0x10040#48)
  { s with mem := ((span 0x10040 4).zip (leBytes 4 0x72000803)).foldl (fun m e => writeByte m e.1 e.2) s.mem }
theorem witness_JoinxEndsACase_last :
    let s := labLast
    let cx := issOf s
    let p := 0x10040#48
    let x₁ := xlateAll s cx.env (chksOf 0 (liveMask s cx.sp) p.toNat 4 .x)
    let w₁ := ((pasOf x₁).headD (⟨0, 0, 0, 0, .r, 0⟩, 0)).2
    let x₂ := xlateAll s cx.env (chksOf 0 (liveMask s cx.sp) (p.toNat + 4 + 4 * ((codeWord s w₁).toNat % 512)) 4 .x)
    allIssue s [.joinx] ∧ cx.sp.slices = [0] ∧ (s.slice (cx.key 0)).cpc = some p ∧ (s.core cx.ck).fetch = [] ∧
      (s.slice (cx.key 0)).some (fun _ l => l.e = false ∧ l.c = 1 ∧ l.d = false) = false ∧ (codeWord s w₁).toNat % 512 = 3 ∧
      x₁ = .ok (pasOf x₁) ∧ (pasOf x₁).length = 1 ∧ x₂ = .ok (pasOf x₂) ∧ (pasOf x₂).length = 1 ∧
      (addPc p (4 + 4 * ((codeWord s w₁).toNat % 512 : Nat))).toNat = p.toNat + 4 + 4 * ((codeWord s w₁).toNat % 512) := by
  unfold allIssue Issues; dsimp only; and_intros <;> decide +kernel
/-- EXIT of slices that keep a live lane; RGANG in each mode, and with another split of the gang elsewhere. -/
def labTorn : State :=
  let s := lab 0 [] []
  let sp := (issOf s).sp
  { s with splits := [(1, { sp with slices := [0] }), (2, { sp with slices := [1], pc := 0x10080#48 })], nextSplit := 3 }
theorem witness_ExitAndRgang :
    (let s := labCounts [0, 1, 0, 1] [] [] none
     allIssue s [.exit, .rgang] ∧ ∀ sk ∈ (issOf s).sp.keys, ((s.slice sk).some fun _ l => l.e = false ∧ l.c ≠ 0) = true) ∧
    (allIssue labTorn [.rgang] ∧ ∃ e ∈ labTorn.splits, e.1 ≠ (issOf labTorn).sid ∧ find e.1 labTorn.splits = some e.2 ∧
      e.2.team = (issOf labTorn).sp.team ∧ e.2.gang = (issOf labTorn).sp.gang ∧
      ¬(e.2.wait = .rgang ∧ e.2.pc = (issOf labTorn).sp.pc)) := by
  unfold allIssue Issues; dsimp only; and_intros <;> decide +kernel
theorem witness_SplitQueries : allIssue labVote [.gwid 4, .vote 0 1 0, .vote 3 1 1, .vote 3 1 2, .vote 63 0 3, .ballot 246 1] := by
  unfold allIssue Issues; decide +kernel
theorem witness_ShufflesMoveSlots : allIssue labVote [.shfl 4 5 6, .shflImm 4 5 63, .shfx 4 5 0 1, .shfx 4 4 1 63, .shfx 4 5 2 1] := by
  unfold allIssue Issues; decide +kernel
/-- The sort of Table 3.8, whose slices both keep a live lane. -/
theorem witness_SortMovesLanes :
    let s := labSort
    let cx := issOf s
    let order := sortOrder 4 (splitLanes s cx.sp)
    allIssue s [.rsort 20 4 1] ∧ sortOk s cx = true ∧ cx.sp.slices ≠ [] ∧ cx.sp.slices.Nodup ∧ (∀ sk ∈ cx.sp.keys, (s.slice sk).lanes.length = 4) ∧
      ∀ q, q < cx.sp.slices.length → ([0, 1, 2, 3].any fun i => (order[4 * q + i]?).any fun le => !le.lane.e) = true := by
  unfold allIssue Issues; dsimp only; and_intros <;> decide +kernel

theorem witness_ModeWords :
    let s := lab 0 (labRegs [] [(5, 0x03F7BFFF)] []) []
    allIssue s [.setm 4, .setmField 63 0, .setmField 1 1, .setmField 63 2, .setmField 5 3, .setmField 1 4, .setmField 3 5
      , .setmField 4 6, .setmField 4 7, .getm 0, .dly 0, .dly 65535] ∧ modeValid (w32 ((issOf s).g s 4)) = true := by
  unfold allIssue Issues; dsimp only; and_intros <;> decide +kernel
theorem witness_PrecWords :
    let s := lab 0 (labRegs [all4 4 0x1F001BF1] [] []) (labRegs [all4 4 0x1002] [] [])
    let new := fun (le : LaneEnv) => w32 (setField le.lane.prec.toNat 0 7 113)
    allIssue s [.prset 4, .prsetField 113 0, .prget 247] ∧
      (∀ le ∈ guardedLanes s (issOf s).sp, precValid (le.x 4) = true ∧ le.sl.pendF = []) ∧
      ∀ le ∈ guardedLanes s (issOf s).sp, precValid (new le) = true := by
  unfold allIssue Issues; dsimp only; and_intros <;> decide +kernel

/-- The lab's split in handler mode, with a state that RFT accepts. -/
def labHandler : State :=
  let s := lab 0 (labRegs [] [(5, 0x123456789ABCDEF7)] []) []
  { s with splits := s.splits.map fun e => (e.1, { e.2 with handler := true, tpc := 0x10040, tsave := 0x1004#32 })
           slices := s.slices.map fun e => (e.1, { e.2 with lanes := e.2.lanes.map fun l => { l with tprec := 0x1018#32 } }) }
theorem witness_StateRegisterReads :
    allIssue (lab 0 [] []) ([0, 0x11, 0x26].map (Instr.mfs 4 false) ++ [1, 2, 3, 8, 9, 0xA, 0x10, 0x12, 0x13, 0x20, 0x21, 0x22, 0x23
      , 0x24, 0x25, 0x30].map (Instr.mfs 4 true) ++ [.mfs 247 false 0x12]) ∧
    allIssue labHandler [.mfs 4 true 0x40, .mfs 4 false 0x40] ∧ (issOf labHandler).sp.handler = true := by
  unfold allIssue Issues; and_intros <;> decide +kernel
theorem witness_StateRegisterWrites :
    allIssue (lab 0 [] []) [.mts 5 true 0x20] ∧ allIssue labHandler ([0x20, 0x21, 0x22, 0x23, 0x24, 0x25].map (Instr.mts 5 true)) ∧
      (issOf labHandler).sp.handler = true ∧ (issOf labHandler).sp.slices ≠ [] ∧
      (find (issOf labHandler).asid labHandler.ctxs).isSome := by unfold allIssue Issues; and_intros <;> decide +kernel
/-- A word whose d names slot 248 of a window of 256 at base 8. -/
theorem witness_ChecksComeBeforeEffects :
    let s := lab 0 [] []
    issuing s = some (issOf s) ∧ (issOf s).sp.handler = false ∧
      ∃ sk ∈ (issOf s).sp.keys, (s.slice sk).size - (s.slice sk).wb ≤ (248#8).toNat := by dsimp only; and_intros <;> decide +kernel
/-- TRAP with and without an active lane that passes the guard; BRK under a debugger. -/
def labTraps (mode : Word) : State :=
  let s := lab mode [] []
  { s with ctxs := s.ctxs.map fun e => (e.1, { e.2 with tvec := 0x10100#64, dbg := 1 }) }
theorem witness_TrapAndBreakpoint :
    (let s := labTraps 0
     let cx := issOf s
     allIssue s [.trap 511, .brk 0] ∧ (guardedLanes s cx.sp).isEmpty = false ∧ (find cx.asid s.ctxs).map Ctx.tvec = some 0x10100#64 ∧
       (find cx.asid s.ctxs).any (fun x => x.dbg.getLsbD 0 && decide (x.pre = .none)) = true ∧ cx.sp.handler = false ∧
       ∀ e ∈ s.splits, e.2.team = cx.sp.team → e.2.gang = cx.sp.gang → e.2.handler = false) ∧
    (allIssue (labTraps 0x40) [.trap 0] ∧ (guardedLanes (labTraps 0x40) (issOf (labTraps 0x40)).sp).isEmpty = true) := by
  unfold allIssue Issues; dsimp only; and_intros <;> decide +kernel
theorem witness_ReturnFromTrap :
    let s := labHandler
    let cx := issOf s
    allIssue s [.rftNext, .rftAgain] ∧ cx.sp.handler = true ∧ modeValid cx.sp.tsave = true ∧
      (∀ le ∈ liveLanes s cx.sp, precValid le.lane.tprec = true) ∧ ∀ e ∈ s.splits, e.2.pending = none := by
  unfold allIssue Issues; dsimp only; and_intros <;> decide +kernel
theorem witness_FatalCauseEndsContext :
    let s := lab 0 [] []
    issuing s = some (issOf s) ∧ (find (issOf s).asid s.ctxs).any (fun x => !x.ending) = true ∧
      (find (issOf s).tm.grid s.fe.grids).isSome := by dsimp only; and_intros <;> decide +kernel

/-- Operands of every class of value in the lanes of slices 0 and 1; PREC as given. -/
def labFloat (prec : Nat) : State :=
  let r := labRegs [(12, [0x3F800000, 0x7F800000, 0x7FC00000, 0]), (13, [0x33400000, 1, 0x80000000, 0x7F800001])] [] []
  let s := lab 0 r r
  { s with slices := s.slices.map fun e => (e.1, { e.2 with lanes := e.2.lanes.map fun l => { l with prec := w32 prec } }) }
def floatWords : List Instr :=
  [.fadd 6 4 5, .fsub 6 4 5, .fmul 6 4 5, .fma 6 4 5, .fms 6 4 5, .fnma 6 4 5, .fmin 6 4 5, .fmax 6 4 5, .frnd 6 4 3, .frsp 6 4
  , .fcvtCls 3 4 2, .fclass 6 4, .fexpo 6 4, .fcvtF2s32 6 4, .fcvtF2n32 6 4, .fcvtF2s64 6 4, .fcvtF2n64 6 4, .fcvtS32f 6 4
  , .fcvtN32f 6 4, .fcvtS64f 6 4, .fcvtN64f 6 4, .fcvtF2ce 6 4, .fcvtCef 6 4]
/-- In normal mode no result traps; in exact mode (XT = 1) an inexact sum of 1 and 1.5 × 2^−25 does. -/
theorem witness_FloatWordsRoundOnce : allIssue (labFloat 0x1018) floatWords ∧ allIssue (labFloat 0x1818) floatWords ∧
    (inexact (labFloat 0x1018) (issOf (labFloat 0x1018)) fun le => roundX le.rnd (addX 0 false (le.f 4) (le.f 5))).isEmpty = true ∧
    (inexact (labFloat 0x1818) (issOf (labFloat 0x1818)) fun le => roundX le.rnd (addX 0 false (le.f 4) (le.f 5))).isEmpty = false := by
  unfold allIssue Issues floatWords; and_intros <;> decide +kernel
theorem witness_FloatSignsAndComparison : allIssue (labFloat 0x1018)
    [.fabs 6 4, .fneg 6 4, .fmov 6 4, .fcpys 6 4 5, .fcmp 0 4 5 0, .fcmp 63 4 5 7] := by unfold allIssue Issues; decide +kernel
def postWords : List Instr :=
  [.fdiv 6 4 5, .fsqrt 6 4 0, .frcp 6 4 15, .frsq 6 4 3, .fexp2 6 4 3, .flog2 6 4 3, .fsin 6 4 3, .fcos 6 4 3, .ftanh 6 4 3]
/-- P = 24 is the most a faithful function takes; P = 25 is too much. -/
theorem witness_DivisionAndFunctionsPost : allIssue (labFloat 0x1018) postWords ∧ allIssue (labFloat 0x1019) postWords ∧
    (∀ le ∈ guardedLanes (labFloat 0x1018) (issOf (labFloat 0x1018)).sp, precP le.lane.prec ≤ 24) ∧
    (¬∀ le ∈ guardedLanes (labFloat 0x1019) (issOf (labFloat 0x1019)).sp, precP le.lane.prec ≤ 24) ∧
    (inexact (labFloat 0x1018) (issOf (labFloat 0x1018)) fun le => divRes le.rnd (le.f 4) (le.f 5)).isEmpty = true ∧
    (inexact (labFloat 0x1818) (issOf (labFloat 0x1818)) fun le => divRes le.rnd (le.f 4) (le.f 5)).isEmpty = false := by
  unfold allIssue Issues postWords; and_intros <;> decide +kernel
/-- A third, rounded to 24 bits: the exact value lies between two members. -/
theorem witness_ResultsAreExactThenRounded :
    (0 < 1 ∧ 0 < 3 ∧ 2 ≤ 24 ∧ 24 ≤ 23 + 1 ∧ ((8, 23) : Nat × Nat) ∈ [(8, 23), (11, 52), (15, 112)]) ∧
    bitAt (roundX ⟨24, 8, 23, 0, true⟩ (.num false 1 3 0)).flags 2 = false ∧ (roundX ⟨24, 8, 23, 0, true⟩ (.num false 1 3 0)).v = 0x3EAAAAAB ∧
    (FVal.fin false 3 0).Is 3 := by
  refine ⟨by decide, by decide +kernel, by decide +kernel, ⟨false, 3, 0, rfl, by unfold signedRat; decide +kernel⟩⟩

/-- Control words that ask for a token and that do not. -/
theorem witness_EngineWordsWaitForAcceptance : ∀ v ∈ [0, 0x1F], allIssue (lab 0 (labRegs [] [(4, v)] []) [])
    [.tcopyLd 4 5 6, .tcopySt 4 5 6, .mma 3 0 5 6 false, .mmag 3 1 5 6 true, .mmas 3 1 5 6 false, .accz 7 15, .accrd 247 5 3
    , .accwr 5 247 3, .accst 4 1] := by unfold allIssue Issues; decide +kernel

/-- Island 1 by the direct route; the pages of island 0 at 0x10000 and of island 1 at 0x20000 in the core's TLB. -/
def labRemote (xs : List (Nat × List Nat)) (gs : List (Nat × Nat)) : State :=
  let r := labRegs xs gs [(32, [1, 0, 0, 0])]
  let s := lab 0x20#32 r r
  let tlb := tlbAdd Config.coreTlb (tlbOf 1 3 0x20000 (2 ^ 44 + 0x20000 + 0x1F)) (s.core (coreKey 0 0)).tlb
  let sp := (issOf s).sp
  { s with slices := [(256, labSlice 0 r)], splits := [(1, { sp with slices := [0] })]
           islands := put 0 { s.island 0 with topo := [(1, 0x9000000000000001#64)] } s.islands
           cores := put (coreKey 0 0) { s.core (coreKey 0 0) with tlb := tlb } s.cores }
/-- The hypotheses of RPUT and RGET hold. -/
def remoteMeets (s : State) (i : Instr) (put : Bool) : Prop :=
  let cx := issOf s
  let v := cx.g s 4
  let len := v % 2 ^ 25
  let live := liveMask s cx.sp
  let loc := if len = 0 then [] else chksOf 0 live (cx.g s 5) len (if put then .r else .w) 1
  let rem := chksOf 1 live (cx.g s 6) (if len = 0 then 1 else len) (if put then .w else .r) 2
  let x := xlateAll s cx.env (loc ++ rem)
  let rs := (pasOf x).filter fun p => p.1.unit = 1
  let pa := ((rs.map (·.2)).headD 0)
  Issues s i cx ∧ remoteCtlFault s cx put v = none ∧ x = .ok (pasOf x) ∧ rs.head?.map (·.2) = some pa ∧
    (∀ q ∈ rs, q.2 / 2 ^ 44 % 2 ^ 12 = pa / 2 ^ 44 % 2 ^ 12) ∧ Reachable s cx.tm.site (pa / 2 ^ 48 % 256) (pa / 2 ^ 44 % 16) ∧
    s.poison = []
/-- A put of 4,096 bytes that notifies counter 5 (spec/13's example word), a put of none, a get. -/
theorem witness_RemoteWordsPostOperations :
    remoteMeets (labRemote [] [(4, 0xC005003000001000), (5, 0x10100), (6, 0x20000)]) (.rput 4 5 6) true
    ∧ remoteMeets (labRemote [] [(4, 0), (5, 0), (6, 0x2FFFF)]) (.rput 4 5 6) true
    ∧ remoteMeets (labRemote [] [(4, 0xF000000040), (5, 0x1FFC0), (6, 0x20040)]) (.rget 4 5 6) false := by
  unfold remoteMeets Issues Reachable; dsimp only; and_intros <;> decide +kernel
theorem witness_RemoteWordsPostOperations_atom :
    let s := labRemote [(12, [0x20000, 0, 0, 0])] []
    let cx := issOf s
    let us := (guardedLanes s cx.sp).map fun le => le.atomUnit 8 0 false (le.xs 4 2)
    let x := xlateAll s cx.env (us.map fun u => chksOf u.n u.mask u.va u.bytes .rw 3).flatten
    let pa := (((pasOf x).map (·.2)).headD 0)
    Issues s (.ratom 8 4 1 0 false false) cx ∧ (∀ u ∈ us, u.va % u.bytes = 0) ∧ x = .ok (pasOf x) ∧ (pasOf x).isEmpty = false ∧
      Reachable s cx.tm.site (pa / 2 ^ 48 % 256) (pa / 2 ^ 44 % 16) ∧ (∀ sk ∈ cx.sp.keys, ∃ u ∈ us, u.sk = sk) := by
  unfold Issues Reachable; dsimp only; and_intros <;> decide +kernel
/-- NADD of the issuing island by OWN, and of island 1. -/
theorem witness_RemoteWordsPostOperations_add : ∀ e ∈ [(2 ^ 24 + 63, 0, 0), (0x1000, 0, 1)],
    let s := labRemote [] [(4, e.1), (5, 2 ^ 32 - 1)]
    let cx := issOf s
    Issues s (.nadd 5 4) cx ∧ desReserved (cx.g s 4) = false ∧ cx.g s 5 < 2 ^ 32 ∧
      cx.g s 4 % 4096 < ncount (windowOfCtx s cx.asid) ∧ Reachable s cx.tm.site e.2.1 e.2.2 ∧
      (desOwn s cx.tm.site (cx.g s 4) = decide (e.2.2 = 0)) := by unfold Issues Reachable; dsimp only; decide +kernel

/-! #### Devices: states between issue groups -/

/-- The lab between issue groups, its split as given. -/
def labIdle (f : Split → Split) : State :=
  let s := lab 0 [] []
  { s with turn := .idle, cur := none, splits := [(1, f (issOf s).sp)] }
/-- An operation of slice 0 on token 3 with that body. -/
def labOp (b : OpBody) : Op :=
  { asid := 1, team := 1, site := 0, core := 0, slices := [256], tok := some 3, seqs := [(256, 1)], slots := [(256, 0)], pc := 0x10000#48
    handler := false, gang := 0, lanes := 15, after := [], part := 0, body := b }
/-- The lab with one operation, number 1, standing on token 3. -/
def labWithOp (b : OpBody) (f : Split → Split) : State :=
  let s := labIdle f
  { s with ops := [(1, labOp b)], nextOp := 2
           slices := s.slices.map fun e => (e.1, if e.1 = 256 then { e.2 with toks := [⟨3, 1, false⟩], posted := [(3, 1)] } else e.2) }

/-- A core whose L1 holds a line with a dirty and a clean byte; a scratchpad access. -/
theorem witness_StoredBytesAreRead :
    let s := (State.reset).setCore 0 { (State.reset).core 0 with l1 := [(512, [(0, (1#8, true)), (127, (2#8, false))])] }
    (rising (s.core 0).l1 = true ∧ ∀ e ∈ (s.core 0).l1, rising e.2 = true ∧ ∀ b ∈ e.2, b.1 < 128) ∧
      (find 512 (s.core 0).l1).bind (find 127) = some (2#8, false) ∧ (find 512 (s.core 0).l1).bind (find 0) = some (1#8, true) ∧
      ([65535, 65536, 65663] : List Nat).Nodup ∧ ([65535, 65536, 65663] : List Nat).length = [1#8, 2#8, 3#8].length := by
  dsimp only; and_intros <;> decide +kernel

def labResult : State := labWithOp (.result [⟨256, keyX 12 0, 7#32⟩] [(256, 0, 0#32)]) id
def labAccess : State := labWithOp (.access .load false [⟨256, 0, [0x10100], [], [keyX 12 0], .extend false 4, 0, 0, 0, true, []⟩] 0 false 0 false false false false 0) id
def labMatrix (k : MatKind) : State := labWithOp (.matrix { kind := k, tile := 0, phys := 0, accepted := true, amat := List.replicate 2048 0, bmat := List.replicate 2048 0 }) id
/-- An idle core with a split; each kind of operation alone; a split at MWAIT whose line was written, and one out of time. -/
theorem witness_OperationsComplete :
    ((labIdle id).turn = .idle ∧ ((labIdle id).island (0 / 128)).underReset = false ∧ (coreSplits (labIdle id) 0).isEmpty = false) ∧
    (∀ s ∈ [labResult, labAccess], (find 1 s.ops).any (fun o => o.after.isEmpty) = true ∧ (∀ e ∈ s.slices, e.2.anyLive = true) ∧
      (∀ e ∈ s.fe.grids, e.2.unretired ≠ 0) ∧ (find 256 s.slices).isSome ∧ getD 0 (keyX 12 0) (s.slice 256).lastW ≤ (labOp (.launch 0)).slot 256) ∧
    (∀ s ∈ [labWithOp (.cmo 0 false [512] 0) id, labWithOp (.vpah 1 [(256, 0x10200, 0x10200)] 0) id, labMatrix (.mma true), labMatrix .accz],
      (find 1 s.ops).any (fun o => o.after.isEmpty) = true ∧ (find 1 s.teams).isSome ∧ ∀ e ∈ s.ops, 1 ≤ e.1) ∧
    (∀ e ∈ [(true, 0, 0), (false, 1, 0)], (find 1 (labIdle fun p => { p with wait := .mwait 512 e.2.1 e.2.2 0x10000 e.1 }).splits).any
      (fun p => decide (p.wait = .mwait 512 e.2.1 e.2.2 0x10000 e.1)) = true) := by
  and_intros <;> decide +kernel

/-- A core whose issue cycle has reached a time limit. -/
def labLate (s : State) : State := s.setCore 0 { s.core 0 with cycles := 2 ^ 24 }
/-- The hypotheses about a TCOPY, a launch, a remote operation and a monitor that are out of time. -/
theorem witness_OperationsComplete_times :
    let rem : Remote := { kind := .put, tokField := 3, dstPanel := 0, dst := 1, rva := 0, route := [1], since := 0 }
    let tc : TCopy := { store := false, ctl := 0, recAddr := 0, coord := 0, ep := 0, accepted := true
                        lrec := some ⟨1, 0, 0, 1, 0, 0, 0, 0, 0, 0, [1], [1], [1]⟩ }
    (rem.since + 2 ^ 24 ≤ ((labLate (labWithOp (.remote rem) id)).core (coreKey 0 0)).cycles) ∧
    (0 + 2 ^ 24 ≤ ((labLate (labIdle id)).core (coreKey 0 0)).cycles) ∧ tc.lrec.isSome ∧
    (find 1 (labWithOp (.tcopy tc) id).teams).isSome ∧
    (find 5 { ({} : FrontEnd) with launches := [(5, { asid := 1, pkt := none, parent := some (1, 256), header := 0x10000, depth := 2, root := 7
                                                      hdr := some (List.replicate 128 0) })] }.launches).any (fun l => l.hdr.isSome) = true := by
  dsimp only; and_intros <;> decide +kernel

def labTcopy (rec : Nat) : State := labWithOp (.tcopy { store := false, ctl := 0, recAddr := BitVec.ofNat 64 rec, coord := 0, ep := 0 })
  fun p => { p with wait := .accept 1 }
def labAccept (k : MatKind) (ga : DWord) : State := labWithOp (.matrix { kind := k, tile := 0, ga := ga }) fun p => { p with wait := .accept 1 }
/-- The first unaccepted operation of each queue; records on a mapped page and on one that misses; descriptors in and out of range. -/
theorem witness_EnginesAccept : ∀ s ∈ [labTcopy 0x10000, labTcopy 0x40000, labTcopy 8, labAccept (.mma true) 0, labAccept (.mma true) 4096],
    (acceptWaiter s 1).isSome ∧ (find 1 s.teams).isSome ∧ (∀ j ∈ tcopies s 0 false, 1 ≤ j) ∧ (tcopies s 0 true).length < 64 ∧
      (∀ j ∈ matrixOps s 0 (fun x => !x.accepted), 1 ≤ j) ∧ (matrixOps s 0 fun x => x.accepted).length < 16 := by
  decide +kernel

/-- A split parked on one page at 0x40000, in that standing. -/
def labPark (st : MissSt) : State := labIdle fun p => { p with park := some ⟨.instr .join, [⟨0x40000, .r, st, 0⟩], [], 0⟩ }
/-- Misses still to walk, missed, in service and settled; a fetch on a mapped page and on one that misses. -/
theorem witness_MissesAreServed : ∀ st ∈ [MissSt.walk, .missed 1 false, .missed 3 true, .service 4 false, .passed 0x10000, .declined 5 1],
    let s := labPark st
    (find 1 s.splits).any (fun p => p.park.any fun k => k.misses.any fun m => decide (m.st = st)) = true ∧ (find 1 s.teams).isSome := by
  decide +kernel
def outcome (x : XOut) : Nat := match x with | .ok [] => 0 | .ok _ => 1 | .park .. => 2 | .fault _ => 3
def labFetch (pc : Nat) : State := labIdle fun p => { p with pc := BitVec.ofNat 48 pc }
theorem witness_MissesAreServed_fetch : ∀ e ∈ [(0x10000, 1), (0x40000, 2)],
    (find 1 (labFetch e.1).splits).any (fun p => p.park.isNone) = true ∧
    (find 1 (labFetch e.1).teams).any (fun t => coreKey t.site t.core == 0) = true ∧
    outcome (xlateAll (labFetch e.1) ⟨1, 0, 0, [], [], 0⟩ [⟨0, 255, e.1, 4, .x, 0⟩]) = e.2 := by decide +kernel
/-- A copy fill whose data of 4 bytes come, awaited by a split; a shootdown with nothing to wait for. -/
def labFill : State :=
  let s := labPark (.service 4 false)
  let v : Svc := { kind := .fillRead 1 0 0x40000 [(0x20000, 4)] ⟨0x40000, 0x10000, 3, 7, some (0, 0, 0)⟩ 0 1 3, asid := some 1, event := [], posted := 0 }
  { s with fe := { s.fe with svcs := [(4, v)], shoots := [(1, ⟨0, 1, 0, 0x3FFFF, [9], [1], 0⟩)] } }
theorem witness_MissesAreServed_fill :
    (find 4 labFill.fe.svcs).any (fun v => decide (v.kind = .fillRead 1 0 0x40000 [(0x20000, 4)] ⟨0x40000, 0x10000, 3, 7, some (0, 0, 0)⟩ 0 1 3)) = true ∧
    (find 1 labFill.splits).any (fun p => p.park.any fun k => k.misses.any fun m => decide (m.st = .service 4 false)) = true ∧
    (find 1 labFill.fe.shoots = some ⟨0, 1, 0, 0x3FFFF, [9], [1], 0⟩ ∧ (∀ o ∈ [9], find o labFill.ops = none) ∧
      ∀ e ∈ labFill.splits, e.2.holds = []) := by and_intros <;> decide +kernel

/-- Island 0 with the postponements and the map-out given; die 21 fails. -/
def labHbm (n : Nat) (m : List MapOut) : State := (State.reset).setIsland 0 { (State.reset).island 0 with postponed := [(0, n)], mapouts := m }
theorem witness_MemoryEvents :
    (∀ n ∈ [0, 7, 8], (labHbm n []).populated 0 = true ∧ getD 0 (4096 * 0 + 0) ((labHbm n []).island 0).postponed = n) ∧
    ((State.reset).region (siteOf (128 * 512)) (offOf (128 * 512)) = .hbm) ∧
    ((labHbm 0 []).island 0).hdie.getLsbD 63 = true ∧ ((labHbm 0 []).island 0).mapouts = [] ∧
    (∀ st ∈ [2, 3, 4], let s := labHbm 0 [⟨21, st, false, none⟩]
      (s.island 0).mapouts = [⟨21, st, false, none⟩] ∧ rangeBusy s (withdrawn s 0).1 (withdrawn s 0).2 = false) := by
  refine ⟨?_, ?_, ?_, ?_, ?_⟩ <;> decide +kernel

/-- A put of one packet, standing on site 1, its request queued on the link of island 0 to island 1 or arrived. -/
def labPkt : Pkt :=
  { op := 1, part := 0, parts := 1, kind := .put, srcPanel := 0, src := 0, dstPanel := 0, dst := 1, hops := [1], addr := 0x10000, len := 2
    data := [1, 2], aop := 0, sgn := false, wide := false, lanes := [], fenced := false, notify := none, pid := 0, poisoned := false }
def labFabric (p : PktSt) (l : Link) : State := { State.reset with pkts := [(1, p)], nextPkt := 2, links := [(linkKey 0 1, l)] }
/-- A packet about to hop; the last flit of one on the link, with credits; one that has arrived; audits due, asked for and
received; a link that has to retrain, and one that is down. That a receive buffer has room for a flit depends on its free
size B. -/
theorem witness_FabricMoves :
    (let s := labFabric ⟨labPkt, 0, [1], none, none⟩ {}
     behind s 1 ⟨labPkt, 0, [1], none, none⟩ = false ∧ linkExists s 0 1 = true ∧ pktChan labPkt = 0) ∧
    (let s := labFabric ⟨labPkt, 0, [], some (1, 0), none⟩ { request := { queue := [1], left := 1, freedView := 1 } }
     headPkt s ((s.link 1).chan 0) = some (1, ⟨labPkt, 0, [], some (1, 0), none⟩) ∧ linkExists s (linkSite 1) (linkPort 1) = true ∧
     (s.link 1).lanes ≠ 0 ∧ (s.link 1).tries < Config.linkTries ∧ controlDue (s.link 1) = false ∧ linkPort 1 < 16 ∧
       (arriving s 1 0).map (·.1) = some ⟨0, 1, true⟩) ∧
    (let s := labFabric ⟨labPkt, 0, [], some (1, 0), none⟩ { seq := 1, window := [⟨0, 1, true⟩], next := 1, report := some 0 }
     newFlit s (s.link 1) 0 = none ∧ (arriving s 1 0).map (·.1) = some ⟨0, 1, true⟩) ∧
    ((labFabric ⟨labPkt, 0, [], none, none⟩ { accepted := 4096 }).link 1).accepted = 4096 ∧
    (let s := labFabric ⟨labPkt, 0, [], none, none⟩ { control := { queue := [1], freedView := -4294967296, stall := 8192 }, lanes := 1 }
     4096 * (3 - (s.link 1).lanes) ≤ ((s.link 1).chan 2).stall ∧ queueTakes s (linkBack 1) 2 1 = true) ∧
    (let s := { State.reset with links := [(linkKey 0 16, { audits := [(1, 2, 3)], fused := 2 })] }
     (s.link 16).audits = [(1, 2, 3)] ∧ 16 ≤ linkPort 16) ∧
    (arrivedAudit (labFabric ⟨auditPkt {}, 0, [], none, some (linkBack 1, 2)⟩ {}) 1).isSome ∧
    (Config.linkTries ≤ ((labFabric ⟨labPkt, 0, [], none, none⟩ { tries := 33 }).link 1).tries ∧
      ((labFabric ⟨labPkt, 0, [], none, none⟩ { lanes := 0 }).link 1).lanes = 0) ∧
    (let s := labFabric ⟨labPkt, 1, [], none, none⟩ {}
     (arrived s 1 true).isSome ∧ presentAt s 1 false (span labPkt.addr labPkt.len) = true ∧ (s.island 1).underReset = false ∧
       labPkt.data.length = labPkt.len ∧ (State.reset).populated 1 = true ∧ pktAsks labPkt = true) ∧
    (let p := { labPkt with kind := .putAck, dst := 0 }
     (arrived (labFabric ⟨p, 0, [], none, none⟩ {}) 1 false).isSome ∧ pktAsks p = false) := by
  dsimp only; and_intros <;> decide +kernel
/-- With room for one flit (B > 0) the condition of a good flit holds too. -/
theorem witness_FabricMoves_good : 0 < Config.vcBuffer 0 → ∃ c : VChan, 0 < c.credits 0 ∧ c.got - c.freed < Config.vcBuffer 0 :=
  fun h => ⟨{ freedView := 1 }, by simp only [VChan.credits]; omega, by simpa using h⟩

/-- A live island, one under reset, and one that is not populated. -/
theorem witness_ResetDomains : (State.reset).populated 15 = true ∧ ({ State.reset with pres := 0x7FFF#16 } : State).populated 15 = false ∧
    (((State.reset).setIsland 15 { (State.reset).island 15 with underReset := true }).island 15).underReset = true ∧
    400 ≤ 1250 ∧ ¬(400 ≤ 399) := by
  refine ⟨?_, ?_, ?_, ?_, ?_⟩ <;> decide +kernel

/-- The lab between groups with its context changed. -/
def labCtx (f : Ctx → Ctx) : State := let s := labIdle id; { s with ctxs := s.ctxs.map fun e => (e.1, f e.2) }
/-- A second context, not resident, whose queue 37 has a published packet; the first one's time slice is over. -/
def labSlices : State :=
  let s := labCtx id
  let c : Ctx := { pid := 0x200#32, window := 0, modeWord := 0, ring := ⟨0, 0, 0, 0, 4⟩, resident := false }
  { s with ctxs := s.ctxs ++ [(2, c)]
           fe := { s.fe with slice := 100, fcyc := 100, queues := [(37, { en := true, asid := 2, head := 37 })]
                             qsram := [(0x255FF, 0x82#8)] } }
theorem witness_PreemptionAndDebugger :
    (∀ c ∈ (labCtx id).ctxs, preemptible c.2 = true) ∧ (∀ c ∈ (labCtx fun c => { c with halted := true }).ctxs, preemptible c.2 = true) ∧
    (waiting labSlices 1 = some 2 ∧ labSlices.fe.slice ≠ 0 ∧ 0 + labSlices.fe.slice ≤ labSlices.fe.fcyc) ∧
    (let s := { labCtx (fun c => { c with pre := .stopping [(0, 0)] }) with
        splits := [(1, { (issOf (lab 0 [] [])).sp with handler := true })], islands := [(0, { cycle := 65536 })] }
     (ctxSplits s 1).any (fun e => e.2.1.handler) = true ∧ (ctxSplits s 1).all (fun e => decide (0 + 65536 ≤ (s.island e.2.2.site).cycle)) = true) ∧
    (let s := labCtx fun c => { c with halted := true, dbg := 1, haltAt := [(1, { code := 0x11 })] }
     (dbgRead s 1 (.x 256 3 247)).isSome ∧ (dbgRead s 1 (.pc 1)).isSome ∧ (dbgSlice s 1 257).isSome ∧ (find 1 s.splits).isSome) := by
  dsimp only; refine ⟨?_, ?_, ⟨?_, ?_, ?_⟩, ⟨?_, ?_⟩, ?_, ?_, ?_, ?_⟩ <;> decide +kernel
/-- A context stopping with its team drained; a saved team that fits its island; a place for it at the top of the capacity. -/
def labSaved (at_ : Option Nat) (res : Bool) (pre : PreSt) : State :=
  let s := labCtx fun c => { c with pre := pre }
  { s with teams := s.teams.map fun e => (e.1, { e.2 with saveAt := at_, resident := res, savedSids := [(issOf (lab 0 [] [])).sp.saved 1] })
           splits := if res then s.splits else [] }
theorem witness_PreemptionAndDebugger_saves :
    (∀ a ∈ [none, some 0x100000], ∀ c ∈ (labSaved a true (.stopping [])).ctxs, saveReady (labSaved a true (.stopping [])) 1 c.2 = true) ∧
    (let s := labSaved (some 0x100000) false .none
     mayPlace s 1 = true ∧ (s.island 0).underReset = false ∧ (find 1 s.teams).any (fun t => !(resumeCores s 1 t).isEmpty) = true) ∧
    ((State.reset).island 0).hcap = 0x4000000000 ∧ (0x4000000000 - 4096) % 4096 = 0 := by
  dsimp only; refine ⟨?_, ⟨?_, ?_, ?_⟩, ?_, ?_⟩ <;> decide +kernel

/-- Context 1 with a 1 GiB leaf on island 0 and queue 37 at position 37, of group 0; the slot holds a packet of that type
whose payload starts with those bytes. -/
def labQueue (ty : Nat) (payload : List Byte) : State :=
  let s := labCtx fun c => { c with descs := [(0, 0x100000#64)] }
  let entries := [(0x100000, 0x101001), (0x101000, 0x1F)]
  let slot := payload ++ leBytes (252 - payload.length) 0 ++ leBytes 4 (0x82000000 + ty)
  { s with mem := ((entries.map fun e => (span e.1 8).zip (leBytes 8 e.2)).flatten).foldl (fun m e => writeByte m e.1 e.2) s.mem
           fe := { s.fe with queues := [(37, { en := true, asid := 1, head := 37, copy := some slot })]
                             qsram := ((upFrom 0x25500 256).zip slot).filter fun e => e.2 != 0 } }
def labInFlight (ty : Nat) (st : PSt) (payload : List Byte) : State :=
  let s := labCtx id
  { s with fe := { s.fe with pkts := [(3, ⟨37, 37, ty, 0, 0, 1, payload ++ leBytes (252 - payload.length) 0, st, 0⟩)] } }
/-- One entry: own panel, island 0, counter 0 of the window, value v. -/
def labEntry (v : Nat) : List Byte := leBytes 8 1 ++ leBytes 8 0 ++ leBytes 4 v ++ leBytes 4 0
theorem witness_PacketsRun :
    (nextLevel (labQueue 0 []) = some 0 ∧ (decisions 0 16384 (labQueue 0 [])).isSome ∧
      packetFault (labQueue 0 []) 1 (slotBytes (labQueue 0 []) 37 37) = none ∧
      (∀ e ∈ [(0, false), (1, true)], (decisions 0 16384 (labQueue e.1 (leBytes 8 0x10000))).any (fun r =>
        candLaunch r.1 r.2.queue r.2.cand == e.2 && freeProcessors r.1 != 0 && candidate (labQueue e.1 (leBytes 8 0x10000)) 37 == some .head) = true) ∧
      freeProcessors { labQueue 1 [] with fe := { (labQueue 1 []).fe with launches := (upFrom 1 16).map fun k => (k,
        { asid := 1, pkt := none, parent := none, header := 0, depth := 1, root := 37, running := true }) } } = 0 ∧
      ∀ l, 1 ≤ l → l ≤ 3 → nth 0 (labQueue 0 []).fe.ages l < 64 ∨ nth false (labQueue 0 []).fe.dueLevels l = true) ∧
    (let s := { State.reset with fe := { ({} : FrontEnd) with ages := [0, 64, 0, 0] } }
     64 ≤ nth 0 s.fe.ages 1 ∧ nth false s.fe.dueLevels 1 = false) ∧
    (∀ ty ∈ [0, 1, 2, 3, 4], (find 3 (labInFlight ty .ready (labEntry 0)).fe.pkts).any (fun p => p.ty == ty && decide (p.st = .ready)) = true) ∧
    (∀ e ∈ [(0, true), (1, false)], let s := labInFlight 2 .waiting (labEntry e.1)
      (find 3 s.fe.pkts).any (fun p => ((entriesOf p.payload).all fun x => counterPast (designated s p.asid x.1) x.2) == e.2) = true) ∧
    ((find 3 (labInFlight 3 .ready (labEntry 1)).fe.pkts).map (fun p => entriesOf p.payload) = some [(0, 1)]) := by
  refine ⟨⟨?_, ?_, ?_, ?_, ?_, ?_⟩, ⟨?_, ?_⟩, ?_, ?_, ?_⟩
  case refine_6 =>
    intro l h1 h2
    obtain rfl | rfl | rfl : l = 1 ∨ l = 2 ∨ l = 3 := by omega
    all_goals decide +kernel
  all_goals decide +kernel

/-- A kernel of one role with one gang of 8 lanes; a header of two teams. -/
def labKernel : List Byte :=
  leBytes 4 1 ++ leBytes 4 1 ++ leBytes 4 1024 ++ leBytes 4 0 ++ leBytes 2 0 ++ leBytes 2 8 ++ leBytes 4 0 ++ leBytes 4 0x1018
    ++ leBytes 4 0 ++ leBytes 8 0x10200 ++ [1, 8] ++ leBytes 2 32 ++ leBytes 84 0
def labHeader : List Byte := leBytes 8 0x10080 ++ leBytes 8 0 ++ leBytes 8 1 ++ leBytes 104 0
def labLaunch (l : Launch) : State :=
  let s := labQueue 0 []
  { s with mem := ((span 0x10080 128).zip labKernel).foldl (fun m e => writeByte m e.1 e.2) s.mem
           fe := { s.fe with launches := [(5, l)] } }
def labL (depth : Nat) (hdr : Option (List Byte)) (header : Nat) : Launch :=
  { asid := 1, pkt := none, parent := none, header := header, depth := depth, root := 37, hdr := hdr, running := true }
/-- A launch at depth 10 that starts, ones that fail for depth and for a misaligned header, one due to repeat, and a grid
with teams to place. -/
theorem witness_LaunchesStartTeams :
    (let s := labLaunch (labL 10 (some labHeader) 0x10000)
     let l := labL 10 (some labHeader) 0x10000
     headerOk s 1 labHeader = true ∧ fieldAt labHeader 0 8 % 128 = 0 ∧ fieldAt labHeader 8 8 = 0 ∧
       (match feRead s l (fieldAt labHeader 0 8) 128 with | .ok (k, u) => k == labKernel && (match homes u l labHeader with
          | .ok (some hs) => hs == [0, 0] && hs.all fun site => couldHold u site (kernelDemand k) | _ => false) | _ => false) = true ∧
       kernelOk labKernel = true) ∧
    (10 < (labL 11 none 0).depth ∧ ((labL 1 none 0x10040).hdr = none ∧ (labL 1 none 0x10040).header % 128 ≠ 0)) ∧
    ({ labL 1 none 0 with due := some 0 } : Launch).due = some 0 ∧
    (let g : Grid := { asid := 1, launch := 5, header := 0x10000, hdr := labHeader, kdesc := labKernel, depth := 1, root := 37, teams := 2
                       unretired := 2, toPlace := [(0, [0, 1])], parent := none, pkt := none }
     let s := labLaunch (labL 1 none 0)
     (g.toPlace.find? fun e => e.1 == 0) = some (0, [0, 1]) ∧ mayPlace s 1 = true ∧ (pickCore s 0 (kernelDemand labKernel)).isSome) ∧
    (let v : Svc := { kind := .save 1 1 4096, asid := some 1, event := [1], posted := 0 }
     v.event ≠ [] ∧ v.posted + 2 ^ 31 ≤ ({ ({} : FrontEnd) with fcyc := 2 ^ 31 }).fcyc) := by
  dsimp only; refine ⟨⟨?_, ?_, ?_, ?_, ?_⟩, ⟨?_, ?_, ?_⟩, ?_, ⟨?_, ?_, ?_⟩, ?_, ?_⟩ <;> decide +kernel

/-- A connection that is established, one that is not, and an update that has only to take over. -/
theorem witness_HostAndFirmware :
    (let s := { State.reset with fe := { ({} : FrontEnd) with conns := [1023] } }
     s.connected 1023 = true ∧ s.connected 0 = false) ∧
    (let s := { State.reset with fe := { ({} : FrontEnd) with upd := true, updPos := some 0 } }
     s.fe.upd = true ∧ s.fe.updPos = some 0 ∧ quiescent s = true) := by
  dsimp only; refine ⟨⟨?_, ?_⟩, ?_, ?_, ?_⟩ <;> decide +kernel

/-- Arguments at the limits of what each command takes, and beyond them; a context that has drained while ending; the
subjects each command needs. That an image is signed is for the free values of Config to say. -/
def labArgs (pid : Nat) : CtxArgs := ⟨w32 pid, 0x10000000#64, 7, ⟨0x40, 0, 0, 0, 16⟩⟩
theorem witness_CommandsAnswer :
    (ctxArgsOk (labArgs 0xFF0F) = true ∧ ctxArgsOk (labArgs 0xFF10) = false ∧ (find 255 (labCtx id).ctxs) = none ∧ (find 1 (labCtx id).ctxs).isSome) ∧
    (drained (labCtx fun c => { c with ending := true }) 1 = true) ∧
    (ringOk ⟨0x40, 0, 0, 0, 4⟩ = true ∧ ringOk ⟨0x41, 0, 0, 0, 4⟩ = false) ∧
    (let d := 0x0000000000100001#64
     d.toNat / 2 ^ 56 = 0 ∧ d.toNat / 2 ^ 9 % 2 ^ 3 = 0 ∧ d.toNat % 2 ^ 8 = 1 ∧ (State.reset).populated 0 = true) ∧
    ((State.reset).region 0 0x100000 = .hbm ∧ 0x100000 % 8 = 0) ∧
    (let f : FillRange := ⟨0xFFFFC0000000, 0x40000000, 1, 7, none⟩
     f.bytes ≠ 0 ∧ f.first % pageBytes f.level = 0 ∧ f.bytes % pageBytes f.level = 0 ∧ f.first + f.bytes ≤ 2 ^ 48) ∧
    (let f : FillRange := ⟨0, 0x10000, 3, 7, none⟩
     f.bytes ≠ 0 ∧ f.first % pageBytes f.level = 0 ∧ f.bytes % pageBytes f.level = 0) ∧
    (find 4 labFill.fe.svcs).isSome ∧ (0x4000000000 - 4096) + 4096 ≤ ((State.reset).island 0).hcap ∧
    (let a : QArgs := ⟨true, false, false, 3, 255, 1, 0, 0xC0, 0, 0, 0, 16⟩
     a.rbase.toNat % 64 = 0 ∧ 4 ≤ a.rlog.toNat ∧ a.rlog.toNat ≤ 16) ∧
    (0x3FFFFFFF#64).toNat / 2 ^ 30 % 2 ^ 30 = 0 ∧ (∀ e ∈ (State.reset).ctxs, e.2.resident = false) ∧
    (∃ e ∈ (labCtx id).ctxs, e.2.resident = true) ∧
    (let b := leBytes 4 1 ++ leBytes 2 0 ++ leBytes 2 2 ++ leBytes 248 0
     imageOk b = true ∧ imageOk [] = false ∧ imageStvMin b ≤ 1 ∧ 1 ≤ imageStvOut b) ∧
    ((List.replicate 32 (0 : Byte)).length = 32 ∧ 1023 < 1024) := by
  dsimp only
  refine ⟨⟨?_, ?_, ?_, ?_⟩, ?_, ⟨?_, ?_⟩, ⟨?_, ?_, ?_, ?_⟩, ⟨?_, ?_⟩, ⟨?_, ?_, ?_, ?_⟩, ⟨?_, ?_, ?_⟩, ?_, ?_, ⟨?_, ?_, ?_⟩, ?_, ?_, ?_
    , ⟨?_, ?_, ?_, ?_⟩, ?_, ?_⟩ <;> decide +kernel

/-- A split about to issue, its word at hand: ADD, which issues; WAIT's LDG with its token full, which does not; an illegal
word. -/
def labFetched (w : Nat) (n : Nat) : State :=
  let s := (State.reset).withFetchWord 32 w
  { s with slices := s.slices.map fun e => (e.1, { e.2 with stand := [(3, n)] }) }
theorem witness_StepRunsDecoded : ∀ e ∈ [(0x02040002, 0, some false), (0xA0100868, 255, some true), (0, 0, none)],
    let s := labFetched e.1 e.2.1
    let cx := issOf { s with cur := some 1 }
    let pa := 0x10000
    s.turn = .issue 0 [1] [] ∧ issuing { s with cur := some 1 } = some cx ∧ nearlyReady s cx = true ∧ fetched s cx.tm cx.sp = some pa ∧
      (preIssue s cx).isNone ∧ find (paKey pa) (s.core cx.ck).fetch = some (codeWord s pa) ∧
      ((decode (codeWord s pa)).toOption.map fun i => holdsBack s cx i) = e.2.2 := by decide +kernel

theorem witness_DecodeAndEncodeAgree : (Instr.add 63 0 63 true).wf = true ∧ encode (.add 63 0 63 true) = some 0x027E007F#32 ∧
    (decode 0x027E007F#32).toOption = some (.add 63 0 63 true) := by refine ⟨?_, ?_, ?_⟩ <;> decide +kernel
/-- The invariant holds right after reset, and a step from there answers a next state. -/
theorem witness_StepKeepsInv : (State.reset.withFetchWord 32 0x02040002).Inv ∧
    (match step (State.reset.withFetchWord 32 0x02040002) with | .next _ => true | _ => false) = true := by
  unfold State.Inv; refine ⟨?_, ?_⟩ <;> decide +kernel

/-! #### Where words trap and park (spec/02 R48, the rule of each word): states that meet each clause, with the cause it names -/

/-- Slice 0 alone, whose lane 0 passes the guard, in a context with a handler. Beside the page at 0x10000, page 0x20000 is the notify
counters of island 0, and page 0x30000 lies on island 1, to which a route leads. -/
def labT (xs : List (Nat × List Nat)) (gs : List (Nat × Nat)) (f : Slice → Slice := id) (g : Split → Split := id) : State :=
  let r := labRegs xs gs [(32, [1, 0, 0, 0])]
  let s := lab 0x20#32 r r
  let tlb := tlbAdd Config.coreTlb (tlbOf 1 3 0x30000 (2 ^ 44 + 0x3001F)) (tlbAdd Config.coreTlb (tlbOf 1 3 0x20000 0xC000000001F)
    (s.core (coreKey 0 0)).tlb)
  let sp := (issOf s).sp
  { s with slices := [(256, f (labSlice 0 r))], splits := [(1, g { sp with slices := [0] })]
           islands := put 0 { s.island 0 with topo := [(1, 0x9000000000000001#64)] } s.islands
           ctxs := s.ctxs.map fun e => (e.1, { e.2 with tvec := 0x10100#64 })
           cores := put (coreKey 0 0) { s.core (coreKey 0 0) with tlb := tlb } s.cores }
/-- The same with `v` in the pair x4 of lane 0. -/
def labX (v : Nat) (gs : List (Nat × Nat) := []) : State := labT [(12, [v % 2 ^ 32]), (13, [v / 2 ^ 32])] gs
/-- Changes of its slice: descriptors h1 to h3 of four elements, PREC, the counters of lanes 1 to 3, CPC. -/
def withHdrs (sl : Slice) : Slice :=
  let h := fun (p e b : Nat) => BitVec.ofNat 128 (0x10210 + 2 ^ 63 + 2 ^ 64 * (p + 2 ^ 8 * e + 2 ^ 16 * b + 2 ^ 32 * 4))
  { sl with hs := [(1, h 24 8 4), (2, h 53 11 8), (3, h 8 8 2)] }
def withPrec (n : Nat) (sl : Slice) : Slice := { sl with lanes := sl.lanes.map fun l => { l with prec := w32 n } }
def withDeep (sl : Slice) : Slice := { sl with lanes := sl.lanes.take 1 ++ (sl.lanes.drop 1).map fun l => { l with c := 255 } }
def withCpc (p : Nat) (sl : Slice) : Slice := { sl with cpc := some (BitVec.ofNat 48 p) }

/-- The cause that word `i` raises: code, subcause, TVAL and TLANES, from the handler registers or from the record of its context. -/
def causeOf (s : State) (i : Instr) : Option (Nat × Nat × Nat × Nat) :=
  match exec i s with
  | .next t => match find 1 t.splits, (find 1 t.ctxs).bind Ctx.endRec with
    | _, some (_, r) => some (fieldAt r 0 1, fieldAt r 1 1, fieldAt r 24 8, fieldAt r 32 8)
    | some p, none => if p.handler then some (p.tcause.toNat % 256, p.tcause.toNat / 256 % 256, p.tval.toNat, p.tlanes.toNat) else none
    | _, _ => none
  | _ => none
/-- The word stands at the issuing split, in its window, and raises that cause. -/
def traps (e : State × Instr × Nat × Nat × Nat × Nat) : Bool :=
  (issuing e.1).isSome && (windowCheck e.1 (issOf e.1) (operands e.2.1)).isNone && causeOf e.1 e.2.1 == some e.2.2

theorem witness_MemoryWordsPostAccesses_traps : ∀ e ∈ [(labX 0x10102, Instr.ldg 8 4 3 4 false, 4, 0, 0x10102, 1),
    (labX (2 ^ 48), .stg 8 4 3 4, 5, 1, 2 ^ 48, 1), (labX 0x20000, .ldg 8 4 3 0 false, 4, 0, 0x20000, 1),
    (labX 0x30000, .ldf 8 4 3 false, 6, 4, 0x30000, 1), (labT [] [(4, 0x30000)], .stgg 8 4 3 4, 6, 4, 0x30000, 15)], traps e = true := by
  decide +kernel
/-- The last byte of the allotment is 4,095. -/
theorem witness_ScratchAndAtomicWordsPostAccesses_traps : ∀ e ∈ [(labX 4093, Instr.lds 8 4 3 4, 0x13, 0, 4096, 1),
    (labX 5000, .sts 8 4 3 4, 0x13, 0, 5000, 1), (labX 2, .sts 8 4 3 4, 4, 0, 2, 1), (labX 4, .atoms 8 4 3 0 false true, 4, 0, 4, 1),
    (labX 0x20000, .atom 8 4 3 0 false true, 4, 0, 0x20000, 1)], traps e = true := by decide +kernel
/-- h4 is invalid; index 4 of four; LDP.x of P = 53 in a container of class 32; STP of 1 + 2^−23 at P = 8 with XT = 1. -/
theorem witness_PackedArrayWords_traps : ∀ e ∈ [(labT [(14, [3])] [] withHdrs, Instr.ldp 1 6 1 false 4, 0x17, 8, 0, 1),
    (labT [(14, [4])] [] withHdrs, .stp 1 6 1 1, 0x17, 7, 4, 1), (labT [(14, [3])] [] withHdrs, .ldp 1 6 1 true 2, 0x0D, 2, 53 + 256 * 11, 1),
    (labT [(14, [3]), (9, [0x3F800001])] [] fun sl => withPrec 0x1818 (withHdrs sl), .stp 1 6 1 3, 0x0D, 1, 0, 1),
    (labT [] [(4, 0x10208)], .vpah 1 4 5, 4, 0, 0x10208, 15), (labX (2 ^ 48) [(8, 256)], .cmo 8 4 3 false 0, 5, 1, 2 ^ 48, 1)],
    traps e = true := by decide +kernel
theorem witness_BarrierAndMonitorWords_traps : ∀ e ∈ [(labT [] [(4, 2)], Instr.bari 4 0, 0x13, 0, 0, 15), (labT [] [(4, 1)], .bari 4 1, 0x13, 0, 1, 15),
    (labT [] [(4, 1)], .barw 4 1, 0x13, 0, 1, 15), (labT [] [(4, 2 ^ 31)], .bara 4 0, 0x13, 0, 0, 15), (labT [] [(4, 2 ^ 32)], .bsync 4 0, 0x13, 0, 0, 15),
    (labT [] [], .bsync 4 2, 0x13, 0, 2, 15), (labT [] [(4, 1025)], .bsync 4 0, 0x13, 0, 0, 15), (labT [] [(4, 0x10002)], .mwait 5 4, 4, 0, 0x10002, 15)],
    traps e = true := by decide +kernel
/-- The window of the context has counters 0 to 63. -/
theorem witness_CounterAndChildWaits_traps : ∀ e ∈ [(labT [] [(4, 2 ^ 25)], Instr.nwait 5 4, 0x12, 24, 2 ^ 25, 15),
    (labT [] [(5, 2 ^ 32)], .nwait 5 4, 0x12, 24, 2 ^ 32, 15), (labT [] [(4, 64)], .nwait 5 4, 0x12, 25, 64, 15),
    (labT [] [(4, 0x1000)], .nwait 5 4, 0x12, 26, 0x1000, 15), (labT [] [(4, 0x10040)], .launch 4 3, 4, 0, 0x10040, 15),
    (labT [] [(4, 2 ^ 48)], .launch 4 3, 5, 1, 2 ^ 48, 15)], traps e = true := by decide +kernel
/-- Window overflow up and down; lane counters at 255; targets that differ, and a misaligned one. -/
theorem witness_IndirectCallsAndReturns_traps : ∀ e ∈ [(labT [] [], Instr.call 31 0, 3, 0, 248 + 2 ^ 16 * 8 + 2 ^ 25, 15),
    (labT [] [] withDeep, .brf 1 true 5, 9, 0, 0, 14), (labT [] [] withDeep, .lpb 5, 9, 0, 0, 14),
    (labT [] [], .callr 4 31, 3, 0, 248 + 2 ^ 16 * 8 + 2 ^ 25, 15), (labT [(12, [0x10040, 0x10044])] [], .callr 4 1, 0x0A, 0, 0, 15),
    (labT [(12, [2, 2, 2, 2])] [], .callr 4 1, 4, 0, 2, 15), (labT [] [(63, 2 * 2 ^ 48)], .ret, 3, 0, 16 + 2 ^ 16 * 8 + 2 ^ 25, 15)],
    traps e = true := by decide +kernel
/-- Indices 3 and 7 of three cases; lanes that differ inside a case; a table, and a BRX word, on island 1; counters at 255. -/
theorem witness_MultiwayBranchOpens_traps : ∀ e ∈ [(labT [(12, [3, 7, 1])] [], Instr.brx 4 3, 0x0B, 0, 3, 3),
    (labT [(12, [0, 1])] [] (withCpc 0x10100), .brx 4 3, 0x0A, 0, 0, 15), (labT [] [] id fun p => { p with pc := 0x2FFFC#48 }, .brx 4 3, 6, 4, 0x30000, 15),
    (labT [] [] withDeep, .brx 4 3, 9, 0, 0, 14), (labT [] [], .joinx, 0x0A, 0, 0, 15), (labT [] [] (withCpc 0x30000), .joinx, 6, 4, 0x30000, 15),
    (labT [] [] fun sl => { sl with stand := [(3, 1)] }, .rsort 20 4 1, 0x0C, 0, 0, 15),
    (labT [] [] id fun p => { p with handler := true }, .rsort 20 4 1, 0x0C, 0, 0, 15)], traps e = true := by decide +kernel
/-- The words of MTS TCAUSE, MFS PID, SETM and RFT, encoded by Tables 2.4 and 2.8. -/
theorem witness_ChecksComeBeforeEffects_traps : ∀ e ∈ [(labT [] [], Instr.mts 5 true 0x21, 2, 0, 0x5A000B21, 15), (labT [] [], .mts 5 true 1, 2, 0, 0x5A000B01, 15),
    (labT [] [], .mfs 5 true 0x40, 2, 0, 0x580A0140, 15), (labT [] [(4, 2 ^ 19)], .setm 4, 1, 0, 0x50000800, 15), (labX 1, .prset 4, 0x18, 0, 1, 1),
    (labT [] [], .rftNext, 2, 0, 0x7C000001, 15), (labT [] [] id fun p => { p with handler := true, tsave := 0x80000#32 }, .rftAgain, 1, 0, 0x7C000000, 15),
    (labT [] [] (fun sl => { sl with lanes := sl.lanes.map fun l => { l with tprec := 1 } }) fun p => { p with handler := true }, .rftAgain, 0x18, 0, 1, 15),
    (labT [] [], .illegalEncoding 7, 1, 0, 7, 15)], traps e = true := by decide +kernel
/-- Slot 256 is the first beyond the window; a token hazard on slot 12 with token checking on. -/
theorem witness_ChecksComeBeforeEffects_window : (∀ i ∈ [Instr.add 248 4 4 false, .fadd 4 248 4], let s := labT [] []
      (windowCheck s (issOf s) (operands i)).isSome ∧ causeOf s i = some (3, 0, 248 + 2 ^ 16 * 8, 15)) ∧
    (let s := labT [] [] fun sl => { sl with toks := [⟨3, 1, false⟩] }
     let s := { s with ctxs := s.ctxs.map fun e => (e.1, { e.2 with dbg := 3 })
                       ops := [(1, { asid := 1, team := 1, site := 0, core := 0, slices := [256], tok := some 3, seqs := [], slots := [], pc := 0, handler := false
                                     gang := 0, lanes := 15, after := [], record := [(256, keyX 12 0)], part := 0, body := .result [⟨256, keyX 12 0, 7#32⟩] [] })] }
     (hazardCheck s (issOf s) (.add 6 4 5 false)).isSome ∧ ((find 1 (nextOf (.add 6 4 5 false) s).ctxs).map fun c => c.haltAt.map fun h => h.2.code) = some [0x0F#8]) := by
  dsimp only; and_intros <;> decide +kernel
/-- 1 + 1.5 × 2^−25 with XT = 1; a faithful function at P = 25. -/
theorem witness_FloatWordsRoundOnce_traps : ∀ e ∈ [(labT [(12, [0x3F800000]), (13, [0x33400000])] [] (withPrec 0x1818), Instr.fadd 6 4 5, 0x0D, 1, 0, 1),
    (labT [] [] (withPrec 0x1019), .fsin 6 4 3, 0x0D, 3, 5, 1)], traps e = true := by decide +kernel
/-- Bits that must be 0; a counter beyond the window; a region a put may not reach; lanes on two islands; no route; misaligned lanes; a
64-bit atomic on a counter. -/
theorem witness_RemoteWordsPostOperations_traps : ∀ e ∈ [(labT [] [(4, 2 ^ 25)], Instr.rput 4 5 6, 0x12, 24, 2 ^ 25, 15),
    (labT [] [(4, 2 ^ 62)], .rget 4 5 6, 0x12, 24, 2 ^ 62, 15), (labT [] [(4, 2 ^ 62 + 64 * 2 ^ 48)], .rput 4 5 6, 0x12, 25, 2 ^ 62 + 64 * 2 ^ 48, 15),
    (labT [] [(4, 0x40), (5, 0x10100), (6, 0x20000)], .rput 4 5 6, 6, 6, 0x20000, 15),
    ((labT [] [(4, 0x40), (5, 0x10100), (6, 0x30000)]).setIsland 0 {}, .rput 4 5 6, 7, 0, 2 ^ 44 + 0x30000, 15),
    (labX 0x30002, .ratom 8 4 1 0 false false, 4, 0, 0x30002, 1), (labX 0x20000, .ratom 8 4 1 0 false true, 4, 0, 0x20000, 1),
    ((labX 0x30000).setIsland 0 {}, .ratom 8 4 1 0 false false, 7, 0, 2 ^ 44 + 0x30000, 1),
    (labT [(12, [0x10000, 0x30000, 0x30000, 0x10000])] [] id fun p => { p with mode := 0 }, .ratom 8 4 1 0 false false, 6, 5, 0x10000, 15),
    (labT [] [(4, 2 ^ 25)], .nadd 5 4, 0x12, 24, 2 ^ 25, 15), (labT [] [(5, 2 ^ 32)], .nadd 5 4, 0x12, 24, 2 ^ 32, 15), (labT [] [(4, 64)], .nadd 5 4, 0x12, 25, 64, 15),
    (labT [] [(4, 0x2000)], .nadd 5 4, 7, 0, 2 ^ 45 + 0xC0000000000 + 0x10 * 4, 15)], traps e = true := by decide +kernel
/-- Every form that translates parks on a page that misses, with its increment counted (R110, R276). -/
theorem witness_parks : ∀ e ∈ [(labX 0x40000, Instr.ldg 8 4 3 4 false, some 3), (labT [] [(4, 0x40000)], .vpah 1 4 3, some 3),
    (labX 0x40000 [(8, 256)], .cmo 8 4 3 false 0, some 3), (labX 0x40000, .ratom 8 4 3 0 false false, some 3),
    (labT [] [(4, 0x3000000040), (5, 0x10100), (6, 0x40000)], .rput 4 5 6, some 3), (labT [] [] id fun p => { p with pc := 0x3FFFC#48 }, .brx 4 3, none)],
    Issues e.1 e.2.1 (issOf e.1) ∧ (find 1 (nextOf e.2.1 e.1).splits).any (fun p => p.park.isSome) = true ∧
      (∀ k, e.2.2 = some k → ((nextOf e.2.1 e.1).slice 256).count k = 1) := by unfold Issues; decide +kernel

/-! #### More of the clauses, with what the step does there -/

/-- The first split after the word. -/
def splitAfter (s : State) (i : Instr) : Option Split := match exec i s with | .next t => find 1 t.splits | _ => none
/-- An LDP with a lane in exact mode waits for its check; PREF goes on at once; the header checks of Table 6.10 in their order. -/
theorem witness_PackedArrayWords_waits :
    let s := labT [(14, [3])] [] fun sl => withPrec 0x1818 (withHdrs sl)
    Issues s (.ldp 1 6 1 false 1) (issOf s) ∧ (splitAfter s (.ldp 1 6 1 false 1)).map Split.wait = some (.check s.nextOp) := by
  unfold Issues; dsimp only; and_intros <;> decide +kernel
/-- P, E, B and the reserved fields of a header with four elements. -/
def headerOf (magic ver p e b r : Nat) : Nat := magic + 2 ^ 16 * ver + 2 ^ 24 * p + 2 ^ 32 * e + 2 ^ 40 * b + 2 ^ 48 * r + 2 ^ 64 * 4
theorem witness_PackedArrayWords_headers : ∀ e ∈ [(headerOf 0x5056 1 24 8 4 0, 0), (headerOf 0x5057 2 1 9 4 0, 1), (headerOf 0x5056 2 1 9 4 0, 2),
    (headerOf 0x5056 1 1 9 4 0, 3), (headerOf 0x5056 1 114 15 17 0, 3), (headerOf 0x5056 1 24 9 4 0, 4), (headerOf 0x5056 1 24 8 5 0, 5),
    (headerOf 0x5056 1 113 15 16 1, 6)], (match headerCheck 0x10200 e.1 with
      | .ok h => e.2 == 0 && hValid h && hBase h == 0x10210 && hP h == 24 && hE h == 8 && hB h == 4 && hCount h == 4
      | .error n => e.2 == n) = true := by decide +kernel
theorem witness_CacheWordsComplete_pref : splitAfter (labX 0x10100) (.pref 4 true) = some (issOf (labX 0x10100)).after := by decide +kernel

/-- BSYNC of all eight lanes of the gang, which closes its phase. -/
theorem witness_BarrierAndMonitorWords_closes :
    let s := lab 0 (labRegs [] [(4, 0x10008)] []) []
    Issues s (.bsync 4 0) (issOf s) ∧ bsyncBad (issOf s).tm ((issOf s).g s 4) = false ∧ rising s.splits = true ∧
      (∀ e ∈ s.ops, e.2.body.isAccess = false) ∧ barAfter s (.bsync 4 0) = some ⟨1, 8, 0⟩ ∧ splitAfter s (.bsync 4 0) = some (issOf s).after := by
  unfold Issues; dsimp only; and_intros <;> decide +kernel

/-- A fetch buffer whose entries are memory's, in which no word has changed since it was last emptied, sees memory's words. -/
theorem fetchSees_of {s : State} {ck pa : Nat} (h : (find (paKey pa) (s.core ck).fetch).all (· == codeWord s pa) = true)
    (h2 : (wordValues s (paKey pa) (s.core ck).fetchSince).drop 1 = []) : FetchSees s ck pa := by
  refine ⟨fun v hv => ?_, fun v hv => ?_⟩
  · rw [hv] at h; simpa using h
  · rw [h2] at hv; cases hv

/-- BRX x4 of three cases as `step` issues it: the word and its table stand in memory, and the word in the fetch buffer. Slice 0 holds
`idx` in x4, those counters and CPC. -/
def labTable (cs : List Nat) (ds : List Bool) (idx : List Nat) (cpc : Option (BitVec 48)) : State :=
  let s := labCounts cs ds [(12, idx)] cpc
  let ws : List (Nat × Nat) := [(0x10000, 0x72000803), (0x10004, 0xA), (0x10008, 0x14), (0x1000C, 0x1E), (0x10010, 0x28)]
  let s := { s with mem := ((ws.map fun (e : Nat × Nat) => (span e.1 4).zip (leBytes 4 e.2)).flatten).foldl (fun m (e : Nat × Byte) => writeByte m e.1 e.2) s.mem }
  s.setCore 0 { s.core 0 with fetch := [(0x10000, 0x72000803)] }
/-- The table of a BRX at the PC passes translation, and the fetch path sees memory's words in it. -/
def tableSeen (s : State) (c : Nat) : Bool :=
  let cx := issOf s
  let pas := pasOf (xlateAll s cx.env (chksOf 0 (liveMask s cx.sp) (cx.sp.pc.toNat + 4) (4 * (c + 1)) .x))
  !pas.isEmpty && (upFrom 0 (c + 1)).all fun n => pas.any fun p => let pa := p.2 + 4 * n
    (find (paKey pa) (s.core cx.ck).fetch).all (· == codeWord s pa) && ((wordValues s (paKey pa) (s.core cx.ck).fetchSince).drop 1).isEmpty
/-- Where slice 0 goes, the counters of its lanes and its CPC. -/
def regionAfter (s : State) (i : Instr) : Option (Nat × List Nat × Option Nat) :=
  match exec i s with
  | .next t => (find 1 t.splits).map fun p => (p.pc.toNat, (t.slice 256).lanes.map fun l => l.c.toNat, (t.slice 256).cpc.map BitVec.toNat)
  | _ => none
/-- An outermost BRX, one inside a case, a re-dispatch with lanes still waiting, and the end of a region without lanes. -/
theorem witness_MultiwayBranchOpens_seen : ∀ e ∈ [(labTable [0, 0, 0, 1] [] [2, 0, 2, 1] none, 0x10078, [0, 1, 0, 2], some 0x10000),
    (labTable [0, 1, 0, 1] [] [1, 5, 1, 5] (some 0x10100), 0x10050, [0, 1, 0, 1], some 0x10100),
    (labTable [1, 1, 1, 2] [true, false, false, false] [9, 1, 0, 9] (some 0x10000), 0x10050, [1, 0, 1, 2], some 0x10000),
    (labTable [1, 2, 1, 0] [true, true, true, false] [9, 1, 0, 9] (some 0x10000), 0x100A0, [0, 1, 0, 0], none)],
    Issues e.1 (.brx 4 3) (issOf e.1) ∧ tableSeen e.1 3 = true ∧ regionAfter e.1 (.brx 4 3) = some e.2 := by unfold Issues; decide +kernel
/-- The last case of a region whose BRX word stands in the fetch buffer. -/
theorem witness_JoinxEndsACase_seen :
    let s := { labTable [1, 2, 0, 0] [true, true, false, false] [] (some 0x10000) with splits := (labTable [] [] [] none).splits.map fun e =>
      (e.1, { e.2 with pc := 0x10080#48 }) }
    let pa := fun (v : Nat) => ((pasOf (xlateAll s (issOf s).env (chksOf 0 (liveMask s (issOf s).sp) v 4 .x))).headD (⟨0, 0, 0, 0, .r, 0⟩, 0)).2
    Issues s .joinx (issOf s) ∧ FetchSees s (issOf s).ck (pa 0x10000) ∧ FetchSees s (issOf s).ck (pa 0x10010) ∧
      (codeWord s (pa 0x10000)).toNat % 512 = 3 ∧ regionAfter s .joinx = some (0x100A0, [0, 1, 0, 0], none) := by
  unfold Issues; dsimp only
  refine ⟨by decide +kernel, fetchSees_of (by decide +kernel) (by decide +kernel), fetchSees_of (by decide +kernel) (by decide +kernel), ?_, ?_⟩ <;> decide +kernel

/-- EXIT of a split whose only slice has no other live lane, while the other slice of the gang lives on: the split ends. RGANG of the
last split of its gang: the gang becomes one split of both slices. -/
theorem witness_ExitAndRgang_ends : let s := labTorn
    Issues s .exit (issOf s) ∧ TeamStays s (issOf s) ∧ (∀ sk ∈ (issOf s).sp.keys, ((s.slice sk).some fun _ l => l.e = false ∧ l.c ≠ 0) = false ∧
      (find sk s.slices).isSome ∧ (s.slice sk).toks = [] ∧ (s.slice sk).stand = [] ∧ ((nextOf .exit s).slice sk).retired = true) ∧
      splitAfter s .exit = none := by unfold Issues TeamStays; dsimp only; and_intros <;> decide +kernel
theorem witness_ExitAndRgang_merges :
    let s := { labTorn with splits := labTorn.splits.map fun e => (e.1, if e.1 = 2 then { e.2 with pc := 0x10000, wait := .rgang } else e.2) }
    Issues s .rgang (issOf s) ∧ (issOf s).sp.handler = false ∧ rising s.splits = true ∧ (∀ e ∈ s.ops, e.2.body.isAccess = false) ∧
      (∀ e ∈ s.splits, e.1 ≠ (issOf s).sid → e.2.team = (issOf s).sp.team → e.2.gang = (issOf s).sp.gang → e.2.wait = .rgang ∧ e.2.pc = (issOf s).sp.pc) ∧
      (nextOf .rgang s).splits.map (fun e => (e.1, e.2.slices, e.2.pc, decide (e.2.wait = .none))) = [(1, [0, 1], 0x10004, true)] := by
  unfold Issues; dsimp only; and_intros <;> decide +kernel
theorem witness_SortMovesLanes_ready : rising labSort.splits = true ∧ (∀ e ∈ labSort.splits, e.2.pending = none) ∧
    ((splitAfter labSort (.rsort 20 4 1)).map fun p => (p.slices, p.busy)) = some ([0, 1], 16) := by and_intros <;> decide +kernel

/-- The x form of MTS, of TPREC too, and a handler register with no active lane to take it from. -/
theorem witness_StateRegisterWrites_x :
    let s := { labHandler with slices := labHandler.slices.map fun e => (e.1, { e.2 with regs := labRegs [all4 4 0x12345678] [] [] }) }
    let n := { s with splits := s.splits.map fun e => (e.1, { e.2 with mode := 0x40#32 }) }
    allIssue s ([0x20, 0x22, 0x26].map (Instr.mts 4 false)) ∧ (splitAfter s (.mts 4 false 0x22)).map Split.tpc = some 0x12345678 ∧
      (((nextOf (.mts 4 false 0x26) s).slice 257).lane 3).tprec = 0x12345678 ∧ (guardedLanes n (issOf n).sp).isEmpty = true ∧
      Issues n (.mts 4 false 0x22) (issOf n) ∧ splitAfter n (.mts 4 false 0x22) = some (issOf n).after := by
  unfold allIssue Issues; dsimp only; and_intros <;> decide +kernel
/-- A cause of every fatal class at a split of a live context. -/
theorem witness_FatalCauseEndsContext_all : ∀ code ∈ [0x01, 0x02, 0x04, 0x05, 0x06, 0x09, 0x0A, 0x0C, 0x12, 0x13, 0x14, 0x15, 0x18],
    (match causeClass (BitVec.ofNat 8 code) with | .fatal => true | _ => false) = true ∧
    ((find 1 (raiseAt (labIdle id) 1 (cause code 5 0x1234 0xFF)).ctxs).bind Ctx.endRec).map (fun e =>
      [e.1, e.2.length, fieldAt e.2 0 1, fieldAt e.2 1 1, fieldAt e.2 16 8, fieldAt e.2 24 8, fieldAt e.2 32 8]) =
      some [7, 64, code, 5, 0x10000, 0x1234, 0xFF] := by decide +kernel
/-- Exact sums and quotients in exact mode: the sum goes on with its results in place, the quotient waits for its operations. -/
theorem witness_FloatWordsRoundOnce_exact :
    let s := labT [all4 4 0x3F800000, all4 5 0x40000000] [] (withPrec 0x1818)
    Issues s (.fadd 6 4 5) (issOf s) ∧ (inexact s (issOf s) fun le => roundX le.rnd (addX 0 false (le.f 4) (le.f 5))).isEmpty = true ∧
      (issOf s).sp.keys.all (fun sk => ((nextOf (.fadd 6 4 5) s).slice sk).pend.all fun p => match p.ripe with | .cov .. => true | _ => false) = true ∧
      ((nextOf (.fadd 6 4 5) s).reg 256 (keyX 14 0)) = 0x40400000 ∧ Issues s (.fdiv 6 4 5) (issOf s) ∧
      (splitAfter s (.fdiv 6 4 5)).map Split.wait = some (.exact [s.nextOp] 0) := by
  unfold Issues; dsimp only; and_intros <;> decide +kernel

/-- A 32-bit ATOM.add of 5 on a word whose lowest byte core 0 holds dirty as 7, and whose second holds clean as 9, over memory's 1 and 2. -/
theorem witness_StoredBytesAreRead_atom :
    let s := (labWithOp (.cmo 0 false [] 0) id).setCore 0 { ((labWithOp (.cmo 0 false [] 0) id).core 0) with l1 := [(512, [(0, (7#8, true)), (1, (9#8, false))])] }
    let s := { s with mem := writeByte (writeByte s.mem 0x10000 1) 0x10001 2 }
    let a : Acc := { sk := 256, lane := 0, addrs := [0x10000, 0x10001, 0x10002, 0x10003], opV := 5 }
    let p := performAcc s (labOp (.launch 0)) .atom false 0 false 0 false false a
    a.addrs.Nodup ∧ decide (accRegion s a = .hbm) = true ∧ p.1 = [7#8, 2, 0, 0] ∧ a.addrs.map (readByte p.2.mem) = [12#8, 2, 0, 0] ∧
      ((find 512 (p.2.core 0).l1).bind (find 0) = none) ∧ (find 512 (p.2.core 0).l1).bind (find 1) = none := by
  dsimp only; and_intros <;> decide +kernel

/-- Nothing but the one operation stands before its end (Calm), as a test. -/
def calm (s : State) (o : Op) : Bool :=
  s.slices.all (fun e => e.2.anyLive) && s.fe.grids.all (fun e => e.2.unretired != 0) && o.slices.all (fun k => (find k s.slices).isSome) &&
    s.ops.all fun e => match e.2.body with | .remote r => r.sent && !r.partsLeft.isEmpty | _ => true
/-- The state after a device's step. -/
def after (s : State) (i : Instr) : State := nextOf i s
/-- The operation is alone, calm, and no longer stands after the step. -/
def ends1 (s : State) (i : Instr) : Bool := calm s (labOp (.launch 0)) && (find 1 (after s i).ops).isNone && (match exec i s with | .next _ => true | _ => false)

/-- One load and one store of a word: the register and memory after them. -/
def labStore : State := labWithOp (.access .store false [⟨256, 0, [0x10100, 0x10101], [5, 6], [], .extend false 4, 0, 0, 0, true, []⟩] 0 false 0 false false false false 0) id
theorem witness_OperationsComplete_access :
    let s := { labAccess with mem := writeByte labAccess.mem 0x10100 0x2A }
    (ends1 s (.operationComplete 1) ∧ checkWaiter s 1 = none ∧ (after s (.operationComplete 1)).reg 256 (keyX 12 0) = 0x2A ∧
      (s.slice 256).tokW = []) ∧
    (let s := labStore
     ends1 s (.operationComplete 1) ∧ checkWaiter s 1 = none ∧
      [0x10100, 0x10101].map (fun a => (find (lineOf a) ((after s (.operationComplete 1)).core 0).l1).bind (find (a % 128))) = [some (5, true), some (6, true)]) := by
  dsimp only; and_intros <;> decide +kernel

/-- CMO.cln, inv and cinv of line 512, of which core 0 holds one byte dirty and one clean. -/
def labCmo (c : Nat) : State :=
  let s := labWithOp (.cmo c true [512] 0) id
  { s.setCore 0 { s.core 0 with l1 := [(512, [(0, (7#8, true)), (1, (9#8, false))])] } with mem := writeByte s.mem 0x10001 2 }
theorem witness_OperationsComplete_cmo : ∀ e ∈ [(0, 7#8, some [(0, (7#8, false)), (1, (9#8, false))]), (1, 0#8, none), (2, 7#8, none)],
    let s := labCmo e.1
    let t := after s (.operationComplete 1)
    ends1 s (.operationComplete 1) ∧ rising (s.core 0).l1 = true ∧ readByte t.mem 0x10000 = e.2.1 ∧ readByte t.mem 0x10001 = 2 ∧
      find 512 (t.core 0).l1 = e.2.2 ∧ find 0x10000 t.stale = none ∧ (e.1 ≠ 0 → l2Holds t 0x10000 = false) := by dsimp only; decide +kernel

/-- A VPAH of a well-formed header, and of a misversioned one whose split waits for the check. -/
def labVpah (ver : Nat) : State :=
  let s := labWithOp (.vpah 1 [(256, 0x10200, 0x10200)] 0) fun p => { p with wait := .check 1 }
  { s with mem := ((span 0x10200 16).zip (leBytes 16 (0x5056 + 2 ^ 16 * ver + 2 ^ 24 * 24 + 2 ^ 32 * 8 + 2 ^ 40 * 4 + 2 ^ 64 * 4))).foldl (fun m (e : Nat × Byte) => writeByte m e.1 e.2) s.mem
           ctxs := s.ctxs.map fun e => (e.1, { e.2 with tvec := 0x10100#64 }) }
theorem witness_OperationsComplete_vpah :
    (ends1 (labVpah 1) (.operationComplete 1) ∧ hCount (getD 0 1 ((after (labVpah 1) (.operationComplete 1)).slice 256).hs) = 4 ∧
      hBase (getD 0 1 ((after (labVpah 1) (.operationComplete 1)).slice 256).hs) = 0x10210) ∧
    (ends1 (labVpah 2) (.operationComplete 1) ∧ (checkWaiter (labVpah 2) 1).isSome ∧
      (find 1 (after (labVpah 2) (.operationComplete 1)).splits).map (fun p => [p.tcause.toNat, p.tval.toNat, p.tlanes.toNat]) = some [0x217, 0x10200, 15]) := by
  and_intros <;> decide +kernel

/-- A TCOPY of the two int8 elements at 0x10000, 3 and −3, to or from the scratchpad at 0x2000, where −1.5 and 300 stand as CE16. -/
def labCopy (store : Bool) : State :=
  let r : LRec := { fmt := 4, sfmt := 0, blk := 0, rank := 1, oob := 0, sat := 1, rnd := 0, tgt := 2, base := 0x10000, sbase := 0, sizes := [2], strides := [0], boxes := [3] }
  let s := labWithOp (.tcopy { store := store, ctl := 0, recAddr := 0, coord := 0, ep := 0, accepted := true, lrec := some r, origin := [0]
                               pages := [(0x10000, 0x10000, 0x10000)], scr := 0x2000, left := [0, 1, 2] }) id
  { s.setCore 0 { s.core 0 with scratch := [(0x2000, 0xC0#8), (0x2001, 0xBF#8), (0x2002, 0x96#8), (0x2003, 0x43#8)] } with
    mem := writeByte (writeByte s.mem 0x10000 3) 0x10001 0xFD }
theorem witness_OperationsComplete_tcopy :
    (let t := after (labCopy false) (.tcopyComplete 1)
     ends1 (labCopy false) (.tcopyComplete 1) ∧ (upFrom 0x2000 6).map (fun k => getD 0 k (t.core 0).scratch) = [0x40#8, 0x40, 0x40, 0xC0, 0, 0]) ∧
    (let t := after (labCopy true) (.tcopyComplete 1)
     ends1 (labCopy true) (.tcopyComplete 1) ∧ ((labCopy true).core 0).sramPast = [] ∧ [0x10000, 0x10001, 0x10002].map (readByte t.mem) = [0xFE#8, 0x7F, 0]) := by
  dsimp only; and_intros <;> decide +kernel
/-- ACCWR and ACCRD of column 5 of row 2, with and without a soft error in that element. -/
def labTile (k : MatKind) (bad : Bool) : State :=
  let s := labWithOp (.matrix { kind := k, tile := 0, phys := 1, accepted := true, cols := [(256, 5, keyX 12 0)], vals := [77#32], row := 2 }) id
  s.setCore 0 { s.core 0 with tiles := [(4096 + 133, 55#32)], badTiles := if bad then [4096 + 133] else [] }
theorem witness_OperationsComplete_matrix :
    (ends1 (labTile .accrd false) (.matrixComplete 1) ∧ (after (labTile .accrd false) (.matrixComplete 1)).reg 256 (keyX 12 0) = 55) ∧
    (ends1 (labTile .accwr false) (.matrixComplete 1) ∧ getD 0 (4096 + 133) ((after (labTile .accwr false) (.matrixComplete 1)).core 0).tiles = 77) ∧
    (matrixBad (labTile .accrd true) (labOp (.launch 0)) { kind := .accrd, tile := 0, phys := 1, cols := [(256, 5, 0)], row := 2 } = true ∧
      ends1 (labTile .accrd true) (.matrixComplete 1) ∧ (find 1 (after (labTile .accrd true) (.matrixComplete 1)).ctxs).any Ctx.ending = true) := by
  and_intros <;> decide +kernel

/-- The checks of the matrix engine in their order: code, subcause and TVAL; 0 where it accepts. The scratchpad has 4,096 bytes. -/
def accepts (r : Except CauseRec MatOp) : List Nat := match r with | .ok _ => [] | .error c => [c.code.toNat, c.sub, c.tval]
theorem witness_EnginesAccept_matrix : ∀ e ∈ [(({ kind := .accz, tile := 5 } : MatOp), [0x14, 0, 5]), ({ kind := .accz, tile := 1 }, []),
    ({ kind := .mma true, tile := 0, ga := 2 ^ 18, gb := 2 ^ 19 }, [0x12, 16, 2 ^ 18]), ({ kind := .mma true, tile := 0, ga := 1, gb := 2 ^ 19 }, [0x12, 16, 2 ^ 19]),
    ({ kind := .mma true, tile := 0, ga := 1, gb := 2 }, [0x12, 17, 1]), ({ kind := .mma true, tile := 0, ga := 0, gb := 2 }, [0x12, 17, 2]),
    ({ kind := .mma true, tile := 0, ga := 64, gb := 128 }, [0x13, 0, 4096]), ({ kind := .mma true, tile := 0, ga := 0, gb := 8192 }, [0x13, 0, 8192]),
    ({ kind := .accrd, tile := 0, ga := 2 ^ 22 }, [0x12, 21, 2 ^ 22]), ({ kind := .accwr, tile := 0, ga := 0x40 }, [0x12, 21, 0x40]), ({ kind := .accrd, tile := 0, ga := 0x3F003F }, []),
    ({ kind := .accst, tile := 0, ga := 2 ^ 51 }, [0x12, 1, 2 ^ 51]), ({ kind := .accst, tile := 0, ga := 2 ^ 32 }, [0x12, 17, 2 ^ 32]), ({ kind := .accst, tile := 0, ga := 2 ^ 50 }, [0x13, 0, 4096])],
    let s := labIdle id
    accepts (acceptMatrix s (labOp (.launch 0)) (issOf (lab 0 [] [])).tm e.1) = e.2 := by dsimp only; decide +kernel

/-- A launch of queue 37's LAUNCH packet 3, whose header stands at 0x10000 with the kernel at 0x10080. -/
def labRun (depth header : Nat) (hdr : Option (List Byte)) (l : Launch → Launch) : State :=
  let s := labLaunch (l { labL depth hdr header with pkt := some 3 })
  { s with mem := ((span 0x10000 128).zip labHeader).foldl (fun m (e : Nat × Byte) => writeByte m e.1 e.2) s.mem
           fe := { s.fe with pkts := [(3, ⟨37, 37, 1, 0, 0, 1, leBytes 252 header, .running, 0⟩)] } }
/-- The header with another field of some bytes, and the kernel with one. -/
def hdrWith (at_ n v : Nat) : List Byte := labHeader.take at_ ++ leBytes n v ++ labHeader.drop (at_ + n)
def withKernel (at_ n v : Nat) (s : State) : State :=
  { s with mem := ((span (0x10080 + at_) n).zip (leBytes n v)).foldl (fun m (e : Nat × Byte) => writeByte m e.1 e.2) s.mem }
/-- The launch is gone with its packet, its queue has ERR, its record has that subcause, and its header that STATUS. -/
def launchFaulted (s : State) (header sub : Nat) : Bool :=
  let t := after s (.launchRun 5)
  let rs := (t.rdmaOut.filterMap fun m => match m with | .write _ _ _ b => some b | _ => none) ++ (t.queue 37).held
  (find 5 t.fe.launches).isNone && (find 3 t.fe.pkts).isNone && (t.queue 37).err &&
    rs.any (fun r => r.length == 64 && fieldAt r 0 1 == 0x16 && fieldAt r 1 1 == sub && fieldAt r 2 1 == 2 && fieldAt r 24 8 == header) &&
    (match feTranslate s 1 (header + 60) with | some pa => pocBytes t (span (paKey pa) 4) == leBytes 4 (0x100 + sub) | none => true)
/-- Each check of Table 16.7: depth, header, prologue address, header fields, kernel address and descriptor, home islands, resources. -/
theorem witness_LaunchesStartTeams_faults :
    (∀ e ∈ [(labRun 11 0x10000 none id, 0x10000, 1), (labRun 1 0x10040 none id, 0x10040, 2), (labRun 1 0x10000 (some (hdrWith 8 8 2)) id, 0x10000, 3),
      (labRun 1 0x10000 (some (hdrWith 58 2 1)) id, 0x10000, 4), (labRun 1 0x10000 (some (hdrWith 0 8 0x10040)) id, 0x10000, 5),
      (withKernel 8 4 (2 ^ 31) (labRun 1 0x10000 (some labHeader) id), 0x10000, 5)], launchFaulted e.1 e.2.1 e.2.2 = true) := by decide +kernel
/-- One that passes every check becomes a grid of two teams for island 0. -/
theorem witness_LaunchesStartTeams_starts : let s := labRun 1 0x10000 (some labHeader) id
    let t := after s (.launchRun 5)
    (find 5 t.fe.launches).isNone ∧ (find s.fe.nextId t.fe.grids).map (fun g => (g.unretired, g.toPlace)) = some (2, [(0, [0, 1])]) := by
  dsimp only; and_intros <;> decide +kernel
/-- A launch whose prologue at 0x10400 leaves the verdict in g63 and 100 in g62. -/
def labPro (verdict : Nat) : State :=
  let s := labRun 1 0x10000 (some (hdrWith 8 8 0x10400)) id
  let ws := [Instr.ldhg 62 100, .ldhg 63 (BitVec.ofNat 17 verdict), .exit].map fun i => leBytes 4 ((encode i).getD 0).toNat
  { s with mem := ((span 0x10400 12).zip ws.flatten).foldl (fun m (e : Nat × Byte) => writeByte m e.1 e.2) s.mem }
/-- The verdicts: start, complete without a grid, run again later, and fail. -/
theorem witness_LaunchesStartTeams_prologue :
    (find (labPro 0).fe.nextId (after (labPro 0) (.launchRun 5)).fe.grids).isSome ∧
    (let t := after (labPro 1) (.launchRun 5)
     (find 5 t.fe.launches).isNone ∧ (find 3 t.fe.pkts).isNone ∧ (t.queue 37).err = false ∧ t.fe.grids.length = (labPro 1).fe.grids.length) ∧
    ((find 5 (after (labPro 2) (.launchRun 5)).fe.launches).map fun l => (l.running, l.due)) = some (false, some ((labPro 2).fe.fcyc + 100)) ∧
    launchFaulted (labPro 3) 0x10000 3 = true := by and_intros <;> decide +kernel

/-- A split parked on two accesses of the page at 1 GiB, which no leaf maps: in the tables of labQueue, with a frame in the pool and a
fill range when `fill`, its context in host-assisted mode when `host`. -/
def labMiss (fill host : Bool) : State :=
  let s := labQueue 0 []
  let ms : List Miss := [⟨2 ^ 30 + 8, .r, .missed 1 false, 0⟩, ⟨2 ^ 30 + 4096, .r, .missed 1 false, 0⟩]
  { s with splits := s.splits.map fun e => (e.1, { e.2 with park := some ⟨.instr .join, ms, [], 0⟩ })
           ctxs := s.ctxs.map fun e => (e.1, { e.2 with descs := [(0, if host then 0x100100#64 else 0x100000#64)]
                                                        fills := if fill then [⟨2 ^ 30, 2 ^ 30, 1, 7, none⟩] else [] })
           fe := { s.fe with frames := [(0, [(2 ^ 32, 2 ^ 30)])] } }
def missesOf (s : State) : List MissSt := match (find 1 s.splits).bind Split.park with | some k => k.misses.map Miss.st | none => []
/-- Declined with no fill range, put to the host, and filled from the pool, after which a walk finds the page. -/
theorem witness_MissesAreServed_service :
    (let s := labMiss false false
     svcsFull s = false ∧ walk s 1 0 (2 ^ 30 + 8) = .miss 1 ∧ missesOf (after s (.faultService (.split 1))) = [.declined 0x05 1, .missed 1 false]) ∧
    (let s := labMiss false true
     fmode s 1 0 = 1 ∧ missesOf (after s (.faultService (.split 1))) = [.service s.fe.nextSvc false, .missed 1 false]) ∧
    (let s := labMiss true false
     let t := after s (.faultService (.split 1))
     (takePool s 0 (2 ^ 30)).isSome ∧ missesOf t = [.walk, .walk] ∧ walk t 1 0 (2 ^ 30 + 8) = .leaf 1 (2 ^ 32 + 0x1F) ∧
       missesOf (after t (.pageWalk (.split 1))) = [.passed (2 ^ 32 + 8), .passed (2 ^ 32 + 4096)]) := by
  dsimp only; and_intros <;> decide +kernel
/-- Lanes 0 and 2 on island 1, lane 1 beyond 2^48: cause 0x06 ranks ahead of 0x05 (R48), for the two lanes that meet it. -/
theorem witness_MissesAreServed_rules :
    (∀ e ∈ [(0x40000, 0), (0x10000, 1)], outcome (xlateAll (labIdle id) ⟨1, 0, 0, [], [], 0⟩ [⟨0, 1, e.1, 4, .r, 0⟩]) = (if e.2 = 0 then 2 else 1)) ∧
    (match xlateAll (labX 0) (issOf (labX 0)).env [⟨0, 1, 0x30000, 4, .r, 0⟩, ⟨1, 2, 2 ^ 48, 4, .r, 0⟩, ⟨2, 4, 0x30040, 4, .r, 0⟩] with
      | .fault c => [c.code.toNat, c.sub, c.tval, c.tlanes] | _ => []) = [6, 4, 0x30000, 5] := by and_intros <;> decide +kernel

/-- Core SRAM and tiles that a soft error may strike; a withdrawn range in use by nothing, with and without a page to move. -/
def labVacate (spare : Bool) (leaf : Bool) : State :=
  let s := labQueue 0 []
  let s := if leaf then { s with mem := ((span 0x101000 8).zip (leBytes 8 (2 ^ 38 - 2 ^ 30 + 0x1F))).foldl (fun m (e : Nat × Byte) => writeByte m e.1 e.2) s.mem } else s
  let i := s.island 0
  { s.setIsland 0 { i with mapouts := [⟨21, 2, false, none⟩] } with fe := { s.fe with spares := if spare then [(0, [(2 ^ 33, 2 ^ 30)])] else [] } }
theorem witness_MemoryEvents_vacate : ∀ e ∈ [(labVacate true true, true), (labVacate false true, false), (labVacate false false, true)],
    e.1.populated 0 = true ∧ svcsFull e.1 = false ∧ rangeBusy e.1 (withdrawn e.1 0).1 (withdrawn e.1 0).2 = false ∧ (vacate e.1 0).isSome = e.2 ∧
      ((after e.1 (.layerMapOut 0 21)).island 0).mapouts.map (fun m => (m.step, m.host)) = [if e.2 then (3, false) else (2, true)] := by decide +kernel
theorem witness_MemoryEvents_core : 130 / 128 = 1 ∧ (State.reset).populated 1 = true ∧ 0 < 32 * Config.wayBytes ∧ (∀ e ∈ [ErrPlace.sram 130 0, .tile 130 (8 * 4096 - 1)],
    (match exec (.uncorrectableError e) State.reset with | .next t => (t.core 130).badSram == [0] || (t.core 130).badTiles == [8 * 4096 - 1] | _ => false) = true) := by
  and_intros <;> decide +kernel

/-- Every command type with its slot published, and with a trailer byte that must be 0. -/
theorem witness_CommandsAnswer_turns : ∀ ty ∈ commandTypes ++ [0, 0xFF], CommandReady (labCmd State.reset ty) ty ∧
    commandNext (labCmd State.reset ty 1) ty = true ∧ bits (cmdTrailer (labCmd State.reset ty 1)) 8 16 ≠ 0 := by unfold CommandReady; decide +kernel
theorem witness_CommandsAnswer_malformed : ∀ e ∈ [(Instr.ctxSlice 5, 0x12), (.panelNum 3, 0x60), (.topo 0 0 1, 0x50)],
    getD 0 0 (after (labCmd State.reset e.2 1) e.1).fe.cres = BitVec.ofNat 64 (2 ^ 63 + 1) ∧
      (match exec e.1 (labCmd State.reset 0x90) with | .fault _ => true | _ => false) = true := by decide +kernel
/-- Byte 255 of the slot at HEAD, with a packet that is well formed and one that is not. -/
def labSlot (ty : Nat) : State :=
  let s := labQueue 0 []
  let slot := leBytes 252 0 ++ leBytes 3 ty
  { s with fe := { s.fe with conns := [5], queues := [(37, { en := true, asid := 1, head := 37 })], qsram := ((upFrom 0x25500 255).zip slot).filter fun e => e.2 != 0 } }
theorem witness_HostAndFirmware_slot : ∀ e ∈ [(0, true), (9, false)], let s := labSlot e.1
    let v := s.queue 37
    s.connected 5 = true ∧ v.en = true ∧ v.err = false ∧ v.copy = none ∧ 37 * 0x1000 + v.head.toNat % 16 * 0x100 + 255 = 0x255FF ∧
      (let t := after s (.hostRdmaWrite 5 0x255FF [validByte v.head.toNat])
       (t.queue 37).copy.isSome = e.2 ∧ (t.queue 37).err = !e.2 ∧ (t.queue 37).head = if e.2 then 37 else 38) := by dsimp only; decide +kernel
/-- An update that waits for its image of 256 bytes, and a malformed image. -/
theorem witness_HostAndFirmware_image :
    let s := { State.reset with fe := { ({} : FrontEnd) with updPos := some 0, updLen := some 256 } }
    let b := leBytes 4 2 ++ leBytes 252 0
    s.fe.updLen = some b.length ∧ imageOk b = false ∧ getD 0 0 (after s (.fillReadResponse 0 b)).fe.cres = BitVec.ofNat 64 (2 ^ 63 + 1) ∧
      (after s (.fillReadResponse 0 b)).fe.updPos = none := by dsimp only; and_intros <;> decide +kernel
/-- A tile element and TVEC of a halted context, a debugger's commands in turn. -/
theorem witness_PreemptionAndDebugger_tile :
    let s := labCmd (labCtx fun c => { c with halted := true, dbg := 1 }) 0x80
    CommandReady s 0x80 ∧ dbgTile s 1 1 1 63 63 = some (0, 8191) ∧
      getD 0 8191 ((after s (.dbgSet 1 (.write (.tile 1 1 63 63) 0x1234567890))).core 0).tiles = 0x34567890 ∧
      ((find 1 (after s (.dbgSet 1 (.write .tvec 0xFFFFFFFFFFFFFFFF))).ctxs).map Ctx.tvec) = some 0x0000FFFFFFFFFFFC := by
  unfold CommandReady; dsimp only; and_intros <;> decide +kernel
/-- A split about to issue that nothing hinders, whose fetch buffer holds memory's word. -/
theorem witness_StepRunsDecoded_unhindered : ∀ w ∈ [0x02040002, 0], let s := labFetched w 0
    let cx := issOf { s with cur := some 1 }
    unhindered cx = true ∧ (find (paKey 0x10000) (s.core cx.ck).fetch).all (· == codeWord s 0x10000) = true ∧
      (wordValues s (paKey 0x10000) (s.core cx.ck).fetchSince).drop 1 = [] := by decide +kernel

/-! #### Operands of the engines as Tables 9.9, 10.1, 10.3 and 10.4 judge them -/

/-- The lab's team, whose scratchpad of 4,096 bytes holds those bytes. -/
def labPad (bs : List (Nat × Nat)) : State :=
  let s := labIdle id
  s.setCore 0 { s.core 0 with scratch := bs.foldl (fun m e => put (8192 + e.1) (BitVec.ofNat 8 e.2) m) [] }
/-- Reserved bits, skewed offsets, ranges beyond the scratchpad, a bad index, row pointers that fall or end too high, a column of 64, a
column twice in a row; and operations with nothing wrong. -/
theorem witness_EnginesAccept_gather : ∀ e ∈ [(([] : List (Nat × Nat)), MatKind.mmag true, 0, 0, [0x12, 16, 0]), ([], .mmag true, 2 ^ 18, 2 ^ 18, [0x12, 16, 2 ^ 18]),
    ([], .mmag true, 2 ^ 18 + 1, 1, [0x12, 17, 2 ^ 18 + 1]), ([], .mmag true, 2 ^ 18, 1, [0x12, 17, 1]), ([], .mmag true, 2 ^ 44 + 2 ^ 18, 0, [0x13, 0, 4096]),
    ([(6, 5)], .mmag true, 2 ^ 18, 0, [0x12, 18, 5 + 2 ^ 16 * 3]), ([], .mmag true, 2 ^ 18, 64, [0x13, 0, 4096]),
    ([], .mmag true, 2 ^ 18 * 65, 0, [0x13, 0, 4096]), ([], .mmag true, 2 ^ 18 * 64, 0, []),
    ([], .mmas true, 2 ^ 18, 0, [0x12, 16, 2 ^ 18]), ([], .mmas true, 0, 2 ^ 54, [0x12, 16, 2 ^ 54]), ([], .mmas true, 1, 1, [0x12, 17, 1]),
    ([], .mmas true, 0, 3, [0x12, 17, 3]), ([], .mmas true, 0, 4032, [0x13, 0, 4096]), ([(2, 9)], .mmas true, 0, 0, [0x12, 19, 2]),
    ([(64, 1), (65, 8)], .mmas true, 0, 0, [0x12, 19, 32]), ([(64, 2)], .mmas true, 0, 4094 * 2 ^ 18, [0x13, 0, 4096]),
    ([(64, 2), (0x100, 64)], .mmas true, 0, 0x100 * 2 ^ 18, [0x12, 20, 0]), ([(64, 2), (0x100, 5), (0x102, 5)], .mmas true, 0, 0x100 * 2 ^ 18, [0x12, 20, 1]),
    ([], .mmas true, 64, 0, [0x13, 0, 4096]), ([(64, 1), (0x100, 5), (0x200, 7)], .mmas true, 0, 0x100 * 2 ^ 18 + 0x200 * 2 ^ 36, [])],
    accepts (acceptMatrix (labPad e.1) (labOp (.launch 0)) (issOf (lab 0 [] [])).tm
      { kind := e.2.1, tile := 0, ga := BitVec.ofNat 64 e.2.2.1, gb := BitVec.ofNat 64 e.2.2.2.1 }) = e.2.2.2.2 := by decide +kernel

/-- A record of two binary16 elements at 0x10000 (Table 9.5), with another field of some bytes. -/
def labRecord (at_ n v : Nat) : List Byte :=
  let b := [2, 0, 0, 1, 0, 1, 0, 2] ++ leBytes 8 0x10000 ++ leBytes 8 0 ++ leBytes 4 2 ++ leBytes 6 0 ++ leBytes 2 2 ++ leBytes 92 0
  b.take at_ ++ leBytes n v ++ b.drop (at_ + n)
/-- The cause of a record: code and subcause. -/
def recCause (b : List Byte) (store : Bool) (ctl : Nat) : List Nat :=
  let s := labIdle id
  match acceptRecord s (labOp (.launch 0)) (issOf (lab 0 [] [])).sp (issOf (lab 0 [] [])).tm
    { store := store, ctl := BitVec.ofNat 64 ctl, recAddr := 0, coord := 0, ep := 0 } [0] b with
  | .fault c => [c.code.toNat, c.sub]
  | _ => []
/-- Each of the subcauses 3 to 8, then subcause 1 for computed scales of a plain format, a range and a barrier beyond the team's. -/
theorem witness_EnginesAccept_records : ∀ e ∈ [((0, 1, 0xFF), false, 0, [0x12, 3]), ((1, 1, 1), false, 0, [0x12, 3]), ((16, 8, 1), false, 0, [0x12, 3]),
    ((3, 1, 0), false, 0, [0x12, 4]), ((3, 1, 8), false, 0, [0x12, 4]), ((24, 4, 0), false, 0, [0x12, 4]), ((36, 4, 1), false, 0, [0x12, 4]),
    ((8, 8, 0x10001), false, 0, [0x12, 5]), ((28, 6, 1), false, 0, [0x12, 5]), ((127, 1, 1), false, 0, [0x12, 6]), ((7, 1, 3), false, 0, [0x12, 6]),
    ((7, 1, 0), false, 0, [0x12, 7]), ((7, 1, 2), false, 2 ^ 32, [0x12, 7]), ((0, 3, 0x010104), true, 2 ^ 51, [0x12, 8]), ((7, 1, 2), true, 2 ^ 51, [0x12, 1]),
    ((7, 1, 2), false, 4094 * 2 ^ 32, [0x13, 0]), ((7, 1, 2), false, 2 ^ 10 + 2 ^ 5, [0x13, 0]), ((7, 1, 2), false, 0, [])],
    recCause (labRecord e.1.1 e.1.2.1 e.1.2.2) e.2.1 e.2.2.1 = e.2.2.2 := by decide +kernel

/-! #### Words that replay, parks and the debugger -/

/-- A field-form P of 114 is invalid in every lane, and TVAL names it. -/
theorem witness_PrecWords_wide : traps (labT [] [] (withPrec 0x1018), .prsetField 114 0, 0x18, 0, 0x7200001072, 1) = true := by decide +kernel
/-- A token hazard on slot 12, met by words that do raise causes of their own. -/
theorem witness_ChecksComeBeforeEffects_hazard :
    let s := labT [] [] fun sl => { sl with toks := [⟨3, 1, false⟩] }
    let s := { s with ctxs := s.ctxs.map fun e => (e.1, { e.2 with dbg := 3 })
                      ops := [(1, { asid := 1, team := 1, site := 0, core := 0, slices := [256], tok := some 3, seqs := [], slots := [], pc := 0, handler := false
                                    gang := 0, lanes := 15, after := [], record := [(256, keyX 12 0)], part := 0, body := .result [⟨256, keyX 12 0, 7#32⟩] [] })] }
    (issOf s).sp.hazard.isNone ∧ (remoteFault s (issOf s).sp).isNone ∧ ∀ i ∈ [Instr.ldg 8 4 3 4 false, .callr 4 1, .fadd 4 5 6, .prset 4],
      issuing s = some (issOf s) ∧ windowCheck s (issOf s) (operands i) = none ∧ (hazardCheck s (issOf s) i).isSome ∧ raisesNothing i = false := by
  dsimp only; and_intros <;> decide +kernel
/-- 2^−127 in single precision flushes to zero under RTZ with SUB = 0, and to the least normal value under RTP; a subnormal operand
reads as zero. -/
theorem witness_ResultsAreExactThenRounded_flush : (roundX ⟨24, 8, 23, 1, false⟩ (.num false 1 1 (-127))).v = 0 ∧
    (roundX ⟨24, 8, 23, 1, false⟩ (.num false 1 1 (-127))).flags = 3 ∧ (roundX ⟨24, 8, 23, 0, false⟩ (.num false (2 ^ 26 - 1) 1 (-152))).v = 0x00800000 ∧
    flushOperand false 8 23 (decodeF 8 23 0x80000001) = .fin true 0 0 := by and_intros <;> decide +kernel
/-- The debugger writes LID and a count of a live slice. -/
theorem witness_PreemptionAndDebugger_lane :
    let s := labCmd (labCtx fun c => { c with halted := true, dbg := 1 }) 0x80
    CommandReady s 0x80 ∧ (dbgSlice s 1 257).any (fun sl => sl.anyLive && sl.outstanding 3 == 0 && sl.lanes.length == 4) = true ∧
      (∀ e ∈ s.fe.grids, e.2.unretired ≠ 0) ∧ (((after s (.dbgSet 1 (.write (.lid 257 2) 63))).slice 257).lane 2).lid = 63 ∧
      ((after s (.dbgSet 1 (.write (.count 257 3) 255))).slice 257).count 3 = 255 := by
  unfold CommandReady; dsimp only; and_intros <;> decide +kernel
/-- A split about to replay an ADD that issued at step 5. -/
theorem witness_StepRunsDecoded_held :
    let s := labFetched 0 0
    let s := { s with splits := s.splits.map fun e => (e.1, { e.2 with held := some ⟨.add 4 5 6 false, 5⟩ }) }
    let cx := issOf { s with cur := some 1 }
    s.turn = .issue 0 [1] [] ∧ issuing { s with cur := some 1 } = some cx ∧ unhindered cx = true ∧ cx.sp.held.isSome ∧
      (match exec (.add 4 5 6 false) (noteReads { markIssue s cx with cur := some cx.sid, tick := 5 } cx (.add 4 5 6 false)) with
        | .next _ => true | _ => false) = true ∧ acquiring (labFetched 0x02040002 0) (issOf { labFetched 0x02040002 0 with cur := some 1 }) = false ∧
      (issOf { labFetched 0x02040002 0 with cur := some 1 }).sp.held = none := by dsimp only; and_intros <;> decide +kernel
/-- A child's launch reads its header where its LAUNCH found it. -/
theorem witness_LaunchesStartTeams_child : let s := labRun 2 0x50000 none fun l => { l with hdrPa := some 0x10000 }
    (find 5 s.fe.launches).any (fun l => l.hdr.isNone && l.force.isNone && l.misses.isEmpty) = true ∧
    (find 5 (after s (.launchRun 5)).fe.launches).isNone ∧ (find s.fe.nextId (after s (.launchRun 5)).fe.grids).isSome := by
  dsimp only; and_intros <;> decide +kernel

/-! ### The assembler (spec/02 section 2.7) -/

/-- Bytes of the code section, as words; none where the source is in error. -/
def codeWords (src : String) : Option (List Byte) :=
  (assemble [(".rodata", 0x1000)] src).bind fun o => (o.sections.find? fun s => s.1 == ".text").map (·.2.2)
/-- A source with the lines of the worked kernel of 2.8 between the MFS and the EXIT. -/
def addlid (mid : String) : String :=
  " .kernel addlid\n .role 0, gangs=1, width=64, slots=32, entry=start\n .team 64\nstart: MFS x0, LID\n LI x1, 0x1_2345\n"
    ++ mid ++ " ADD x2, x0, x1\n EXIT ; slot 5\n .endkernel\n"

-- Table 2.17
theorem test_asm_worked_kernel : codeWords (addlid " NOP\n") = some ([0x58000000, 0x40020002, 0x42022345, 0x5C000000,
    0x02040002, 0x78000000].flatMap (leBytes 4)) := by decide +kernel
-- 2.8: without the NOP the ADD is rejected under R58, unless `.shadowok` stands before it
theorem test_asm_distance : (codeWords (addlid "")).isNone ∧ (codeWords (addlid " .shadowok\n")).isSome := by decide +kernel
-- the BRX example of 2.8, at 0: the first case stands five words on
theorem test_asm_table : (codeWords "BRX x4\n .table c0, c1, c2, done\nc0: JOINX\nc1: JOINX\nc2: JOINX\ndone: JOIN").map (·.take 20)
    = some ([0x72000803, 5, 6, 7, 8].flatMap (leBytes 4)) := by decide +kernel
-- R60, R46 (an odd pair) and R56 (a modifier STG does not take; a value outside its field)
theorem test_asm_errors : (["BRX x4\n JOIN", "LDG.b64 x3, [x4], t0", "STG.lu x8, [x4], t0", "ADDI x4, x5, 256"].map codeWords).all
    (·.isNone) := by decide +kernel
-- R55: -7 / 2 truncates to -3 and -7 % 2 is -1; `<<` by 64 gives 0; `'\x41'` is 65
theorem test_asm_expressions : codeWords ".byte -7 / 2 & 0xFF, -7 % 2, 1 << 64, '\\x41', hi17(0x1_2345), 2 + 3 * 4"
    = some [0xFD, 0xFF, 0, 65, 2, 14] := by decide +kernel
-- Table 6.8: -1.5 at P = 16, E = 8 is 00 C0 BF
theorem test_asm_vpa : (codeWords ".vpa a0v, p=16, e=8, values=(-1.5)").map (·.drop 16) = some [0x00, 0xC0, 0xBF] := by
  decide +kernel
-- Table 9.10, bytes 0 to 7 and SIZE_0 to BOX_0
theorem test_asm_record : (codeWords (".record wrec, fmt=b8p4se, scale=(sx8, 0x41_0000_0000), block=32, rank=2, base=0x40_0000_0000, "
    ++ "size=(2048, 4096), stride=(0, 2048), box=(64, 32), target=b")).map (fun b => (b.take 8, (b.drop 24).take 12))
    = some ([0x14, 1, 2, 2, 0, 1, 0, 1], [0, 8, 0, 0, 0, 0, 0, 0, 0, 0, 64, 0]) := by decide +kernel

end Sys2Proof.Machine
end

section
/-! PROOFS. The structured branches (spec/03 sections 3.5 and 3.6): how a split divides over the next PCs of its slices, what
a branch decided per slice leaves of a slice and of the machine, and the counter words BRF, BRE, JOIN, LPB and BRB. -/
namespace Sys2Proof.Machine

/-! ### Lanes of a slice -/

theorem nth_eq_getElem {α : Type} (d : α) (l : List α) (n : Nat) (h : n < l.length) : nth d l n = l[n] := by
  induction l generalizing n with
  | nil => simp at h
  | cons a t ih =>
    cases n with
    | zero => rfl
    | succ n => exact ih n (by simpa using h)

/-- A lane place of a slice and the lane that stands there. -/
theorem mem_zip_fourLanes {sl : Slice} {n : Nat} {l : Lane} (h : (n, l) ∈ fourLanes.zip sl.lanes) :
    n < 4 ∧ l = sl.lane n := by
  obtain ⟨k, hk, he⟩ := List.getElem_of_mem h
  have hk4 : k < 4 := by simp [fourLanes] at hk; omega
  have hkl : k < sl.lanes.length := by simp at hk; omega
  have hn : fourLanes[k]'(by simpa [fourLanes] using hk4) = k := by
    simp only [fourLanes]
    match k, hk4 with
    | 0, _ | 1, _ | 2, _ | 3, _ => rfl
  rw [List.getElem_zip, hn] at he
  obtain ⟨rfl, rfl⟩ := Prod.mk.inj he
  exact ⟨hk4, (nth_eq_getElem _ _ _ hkl).symm⟩

theorem lane_mapLanes (sl : Slice) (g : Nat → Lane → Lane) (n : Nat) (h4 : n < 4) (hn : n < sl.lanes.length) :
    (sl.mapLanes g).lane n = g n (sl.lane n) := by
  have hz : n < (fourLanes.zip sl.lanes).length := by simp [fourLanes]; omega
  have hm : (fourLanes.zip sl.lanes)[n] = (n, sl.lane n) := by
    rw [List.getElem_zip, Slice.lane, nth_eq_getElem _ _ _ hn]
    congr 1
    match n, h4 with
    | 0, _ | 1, _ | 2, _ | 3, _ => rfl
  simp only [Slice.mapLanes, Slice.lane] at hm ⊢
  rw [nth_eq_getElem _ _ _ (by simpa using hz), List.getElem_map, hm]

/-- After a rewrite of its lanes a slice has an active lane where the rewrite makes one active. -/
theorem anyActive_mapLanes (sl : Slice) (g : Nat → Lane → Lane) :
    (sl.mapLanes g).anyActive = sl.some fun i l => (g i l).active := by
  simp only [Slice.anyActive, Slice.mapLanes, Slice.some, List.any_map]; rfl

theorem Slice.some_congr (sl : Slice) (f g : Nat → Lane → Bool) (h : ∀ i, i < 4 → f i (sl.lane i) = g i (sl.lane i)) :
    sl.some f = sl.some g := by
  refine Bool.eq_iff_iff.2 ?_
  simp only [Slice.some, List.any_eq_true]
  refine exists_congr fun e => and_congr_right fun he => ?_
  obtain ⟨h4, hl⟩ := mem_zip_fourLanes he
  rw [hl, h _ h4]

theorem mapLanes_mapLanes (sl : Slice) (f g : Nat → Lane → Lane) :
    (sl.mapLanes f).mapLanes g = sl.mapLanes fun i l => g i (f i l) := by
  have hz : ∀ (is : List Nat) (ls : List Lane), (is.zip ((is.zip ls).map fun e => f e.1 e.2)).map (fun e => g e.1 e.2)
      = (is.zip ls).map fun e => g e.1 (f e.1 e.2) := by
    intro is
    induction is with
    | nil => intro ls; rfl
    | cons i is ih =>
      intro ls
      cases ls with
      | nil => rfl
      | cons l ls => simp only [List.zip_cons_cons, List.map_cons, ih]
  simp only [Slice.mapLanes, hz]

/-! ### What an issue slot leaves of a lane -/

/-- Outstanding flags change of a lane at most its PREC. -/
theorem nth_orPrec (ls : List Lane) (i n : Nat) (f : Word) :
    ∃ v, nth {} (orPrec ls i f) n = { nth {} ls n with prec := v } := by
  unfold orPrec
  induction ls generalizing i n with
  | nil => exact ⟨_, rfl⟩
  | cons a t ih =>
    cases i with
    | zero =>
      cases n with
      | zero => exact ⟨_, rfl⟩
      | succ n => exact ⟨_, rfl⟩
    | succ i =>
      cases n with
      | zero => exact ⟨_, rfl⟩
      | succ n => exact ih i n

theorem nth_foldFlags (k n : Nat) (ps : List PendF) (ls : List Lane) :
    ∃ v, nth {} (foldFlags k ps ls).2 n = { nth {} ls n with prec := v } := by
  induction ps generalizing ls with
  | nil => exact ⟨_, rfl⟩
  | cons p t ih =>
    simp only [foldFlags]
    split
    · obtain ⟨v, hv⟩ := ih (orPrec ls p.lane p.flags)
      obtain ⟨w, hw⟩ := nth_orPrec ls p.lane n p.flags
      exact ⟨v, by rw [hv, hw]⟩
    · exact ih ls

theorem lane_pass (sl : Slice) (k n : Nat) : ∃ v, (sl.pass k).lane n = { sl.lane n with prec := v } :=
  nth_foldFlags _ n sl.pendF sl.lanes

/-! ### The division of a split (R70) -/

theorem mem_distinctPcs (l : List DWord) (a : DWord) : a ∈ distinctPcs l ↔ a ∈ l := by
  induction l with
  | nil => simp [distinctPcs]
  | cons b t ih =>
    simp only [distinctPcs, List.mem_cons, List.mem_filter, ih, decide_eq_true_eq]
    by_cases e : a = b <;> simp [e]

/-- The slices that chose a next PC. -/
def takers (next : List (Nat × DWord)) (pc : DWord) : List Nat := (next.filter fun e => decide (e.2 = pc)).map (·.1)

/-- One step of divideFar: the slices that chose `pc` leave the split `sp` of number `sid` for a new one. -/
def splitOff (sid : Nat) (sp : Split) (next : List (Nat × DWord)) (s : State) (pc : DWord) : State :=
  { s with
    splits := put (Nat.max s.nextSplit (sid + 1)) { sp.at pc with slices := takers next pc, age := 0, busy := 0 } s.splits
    nextSplit := Nat.max s.nextSplit (sid + 1) + 1 }

theorem divideFar_cons {next : List (Nat × DWord)} {p : DWord} {rest : List DWord}
    (h : distinctPcs (next.map (·.2)) = p :: rest) (s : State) (sid : Nat) (sp : Split) :
    divideFar s sid sp next
      = rest.foldl (splitOff sid sp next) (s.setSplit sid { sp.at p with slices := takers next p }) := by
  unfold divideFar
  rw [h]
  rfl

theorem mem_takers {next : List (Nat × DWord)} {j : Nat} {pc : DWord} (h : (j, pc) ∈ next) : j ∈ takers next pc :=
  List.mem_map.2 ⟨(j, pc), List.mem_filter.2 ⟨h, by simp⟩, rfl⟩

/-- Splitting off numbers new splits from above the old one's number on, and leaves the splits below them. -/
theorem find_foldl_splitOff_lt (sid : Nat) (sp : Split) (next : List (Nat × DWord)) (l : List DWord) (s : State) (k : Nat)
    (hk : k < Nat.max s.nextSplit (sid + 1)) : find k (l.foldl (splitOff sid sp next) s).splits = find k s.splits := by
  induction l generalizing s with
  | nil => rfl
  | cons p t ih =>
    rw [List.foldl_cons, ih]
    · exact find_put_ne _ _ (Nat.ne_of_gt hk)
    · exact Nat.lt_of_lt_of_le (Nat.lt_succ_of_lt hk) (Nat.le_max_left ..)

theorem find_foldl_splitOff (sid : Nat) (sp : Split) (next : List (Nat × DWord)) (l : List DWord) (s : State) (pc : DWord)
    (h : pc ∈ l) : ∃ k, find k (l.foldl (splitOff sid sp next) s).splits
      = some { sp.at pc with slices := takers next pc, age := 0, busy := 0 } := by
  induction l generalizing s with
  | nil => simp at h
  | cons p t ih =>
    rcases List.mem_cons.1 h with rfl | h
    · refine ⟨Nat.max s.nextSplit (sid + 1), ?_⟩
      rw [List.foldl_cons, find_foldl_splitOff_lt]
      · exact find_put_self _ _ _
      · exact Nat.lt_of_lt_of_le (Nat.lt_succ_self _) (Nat.le_max_left ..)
    · exact ih _ h

/-- A slice that chose a next PC ends in a split at that PC with a copy of everything but slices, age and occupancy. -/
theorem find_divideFar (s : State) (sid : Nat) (sp : Split) (next : List (Nat × DWord)) (j : Nat) (pc : DWord)
    (h : (j, pc) ∈ next) : ∃ k age busy, find k (divideFar s sid sp next).splits
      = some { sp.at pc with slices := takers next pc, age := age, busy := busy } := by
  have hpc : pc ∈ distinctPcs (next.map (·.2)) := (mem_distinctPcs _ _).2 (List.mem_map.2 ⟨_, h, rfl⟩)
  cases hd : distinctPcs (next.map (·.2)) with
  | nil => simp [hd] at hpc
  | cons p rest =>
    rw [divideFar_cons hd]
    rw [hd] at hpc
    rcases List.mem_cons.1 hpc with rfl | hr
    · refine ⟨sid, sp.age, sp.busy, ?_⟩
      rw [find_foldl_splitOff_lt _ _ _ _ _ _ (Nat.lt_of_lt_of_le (Nat.lt_succ_self sid) (Nat.le_max_right ..))]
      exact find_put_self _ _ _
    · obtain ⟨k, hk⟩ := find_foldl_splitOff sid sp next rest (s.setSplit sid { sp.at p with slices := takers next p }) pc hr
      exact ⟨k, 0, 0, hk⟩

theorem foldl_splitOff_rest (sid : Nat) (sp : Split) (next : List (Nat × DWord)) (l : List DWord) (s : State) :
    l.foldl (splitOff sid sp next) s = { s with
      splits := (l.foldl (splitOff sid sp next) s).splits, nextSplit := (l.foldl (splitOff sid sp next) s).nextSplit } := by
  induction l generalizing s with
  | nil => rfl
  | cons p t ih => rw [List.foldl_cons, ih]; rfl

/-- The division of a split changes nothing but splits. -/
theorem divideFar_rest (s : State) (sid : Nat) (sp : Split) (next : List (Nat × DWord)) :
    divideFar s sid sp next = { s with
      splits := (divideFar s sid sp next).splits, nextSplit := (divideFar s sid sp next).nextSplit } := by
  cases hd : distinctPcs (next.map (·.2)) with
  | nil => simp only [divideFar, hd]
  | cons p rest => rw [divideFar_cons hd, foldl_splitOff_rest]; rfl

theorem divide_rest (s : State) (sid : Nat) (sp : Split) (next : List (Nat × BitVec 48)) :
    divide s sid sp next = { s with
      splits := (divide s sid sp next).splits, nextSplit := (divide s sid sp next).nextSplit } :=
  divideFar_rest s sid sp _

/-! ### A branch decided per slice (R70, R77) -/

section PerSliceBranch
variable (s : State) (cx : Iss) (f : List LaneEnv → Slice → Slice × BitVec 48)

/-- What a branch decides for gang slice `j` of the issuing split: the slice after it, and its next PC. -/
def decided (j : Nat) : Slice × BitVec 48 := f (laneEnvs s cx.sp j) (s.slice (cx.key j))

/-- The state with each slice of the issuing split as the branch rewrites it. -/
def rewritten : State :=
  (cx.sp.slices.map fun j => (j, decided s cx f j)).foldl (fun t r => t.modSlice (cx.key r.1) fun _ => r.2.1) s

/-- The issuing split at the end of its word, before it divides. -/
def Iss.ended (cx : Iss) : Split := { cx.sp with busy := 0, passed := [], declined := [], hazard := none, held := none }

theorem perSliceBranch_eq : perSliceBranch s cx f
    = divide (passSlots (rewritten s cx f) cx 1) cx.sid cx.ended (cx.sp.slices.map fun j => (j, (decided s cx f j).2)) := by
  unfold perSliceBranch branch
  simp only [List.map_map]
  rfl

theorem Iss.key_inj {i j : Nat} (h : cx.key i = cx.key j) : i = j := by
  simp only [Iss.key, sliceKey] at h; omega

theorem Iss.key_mem_keys {j : Nat} (h : j ∈ cx.sp.slices) : cx.key j ∈ cx.sp.keys := List.mem_map.2 ⟨j, h, rfl⟩

theorem rewritten_rest : rewritten s cx f = { s with slices := (rewritten s cx f).slices } :=
  fold_modSlice_rest _ (fun r : Nat × Slice × BitVec 48 => cx.key r.1) (fun r _ => r.2.1) s

theorem foldl_overwrite {α β : Type} (l : List α) (g : α → β) (b x : β) (hl : l ≠ []) (h : ∀ a ∈ l, g a = x) :
    l.foldl (fun _ a => g a) b = x := by
  induction l generalizing b with
  | nil => exact absurd rfl hl
  | cons a t ih =>
    by_cases ht : t = []
    · subst ht; exact h a (List.mem_cons_self ..)
    · exact ih _ ht fun x hx => h x (List.mem_cons_of_mem _ hx)

theorem rewritten_slice {j : Nat} (hj : j ∈ cx.sp.slices) : (rewritten s cx f).slice (cx.key j) = (decided s cx f j).1 := by
  unfold rewritten
  rw [fold_modSlice_slice _ (fun r : Nat × Slice × BitVec 48 => cx.key r.1) (fun r _ => r.2.1)]
  refine foldl_overwrite _ (fun r : Nat × Slice × BitVec 48 => r.2.1) _ _ ?_ ?_
  · refine List.ne_nil_of_mem (a := (j, decided s cx f j)) (List.mem_filter.2 ⟨List.mem_map.2 ⟨j, hj, rfl⟩, by simp⟩)
  · intro r hr
    obtain ⟨hm, hk⟩ := List.mem_filter.1 hr
    obtain ⟨i, -, rfl⟩ := List.mem_map.1 hm
    exact congrArg (fun i => (decided s cx f i).1) (Iss.key_inj cx (eq_of_beq hk))

theorem rewritten_slice_other {sk : Nat} (hk : sk ∉ cx.sp.keys) : (rewritten s cx f).slice sk = s.slice sk := by
  unfold rewritten
  rw [fold_modSlice_slice _ (fun r : Nat × Slice × BitVec 48 => cx.key r.1) (fun r _ => r.2.1), List.filter_eq_nil_iff.2]
  · rfl
  · intro r hr hb
    obtain ⟨i, hi, rfl⟩ := List.mem_map.1 hr
    exact hk (eq_of_beq hb ▸ Iss.key_mem_keys cx hi)

theorem passSlots_rewritten_rest : passSlots (rewritten s cx f) cx 1
    = { s with slices := (passSlots (rewritten s cx f) cx 1).slices } :=
  (perSlice_rest _ _ _).trans
    (congrArg (fun u : State => { u with slices := (passSlots (rewritten s cx f) cx 1).slices }) (rewritten_rest s cx f))

/-- A branch decided per slice changes nothing but slices and splits. -/
theorem perSliceBranch_rest : perSliceBranch s cx f = { s with
    slices := (passSlots (rewritten s cx f) cx 1).slices, splits := (perSliceBranch s cx f).splits
    nextSplit := (perSliceBranch s cx f).nextSplit } := by
  have h := divide_rest (passSlots (rewritten s cx f) cx 1) cx.sid cx.ended
    (cx.sp.slices.map fun j => (j, (decided s cx f j).2))
  rw [← perSliceBranch_eq] at h
  exact h.trans <| congrArg (fun u : State => { u with
    splits := (perSliceBranch s cx f).splits, nextSplit := (perSliceBranch s cx f).nextSplit })
    (passSlots_rewritten_rest s cx f)

theorem perSliceBranch_slice {j : Nat} (hj : j ∈ cx.sp.slices) :
    (perSliceBranch s cx f).slice (cx.key j) = (decided s cx f j).1.pass 1 := by
  rw [perSliceBranch_rest]
  refine (perSlice_slice (rewritten s cx f) cx (fun _ sl => sl.pass 1) (cx.key j)).trans ?_
  rw [if_pos (Iss.key_mem_keys cx hj), rewritten_slice s cx f hj]

theorem perSliceBranch_slice_other {sk : Nat} (hk : sk ∉ cx.sp.keys) : (perSliceBranch s cx f).slice sk = s.slice sk := by
  rw [perSliceBranch_rest]
  refine (perSlice_slice (rewritten s cx f) cx (fun _ sl => sl.pass 1) sk).trans ?_
  rw [if_neg hk, rewritten_slice_other s cx f hk]

theorem perSliceBranch_goesTo {j : Nat} (hj : j ∈ cx.sp.slices) : GoesTo (perSliceBranch s cx f) cx j (decided s cx f j).2 := by
  rw [perSliceBranch_eq, divide]
  have hm : (j, (decided s cx f j).2.setWidth 64) ∈
      (cx.sp.slices.map fun j => (j, (decided s cx f j).2)).map fun e => (e.1, e.2.setWidth 64) :=
    List.mem_map.2 ⟨_, List.mem_map.2 ⟨j, hj, rfl⟩, rfl⟩
  obtain ⟨k, age, busy, hf⟩ := find_divideFar (passSlots (rewritten s cx f) cx 1) cx.sid cx.ended _ j _ hm
  refine ⟨k, _, hf, mem_takers hm, ?_, rfl, rfl, rfl, rfl, rfl, rfl, rfl, rfl, rfl, rfl⟩
  simp [Split.at]

/-- A branch that leaves the register units of its slices leaves everything that Quiet names. -/
theorem perSliceBranch_quiet (h : ∀ j ∈ cx.sp.slices, ∀ key,
    readFinal (decided s cx f j).1 key = readFinal (s.slice (cx.key j)) key) : Quiet s (perSliceBranch s cx f) := by
  refine ⟨?_, ?_⟩
  · intro sk key
    by_cases hk : sk ∈ cx.sp.keys
    · obtain ⟨j, hj, rfl⟩ := List.mem_map.1 hk
      exact (congrArg (readFinal · key) (perSliceBranch_slice s cx f hj)).trans ((readFinal_pass _ _ _).trans (h j hj key))
    · simp only [State.reg, perSliceBranch_slice_other s cx f hk]
  · rw [perSliceBranch_rest]
    exact ⟨fun _ => rfl, rfl, rfl, rfl, rfl, rfl⟩

end PerSliceBranch

/-! ### Nesting overflow (R85) -/

/-- The live lanes at 255 of the slices that `inc` picks. -/
def fullLanes (s : State) (cx : Iss) (inc : Slice → Bool) : List LaneEnv :=
  (liveLanes s cx.sp).filter fun le => inc le.sl && le.lane.c == 255

theorem nestCheck_none {s : State} {cx : Iss} {inc : Slice → Bool} (h : fullLanes s cx inc = []) :
    nestCheck s cx inc = none := by
  unfold fullLanes at h
  unfold nestCheck
  rw [h]

theorem nestCheck_full {s : State} {cx : Iss} {inc : Slice → Bool} (h : fullLanes s cx inc ≠ []) :
    nestCheck s cx inc = some (cause 0x09 0 0 (laneMask (fullLanes s cx inc))) := by
  unfold fullLanes at h ⊢
  unfold nestCheck
  split
  · rename_i he; exact absurd he h
  · rename_i he; rw [he]

/-- Where no lane overflows, a live lane of a slice that `inc` picks stands below 255. -/
theorem count_ne_of_fullLanes {s : State} {cx : Iss} {inc : Slice → Bool} (h : fullLanes s cx inc = []) {j n : Nat}
    (hj : j ∈ cx.sp.slices) (hn : n < 4) (hi : inc (s.slice (cx.key j)) = true)
    (he : ((s.slice (cx.key j)).lane n).e = false) : ((s.slice (cx.key j)).lane n).c ≠ 255 := by
  intro hc
  have hn' : n ∈ fourLanes := by simp [fourLanes]; omega
  have hm : (⟨s.tick, cx.key j, s.slice (cx.key j), n, 4 * j + n, cx.sp⟩ : LaneEnv) ∈ fullLanes s cx inc := by
    refine List.mem_filter.2 ⟨List.mem_filter.2 ⟨?_, ?_⟩, ?_⟩
    · exact List.mem_flatten.2 ⟨_, List.mem_map.2 ⟨j, hj, rfl⟩, List.mem_map.2 ⟨n, hn', rfl⟩⟩
    · simp [LaneEnv.lane, Lane.live, he]
    · simp [LaneEnv.lane, hi, hc]
  simp [h] at hm

theorem checked_error (s : State) (i : Instr) (cx : Iss) (body : Iss → Except CauseRec State) (c : CauseRec)
    (h : Stands s i cx) (hb : body cx = .error c) : checked s i body = .next (raiseAt s cx.sid c) := by
  obtain ⟨hi, hw⟩ := h
  simp only [checked, runIssue, hi, hw, hb]

/-! ### Words that change counters -/

/-- `x` is the slice `sl` with the counter of each lane as `c` gives it for the lane's place and the lane before. -/
def Recounts (sl x : Slice) (c : Nat → Lane → BitVec 8) : Prop :=
  x = { sl with lanes := x.lanes }
    ∧ ∀ n, n < 4 → n < sl.lanes.length → x.lane n = { sl.lane n with c := c n (sl.lane n) }

theorem recounts_mapLanes {sl : Slice} {g : Nat → Lane → Lane} {c : Nat → Lane → BitVec 8}
    (h : ∀ n, n < 4 → g n (sl.lane n) = { sl.lane n with c := c n (sl.lane n) }) : Recounts sl (sl.mapLanes g) c :=
  ⟨rfl, fun n h4 hn => (lane_mapLanes sl g n h4 hn).trans (h n h4)⟩

theorem Recounts.readFinal_eq {sl x : Slice} {c : Nat → Lane → BitVec 8} (h : Recounts sl x c) (key : Nat) :
    readFinal x key = readFinal sl key := by rw [h.1]; rfl

/-- A branch decided per slice meets CounterWord where it recounts each slice and sends it where the word says. -/
theorem perSliceBranch_counters {s : State} {cx : Iss} {f : List LaneEnv → Slice → Slice × BitVec 48}
    {c : Nat → Nat → Lane → BitVec 8} {pc : Nat → BitVec 48}
    (h : ∀ j ∈ cx.sp.slices, Recounts (s.slice (cx.key j)) (decided s cx f j).1 (c j) ∧ (decided s cx f j).2 = pc j) :
    let t := perSliceBranch s cx f
    Quiet s t ∧ ∀ j ∈ cx.sp.slices, GoesTo t cx j (pc j) ∧
      ∀ n, n < 4 → n < (s.slice (cx.key j)).lanes.length →
        ((t.slice (cx.key j)).lane n).c = c j n ((s.slice (cx.key j)).lane n)
        ∧ ((t.slice (cx.key j)).lane n).e = ((s.slice (cx.key j)).lane n).e
        ∧ ((t.slice (cx.key j)).lane n).d = ((s.slice (cx.key j)).lane n).d
        ∧ ((t.slice (cx.key j)).lane n).lid = ((s.slice (cx.key j)).lane n).lid := by
  refine ⟨perSliceBranch_quiet s cx f fun j hj => (h j hj).1.readFinal_eq, fun j hj => ?_⟩
  obtain ⟨⟨-, hl⟩, hpc⟩ := h j hj
  refine ⟨hpc ▸ perSliceBranch_goesTo s cx f hj, fun n h4 hn => ?_⟩
  obtain ⟨v, hv⟩ := lane_pass (decided s cx f j).1 1 n
  rw [perSliceBranch_slice s cx f hj, hv, hl n h4 hn]
  exact ⟨rfl, rfl, rfl, rfl⟩

section CounterWords
variable {i : Instr} {c : State → Iss → Nat → Nat → Lane → BitVec 8} {pc : State → Iss → Nat → BitVec 48}
  {f : Iss → List LaneEnv → Slice → Slice × BitVec 48}

/-- A word that checks for nesting overflow first. -/
theorem counterWord_checked {inc : Slice → Bool}
    (hx : ∀ s, exec i s = checked s i fun cx => guardedBy (nestCheck s cx inc) (perSliceBranch s cx (f cx)))
    (h : ∀ s cx, fullLanes s cx inc = [] → ∀ j ∈ cx.sp.slices,
      Recounts (s.slice (cx.key j)) (decided s cx (f cx) j).1 (c s cx j) ∧ (decided s cx (f cx) j).2 = pc s cx j) :
    CounterWord i inc c pc := by
  intro s cx
  constructor
  · intro hs hfull
    refine (hx s).trans (checked_error s i cx _ _ hs ?_)
    simp only [nestCheck_full hfull, guardedBy]; rfl
  · intro hs hfull
    refine ⟨_, (hx s).trans (checked_ok s i cx _ _ hs ?_), perSliceBranch_counters (h s cx hfull)⟩
    simp only [nestCheck_none hfull, guardedBy]

/-- A word that counts no lane up. -/
theorem counterWord_plain (hx : ∀ s, exec i s = plain s i fun cx => perSliceBranch s cx (f cx))
    (h : ∀ s cx, ∀ j ∈ cx.sp.slices,
      Recounts (s.slice (cx.key j)) (decided s cx (f cx) j).1 (c s cx j) ∧ (decided s cx (f cx) j).2 = pc s cx j) :
    CounterWord i (fun _ => false) c pc := by
  intro s cx
  constructor
  · intro _ hfull
    exact absurd (List.filter_eq_nil_iff.2 fun _ _ => by simp) hfull
  · intro hs _
    exact ⟨_, (hx s).trans (plain_ok s i cx _ hs), perSliceBranch_counters (h s cx)⟩

end CounterWords

/-! ### The five words (R80 to R84) -/

/-- The condition of a structured branch at lane place `i` of gang slice `j` (R77). -/
def holdsAt (s : State) (cx : Iss) (p : BitVec 6) (n : Bool) (j i : Nat) : Bool :=
  readP s.tick (cx.key j) (s.slice (cx.key j)) p.toNat i ^^ n

theorem condAt_laneEnvs (s : State) (cx : Iss) (p : BitVec 6) (n : Bool) (j : Nat) {i : Nat} (h : i < 4) :
    condAt (laneEnvs s cx.sp j) p n i = holdsAt s cx p n j i := by
  match i, h with
  | 0, _ | 1, _ | 2, _ | 3, _ => simp [condAt, laneEnvs, fourLanes, LaneEnv.cond, LaneEnv.p, holdsAt, Iss.key]

theorem active_eq (l : Lane) : l.active = decide (l.e = false ∧ l.c = 0) := by
  simp only [Lane.active, Bool.decide_and, Bool.decide_eq_false]; rfl

theorem anyActive_eq (sl : Slice) : sl.anyActive = sl.lanes.any fun l => decide (l.e = false ∧ l.c = 0) :=
  congrArg sl.lanes.any (funext active_eq)

theorem inactive_iff (l : Lane) : (l.live && l.c != 0) = true ↔ l.e = false ∧ l.c ≠ 0 := by simp [Lane.live]

theorem deeper_eq (l : Lane) : l.deeper = { l with c := if l.e = false ∧ l.c ≠ 0 then l.c + 1 else l.c } := by
  simp only [Lane.deeper, inactive_iff]; split <;> rfl

theorem shallower_eq (l : Lane) : l.shallower = { l with c := if l.e = false ∧ l.c ≠ 0 then l.c - 1 else l.c } := by
  simp only [Lane.shallower, inactive_iff]; split <;> rfl

/-- What BRF makes of a lane in which its condition is `b` (R80). -/
def brfLane (b : Bool) (l : Lane) : Lane := if l.active then (if b then { l with c := 1 } else l) else l.deeper

theorem brfLane_eq (b : Bool) (l : Lane) : brfLane b l
    = { l with c := if l.e then l.c else if l.c = 0 then (if b then 1 else 0) else l.c + 1 } := by
  obtain ⟨c, e, d, lid, prec, tprec⟩ := l
  rw [brfLane, active_eq, deeper_eq]
  cases e with
  | true => simp
  | false =>
    by_cases hc : c = 0#8
    · cases b <;> simp [hc]
    · simp [hc]

/-- A count up that does not overflow leaves no lane active. -/
theorem brfLane_active (b : Bool) (l : Lane) (h : l.e = false → l.c ≠ 255) :
    (brfLane b l).active = decide ((l.e = false ∧ l.c = 0) ∧ b = false) := by
  rw [active_eq, brfLane_eq]
  cases he : l.e with
  | true => simp
  | false =>
    have hup : l.c + 1#8 ≠ 0#8 := by have := h he; bv_omega
    by_cases hc : l.c = 0#8
    · cases b <;> simp [hc]
    · simp [hc, hup]

/-- What BRE makes of a lane (R81). -/
def breLane (l : Lane) : Lane :=
  if !l.live then l else if l.c = 0 then { l with c := 1 } else if l.c = 1 then { l with c := 0 } else l

theorem breLane_eq (l : Lane) :
    breLane l = { l with c := if l.e then l.c else if l.c = 0 then 1 else if l.c = 1 then 0 else l.c } := by
  simp only [breLane, Lane.live, Bool.not_not]
  split
  · rfl
  · split
    · rfl
    · split <;> rfl

theorem breLane_active (l : Lane) : (breLane l).active = decide (l.e = false ∧ l.c = 1) := by
  rw [active_eq, breLane_eq]
  cases he : l.e with
  | true => simp
  | false =>
    by_cases hc : l.c = 0#8
    · simp [hc]
    · by_cases h1 : l.c = 1#8 <;> simp [hc, h1]

/-- What BRB makes of a lane in which its condition is `b`, before the loop exit (R84). -/
def brbLane (b : Bool) (l : Lane) : Lane := if l.active && !b then { l with c := 1 } else l

theorem brbLane_eq (b : Bool) (l : Lane) :
    brbLane b l = { l with c := if (l.e = false ∧ l.c = 0) ∧ b = false then 1 else l.c } := by
  simp only [brbLane, active_eq, Bool.and_eq_true, decide_eq_true_eq, Bool.not_eq_true']; split <;> rfl

theorem brbLane_active (b : Bool) (l : Lane) :
    (brbLane b l).active = decide ((l.e = false ∧ l.c = 0) ∧ b = true) := by
  rw [active_eq, brbLane_eq]
  by_cases hc : l.c = 0#8
  · cases b <;> simp [hc]
  · simp [hc]

/-- What BRF makes of a slice, and its next PC (R80). -/
def brfSlice (cx : Iss) (p : BitVec 6) (n : Bool) (o : BitVec 18) (les : List LaneEnv) (sl : Slice) : Slice × BitVec 48 :=
  let sl := sl.mapLanes fun i l => brfLane (condAt les p n i) l
  (sl, if sl.anyActive then nextPc cx else target cx o.toInt)

/-- What BRE makes of a slice, and its next PC (R81). -/
def breSlice (cx : Iss) (o : BitVec 25) (sl : Slice) : Slice × BitVec 48 :=
  let sl := sl.mapLanes fun _ l => breLane l
  (sl, if sl.anyActive then nextPc cx else target cx o.toInt)

/-- What LPB makes of a slice, and its next PC (R83). -/
def lpbSlice (cx : Iss) (o : BitVec 25) (sl : Slice) : Slice × BitVec 48 :=
  if sl.anyActive then (sl.mapLanes fun _ l => l.deeper, nextPc cx) else (sl, target cx o.toInt)

/-- What BRB makes of a slice, and its next PC (R84). -/
def brbSlice (cx : Iss) (p : BitVec 6) (n : Bool) (o : BitVec 18) (les : List LaneEnv) (sl : Slice) : Slice × BitVec 48 :=
  let sl := sl.mapLanes fun i l => brbLane (condAt les p n i) l
  if sl.anyActive then (sl, target cx o.toInt) else (sl.mapLanes fun _ l => l.shallower, nextPc cx)

theorem brf_counterWord (p : BitVec 6) (n : Bool) (o : BitVec 18) : CounterWord (.brf p n o) (fun _ => true)
    (fun s cx j i l => if l.e then l.c else if l.c = 0 then (if holdsAt s cx p n j i then 1 else 0) else l.c + 1)
    (fun s cx j => addPc cx.sp.pc (if (s.slice (cx.key j)).some fun i l =>
      (l.e = false ∧ l.c = 0) ∧ holdsAt s cx p n j i = false then 4 else 4 * o.toInt)) := by
  refine counterWord_checked (f := fun cx => brfSlice cx p n o) (fun _ => rfl) fun s cx hfull j hj => ?_
  simp only [decided, brfSlice]
  constructor
  · refine recounts_mapLanes fun i hi => ?_
    rw [condAt_laneEnvs _ _ _ _ _ hi, brfLane_eq]
  · have hact := Slice.some_congr (s.slice (cx.key j))
      (fun i l => (brfLane (condAt (laneEnvs s cx.sp j) p n i) l).active)
      (fun i l => decide ((l.e = false ∧ l.c = 0) ∧ holdsAt s cx p n j i = false)) fun i hi => by
        rw [condAt_laneEnvs _ _ _ _ _ hi, brfLane_active _ _ (count_ne_of_fullLanes hfull hj hi rfl)]
    simp only [anyActive_mapLanes, hact, nextPc, target, apply_ite (addPc cx.sp.pc)]

theorem bre_counterWord (o : BitVec 25) : CounterWord (.bre o) (fun _ => false)
    (fun _ _ _ _ l => if l.e then l.c else if l.c = 0 then 1 else if l.c = 1 then 0 else l.c)
    (fun s cx j => addPc cx.sp.pc
      (if (s.slice (cx.key j)).some fun _ l => l.e = false ∧ l.c = 1 then 4 else 4 * o.toInt)) := by
  refine counterWord_plain (f := fun cx _ => breSlice cx o) (fun _ => rfl) fun s cx j _ => ?_
  simp only [decided, breSlice]
  constructor
  · exact recounts_mapLanes fun _ _ => breLane_eq _
  · simp only [anyActive_mapLanes, breLane_active, nextPc, target, apply_ite (addPc cx.sp.pc)]

theorem join_counterWord : CounterWord .join (fun _ => false)
    (fun _ _ _ _ l => if l.e = false ∧ l.c ≠ 0 then l.c - 1 else l.c) (fun _ cx _ => addPc cx.sp.pc 4) := by
  refine counterWord_plain (f := fun cx _ sl => (sl.mapLanes fun _ l => l.shallower, nextPc cx)) (fun _ => rfl)
    fun _ _ _ _ => ?_
  simp only [decided]
  exact ⟨recounts_mapLanes fun _ _ => shallower_eq _, rfl⟩

theorem lpb_counterWord (o : BitVec 25) : CounterWord (.lpb o) (fun sl => sl.lanes.any fun l => l.e = false ∧ l.c = 0)
    (fun s cx j _ l => if ((s.slice (cx.key j)).lanes.any fun l => l.e = false ∧ l.c = 0) ∧ l.e = false ∧ l.c ≠ 0
      then l.c + 1 else l.c)
    (fun s cx j => addPc cx.sp.pc
      (if (s.slice (cx.key j)).lanes.any fun l => l.e = false ∧ l.c = 0 then 4 else 4 * o.toInt)) := by
  simp only [← anyActive_eq]
  refine counterWord_checked (inc := Slice.anyActive) (f := fun cx _ => lpbSlice cx o) (fun _ => rfl) fun s cx _ j _ => ?_
  cases ha : (s.slice (cx.key j)).anyActive with
  | true =>
    simp only [decided, lpbSlice, ha, if_true, true_and]
    exact ⟨recounts_mapLanes fun _ _ => deeper_eq _, rfl⟩
  | false =>
    simp only [decided, lpbSlice, ha, Bool.false_eq_true, if_false, false_and]
    exact ⟨⟨rfl, fun _ _ _ => rfl⟩, rfl⟩

theorem brb_counterWord (p : BitVec 6) (n : Bool) (o : BitVec 18) : CounterWord (.brb p n o) (fun _ => false)
    (fun s cx j i l =>
      let again := (s.slice (cx.key j)).some fun i l => (l.e = false ∧ l.c = 0) ∧ holdsAt s cx p n j i = true
      let c := if (l.e = false ∧ l.c = 0) ∧ holdsAt s cx p n j i = false then 1 else l.c
      if again = false ∧ l.e = false ∧ c ≠ 0 then c - 1 else c)
    (fun s cx j => addPc cx.sp.pc (if (s.slice (cx.key j)).some fun i l =>
      (l.e = false ∧ l.c = 0) ∧ holdsAt s cx p n j i = true then 4 * o.toInt else 4)) := by
  refine counterWord_plain (f := fun cx => brbSlice cx p n o) (fun _ => rfl) fun s cx j _ => ?_
  have hact := Slice.some_congr (s.slice (cx.key j))
    (fun i l => (brbLane (condAt (laneEnvs s cx.sp j) p n i) l).active)
    (fun i l => decide ((l.e = false ∧ l.c = 0) ∧ holdsAt s cx p n j i = true)) fun i hi => by
      rw [condAt_laneEnvs _ _ _ _ _ hi, brbLane_active]
  simp only [decided, brbSlice, anyActive_mapLanes, hact]
  cases ha : (s.slice (cx.key j)).some fun i l => decide ((l.e = false ∧ l.c = 0) ∧ holdsAt s cx p n j i = true) with
  | true =>
    simp only [if_true, Bool.true_eq_false, false_and, if_false]
    refine ⟨recounts_mapLanes fun i hi => ?_, rfl⟩
    rw [condAt_laneEnvs _ _ _ _ _ hi, brbLane_eq]
  | false =>
    simp only [Bool.false_eq_true, if_false, mapLanes_mapLanes, true_and]
    refine ⟨recounts_mapLanes fun i hi => ?_, rfl⟩
    rw [condAt_laneEnvs _ _ _ _ _ hi, brbLane_eq, shallower_eq]

/-- Settles O22: each of the five words recounts the lanes of its slices and divides its split over their next PCs; BRF and LPB
check for overflow first. -/
theorem structuredBranches : Obligations.StructuredBranches := by
  intro p n o off
  exact ⟨brf_counterWord p n o, bre_counterWord off, join_counterWord, lpb_counterWord off, brb_counterWord p n o⟩

end Sys2Proof.Machine
end

section
/-! PROOFS. The operations of Tables 5.5 and 5.7 on whole slots and on elements, as operations on bit vectors (spec/05
sections 5.6 to 5.10). -/
namespace Sys2Proof.Machine

/-! ### Numbers and bit vectors -/

theorem toNat_append_add {m n : Nat} (x : BitVec m) (y : BitVec n) : (x ++ y).toNat = x.toNat * 2 ^ n + y.toNat := by
  rw [BitVec.toNat_append, ← Nat.shiftLeft_add_eq_or_of_lt y.isLt, Nat.shiftLeft_eq]

theorem ofNat_toNat_self {w : Nat} (x : BitVec w) : BitVec.ofNat w x.toNat = x := by
  rw [BitVec.ofNat_toNat, BitVec.setWidth_eq]

@[simp] theorem w32_toNat (v : Word) : w32 v.toNat = v := ofNat_toNat_self v

theorem wrap_eq (w : Nat) (r : Int) : wrap w r = (BitVec.ofInt w r).toNat := BitVec.toNat_ofInt r |>.symm

theorem elemVal_toNat {w : Nat} (sgn : Bool) (x : BitVec w) (hw : 0 < w) : elemVal sgn w x.toNat = valueOf sgn x := by
  rw [elemVal_eq _ _ _ hw, ofNat_toNat_self]

theorem toNat_elemBits (it k : Nat) (v : Word) : (elemBits it k v).toNat = bits v.toNat (itWidth it * k) (itWidth it) := by
  simp only [elemBits, bits, BitVec.toNat_ofNat]

/-- An integer read back modulo 2^w by signedness, as a bit vector of another width. -/
theorem ofInt_valueOf {w : Nat} (v : Nat) (sgn : Bool) (x : BitVec w) :
    BitVec.ofInt v (valueOf sgn x) = if sgn then x.signExtend v else x.setWidth v := by
  cases sgn with
  | true => rfl
  | false =>
    simp only [valueOf, Bool.false_eq_true, if_false, BitVec.ofInt_natCast, BitVec.ofNat_toNat]

/-! ### Bitwise operations of the whole register (R141) -/

section Bitwise
variable {w : Nat} (sgn : Bool) (x y : BitVec w) (acc : Nat)

theorem ofNat_opAnd : BitVec.ofNat w (opAnd sgn w x.toNat y.toNat acc) = x &&& y := by
  rw [opAnd, ← BitVec.toNat_and, Nat.mod_eq_of_lt (x &&& y).isLt, ofNat_toNat_self]

theorem ofNat_opOr : BitVec.ofNat w (opOr sgn w x.toNat y.toNat acc) = x ||| y := by
  rw [opOr, ← BitVec.toNat_or, Nat.mod_eq_of_lt (x ||| y).isLt, ofNat_toNat_self]

theorem ofNat_opXor : BitVec.ofNat w (opXor sgn w x.toNat y.toNat acc) = x ^^^ y := by
  rw [opXor, ← BitVec.toNat_xor, Nat.mod_eq_of_lt (x ^^^ y).isLt, ofNat_toNat_self]

theorem ofNat_opAndn : BitVec.ofNat w (opAndn sgn w x.toNat y.toNat acc) = x &&& ~~~y := by
  rw [opAndn, Nat.mod_eq_of_lt y.isLt, ← BitVec.toNat_not, ← BitVec.toNat_and, ofNat_toNat_self]

end Bitwise

/-! ### Bit fields (R148) -/

theorem ofNat_opBfx {w : Nat} (sgn : Bool) (x : BitVec w) (v acc : Nat) : BitVec.ofNat w (opBfx sgn w x.toNat v acc)
    = if sgn then (x.extractLsb' (fieldPos w v) (fieldLen w v)).signExtend w
      else (x.extractLsb' (fieldPos w v) (fieldLen w v)).setWidth w := by
  rw [opBfx, ← ofInt_valueOf]
  generalize fieldPos w v = p
  generalize fieldLen w v = l
  by_cases hl : l = 0
  · subst hl
    rw [BitVec.of_length_zero (x := x.extractLsb' p 0)]
    cases sgn <;> rfl
  · have hx : bits x.toNat p l = (x.extractLsb' p l).toNat := by
      rw [BitVec.extractLsb'_toNat, Nat.shiftRight_eq_div_pow, bits]
    simp only [if_neg hl, ofNat_wrap, hx, elemVal_toNat _ _ (Nat.pos_of_ne_zero hl)]

/-- A number with a field replaced, from its part above the field, the field, and its part below. -/
theorem setField_eq (v p l f : Nat) : setField v p l f = 2 ^ p * (2 ^ l * (v / 2 ^ (p + l)) + f % 2 ^ l) + v % 2 ^ p := by
  have hv : 2 ^ p * (v / 2 ^ p) + v % 2 ^ p = v := Nat.div_add_mod ..
  have hq : 2 ^ l * (v / 2 ^ (p + l)) + bits v p l = v / 2 ^ p := by
    rw [Nat.pow_add, ← Nat.div_div_eq_div_mul]; exact Nat.div_add_mod ..
  rw [← hq, Nat.mul_add, Nat.mul_comm (2 ^ p) (bits v p l)] at hv
  rw [setField, Nat.mul_add, Nat.mul_comm (2 ^ p) (f % 2 ^ l)]
  omega

theorem testBit_setField (v p l f j : Nat) :
    (setField v p l f).testBit j = if p ≤ j ∧ j < p + l then f.testBit (j - p) else v.testBit j := by
  rw [setField_eq, Nat.testBit_two_pow_mul_add _ (Nat.mod_lt _ (Nat.two_pow_pos p)),
    Nat.testBit_two_pow_mul_add _ (Nat.mod_lt _ (Nat.two_pow_pos l))]
  by_cases hp : j < p
  · rw [if_pos hp, if_neg (by omega), Nat.testBit_mod_two_pow, decide_eq_true hp, Bool.true_and]
  · by_cases hl : j - p < l
    · rw [if_neg hp, if_pos hl, if_pos (by omega), Nat.testBit_mod_two_pow, decide_eq_true hl, Bool.true_and]
    · rw [if_neg hp, if_neg hl, if_neg (by omega), Nat.testBit_div_two_pow]
      congr 1; omega

theorem getLsbD_fieldMask (w p l i : Nat) :
    (fieldMask w p l).getLsbD i = decide (i < w ∧ p ≤ i ∧ i < p + l) := by
  simp only [fieldMask, BitVec.getLsbD_shiftLeft, BitVec.getLsbD_setWidth, BitVec.getLsbD_allOnes, ← decide_not,
    ← Bool.decide_and]
  rw [decide_eq_decide]; omega

/-- An empty field leaves the number as it is, as R148 asks. -/
theorem opBfi_eq (sgn : Bool) (w u v acc : Nat) : opBfi sgn w u v acc = setField acc (fieldPos w v) (fieldLen w v) u := by
  unfold opBfi
  by_cases hl : fieldLen w v = 0
  · simp [hl, setField, bits, Nat.mod_one]
  · simp [hl, setField]

theorem ofNat_opBfi {w : Nat} (sgn : Bool) (x old : BitVec w) (v : Nat) :
    BitVec.ofNat w (opBfi sgn w x.toNat v old.toNat) = (old &&& ~~~fieldMask w (fieldPos w v) (fieldLen w v))
      ||| (x <<< fieldPos w v &&& fieldMask w (fieldPos w v) (fieldLen w v)) := by
  rw [opBfi_eq]
  apply BitVec.eq_of_getLsbD_eq
  intro i hi
  simp only [BitVec.getLsbD_ofNat, testBit_setField, BitVec.getLsbD_or, BitVec.getLsbD_and, BitVec.getLsbD_not,
    getLsbD_fieldMask, BitVec.getLsbD_shiftLeft, BitVec.testBit_toNat]
  by_cases h : fieldPos w v ≤ i ∧ i < fieldPos w v + fieldLen w v
  · simp [hi, h]
  · simp [hi, h]

/-! ### Sums and products of elements (R140 to R142) -/

section Fitted
variable (it : Nat) (sat : Bool) (x y : BitVec (itWidth it)) (acc : Nat)

theorem ofNat_opAdd : BitVec.ofNat (itWidth it) (opAdd (itSigned it) (itWidth it) sat x.toNat y.toNat acc)
    = fitted it sat (valueOf (itSigned it) x + valueOf (itSigned it) y) := by
  rw [opAdd, ofNat_fit, elemVal_toNat _ _ (itWidth_pos it), elemVal_toNat _ _ (itWidth_pos it)]

theorem ofNat_opMul : BitVec.ofNat (itWidth it) (opMul (itSigned it) (itWidth it) sat x.toNat y.toNat acc)
    = fitted it sat (valueOf (itSigned it) x * valueOf (itSigned it) y) := by
  rw [opMul, ofNat_fit, elemVal_toNat _ _ (itWidth_pos it), elemVal_toNat _ _ (itWidth_pos it)]

end Fitted

/-! ### Shifts (R141, R145) -/

section Shifts
variable {w : Nat} (sgn sat : Bool) (x : BitVec w) (n acc : Nat)

theorem ofNat_opShl : BitVec.ofNat w (opShl sgn w sat x.toNat n acc) = x <<< (n % w) := by
  apply BitVec.eq_of_toNat_eq
  simp [opShl, Nat.shiftLeft_eq]

theorem ofNat_opShr (hw : 0 < w) : BitVec.ofNat w (opShr sgn w sat x.toNat n acc)
    = if sgn then x.sshiftRight (n % w) else x >>> (n % w) := by
  rw [opShr, ofNat_wrap, elemVal_toNat _ _ hw, ← Int.shiftRight_eq_div_pow]
  cases sgn with
  | true => rfl
  | false =>
    rw [if_neg Bool.false_ne_true, ← ofNat_toNat_self (x >>> (n % w)), BitVec.toNat_ushiftRight, ← BitVec.ofInt_natCast]
    rfl

theorem ofNat_opRot (hw : 0 < w) : BitVec.ofNat w (opRot sgn w sat x.toNat n acc) = x.rotateLeft (n % w) := by
  have hm : n % w < w := Nat.mod_lt n hw
  rw [opRot]
  generalize n % w = m at hm ⊢
  have hs : 2 ^ w = 2 ^ m * 2 ^ (w - m) := by rw [← Nat.pow_add]; congr 1; omega
  have hlow : x.toNat / 2 ^ (w - m) < 2 ^ m := Nat.div_lt_of_lt_mul (by rw [Nat.mul_comm, ← hs]; exact x.isLt)
  have hhigh : x.toNat * 2 ^ m % 2 ^ w = 2 ^ m * (x.toNat % 2 ^ (w - m)) := by
    rw [hs, Nat.mul_comm, Nat.mul_mod_mul_left]
  have hor : x.toNat * 2 ^ m % 2 ^ w + x.toNat / 2 ^ (w - m) = (x.rotateLeft m).toNat := by
    rw [BitVec.toNat_rotateLeft, Nat.mod_eq_of_lt hm, Nat.shiftLeft_eq, Nat.shiftRight_eq_div_pow, hhigh,
      Nat.two_pow_add_eq_or_of_lt hlow]
  rw [hor, Nat.mod_eq_of_lt (x.rotateLeft m).isLt, ofNat_toNat_self]

end Shifts

/-! ### Bytes (R149) -/

/-- Result byte `k` of PRMB: what its selector in `d` says of the eight bytes of b:a. -/
def permByte (a b d k : Nat) : Nat :=
  let x := bits (a + 2 ^ 32 * b) (8 * bits d (5 * k) 3) 8
  match bits d (5 * k + 3) 2 with
  | 0 => x
  | 1 => 0
  | 2 => if bitAt x 7 then 255 else 0
  | _ => 255

theorem opPrmb_eq (a b d : Nat) : opPrmb a b d
    = permByte a b d 0 + 2 ^ 8 * permByte a b d 1 + 2 ^ 16 * permByte a b d 2 + 2 ^ 24 * permByte a b d 3 := rfl

theorem permByte_lt (a b d k : Nat) : permByte a b d k < 2 ^ 8 := by
  simp only [permByte]
  split
  · exact Nat.mod_lt _ (by omega)
  · omega
  · split <;> omega
  · omega

theorem bitAt_toNat {w : Nat} (x : BitVec w) (i : Nat) : bitAt x.toNat i = x.getLsbD i :=
  Nat.testBit_eq_decide_div_mod_eq.symm.trans (BitVec.testBit_toNat x)

/-- A result byte by the kind of its selector: the byte named, 0, the sign of the byte named, all ones. -/
theorem ofNat_permByte (a b d : Word) (k : Nat) :
    let sel := d.toNat / 2 ^ (5 * k)
    let byte := (b ++ a).extractLsb' (8 * (sel % 8)) 8
    BitVec.ofNat 8 (permByte a.toNat b.toNat d.toNat k) =
      if sel / 8 % 4 = 0 then byte else if sel / 8 % 4 = 1 then 0#8
      else if sel / 8 % 4 = 2 then (if byte.msb then 0xFF#8 else 0#8) else 0xFF#8 := by
  intro sel byte
  have hpow : 2 ^ (5 * k + 3) = 2 ^ (5 * k) * 8 := Nat.pow_add 2 (5 * k) 3
  have hkind : bits d.toNat (5 * k + 3) 2 = sel / 8 % 4 := by
    show d.toNat / 2 ^ (5 * k + 3) % 4 = d.toNat / 2 ^ (5 * k) / 8 % 4
    rw [hpow, Nat.div_div_eq_div_mul]
  have hbyte : bits (a.toNat + 2 ^ 32 * b.toNat) (8 * bits d.toNat (5 * k) 3) 8 = byte.toNat := by
    rw [BitVec.extractLsb'_toNat, toNat_append_add, Nat.shiftRight_eq_div_pow, Nat.mul_comm b.toNat, Nat.add_comm]; rfl
  have hlt : sel / 8 % 4 < 4 := Nat.mod_lt _ (by omega)
  unfold permByte
  rw [hkind, hbyte]
  generalize sel / 8 % 4 = kind at hlt ⊢
  match kind, hlt with
  | 0, _ => exact ofNat_toNat_self byte
  | 1, _ => rfl
  | 2, _ =>
    simp only [bitAt_toNat, BitVec.msb_eq_getLsbD_last]
    cases byte.getLsbD 7 <;> rfl
  | 3, _ => rfl

/-- Byte `k` of the slot that PRMB writes. -/
theorem opPrmb_byte (a b d k : Nat) (hk : k < 4) :
    (w32 (opPrmb a b d)).extractLsb' (8 * k) 8 = BitVec.ofNat 8 (permByte a b d k) := by
  have hd := digits4 (2 ^ 8) _ _ _ _ (permByte_lt a b d 0) (permByte_lt a b d 1) (permByte_lt a b d 2) (permByte_lt a b d 3)
  obtain ⟨h0, h1, h2, h3⟩ := hd
  have hsum : opPrmb a b d = permByte a b d 0 + 2 ^ 8 * (permByte a b d 1 + 2 ^ 8 * (permByte a b d 2
      + 2 ^ 8 * permByte a b d 3)) := by rw [opPrmb_eq]; omega
  rw [← hsum] at h0 h1 h2 h3
  apply BitVec.eq_of_toNat_eq
  rw [BitVec.extractLsb'_toNat, Nat.shiftRight_eq_div_pow, w32, BitVec.toNat_ofNat, field_mod32 _ _ _ (by omega),
    BitVec.toNat_ofNat, Nat.mod_eq_of_lt (permByte_lt a b d k)]
  match k, hk with
  | 0, _ => simpa using h0
  | 1, _ => exact h1
  | 2, _ => exact h2
  | 3, _ => exact h3

end Sys2Proof.Machine
end

section
/-! PROOFS. The words that write whole slots: AND to ANDN, BFX, BFI, SEL and PRMB (spec/05 sections 5.6, 5.8 and 5.9). -/
namespace Sys2Proof.Machine

/-- The word of format A with three eight-bit fields and a flag. -/
theorem formatA_word (op : BitVec 7) (d a b : BitVec 8) (e : BitVec 1) : op ++ d ++ a ++ b ++ e
    = BitVec.ofNat 32 (op.toNat * 2 ^ 25 + d.toNat * 131072 + a.toNat * 512 + b.toNat * 2 + e.toNat) := by
  rw [← ofNat_toNat_self (op ++ d ++ a ++ b ++ e)]
  simp only [toNat_append_add]
  congr 1; omega

/-- A word in its x form whose operation acts on the whole slot as `f` does on bit vectors. -/
theorem laneWord_aluWhole {i : Instr} {d a b : BitVec 8} {op : Bool → Nat → Nat → Nat → Nat → Nat}
    (f : Bool → Word → Word → Word → Word) (hx : ∀ s, exec i s = aluWhole s i d a b false op)
    (hf : ∀ sgn (x y old : Word), w32 (op sgn 32 x.toNat y.toNat old.toNat) = f sgn x y old) :
    LaneWord i d 1 fun _ cx le =>
      (f (itSigned (modeIT cx.sp.mode)) (le.x a.toNat) (le.x b.toNat) (le.x d.toNat)).toNat := by
  refine laneWord_of i d _ (fun _ cx le => op (itSigned (modeIT cx.sp.mode)) 32 (le.x a.toNat).toNat (le.x b.toNat).toNat
    (le.x d.toNat).toNat) 2 ?_ ?_
  · intro s cx h
    rw [hx, aluWhole, plain_ok _ _ _ _ h]; rfl
  · intro s cx le
    rw [hf, w32_toNat]

/-- The field of x that y names, extended (R148). -/
def bfxSlot (sgn : Bool) (x y : Word) : Word :=
  let pos := y.toNat % 32
  let f := x.extractLsb' pos (min (min (y.toNat / 256 % 64) 32) (32 - pos))
  if sgn then f.signExtend 32 else f.setWidth 32

/-- `old` with the low bits of x in the field that y names (R148). -/
def bfiSlot (x y old : Word) : Word :=
  let pos := y.toNat % 32
  let m := fieldMask 32 pos (min (min (y.toNat / 256 % 64) 32) (32 - pos))
  (old &&& ~~~m) ||| (x <<< pos &&& m)

theorem fieldPos_slot (v : Nat) : fieldPos 32 v = v % 32 := by simp [fieldPos, bits]

theorem fieldLen_slot (v : Nat) : fieldLen 32 v = min (min (v / 256 % 64) 32) (32 - v % 32) :=
  congrArg (fun p => min (min (v / 256 % 64) 32) (32 - p)) (fieldPos_slot v)

theorem ofNat_opBfx_slot (sgn : Bool) (x y : Word) (acc : Nat) :
    w32 (opBfx sgn 32 x.toNat y.toNat acc) = bfxSlot sgn x y := by
  rw [w32, ofNat_opBfx, fieldPos_slot, fieldLen_slot, bfxSlot]

theorem ofNat_opBfi_slot (sgn : Bool) (x y old : Word) :
    w32 (opBfi sgn 32 x.toNat y.toNat old.toNat) = bfiSlot x y old := by
  rw [w32, ofNat_opBfi, fieldPos_slot, fieldLen_slot, bfiSlot]

theorem sel_laneWord (d a b : BitVec 8) : LaneWord (.sel d a b) d 1 fun _ cx le =>
    (if le.p (modeSP cx.sp.mode) then le.x a.toNat else le.x b.toNat).toNat := by
  refine laneWord_of _ d _ (fun _ cx le =>
    (if le.p (modeSP cx.sp.mode) then le.x a.toNat else le.x b.toNat).toNat) 2 ?_ fun _ _ _ => rfl
  intro s cx h
  simp only [w32_toNat]
  exact plain_ok s (.sel d a b) cx _ h

/-- Settles O3: each operation is its bit vector operation, and the word writes it to the slot of each active guarded lane. -/
theorem wholeRegisterWords : Obligations.WholeRegisterWords := by
  intro d a b
  refine ⟨?and, ?or, ?xor, ?andn, ?bfx, ?bfi, sel_laneWord d a b, ?word⟩
  case and => exact laneWord_aluWhole (fun _ x y _ => x &&& y) (fun _ => rfl) fun _ _ _ _ => ofNat_opAnd ..
  case or => exact laneWord_aluWhole (fun _ x y _ => x ||| y) (fun _ => rfl) fun _ _ _ _ => ofNat_opOr ..
  case xor => exact laneWord_aluWhole (fun _ x y _ => x ^^^ y) (fun _ => rfl) fun _ _ _ _ => ofNat_opXor ..
  case andn => exact laneWord_aluWhole (fun _ x y _ => x &&& ~~~y) (fun _ => rfl) fun _ _ _ _ => ofNat_opAndn ..
  case bfx => exact laneWord_aluWhole (fun sgn x y _ => bfxSlot sgn x y) (fun _ => rfl) fun _ _ _ _ => ofNat_opBfx_slot ..
  case bfi => exact laneWord_aluWhole (fun _ x y old => bfiSlot x y old) (fun _ => rfl) fun _ _ _ _ => ofNat_opBfi_slot ..
  case word => rw [formatA_word]; rfl

theorem prmb_word (d a b : BitVec 8) : encode (.prmb d a b) = some (0x12#7 ++ d ++ a ++ b ++ 0#1) := by
  rw [formatA_word]; rfl

theorem prmb_laneWord (d a b : BitVec 8) : LaneWord (.prmb d a b) d 1 fun _ _ le =>
    opPrmb (le.x a.toNat).toNat (le.x b.toNat).toNat (le.x d.toNat).toNat :=
  laneWord_of _ d _ _ 2 (fun s cx h => plain_ok s (.prmb d a b) cx _ h) fun _ _ _ => rfl

/-- Settles O4: PRMB writes four bytes, and each is what its selector says. -/
theorem permuteBytes : Obligations.PermuteBytes := by
  refine ⟨by decide, prmb_word, fun s cx d a b h => ?_⟩
  obtain ⟨t, hx, hn, hw, hl⟩ := prmb_laneWord d a b s cx h
  refine ⟨t, hx, hn, hl, fun le hle k hk => ?_⟩
  have hslot := hw le hle 0 Nat.one_pos
  rw [Nat.add_zero, half_zero] at hslot
  rw [hslot, opPrmb_byte _ _ _ k hk]
  exact ofNat_permByte (le.x a.toNat) (le.x b.toNat) (le.x d.toNat) k

end Sys2Proof.Machine
end

section
/-! PROOFS. The immediate words: elements and whole slots by an immediate, GADDI, and the words that load immediates (spec/05
section 5.7; R36). -/
namespace Sys2Proof.Machine

/-! ### Immediates in x slots (R145) -/

/-- A word that acts on each element with one number `c` for all of them, which may depend on the width. -/
theorem elemWord_immEffect {i : Instr} {d a : BitVec 8} {dist : Nat} {op : Bool → Nat → Bool → Nat → Nat → Nat → Nat}
    {c : Nat → Nat} {r : (it : Nat) → Bool → Nat → LaneEnv → BitVec (itWidth it)}
    (hx : ∀ s, exec i s = plain s i fun cx => advance (immEffect s cx d a dist fun it sat u =>
      perElem it (fun x _ _ => op (itSigned it) (itWidth it) sat x (c (itWidth it)) 0) u 0 0) cx)
    (hr : ∀ it sat k (le : LaneEnv), BitVec.ofNat (itWidth it)
      (op (itSigned it) (itWidth it) sat (elemBits it k (le.x a.toNat)).toNat (c (itWidth it)) 0) = r it sat k le) :
    ElemWord i d r := by
  refine elemWord_of i d r dist (fun _ cx le => perElem (modeIT cx.sp.mode) (fun x _ _ => op (itSigned (modeIT cx.sp.mode))
    (itWidth (modeIT cx.sp.mode)) (modeSAT cx.sp.mode) x (c (itWidth (modeIT cx.sp.mode))) 0) (le.x a.toNat).toNat 0 0) ?_ ?_
  · intro s cx h
    rw [hx, plain_ok _ _ _ _ h]; rfl
  · intro s cx le k hk
    rw [elemBits_perElem _ _ _ _ _ _ hk, ← toNat_elemBits]
    exact hr ..

/-- The immediate word of an operation that acts on two elements as `f` does on bit vectors. -/
theorem elemWord_immElem {i : Instr} {d a : BitVec 8} {imm : BitVec 9} {dist : Nat}
    {op : Bool → Nat → Bool → Nat → Nat → Nat → Nat}
    (f : (it : Nat) → Bool → BitVec (itWidth it) → BitVec (itWidth it) → BitVec (itWidth it))
    (hx : ∀ s, exec i s = immElem s i d a imm dist op)
    (hf : ∀ it sat (x y : BitVec (itWidth it)),
      BitVec.ofNat (itWidth it) (op (itSigned it) (itWidth it) sat x.toNat y.toNat 0) = f it sat x y) :
    ElemWord i d fun it sat k le => f it sat (elemBits it k (le.x a.toNat)) (BitVec.ofInt (itWidth it) imm.toInt) :=
  elemWord_immEffect (c := fun w => wrap w imm.toInt) hx fun _ _ _ _ => by rw [wrap_eq, hf]

/-- The word that shifts each element as `f` does, by a distance modulo the width. -/
theorem elemWord_immShift {i : Instr} {d a : BitVec 8} {n : BitVec 5} {op : Bool → Nat → Bool → Nat → Nat → Nat → Nat}
    (f : (it : Nat) → BitVec (itWidth it) → Nat → BitVec (itWidth it)) (hx : ∀ s, exec i s = immShift s i d a n op)
    (hf : ∀ it sat (x : BitVec (itWidth it)) (m : Nat),
      BitVec.ofNat (itWidth it) (op (itSigned it) (itWidth it) sat x.toNat m 0) = f it x (m % itWidth it)) :
    ElemWord i d fun it _ k le => f it (elemBits it k (le.x a.toNat)) (n.toNat % itWidth it) :=
  elemWord_immEffect (c := fun w => n.toNat % w) hx fun _ _ _ _ => by rw [hf, Nat.mod_mod]

theorem laneWord_immWhole {i : Instr} {d a : BitVec 8} {imm : BitVec 9} {op : Bool → Nat → Nat → Nat → Nat → Nat}
    (f : Word → Word → Word) (hx : ∀ s, exec i s = immWhole s i d a imm op)
    (hf : ∀ x y : Word, w32 (op false 32 x.toNat y.toNat 0) = f x y) :
    LaneWord i d 1 fun _ _ le => (f (le.x a.toNat) (imm.signExtend 32)).toNat := by
  refine laneWord_of i d _ (fun _ _ le => op false 32 (le.x a.toNat).toNat (imm.signExtend 32).toNat 0) 2 ?_ ?_
  · intro s cx h
    rw [hx, immWhole, plain_ok _ _ _ _ h, wrap_eq]; rfl
  · intro s cx le
    rw [hf, w32_toNat]

/-! ### LDH and LDL (R36, R147) -/

theorem ldh_laneWord (d : BitVec 8) (h : BitVec 17) : LaneWord (.ldh d h) d 1 fun _ _ _ => (h.setWidth 32 <<< 15).toNat := by
  refine laneWord_of _ d _ (fun _ _ _ => h.toNat * 2 ^ 15) 2 (fun s cx hi => plain_ok s (.ldh d h) cx _ hi) fun _ _ _ => ?_
  apply BitVec.eq_of_toNat_eq
  simp [w32, Nat.shiftLeft_eq]

theorem mergeMask_again (o v m : Word) : mergeMask (mergeMask o v m) v m = mergeMask o v m := by
  apply BitVec.eq_of_getLsbD_eq
  intro i hi
  simp only [mergeMask, BitVec.getLsbD_or, BitVec.getLsbD_and, BitVec.getLsbD_not]
  cases m.getLsbD i <;> simp [hi]

/-- One masked write to some units: each holds the merge, every other unit is as before. -/
theorem readFinal_foldl_write {α : Type} (l : List α) (k : α → Nat) (dist key : Nat) (v mask : Word) (sl : Slice) :
    readFinal (l.foldl (fun x a => x.write dist (k a) v mask) sl) key
      = if ∃ a ∈ l, k a = key then mergeMask (readFinal sl key) v mask else readFinal sl key := by
  induction l generalizing sl with
  | nil => simp
  | cons a t ih =>
    rw [List.foldl_cons, ih, readFinal_write]
    by_cases ha : k a = key
    · by_cases ht : ∃ b ∈ t, k b = key
      · simp [ha, ht, mergeMask_again]
      · simp [ha, ht]
    · simp [ha]

theorem still_foldl_write {α : Type} (l : List α) (k : α → Nat) (dist : Nat) (v mask : Word) (sl : Slice) :
    (l.foldl (fun x a => x.write dist (k a) v mask) sl).still = sl.still := by
  induction l generalizing sl with
  | nil => rfl
  | cons a t ih => rw [List.foldl_cons, ih, still_write]

/-- What LDL does to the registers: one value under one mask in slot `d` of each active guarded lane. -/
def perLaneMasked (s : State) (cx : Iss) (dist d : Nat) (v mask : Word) : State :=
  (guardedLanes s cx.sp).foldl (fun t le => t.modSlice le.sk fun sl => sl.write dist (le.key d) v mask) s

section PerLaneMasked
variable (s : State) (cx : Iss) (dist d : Nat) (v mask : Word)

theorem perLaneMasked_rest : perLaneMasked s cx dist d v mask = { s with slices := (perLaneMasked s cx dist d v mask).slices } :=
  fold_modSlice_rest _ (fun le : LaneEnv => le.sk) (fun le sl => sl.write dist (le.key d) v mask) s

theorem perLaneMasked_slice (sk : Nat) : (perLaneMasked s cx dist d v mask).slice sk
    = ((guardedLanes s cx.sp).filter fun le => le.sk == sk).foldl (fun sl le => sl.write dist (le.key d) v mask) (s.slice sk) :=
  fold_modSlice_slice _ (fun le : LaneEnv => le.sk) (fun le sl => sl.write dist (le.key d) v mask) s sk

theorem nextWord_perLaneMasked : NextWord s (advance (perLaneMasked s cx dist d v mask) cx) cx :=
  nextWord_advance s _ cx (perLaneMasked_rest ..) fun sk => by rw [perLaneMasked_slice, still_foldl_write]

theorem reg_perLaneMasked {le : LaneEnv} (hle : le ∈ guardedLanes s cx.sp) :
    (advance (perLaneMasked s cx dist d v mask) cx).reg le.sk (le.key d) = mergeMask (s.reg le.sk (le.key d)) v mask := by
  rw [advance, reg_goTo, State.reg, perLaneMasked_slice, readFinal_foldl_write, if_pos]
  · rfl
  · exact ⟨le, List.mem_filter.2 ⟨hle, by simp⟩, rfl⟩

theorem leavesX_perLaneMasked : LeavesX s (advance (perLaneMasked s cx dist d v mask) cx) cx d 1 := by
  intro sk key h
  rw [advance, reg_goTo, State.reg, perLaneMasked_slice, readFinal_foldl_write, if_neg]
  · rfl
  · rintro ⟨le, hle, hk⟩
    obtain ⟨hle, hsk⟩ := List.mem_filter.1 hle
    exact h le hle 0 Nat.one_pos ⟨eq_of_beq hsk, hk⟩

end PerLaneMasked

theorem mergeMask_low15 (o : Word) (l : BitVec 15) :
    mergeMask o (w32 l.toNat) 0x7FFF#32 = (o &&& ~~~0x7FFF#32) ||| l.setWidth 32 := by
  have hl : w32 l.toNat &&& 0x7FFF#32 = l.setWidth 32 := by
    apply BitVec.eq_of_toNat_eq
    have := l.isLt
    rw [BitVec.toNat_and, show (0x7FFF#32).toNat = 2 ^ 15 - 1 from rfl, Nat.and_two_pow_sub_one_eq_mod, w32, BitVec.toNat_ofNat,
      BitVec.toNat_setWidth]
    omega
  rw [mergeMask, hl]

theorem ldl_low15 (d : BitVec 8) (l : BitVec 15) (s : State) (cx : Iss) (h : Issues s (.ldl d l) cx) :
    ∃ t, exec (.ldl d l) s = .next t ∧ NextWord s t cx ∧ LeavesX s t cx d.toNat 1 ∧ ∀ le ∈ guardedLanes s cx.sp,
      t.reg le.sk (le.key d.toNat) = (s.reg le.sk (le.key d.toNat) &&& ~~~0x7FFF#32) ||| l.setWidth 32 := by
  refine ⟨advance (perLaneMasked s cx 2 d.toNat (w32 l.toNat) 0x7FFF#32) cx, plain_ok s (.ldl d l) cx _ h,
    nextWord_perLaneMasked .., leavesX_perLaneMasked s cx 2 d.toNat _ _, fun le hle => ?_⟩
  rw [reg_perLaneMasked _ _ _ _ _ _ hle, mergeMask_low15]

/-! ### g registers by immediates (R36, R146, R147) -/

theorem gaddi_sliceWord (d a : BitVec 8) (i : BitVec 9) : SliceWord (.gaddi d a i) d fun s cx k =>
    (BitVec.ofNat 64 (cx.gOf s k a.toNat) + i.signExtend 64).toNat := by
  refine sliceWord_of _ d _ 2 (fun s cx sk sl => wrap 64 ((readG s.tick sk sl cx.sp.handler a.toNat : Int) + i.toInt))
    (fun s cx h => plain_ok s (.gaddi d a i) cx _ h) fun s cx sk => ?_
  rw [wrap_eq, BitVec.ofInt_add, BitVec.ofInt_natCast]; rfl

theorem gaddi_word (d a : BitVec 8) (i : BitVec 9) : encode (.gaddi d a i) = some (0x1F#7 ++ d ++ a ++ i) := by
  have hw : (0x1F#7 ++ d ++ a ++ i).toNat = 0x3E000000 + d.toNat * 131072 + a.toNat * 512 + i.toNat := by
    simp only [toNat_append_add, BitVec.toNat_ofNat]; omega
  rw [← ofNat_toNat_self (0x1F#7 ++ d ++ a ++ i), hw]; rfl

/-- The mark of a chain changes no register unit. -/
theorem reg_setChain (s : State) (cx : Iss) (r sk key : Nat) : (setChain s cx r).reg sk key = s.reg sk key :=
  perSlice_keep s cx (fun _ sl => { sl with chain := some r }) (readFinal · key) (fun _ _ => rfl) sk

theorem onlyRegs_setChain {s t : State} {cx : Iss} {pc : BitVec 48} {busy : Nat} (h : OnlyRegs s t cx pc busy) (r : Nat) :
    OnlyRegs s (setChain t cx r) cx pc busy := by
  obtain ⟨ht, hs, hm⟩ := h
  have hrest : setChain t cx r = { t with slices := (setChain t cx r).slices } := perSlice_rest ..
  refine ⟨?_, fun sk => ?_, fun a => ?_⟩
  · rw [hrest, ht]
  · exact (perSlice_keep t cx (fun _ sl => { sl with chain := some r }) Slice.still (fun _ _ => rfl) sk).trans (hs sk)
  · rw [hrest]; exact hm a

/-- A member of an LDHG and LDLG chain: g register `d` of each slice gets what `f` gives of the slice. -/
theorem sliceWord_chain {i : Instr} {d : BitVec 8} (f : State → Iss → Nat → Slice → Nat) {g : State → Iss → Nat → Nat}
    (hx : ∀ s cx, Issues s i cx → exec i s = .next (setChain (advance (perSlice s cx fun sk sl =>
      sl.writeG cx.sp.handler 2 d.toNat (f s cx sk sl)) cx) cx (gIndex cx.sp.handler d.toNat)))
    (hf : ∀ s cx sk, f s cx sk (s.slice sk) = g s cx sk) : SliceWord i d g := by
  intro s cx h
  refine ⟨_, hx s cx h, ?_, ?_⟩
  · exact onlyRegs_setChain (nextWord_perSlice s cx _ fun k sl => by rw [writeG_eq, still_writes]) _
  · have hw := writesG_perSlice s cx 2 d.toNat (f s cx)
    simp only [WritesG, State.regG, reg_setChain] at hw ⊢
    simpa only [hf] using hw

theorem ldhg_sliceWord (d : BitVec 8) (h : BitVec 17) : SliceWord (.ldhg d h) d fun _ _ _ => (h.signExtend 64).toNat :=
  sliceWord_chain (fun _ _ _ _ => wrap 64 h.toInt) (fun s cx hi => plain_ok s (.ldhg d h) cx _ hi) fun _ _ _ => wrap_eq ..

/-- A 64-bit value shifted left by 17 with 17 bits in the places that come free. -/
theorem toNat_shiftLeft17_or (o : BitVec 64) (h : BitVec 17) :
    (o.toNat * 2 ^ 17 + h.toNat) % 2 ^ 64 = (o <<< 17 ||| h.setWidth 64).toNat := by
  rw [BitVec.toNat_or, BitVec.toNat_shiftLeft, BitVec.toNat_setWidth, ← Nat.or_mod_two_pow,
    ← Nat.shiftLeft_add_eq_or_of_lt h.isLt, Nat.shiftLeft_eq]

theorem readG_lt (tick sk : Nat) (sl : Slice) (hd : Bool) (r : Nat) : readG tick sk sl hd r < 2 ^ 64 := by
  unfold readG
  split <;> omega

/-- The value that LDLG shifts: that of its chain's last member, else its register as read at issue (R36). -/
def ldlgOld (s : State) (cx : Iss) (d sk : Nat) (sl : Slice) : Nat :=
  if d ≠ 0 && sl.chain == some (gIndex cx.sp.handler d) then
    (readFinal sl (keyG (gIndex cx.sp.handler d) 0)).toNat + 2 ^ 32 * (readFinal sl (keyG (gIndex cx.sp.handler d) 1)).toNat
  else readG s.tick sk sl cx.sp.handler d

theorem ldlgOld_eq (s : State) (cx : Iss) (d sk : Nat) : ldlgOld s cx d sk (s.slice sk) =
    (if d ≠ 0 ∧ (s.slice sk).chain = some (gIndex cx.sp.handler d) then
      (s.reg sk (keyG (gIndex cx.sp.handler d) 1) ++ s.reg sk (keyG (gIndex cx.sp.handler d) 0) : BitVec 64)
    else BitVec.ofNat 64 (cx.gOf s sk d)).toNat := by
  by_cases hc : d ≠ 0 ∧ (s.slice sk).chain = some (gIndex cx.sp.handler d)
  · rw [if_pos hc, toNat_append_add, ldlgOld, if_pos (by simpa using hc)]
    simp only [State.reg]
    omega
  · rw [if_neg hc, ldlgOld, if_neg (by simpa using hc), BitVec.toNat_ofNat, Nat.mod_eq_of_lt]
    · rfl
    · exact readG_lt ..

theorem ldlg_sliceWord (d : BitVec 8) (h : BitVec 17) : SliceWord (.ldlg d h) d fun s cx k =>
    let r := gIndex cx.sp.handler d.toNat
    let old := if d.toNat ≠ 0 ∧ (s.slice k).chain = some r then
        (s.reg k (keyG r 1) ++ s.reg k (keyG r 0)) else BitVec.ofNat 64 (cx.gOf s k d.toNat)
    (old <<< 17 ||| h.setWidth 64).toNat := by
  refine sliceWord_chain (fun s cx sk sl => (ldlgOld s cx d.toNat sk sl * 2 ^ 17 + h.toNat) % 2 ^ 64)
    (fun s cx hi => plain_ok s (.ldlg d h) cx _ hi) fun s cx sk => ?_
  rw [ldlgOld_eq, toNat_shiftLeft17_or]

/-- Settles O9: each element operation with the immediate of its width, the loads of immediates, and the LDHG and LDLG chain. -/
theorem immediateWords : Obligations.ImmediateWords := by
  refine ⟨fun d a i n => ⟨?addi, ?muli, ?andi, ?ori, ?xori, ?shli, ?shri, ?roti⟩, fun d a i h l =>
    ⟨gaddi_sliceWord d a i, gaddi_word d a i, ldh_laneWord d h, ldl_low15 d l, ldhg_sliceWord d h, ldlg_sliceWord d h⟩⟩
  case addi =>
    exact elemWord_immElem (fun it sat x y => fitted it sat (valueOf (itSigned it) x + valueOf (itSigned it) y))
      (fun _ => rfl) fun _ _ _ _ => ofNat_opAdd ..
  case muli =>
    exact elemWord_immElem (fun it sat x y => fitted it sat (valueOf (itSigned it) x * valueOf (itSigned it) y))
      (fun _ => rfl) fun _ _ _ _ => ofNat_opMul ..
  case andi => exact laneWord_immWhole (fun x y => x &&& y) (fun _ => rfl) fun _ _ => ofNat_opAnd ..
  case ori => exact laneWord_immWhole (fun x y => x ||| y) (fun _ => rfl) fun _ _ => ofNat_opOr ..
  case xori => exact laneWord_immWhole (fun x y => x ^^^ y) (fun _ => rfl) fun _ _ => ofNat_opXor ..
  case shli => exact elemWord_immShift (fun _ x m => x <<< m) (fun _ => rfl) fun _ _ _ _ => ofNat_opShl ..
  case shri =>
    exact elemWord_immShift (fun it x m => if itSigned it then x.sshiftRight m else x >>> m) (fun _ => rfl)
      fun it _ _ _ => ofNat_opShr _ _ _ _ _ (itWidth_pos it)
  case roti =>
    exact elemWord_immShift (fun _ x m => x.rotateLeft m) (fun _ => rfl) fun it _ _ _ => ofNat_opRot _ _ _ _ _ (itWidth_pos it)

end Sys2Proof.Machine
end
